-- ==== Sys2Proof/Word.lean ====
section
/-! DEFINITION. The words of the lines (spec/11, R184): bytes and sixteen-bit checks. -/

namespace Sys2Proof

/-- One byte of a frame. -/
abbrev Byte := BitVec 8

/-- A CRC-16 register (R184). -/
abbrev Check := BitVec 16

end Sys2Proof
end

