-- ==== Sys2Proof/Syntax.lean ====
section
/-! DEFINITION. The commands of the block: one constructor of `Instr` for each row of spec/opcode_table.json.
The table gives no operands; each constructor carries what the frame or event of its rule carries. -/

namespace Sys2Proof

/-- The four positions (spec/00, Conventions). -/
inductive Pos where
  | A | B | C | D
  deriving DecidableEq, Repr

/-- One value for each position. -/
structure Four (α : Type) where
  a : α
  b : α
  c : α
  d : α
  deriving DecidableEq, Repr

/-- The two consist-line ports (spec/00). -/
inductive Port where
  | up | down
  deriving DecidableEq, Repr

/-- The level of a pickup input (R118). -/
inductive Level where
  | low | high
  deriving DecidableEq, Repr

/-- The upstream kinds (R157). -/
inductive UpKind where
  | status | mgmtReply
  deriving DecidableEq, Repr

/-- The payload of an MGMT frame after R185, less its op byte, which the command names. -/
structure MgmtReq where
  target : Byte
  tag : Byte
  table : Byte
  first : Byte
  count : Byte
  entries : List Byte
  deriving DecidableEq, Repr

/-- The commands (the rows of the table, in its order). -/
inductive Instr where
  /-- POWER_ON_RESET (R183): the image load is complete after supply application, a supply dip or RESET; the port states and
  pickup levels as found (R154, R118). -/
  | powerOnReset (upCarrier downCarrier : Bool) (levels : Four Level)
  /-- NOTCH (R2): payload bytes of the frame (R185). -/
  | notch (group value flags : Byte)
  | notchTimerExpires
  | dwellTimerExpires
  | achieveTimerExpires
  | lingerTimerExpires (p : Pos)
  /-- ENGINE_REQ with request MODE_AUTO (R20, R185); position 0..3, 4 = ALL. -/
  | modeAuto (group target position : Byte)
  | modeRun (group target position : Byte)
  | modeOut (group target position : Byte)
  | resetFault (group target position : Byte)
  | holdTimerExpires (p : Pos)
  | stopTimerExpires (p : Pos)
  | stepTimerExpires (p : Pos)
  | retryRestExpires (p : Pos)
  | restTimerExpires
  | guardTimerExpires
  /-- SAMPLE (R105): the bytes received on the station link, envelope and check included (R184). -/
  | sample (p : Pos) (raw : List Byte)
  | sampleTimerExpires (p : Pos)
  | confirmTimerExpires (p : Pos)
  | refreshTimerExpires (p : Pos)
  | stationFrameSent (p : Pos)
  | disagreeTimerExpires (p : Pos)
  /-- PICKUP_LEVEL_CHANGE (R119): the level the input now has. -/
  | pickupLevelChange (p : Pos) (level : Level)
  | filterTimerExpires (p : Pos)
  | zeroSpeedTimerExpires (p : Pos)
  | settleTimerExpires (p : Pos)
  | periodEnd
  | persistenceTimerExpires (p : Pos) (entry : Fin 16)
  | runHourTick
  | meterIncrement (p : Pos)
  | hourHoldTimerExpires
  /-- BAD_FRAME (R156, R157): the bytes received at a port. -/
  | badFrame (port : Port) (raw : List Byte)
  /-- UNKNOWN_KIND (R157): a frame that passes its check and whose kind number is unknown. -/
  | unknownKind (port : Port) (kind : Byte) (payload : List Byte)
  | enumerate (nextAddr : Byte)
  | poll (group target : Byte)
  /-- UPSTREAM_FRAME_ARRIVES (R163): a STATUS or MGMT_REPLY arriving on DOWN. -/
  | upstreamFrameArrives (kind : UpKind) (payload : List Byte)
  | downTransmissionEnd
  | upTransmissionEnd
  | downLosesCarrier
  | downGainsCarrier
  | upLosesCarrier
  | upGainsCarrier
  | write (r : MgmtReq)
  | read (r : MgmtReq)
  | commit (r : MgmtReq)
  | commitApplication
  | save (r : MgmtReq)
  /-- SAVE_COMPLETION (R179): whether the image read back passes its check. -/
  | saveCompletion (passes : Bool)
  | holdHours (r : MgmtReq)
  | releaseHours (r : MgmtReq)
  | isolate (r : MgmtReq)
  | restore (r : MgmtReq)
  | restart (r : MgmtReq)
  /-- UNKNOWN_OP (R171): an MGMT frame whose op byte names no operation. -/
  | unknownOp (op : Byte) (r : MgmtReq)
  /-- SUPPLY_DIP (R188): the supply falls below 16.0 V or RESET is driven low. -/
  | supplyDip
  deriving DecidableEq, Repr

end Sys2Proof
end

