-- ==== Sys2Proof/Config.lean ====
section
/-! DEFINITION. What the spec leaves open as a value: the free values of the model. -/

namespace Sys2Proof

/-- FREE VALUE (log 17). R120 divides by the sum of the intervals; it states no speed for a sum of 0 µs.
Applied to the number of intervals and the tooth count; the pickup holds it at 65535. -/
opaque Config.rpmOfZeroTime (k teeth : Nat) : Nat

end Sys2Proof
end

