-- ==== Sys2Proof/Machine/State.lean ====
section
/-! DEFINITION. The state of the block as plain data, the reasons a step can stop, and the state after reset.
Each structure cites the rule of spec/ that lists its items. -/

namespace Sys2Proof.Machine

/-! ## Timers (spec/00, Event vocabulary) -/

/-- A timer: stopped, or running since an instant with a period, both in microseconds.
It reaches its limit at `since + period`. -/
inductive Timer where
  | stopped
  | running (since period : Nat)
  deriving DecidableEq, Repr

/-- The dwell and achieve timers (R11): their limit is read at each comparison, and once expired they stay expired. -/
inductive Watch where
  | stopped
  | running (since : Nat)
  | expired (since : Nat)
  deriving DecidableEq, Repr

/-! ## Table entries (spec/00, Tables) -/

/-- T1 (R9). -/
structure UnitParams where
  notchTimeoutMs : Nat
  achieveLimitS : Nat
  notchCap : Nat
  crankRestS : Nat
  crankGuardS : Nat
  pwmPeriodMs : Nat
  deriving DecidableEq, Repr

/-- T2 (R187). -/
structure PosEntry where
  present : Bool
  profile : Fin 4
  deriving DecidableEq, Repr

/-- T3 (R39). -/
structure Profile where
  idleRpm : Nat
  maxRpm : Nat
  overspeedRpm : Nat
  runningRpm : Nat
  teeth : Nat
  filterUs : Nat
  sampleTimeoutMs : Nat
  disagreeTolRpm : Nat
  settleLimitMs : Nat
  lingerS : Nat
  stopLimitS : Nat
  holdLimitS : Nat
  droopPermille : Nat
  govSet : Nat
  deriving DecidableEq, Repr

/-- T4 and T5 (R17). -/
structure SchedEntry where
  runningRequired : Nat
  onlineRequired : Nat
  speedRpm : Nat
  loadPermille : Nat
  rampUp : Nat
  rampDown : Nat
  dwellS : Nat
  deriving DecidableEq, Repr

/-- The kinds of step records (R67). -/
inductive StepKind where
  | prelube | purge | crank | settle | warm | dwell
  deriving DecidableEq, Repr

/-- The meaning of a step's time limit (R67). -/
inductive OnLimit where
  | fail | pass
  deriving DecidableEq, Repr

/-- T6 (R67). `next` is the number 0..127 the field carries; 127 stands for END. -/
structure StepRec where
  kind : StepKind
  threshold : Int
  timeLimitS : Nat
  onLimit : OnLimit
  retries : Nat
  retryRestS : Nat
  report : Bool
  next : Nat
  deriving DecidableEq, Repr

/-- T7 (R70). -/
structure SelectEntry where
  upperC : Int
  entryStep : Nat
  deriving DecidableEq, Repr

/-- The protection quantities (R140). -/
inductive Quantity where
  | oil | coolant | stationSpeed | pickupSpeed | stationFault
  deriving DecidableEq, Repr

/-- The bad side of a threshold (R140). -/
inductive Sense where
  | below | above
  deriving DecidableEq, Repr

/-- The protection actions (R140). -/
inductive Action where
  | derate | unload | shutdown
  deriving DecidableEq, Repr

/-- T8 (R140). -/
structure ProtEntry where
  enabled : Bool
  positions : Four Bool
  quantity : Quantity
  sense : Sense
  threshold : Int
  minRpm : Nat
  persistMs : Nat
  action : Action
  deratePct : Nat
  deriving DecidableEq, Repr

/-- The kinds a Dispatch entry matches (R160). -/
inductive DispKind where
  | notch | engineReq | poll | any
  deriving DecidableEq, Repr

/-- The dispatch actions (R160). -/
inductive DispAction where
  | actAndPass | actOnly | passOnly | discard
  deriving DecidableEq, Repr

/-- T9 (R160). `group` 0 stands for ANY (R187). -/
structure DispEntry where
  enabled : Bool
  kind : DispKind
  group : Nat
  action : DispAction
  deriving DecidableEq, Repr

/-- The working copies of T1 to T9 (R172). An entry that is `none` is undefined. -/
structure Tables where
  t1 : Option UnitParams
  t2 : Four (Option PosEntry)
  t3 : Vector (Option Profile) 4
  t4 : Vector (Option SchedEntry) 9
  t5 : Vector (Option SchedEntry) 9
  t6 : Vector (Option StepRec) 64
  t7 : Vector (Option SelectEntry) 4
  t8 : Vector (Option ProtEntry) 16
  t9 : Vector (Option DispEntry) 16
  deriving DecidableEq, Repr

/-- The contents of the nonvolatile image (R179): T1, T2, T3, T6, T7, T8, T9 and one schedule. -/
structure Image where
  t1 : Option UnitParams
  t2 : Four (Option PosEntry)
  t3 : Vector (Option Profile) 4
  sched : Vector (Option SchedEntry) 9
  t6 : Vector (Option StepRec) 64
  t7 : Vector (Option SelectEntry) 4
  t8 : Vector (Option ProtEntry) 16
  t9 : Vector (Option DispEntry) 16
  deriving DecidableEq, Repr

/-! ## Demand Resolver (R1) -/

/-- The consist link (R1). -/
inductive Consist where
  | live | lost
  deriving DecidableEq, Repr

/-- The Demand Resolver (R1). -/
structure Resolver where
  requested : Nat
  demand : Nat
  resolved : Nat
  link : Consist
  runRequest : Bool
  runPerm : Bool
  latch : Bool
  notchT : Timer
  dwell : Watch
  achieve : Watch
  achieved : Bool
  deriving DecidableEq, Repr

/-! ## Positions -/

/-- Position states (R38). -/
inductive PState where
  | absent | off | starting | ready | online | unloading | held | stopping | faulted | isolated
  deriving DecidableEq, Repr

/-- Request modes (R20). -/
inductive Mode where
  | auto | run | out
  deriving DecidableEq, Repr

/-- The held-cause set (R45). -/
structure Causes where
  link : Bool
  setup : Bool
  localPanel : Bool
  disagree : Bool
  protect : Bool
  deriving DecidableEq, Repr

/-- Fault codes (R53); PROTECTION carries its entry index. -/
inductive FaultCode where
  | startFailed | programError | noProgram | stationLost | stalledInStart | crankOverrun
  | overspeed | protection (entry : Fin 16) | heldTimeout | unexpectedStop | failToStop
  deriving DecidableEq, Repr

/-- The fault record (R52). -/
structure FaultRecord where
  code : Option FaultCode
  step : Option Nat
  value : Option Int
  further : Bool
  deriving DecidableEq, Repr

/-- What the model keeps of a start that failed at its time limit or at the crank guard, so that another fatal cause of the
same instant is known (R87, R101, log 34): the instant, the SHUTDOWN entries whose persistence timers expired at it, and whether
the stall watch was armed (R82). -/
structure FailedStart where
  instant : Nat
  due : List (Fin 16)
  watch : Bool
  deriving DecidableEq, Repr

/-- What the model keeps of the end of a phase, so that a target change of the same instant is chosen on with it (R129, log 39):
the instant, and the commanded speed S from which the next phase was chosen. -/
structure PhaseEnd where
  instant : Nat
  speed : Option Nat
  deriving DecidableEq, Repr

/-- Load phases (R123). -/
inductive Phase where
  | steady | speedUp | loadUp | loadDown | speedDown
  deriving DecidableEq, Repr

/-- A target S*, L* (R124). -/
structure Target where
  speed : Nat
  load : Nat
  deriving DecidableEq, Repr

/-- The load record (R123). -/
structure Load where
  phase : Option Phase
  speed : Option Nat
  slot : Option Target
  phaseTarget : Option Nat
  settleT : Timer
  settleLate : Bool
  deriving DecidableEq, Repr

/-- Sub-states of a step (R72). -/
inductive SubState where
  | runningStep | busWait | retryRest
  deriving DecidableEq, Repr

/-- The step context of a STARTING position (R72). -/
structure StepCtx where
  ptr : Nat
  sub : SubState
  retries : Nat
  visited : Nat
  stepT : Timer
  restT : Timer
  fired : Bool
  watch : Bool
  deriving DecidableEq, Repr

/-- The fields of a SAMPLE (R105). -/
structure Sample where
  speedRpm : Nat
  oilKpa : Nat
  coolantC : Int
  settled : Bool
  fresh : Bool
  localPanel : Bool
  setupEcho : Nat
  faultCode : Nat
  deriving DecidableEq, Repr

/-- Station link states (R104). -/
inductive LinkState where
  | silent | up | lost
  deriving DecidableEq, Repr

/-- Setup states (R104). -/
inductive SetupState where
  | unset | sent | confirmed | failed
  deriving DecidableEq, Repr

/-- DRIVE content (R109). -/
structure Drive where
  setpointRpm : Nat
  fuelEnable : Bool
  prelube : Bool
  deriving DecidableEq, Repr

/-- The content of a SETUP (R110). -/
structure Setup where
  setupId : Nat
  idleRpm : Nat
  maxRpm : Nat
  droopPermille : Nat
  govSet : Nat
  deriving DecidableEq, Repr

/-- A frame on its way to the station (R109, R110). -/
inductive StationFrame where
  | clear
  | setup (content : Setup)
  | drive (content : Drive)
  deriving DecidableEq, Repr

/-- A frame waiting for the station transmitter (R109): a DRIVE takes the content in force when it is begun. -/
inductive StationWait where
  | clear
  | setup (content : Setup)
  | drive
  deriving DecidableEq, Repr

/-- The Station Link Controller (R104). -/
structure Link where
  state : LinkState
  sampleT : Timer
  latest : Option Sample
  setup : SetupState
  setupId : Nat
  attempts : Nat
  confirmT : Timer
  drive : Option Drive
  refreshT : Timer
  sending : Option StationFrame
  waiting : List StationWait
  disagreeT : Timer
  disagree : Bool
  deriving DecidableEq, Repr

/-- The Speed Pickup (R118), with the level of its input pin. -/
structure Pickup where
  input : Level
  accepted : Level
  filterT : Timer
  lastEdge : Option Nat
  history : List Nat
  speed : Nat
  zeroT : Timer
  deriving DecidableEq, Repr

/-- Excitation Channel states (R133). -/
inductive ChanState where
  | idle | ramping | holding
  deriving DecidableEq, Repr

/-- The Excitation Channel (R133). -/
structure Channel where
  duty : Nat
  pending : Nat
  target : Nat
  step : Option Nat
  state : ChanState
  deriving DecidableEq, Repr

/-- One pair of a position and a protection entry (R142). -/
structure Pair where
  timer : Timer
  active : Bool
  deriving DecidableEq, Repr

/-- The Run-Hour Meter (R63). -/
structure Meter where
  value : Nat
  acc : Nat
  pendingInc : Bool
  deriving DecidableEq, Repr

/-- Everything the spec holds per position: the position record (R38), the load record (R123), the step context (R72),
the step-event marker (R88), the Planner's mode and linger timer (R19), link (R104), pickup (R118), channel (R133),
the sixteen protection pairs (R142) and the meter (R63). `failedStart` and `phaseEnd` are the model's own (logs 34 and 39). -/
structure Position where
  st : PState
  causes : Causes
  holdT : Timer
  stopT : Timer
  fault : FaultRecord
  failedStart : Option FailedStart
  resetRefused : Bool
  load : Load
  phaseEnd : Option PhaseEnd
  ctx : Option StepCtx
  stepEvent : Bool
  mode : Mode
  lingerT : Timer
  link : Link
  pickup : Pickup
  chan : Channel
  prot : Vector Pair 16
  meter : Meter
  deriving DecidableEq, Repr

/-! ## Crank bus (R91) and the common clocks -/

/-- The bus state with its holder, which exists only while TAKEN (R91). -/
inductive BusState where
  | free
  | taken (holder : Pos)
  | rest
  deriving DecidableEq, Repr

/-- The Crank Bus Arbiter (R91). -/
structure Bus where
  state : BusState
  requesters : Four Bool
  pointer : Pos
  guardT : Timer
  restT : Timer
  deriving DecidableEq, Repr

/-- The common period clock of the Excitation Channels (R133): the period in force, in ms, and the running period. -/
structure PwmClock where
  periodMs : Nat
  timer : Timer
  deriving DecidableEq, Repr

/-- The blocks that work the engines: Resolver, Planner, positions, arbiter and period clock, with the present time in µs. -/
structure Engine where
  now : Nat
  res : Resolver
  short : Bool
  lastReport : Option Bool
  bus : Bus
  pwm : PwmClock
  pos : Four Position
  deriving DecidableEq, Repr

/-- What one event of operation can change: the engine blocks, Table Memory (a commit) and the commit-pending mark (R169). -/
structure Works where
  tab : Tables
  eng : Engine
  commitPending : Bool
  deriving DecidableEq, Repr

/-! ## Line Relay (R154) -/

/-- A consist-line frame (R184). Its length and check bytes follow from kind and payload. -/
structure Frame where
  kind : Byte
  payload : List Byte
  deriving DecidableEq, Repr

/-- The two upstream queues (R154, last-source mark). -/
inductive Source where
  | relay | localQ
  deriving DecidableEq, Repr

/-- The Line Relay (R154). A frame on UP is kept with the queue whose place it still takes (R163, R164). -/
structure Relay where
  upCarrier : Bool
  downCarrier : Bool
  address : Nat
  downQ : List Frame
  upQ : List Frame
  localQ : List Frame
  downTx : Option Frame
  upTx : Option (Source × Frame)
  lastSource : Source
  badUp : Nat
  badDown : Nat
  relayDrops : Nat
  replyDrops : Nat
  mgmtDrops : Nat
  deriving DecidableEq, Repr

/-! ## Hours hold, SAVE and the nonvolatile memory -/

/-- The items common to all four meters (R63) and the 1 s tick (R64). -/
structure Hours where
  hold : Bool
  holdT : Timer
  tickT : Timer
  deriving DecidableEq, Repr

/-- A SAVE in flight (R179): the echoes of the reply held back, and the contents fixed at the taking. -/
structure Saving where
  tag : Byte
  table : Byte
  contents : Image
  deriving DecidableEq, Repr

/-- The nonvolatile memory: the image (`none`: invalid, R179), the meter cells (R63) and the isolation cells (R181);
a cell that is `none` fails its check. -/
structure NonVol where
  image : Option Image
  meters : Four (Option Nat)
  isolation : Four (Option Bool)
  deriving DecidableEq, Repr

/-- Everything but the queue of commands. `powered` is false while the supply lies below 16.0 V or the RESET pin is held low,
until the image load of the power-on reset is complete (R188, log 14). -/
structure Block where
  powered : Bool
  works : Works
  hours : Hours
  saving : Option Saving
  relay : Relay
  nv : NonVol
  deriving DecidableEq, Repr

/-- The state of the machine: the block and the commands that wait, first in, first out. -/
structure State where
  block : Block
  pending : List Instr
  deriving DecidableEq, Repr

/-- No command stops the block: the spec names no stop of the part itself, so there is no fault reason. -/
inductive Fault where
  deriving DecidableEq, Repr

/-- Why a command has no meaning. -/
inductive Refusal where
  /-- Raised by `exec` alone, for a row of the table with no meaning yet; safe. No row is refused. -/
  | notModelled (mnemonic : String)
  deriving DecidableEq, Repr

/-! ## Reset values -/

/-- The Resolver after either reset (R1). -/
def Resolver.reset : Resolver :=
  ⟨0, 0, 0, .lost, false, false, false, .stopped, .stopped, .stopped, false⟩

/-- The empty held-cause set. -/
def Causes.none : Causes := ⟨false, false, false, false, false⟩

/-- The clear fault record (R38). -/
def FaultRecord.clear : FaultRecord := ⟨.none, .none, .none, false⟩

/-- The load record after either reset (R123). -/
def Load.reset : Load := ⟨none, none, none, none, .stopped, false⟩

/-- The station link after either reset (R104), with the DRIVE content of the state the position comes up in. -/
def Link.reset (drive : Option Drive) : Link :=
  ⟨.silent, .stopped, none, .unset, 0, 0, .stopped, drive, .stopped, none, [], .stopped, false⟩

/-- The pickup after either reset (R118). -/
def Pickup.reset (level : Level) : Pickup := ⟨level, level, .stopped, none, [], 0, .stopped⟩

/-- The channel after either reset (R133). -/
def Channel.reset : Channel := ⟨0, 0, 0, none, .idle⟩

/-- A protection pair after either reset (R142). -/
def Pair.reset : Pair := ⟨.stopped, false⟩

/-- A position after either reset (R38, R19, R72, R88), given its state, DRIVE content, pickup level and meter value. -/
def Position.reset (st : PState) (drive : Option Drive) (level : Level) (meter : Nat) : Position :=
  { st := st, causes := .none, holdT := .stopped, stopT := .stopped, fault := .clear, failedStart := none,
    resetRefused := false, load := .reset, phaseEnd := none, ctx := none, stepEvent := false, mode := .auto,
    lingerT := .stopped, link := .reset drive, pickup := .reset level, chan := .reset,
    prot := Vector.replicate 16 .reset, meter := ⟨meter, 0, false⟩ }

/-- The arbiter after either reset (R91). -/
def Bus.reset : Bus := ⟨.free, ⟨false, false, false, false⟩, .A, .stopped, .stopped⟩

/-- Table Memory with every entry undefined (R172, R183). -/
def Tables.undefinedAll : Tables :=
  { t1 := none, t2 := ⟨none, none, none, none⟩, t3 := Vector.replicate 4 none, t4 := Vector.replicate 9 none,
    t5 := Vector.replicate 9 none, t6 := Vector.replicate 64 none, t7 := Vector.replicate 4 none,
    t8 := Vector.replicate 16 none, t9 := Vector.replicate 16 none }

/-- The relay after power-on reset (R154) with the port states found. -/
def Relay.reset (upCarrier downCarrier : Bool) : Relay :=
  { upCarrier := upCarrier, downCarrier := downCarrier, address := 0, downQ := [], upQ := [], localQ := [],
    downTx := none, upTx := none, lastSource := .localQ, badUp := 0, badDown := 0, relayDrops := 0,
    replyDrops := 0, mgmtDrops := 0 }

/-- The nonvolatile memory of a part never saved: no valid image, meters 0, isolation clear (log 15, DESIGN CHOICE). -/
def NonVol.virgin : NonVol :=
  ⟨none, ⟨some 0, some 0, some 0, some 0⟩, ⟨some false, some false, some false, some false⟩⟩

/-- A position of the part right after reset: ABSENT, since T2 is undefined (R38). -/
def Position.atReset : Position := Position.reset .absent none .low 0

/-- The state right after power-on reset (R183) of a part whose image is invalid, at time 0, with carrier on both ports,
pickup levels low and the nonvolatile memory of log 15; no command waits. -/
def State.reset : State :=
  { block :=
      { powered := true
        works :=
          { tab := .undefinedAll
            eng :=
              { now := 0, res := .reset, short := false, lastReport := none, bus := .reset,
                pwm := ⟨20, .running 0 20000⟩,
                pos := ⟨.atReset, .atReset, .atReset, .atReset⟩ }
            commitPending := false }
        hours := ⟨false, .stopped, .running 0 1000000⟩
        saving := none
        relay := .reset true true
        nv := .virgin }
    pending := [] }

end Sys2Proof.Machine
end

