-- ==== Sys2Proof/Machine/Ops.lean ====
section
/-! DEFINITION. The named operations every block shares: positions and their values, timers, table reads, and the update of
one position. A block has no exception entry: faults of engines are position states (R52). -/

namespace Sys2Proof

/-- The value of one position. -/
def Four.get {α : Type} (f : Four α) : Pos → α
  | .A => f.a
  | .B => f.b
  | .C => f.c
  | .D => f.d

/-- The values with one position's replaced. -/
def Four.set {α : Type} (f : Four α) (p : Pos) (x : α) : Four α :=
  match p with
  | .A => { f with a := x }
  | .B => { f with b := x }
  | .C => { f with c := x }
  | .D => { f with d := x }

/-- One value for each position, computed. -/
def Four.make {α : Type} (f : Pos → α) : Four α := ⟨f .A, f .B, f .C, f .D⟩

/-- The positions in letter order (spec/00, Conventions). -/
def Pos.all : List Pos := [.A, .B, .C, .D]

/-- The letter after, A after D (R93, R94). -/
def Pos.next : Pos → Pos
  | .A => .B
  | .B => .C
  | .C => .D
  | .D => .A

/-- The position a number names: 0..3 for A..D (R171, R185). -/
def Pos.ofNat? : Nat → Option Pos
  | 0 => some .A
  | 1 => some .B
  | 2 => some .C
  | 3 => some .D
  | _ => none

end Sys2Proof

namespace Sys2Proof.Machine

/-! ## Time -/

/-- Seconds in µs. -/
def sec (n : Nat) : Nat := n * 1000000

/-- Milliseconds in µs. -/
def ms (n : Nat) : Nat := n * 1000

/-- Whether a timer runs; a stopped timer does not expire (spec/00). -/
def Timer.isRunning : Timer → Bool
  | .stopped => false
  | .running _ _ => true

/-- Whether a running timer has reached its limit at `now`. -/
def Timer.isDue (now : Nat) : Timer → Bool
  | .stopped => false
  | .running since period => since + period ≤ now

/-- The instant at which the expiry of a timer is taken: no earlier than its limit (log 2). -/
def Timer.expiryTime (now : Nat) : Timer → Nat
  | .stopped => now
  | .running since period => max now (since + period)

/-- Start of the dwell or achieve timer against a limit in µs; a limit of 0 expires at the start (R11). -/
def Watch.start (now limit : Nat) : Watch :=
  if limit = 0 then .expired now else .running now

/-- A comparison of the elapsed time with a limit read now; an expired timer stays expired (R11). -/
def Watch.compare (now limit : Nat) : Watch → Watch
  | .stopped => .stopped
  | .running since => if limit ≤ now - since then .expired since else .running since
  | .expired since => .expired since

/-- Whether the timer has expired. -/
def Watch.isExpired : Watch → Bool
  | .expired _ => true
  | _ => false

/-- Whether the timer runs and has not expired. -/
def Watch.isRunning : Watch → Bool
  | .running _ => true
  | _ => false

/-- The instant at which the expiry of a running watch with this limit is taken (log 2). -/
def Watch.expiryTime (now limit : Nat) : Watch → Nat
  | .running since => max now (since + limit)
  | _ => now

/-! ## Table reads -/

/-- The profile of a position: the T3 entry its T2 entry names (spec/00, Conventions). -/
def Tables.profile (T : Tables) (p : Pos) : Option Profile :=
  match T.t2.get p with
  | none => none
  | some x => T.t3[x.profile]

/-- Whether the position's T2 entry is defined and marks it present (R38). -/
def Tables.present (T : Tables) (p : Pos) : Bool :=
  match T.t2.get p with
  | none => false
  | some x => x.present

/-- The active schedule entry of a notch (R17). -/
def Tables.active (T : Tables) (notch : Nat) : Option SchedEntry :=
  (T.t5[notch]?).join

/-- A step record (R67); an index outside the store has none. -/
def Tables.stepRec (T : Tables) (i : Nat) : Option StepRec :=
  (T.t6[i]?).join

/-- A unit is configured when T1 and all nine entries of T5 are defined (R8). -/
def Tables.configured (T : Tables) : Bool :=
  T.t1.isSome && T.t5.toList.all Option.isSome

/-- The demand notch of a requested notch (R3). -/
def Tables.cap (T : Tables) (requested : Nat) : Nat :=
  match T.t1 with
  | none => requested
  | some t => min requested t.notchCap

/-- The period of the NOTCH timer in µs (R7). -/
def Tables.notchTimeout (T : Tables) : Nat :=
  match T.t1 with
  | none => ms 5000
  | some t => ms t.notchTimeoutMs

/-- The PWM period in ms (R133). -/
def Tables.pwmPeriod (T : Tables) : Nat :=
  match T.t1 with
  | none => 20
  | some t => t.pwmPeriodMs

/-- The limit of the achieve timer in µs (R11), while T1 is defined. -/
def Tables.achieveLimit (T : Tables) : Option Nat :=
  T.t1.map fun t => sec t.achieveLimitS

/-- The limit of the dwell timer at a notch in µs (R11), while T5 is defined. -/
def Tables.dwellLimit (T : Tables) (notch : Nat) : Option Nat :=
  (T.active notch).map fun x => sec x.dwellS

/-! ## Positions of the engine record -/

/-- One position of the engine record. -/
def Engine.at (e : Engine) (p : Pos) : Position := e.pos.get p

/-- The engine record with one position replaced. -/
def Engine.put (e : Engine) (p : Pos) (x : Position) : Engine := { e with pos := e.pos.set p x }

/-- The engine record with one position changed by a function. -/
def Engine.modify (e : Engine) (p : Pos) (f : Position → Position) : Engine := e.put p (f (e.at p))

/-- The same done for every position in letter order. -/
def Engine.eachPos (e : Engine) (f : Pos → Engine → Engine) : Engine :=
  f .D (f .C (f .B (f .A e)))

/-- A timer of `period` µs started now. -/
def Engine.timer (e : Engine) (period : Nat) : Timer := .running e.now period

/-- The clock brought to an instant; time never runs back (log 2). -/
def Engine.reach (e : Engine) (t : Nat) : Engine := { e with now := max e.now t }

/-! ## State classes -/

/-- The loaded states: those in which a load phase and an excitation duty exist (R40, R123). -/
def PState.loaded : PState → Bool
  | .online | .unloading => true
  | _ => false

/-- The tested states (R143), which are also the states of the disagree test (R117). -/
def PState.tested : PState → Bool
  | .starting | .ready | .online | .unloading | .held => true
  | _ => false

/-- STARTING and HELD keep a held-cause set (R41, R45). -/
def PState.keepsCauses : PState → Bool
  | .starting | .held => true
  | _ => false

/-- The running set (spec/00, Terms). -/
def PState.runningSet : PState → Bool
  | .starting | .ready | .online | .unloading => true
  | _ => false

/-! ## Held-cause sets -/

/-- Union of two sets. -/
def Causes.union (x y : Causes) : Causes :=
  ⟨x.link || y.link, x.setup || y.setup, x.localPanel || y.localPanel, x.disagree || y.disagree, x.protect || y.protect⟩

/-- A set less another. -/
def Causes.minus (x y : Causes) : Causes :=
  ⟨x.link && !y.link, x.setup && !y.setup, x.localPanel && !y.localPanel, x.disagree && !y.disagree,
    x.protect && !y.protect⟩

/-- Whether the set is empty. -/
def Causes.isEmpty (x : Causes) : Bool :=
  !(x.link || x.setup || x.localPanel || x.disagree || x.protect)

/-- A counter that saturates at 65535 (R168). -/
def saturate (n : Nat) : Nat := min (n + 1) 65535

end Sys2Proof.Machine
end

