-- ==== Sys2Proof/Machine/Bus.lean ====
section
/-! DEFINITION. The Crank Bus Arbiter: requests, withdrawals, grants and releases (R92 to R98). -/

namespace Sys2Proof.Machine

/-- The first member of the requester set, searching from a letter in cyclic order (R93). -/
def firstRequester (set : Four Bool) (start : Pos) : Option Pos :=
  [start, start.next, start.next.next, start.next.next.next].find? (fun p => set.get p)

/-- The grant at the arbiter (R94, items 1 to 4). The guard's period is read from T1 now. -/
def Bus.give (b : Bus) (T : Tables) (now : Nat) (p : Pos) : Bus :=
  { b with state := .taken p, requesters := b.requesters.set p false, pointer := p.next,
           guardT := match T.t1 with
             | none => .stopped
             | some t => .running now (sec t.crankGuardS) }

/-- The grant at the step (R94 item 5, R81): RUNNING_STEP, and the step timer starts with time_limit_s. -/
def StepCtx.granted (c : StepCtx) (T : Tables) (now : Nat) : StepCtx :=
  { c with sub := .runningStep,
           stepT := match T.stepRec c.ptr with
             | none => .stopped
             | some r => .running now (sec r.timeLimitS) }

/-- A grant of the bus to a position (R94). -/
def giveBus (T : Tables) (p : Pos) (e : Engine) : Engine :=
  let e := { e with bus := e.bus.give T e.now p }
  e.modify p fun x => { x with ctx := x.ctx.map fun c => c.granted T e.now }

/-- A grant when the bus is FREE and the requester set is not empty (R93). -/
def grantNext (T : Tables) (e : Engine) : Engine :=
  if e.bus.state = .free then
    match firstRequester e.bus.requesters e.bus.pointer with
    | none => e
    | some p => giveBus T p e
  else e

/-- A request (R92): granted at once when FREE, else the position joins the set. -/
def requestBus (T : Tables) (p : Pos) (e : Engine) : Engine :=
  if e.bus.state = .free then giveBus T p e
  else { e with bus := { e.bus with requesters := e.bus.requesters.set p true } }

/-- The end of a hold (R96, R98): the holder becomes none, the guard stops, and the bus goes to REST with crank_rest_s
read now, or to FREE with a grant when it is 0. -/
def freeBus (T : Tables) (e : Engine) : Engine :=
  match T.t1 with
  | none => { e with bus := { e.bus with state := .free, guardT := .stopped } }
  | some t =>
    if t.crankRestS = 0 then grantNext T { e with bus := { e.bus with state := .free, guardT := .stopped } }
    else { e with bus := { e.bus with state := .rest, guardT := .stopped, restT := e.timer (sec t.crankRestS) } }

/-- A position's step has ended: a release when it holds the bus, a withdrawal when it waits (R92, R96). -/
def leaveBus (T : Tables) (p : Pos) (e : Engine) : Engine :=
  let e := { e with bus := { e.bus with requesters := e.bus.requesters.set p false } }
  if e.bus.state = .taken p then freeBus T e else e

end Sys2Proof.Machine
end

