-- ==== Sys2Proof/Machine/Excitation.lean ====
section
/-! DEFINITION. The Excitation Channel (R133 to R138). -/

namespace Sys2Proof.Machine

/-- ramp step = ceil(r × p / 1000) (R134). -/
def rampStep (rate periodMs : Nat) : Nat := (rate * periodMs + 999) / 1000

/-- The duty moved toward the target by one step; it stops at the target (R134). -/
def moveToward (duty target step : Nat) : Nat :=
  if duty < target then min (duty + step) target else max (duty - step) target

/-- The rate of a ramp: ramp_up when the target lies above the duty, ramp_down when it lies below (R134). -/
def SchedEntry.rate (x : SchedEntry) (duty target : Nat) : Nat :=
  if duty < target then x.rampUp else x.rampDown

/-- HOLDING at a duty above 0, IDLE at 0 (R135, R136). -/
def restState (duty : Nat) : ChanState := if duty = 0 then .idle else .holding

/-- A cut (R137). -/
def Channel.cut (c : Channel) : Channel := { c with duty := 0, pending := 0, target := 0, state := .idle }

/-- A ramp order (R135). With the target at the duty the ramp is complete at once. -/
def Channel.ramp (c : Channel) (x : SchedEntry) (periodMs target : Nat) : Channel :=
  if target = c.duty then { c with target := target, pending := c.duty, state := restState c.duty }
  else
    let step := rampStep (x.rate c.duty target) periodMs
    { c with target := target, step := some step, pending := moveToward c.duty target step, state := .ramping }

/-- A stop order: the channel freezes at the duty in force (R135). -/
def Channel.stopRamp (c : Channel) : Channel :=
  { c with target := c.duty, pending := c.duty, state := restState c.duty }

/-- The ramp step and pending duty of a RAMPING channel computed anew (R134, R138). -/
def Channel.restep (c : Channel) (x : SchedEntry) (periodMs : Nat) : Channel :=
  if c.state = .ramping then
    let step := rampStep (x.rate c.duty c.target) periodMs
    { c with step := some step, pending := moveToward c.duty c.target step }
  else c

/-- Whether a period end completes the channel's ramp (R134 step 2, R136). -/
def Channel.completes (c : Channel) : Bool := decide (c.state = .ramping) && decide (c.pending = c.target)

/-- A period end (R134): the pending duty comes into force; a ramp completes or takes its next step. -/
def Channel.periodEnd (c : Channel) : Channel :=
  if c.completes then { c with duty := c.pending, state := restState c.pending }
  else if c.state = .ramping then
    { c with duty := c.pending,
             pending := match c.step with
               | none => c.pending
               | some step => moveToward c.pending c.target step }
  else { c with duty := c.pending }

end Sys2Proof.Machine
end

