-- ==== Sys2Proof/Machine/Station.lean ====
section
/-! DEFINITION. The Station Link Controller: frames to the station (R109, R110), the handshake (R111 to R113), link states
(R106, R107) and the DRIVE content of each state and step (R40, R69). -/

namespace Sys2Proof.Machine

/-- The transmitter begins the next waiting frame when it is idle (R109); a DRIVE takes the content in force now. -/
def Link.beginNext (l : Link) : Link :=
  match l.sending, l.waiting with
  | none, .clear :: rest => { l with sending := some .clear, waiting := rest }
  | none, .setup c :: rest => { l with sending := some (.setup c), waiting := rest }
  | none, .drive :: rest => { l with sending := l.drive.map .drive, waiting := rest }
  | _, _ => l

/-- A CLEAR or SETUP is produced: it waits its turn, never replaced and never merged (R109). -/
def Link.produce (l : Link) (w : StationWait) : Link :=
  Link.beginNext { l with waiting := l.waiting ++ [w] }

/-- DRIVE is sent while the link is UP and the content is not none: a waiting DRIVE is replaced, the new one goes to the
tail, and the refresh timer restarts with 200 ms (R109). -/
def Link.sendDrive (l : Link) (now : Nat) : Link :=
  if l.state = .up ∧ l.drive.isSome then
    Link.beginNext { l with waiting := l.waiting.filter (fun w => w != .drive) ++ [.drive],
                            refreshT := .running now (ms 200) }
  else l

/-- The setup state made UNSET: attempts 0, the confirm timer stopped (R113). -/
def Link.unset (l : Link) : Link := { l with setup := .unset, attempts := 0, confirmT := .stopped }

/-- The link goes SILENT at entry to ABSENT or ISOLATED (R106). Frames not yet begun are dropped. -/
def Link.silence (l : Link) : Link :=
  { l with state := .silent, sampleT := .stopped, confirmT := .stopped, refreshT := .stopped, disagreeT := .stopped,
           latest := none, setup := .unset, attempts := 0, disagree := false, waiting := [] }

/-- The link becomes LOST (R107). The disagree mark is kept; a handshake in SENT is dropped. -/
def Link.lose (l : Link) : Link :=
  let l := { l with state := .lost, sampleT := .stopped, waiting := [], refreshT := .stopped, disagreeT := .stopped }
  if l.setup = .sent then l.unset else l

/-- A SETUP with the next id, 255 followed by 0, its fields taken from the profile now, and a DRIVE after it (R110, R111). -/
def Link.sendSetup (l : Link) (pr : Profile) (now : Nat) : Link :=
  let sid := (l.setupId + 1) % 256
  let l := { l with setupId := sid, confirmT := .running now (sec 1) }
  (l.produce (.setup ⟨sid, pr.idleRpm, pr.maxRpm, pr.droopPermille, pr.govSet⟩)).sendDrive now

/-- A handshake begins (R111): CLEAR unless the engine is running, SETUP, DRIVE. -/
def Link.beginHandshake (l : Link) (pr : Profile) (running : Bool) (now : Nat) : Link :=
  let l := if running then l else l.produce .clear
  let l := l.sendSetup pr now
  { l with setup := .sent, attempts := 1 }

/-- The confirm timer expires without confirmation (R112). -/
def Link.confirmExpires (l : Link) (pr : Profile) (now : Nat) : Link :=
  if l.attempts < 3 then
    let l := l.sendSetup pr now
    { l with attempts := l.attempts + 1 }
  else { l with setup := .failed, confirmT := .stopped }

/-- Whether the latest sample's local flag is set; no sample counts as local clear (R22). -/
def Link.localSet (l : Link) : Bool :=
  match l.latest with
  | none => false
  | some s => s.localPanel

/-- Whether the latest sample's fresh flag is set (R113). -/
def Link.freshSet (l : Link) : Bool :=
  match l.latest with
  | none => false
  | some s => s.fresh

/-- Whether the engine counts as running: pickup speed or the latest sample's speed at or above running_rpm (R111, R115). -/
def Position.engineRunning (x : Position) (pr : Profile) : Bool :=
  decide (pr.runningRpm ≤ x.pickup.speed) ||
    match x.link.latest with
    | none => false
    | some s => decide (pr.runningRpm ≤ s.speedRpm)

/-- The DRIVE content of a step's kind (R69); fuel in DWELL follows the fired flag. -/
def stepDrive (kind : StepKind) (fired : Bool) (idle : Nat) : Drive :=
  match kind with
  | .prelube => ⟨idle, false, true⟩
  | .purge => ⟨idle, false, false⟩
  | .crank | .settle | .warm => ⟨idle, true, false⟩
  | .dwell => ⟨idle, fired, false⟩

/-- The DRIVE content of a position (R40, R69, R80); none while the profile is undefined. -/
def driveContent (T : Tables) (p : Pos) (x : Position) : Option Drive :=
  match T.profile p with
  | none => none
  | some pr =>
    match x.st with
    | .absent | .isolated => none
    | .off | .stopping | .faulted => some ⟨pr.idleRpm, false, false⟩
    | .ready | .held => some ⟨pr.idleRpm, true, false⟩
    | .online | .unloading => some ⟨x.load.speed.getD pr.idleRpm, true, false⟩
    | .starting =>
      match x.ctx with
      | none => some ⟨pr.idleRpm, false, false⟩
      | some c =>
        if c.sub = .retryRest then some ⟨pr.idleRpm, false, false⟩
        else match T.stepRec c.ptr with
          | none => some ⟨pr.idleRpm, false, false⟩
          | some r => some (stepDrive r.kind c.fired pr.idleRpm)

/-- Whether R111 lets a handshake begin at a position with this profile. -/
def Position.greets (x : Position) : Bool :=
  x.link.setup == .unset && x.link.state == .up && (x.st == .off || x.st == .held)

/-- A handshake of one position where R111 allows it. -/
def handshake (T : Tables) (p : Pos) (e : Engine) : Engine :=
  let x := e.at p
  match T.profile p with
  | none => e
  | some pr =>
    if x.greets then e.put p { x with link := x.link.beginHandshake pr (x.engineRunning pr) e.now } else e

/-- The DRIVE content handed over at a change (R90, R109): it comes into force and DRIVE is sent. Where a handshake is to begin
at the event, the content goes out with the DRIVE that follows its SETUP (R111, log 13). -/
def handDrive (T : Tables) (p : Pos) (e : Engine) : Engine :=
  let x := e.at p
  let content := driveContent T p x
  let l := { x.link with drive := content }
  if content = x.link.drive then e
  else if x.greets then e.put p { x with link := l }
  else e.put p { x with link := l.sendDrive e.now }

/-- Whether a DRIVE was sent at this instant: the refresh timer was just restarted (R109). -/
def Link.droveAt (l : Link) (now : Nat) : Bool := l.refreshT == .running now (ms 200)

/-- The link of a position that came UP at the event sends DRIVE, unless one was sent at it (R109, log 13). -/
def driveAtUp (before : Engine) (p : Pos) (e : Engine) : Engine :=
  let l := (e.at p).link
  if l.state = .up ∧ (before.at p).link.state ≠ .up ∧ l.droveAt e.now = false then
    e.modify p fun x => { x with link := x.link.sendDrive e.now }
  else e

/-- The DRIVE content at the close of an event: a change that no state or step brought (a profile written) is handed over, and
DRIVE is sent where the link came UP (R109). -/
def refreshDrive (T : Tables) (before : Engine) (p : Pos) (e : Engine) : Engine := driveAtUp before p (handDrive T p e)

end Sys2Proof.Machine
end

