-- ==== Sys2Proof/Machine/Controller.lean ====
section
/-! DEFINITION. The Position Controller: entry to a state with the actions of R41, faults (R52), held causes (R45 to R49),
stopping (R51) and entry to READY (R55). -/

namespace Sys2Proof.Machine

/-- The load record at an exit from ONLINE and UNLOADING other than a demote (R123, R132). SETTLE_LATE is kept. -/
def Load.cleared (l : Load) : Load :=
  { l with phase := none, speed := none, slot := none, phaseTarget := none, settleT := .stopped }

/-- The pickup cleared (R118): last edge, history, speed and zero-speed timer. A filter timer that runs keeps the filter_us it
started with (log 22). -/
def Pickup.clear (k : Pickup) : Pickup := { k with lastEdge := none, history := [], speed := 0, zeroT := .stopped }

/-- What leaving a state does at the position (R41, R52, R132): the cut, the emptied step context, the stopped timers. -/
def Position.leave (x : Position) (dest : PState) : Position :=
  { x with
    load := if x.st.loaded && !dest.loaded then x.load.cleared else x.load
    phaseEnd := if dest.loaded then x.phaseEnd else none
    chan := if x.st.loaded && !dest.loaded then x.chan.cut else x.chan
    ctx := if x.st = .starting ∧ dest ≠ .starting then none else x.ctx
    lingerT := if x.st = .ready then .stopped else x.lingerT
    stopT := if x.st = .stopping then .stopped else x.stopT
    fault := if x.st = .faulted then .clear else x.fault
    failedStart := if x.st = .faulted then none else x.failedStart }

/-- What entering a state does to the setup and the link (R41, R106, R113). -/
def Link.onEntry (l : Link) (dest : PState) : Link :=
  match dest with
  | .off => if l.state = .lost ∨ l.freshSet then l.unset else l
  | .stopping | .faulted => if l.setup = .sent then l.unset else l
  | .absent | .isolated => l.silence
  | _ => l

/-- What entering a state does to the disagree timer and mark (R117). -/
def Link.disagreeOnEntry (l : Link) (dest : PState) : Link :=
  { l with disagreeT := if dest.tested then l.disagreeT else .stopped, disagree := dest.tested && l.disagree }

/-- What entering a state does at the position: the held-cause set (R41), protection (R151), disagreement (R117),
link and setup (R106, R113), and the pickup at ABSENT (R118). -/
def Position.arrive (x : Position) (dest : PState) : Position :=
  { x with
    st := dest
    causes := if dest.keepsCauses then x.causes else .none
    holdT := if dest.keepsCauses then x.holdT else .stopped
    prot := if dest.tested then x.prot else Vector.replicate 16 .reset
    link := (x.link.onEntry dest).disagreeOnEntry dest
    pickup := if dest = .absent then x.pickup.clear else x.pickup }

/-- Entry of a position to a state (R41): the start is ended at the bus when it leaves STARTING, and the DRIVE content of the
state is handed over (R40, R109). -/
def enter (T : Tables) (p : Pos) (dest : PState) (e : Engine) : Engine :=
  let e := if (e.at p).st = .starting ∧ dest ≠ .starting then leaveBus T p e else e
  handDrive T p (e.modify p fun x => (x.leave dest).arrive dest)

/-- The step index of a fault: the step pointer of a STARTING position, none otherwise (R52). -/
def Position.faultStep (x : Position) : Option Nat :=
  if x.st = .starting then x.ctx.map (·.ptr) else none

/-- A fault with the record it writes (R52): entry to FAULTED, or the further-fault mark when already FAULTED. -/
def faultWith (T : Tables) (p : Pos) (code : FaultCode) (step : Option Nat) (value : Option Int) (e : Engine) : Engine :=
  if (e.at p).st = .faulted then
    e.modify p fun x => { x with fault := { x.fault with further := true } }
  else
    (enter T p .faulted e).modify p fun x => { x with fault := ⟨some code, step, value, false⟩ }

/-- A fault whose step index is that of R52. -/
def fault (T : Tables) (p : Pos) (code : FaultCode) (value : Option Int) (e : Engine) : Engine :=
  faultWith T p code (e.at p).faultStep value e

/-- The pickup speed as a measured value (R53). -/
def Position.rpmValue (x : Position) : Option Int := some (Int.ofNat x.pickup.speed)

/-- Several faults at one event, the first writing the record, the others the further-fault mark (R58). -/
def faults (T : Tables) (p : Pos) (list : List (FaultCode × Option Int)) (e : Engine) : Engine :=
  list.foldl (fun e f => fault T p f.1 f.2 e) e

/-- Entry to STOPPING (R51): on to OFF when the pickup speed is 0, else the stop timer starts. -/
def enterStopping (T : Tables) (p : Pos) (e : Engine) : Engine :=
  let e := enter T p .stopping e
  if (e.at p).pickup.speed = 0 then enter T p .off e
  else
    match T.profile p with
    | none => e
    | some pr => e.modify p fun x => { x with stopT := e.timer (sec pr.stopLimitS) }

/-- The hold timer of a position, started with the profile's hold_limit_s (R49). -/
def holdTimer (T : Tables) (p : Pos) (e : Engine) : Timer :=
  match T.profile p with
  | none => .stopped
  | some pr => e.timer (sec pr.holdLimitS)

/-- Entry to HELD with a held-cause set (R43, R46, R115): the cut, the hold timer unless LOCAL, and, while the emergency latch
is set, the handshake that R111 allows and then on to STOPPING (R6, R115). -/
def enterHeld (T : Tables) (p : Pos) (causes : Causes) (e : Engine) : Engine :=
  let e := enter T p .held e
  let e := e.modify p fun x =>
    { x with causes := causes, holdT := if causes.localPanel then .stopped else holdTimer T p e }
  if e.res.latch then enterStopping T p (handshake T p e) else e

/-- Whether the pickup speed lies below the profile's running_rpm (R55, R83). -/
def belowRunning (T : Tables) (p : Pos) (speed : Nat) : Bool :=
  match T.profile p with
  | none => false
  | some pr => decide (speed < pr.runningRpm)

/-- Entry to READY, where a speed below running_rpm is an unexpected stop (R43, R55). -/
def enterReady (T : Tables) (p : Pos) (e : Engine) : Engine :=
  let e := enter T p .ready e
  let x := e.at p
  if belowRunning T p x.pickup.speed then fault T p .unexpectedStop x.rpmValue e else e

/-- The hold timer after the set of a HELD position changed (R49). -/
def holdAfter (before after : Causes) (running fresh : Timer) : Timer :=
  if after.localPanel then (if before.localPanel then running else .stopped)
  else if before.localPanel && !after.isEmpty then fresh
  else running

/-- The held causes that one event adds and removes, applied together and judged once (R45 to R49). -/
def judgeCauses (T : Tables) (p : Pos) (add remove : Causes) (e : Engine) : Engine :=
  let x := e.at p
  let causes := (x.causes.minus remove).union add
  match x.st with
  | .starting => e.put p { x with causes := causes }
  | .ready | .online | .unloading => if causes.isEmpty then e else enterHeld T p causes e
  | .held =>
    let e := e.put p { x with causes := causes, holdT := holdAfter x.causes causes x.holdT (holdTimer T p e) }
    if causes.isEmpty && x.link.setup = .confirmed then enterReady T p e else e
  | _ => e

/-- The emergency order at one position (R6). -/
def emergencyAt (T : Tables) (p : Pos) (e : Engine) : Engine :=
  match (e.at p).st with
  | .starting | .ready | .online | .unloading | .held => enterStopping T p e
  | _ => e

/-- The emergency order on all four positions, the holder of the bus last (R6, log 10). -/
def emergencyOrder (T : Tables) (e : Engine) : Engine :=
  match e.bus.state with
  | .taken h =>
    emergencyAt T h (e.eachPos fun p e => if p = h then e else emergencyAt T p e)
  | _ => e.eachPos (emergencyAt T)

/-- A taken RESET_FAULT at one position (R57). -/
def resetFaultAt (T : Tables) (p : Pos) (e : Engine) : Engine :=
  let x := e.at p
  if x.st = .faulted then
    if x.pickup.speed = 0 then enter T p .off e else e.put p { x with resetRefused := true }
  else e

end Sys2Proof.Machine
end

