-- ==== Sys2Proof/Machine/Protection.lean ====
section
/-! DEFINITION. The Protection Evaluator: entries in force, their conditions, the tests of a sample and of a pickup update,
persistence, and the results handed to a position (R140 to R152). -/

namespace Sys2Proof.Machine

/-- The indices of the Protection Table in order. -/
def protIndices : List (Fin 16) := List.finRange 16

/-- The entry when it is in force for a position: defined, enabled and naming it (R140). -/
def Tables.inForce (T : Tables) (p : Pos) (i : Fin 16) : Option ProtEntry :=
  match T.t8[i] with
  | none => none
  | some x => if x.enabled && x.positions.get p then some x else none

/-- The station quantities (R141). -/
def Quantity.ofStation : Quantity → Bool
  | .pickupSpeed => false
  | .oil | .coolant | .stationSpeed | .stationFault => true

/-- A station quantity in a sample (R141). -/
def Sample.quantity (s : Sample) : Quantity → Int
  | .oil => s.oilKpa
  | .coolant => s.coolantC
  | .stationFault => s.faultCode
  | .stationSpeed | .pickupSpeed => s.speedRpm

/-- The value of a quantity as it stands at a position (R141, R150). -/
def Position.quantity (x : Position) (q : Quantity) : Option Int :=
  match q with
  | .pickupSpeed => some x.pickup.speed
  | _ => x.link.latest.map fun s => s.quantity q

/-- Whether the condition of an entry is true on a value (R141). -/
def ProtEntry.holdsOn (x : ProtEntry) (v : Int) : Bool :=
  match x.quantity with
  | .stationFault => if x.threshold = 0 then v != 0 else v == x.threshold
  | _ =>
    match x.sense with
    | .below => decide (v < x.threshold)
    | .above => decide (x.threshold < v)

/-- Whether the entry applies at the pickup speed (R144). -/
def ProtEntry.gateOpen (x : ProtEntry) (speed : Nat) : Bool := decide (x.minRpm ≤ speed)

/-- A test of a pair (R146). -/
def Pair.test (k : Pair) (now persistMs : Nat) (condition : Bool) : Pair :=
  if condition then
    if k.active || k.timer.isRunning then k
    else if persistMs = 0 then ⟨.stopped, true⟩
    else ⟨.running now (ms persistMs), false⟩
  else ⟨.stopped, false⟩

/-- The expiry of a persistence timer (R146). -/
def Pair.expire (_ : Pair) : Pair := ⟨.stopped, true⟩

/-- The test of one pair on the value as it stands, after the gate (R143, R144). -/
def testPair (en : ProtEntry) (x : Position) (now : Nat) (k : Pair) : Pair :=
  match x.quantity en.quantity with
  | none => k
  | some v => k.test now en.persistMs (en.gateOpen x.pickup.speed && en.holdsOn v)

/-- One pair at a sample: every station-quantity entry in force is tested (R143). -/
def pairAtSample (T : Tables) (p : Pos) (now : Nat) (x : Position) (i : Fin 16) : Pair :=
  match T.inForce p i with
  | none => x.prot[i]
  | some en => if en.quantity.ofStation then testPair en x now x.prot[i] else x.prot[i]

/-- One pair at a pickup update that found the speed at `old` (R143, R144). -/
def pairAtPickup (T : Tables) (p : Pos) (now old : Nat) (x : Position) (i : Fin 16) : Pair :=
  match T.inForce p i with
  | none => x.prot[i]
  | some en =>
    if !en.gateOpen x.pickup.speed then x.prot[i].test now en.persistMs false
    else if !en.quantity.ofStation then testPair en x now x.prot[i]
    else if !en.gateOpen old && x.link.state == .up then testPair en x now x.prot[i]
    else x.prot[i]

/-- The pairs of a position after a sample (R143). -/
def protAtSample (T : Tables) (p : Pos) (now : Nat) (x : Position) : Position :=
  { x with prot := Vector.ofFn (pairAtSample T p now x) }

/-- The pairs of a position after a pickup update (R143). -/
def protAtPickup (T : Tables) (p : Pos) (now old : Nat) (x : Position) : Position :=
  { x with prot := Vector.ofFn (pairAtPickup T p now old x) }

/-- The station-quantity pairs suspended at a link loss (R145). -/
def protSuspend (T : Tables) (p : Pos) (x : Position) : Position :=
  { x with prot := Vector.ofFn fun i =>
      match T.inForce p i with
      | none => x.prot[i]
      | some en => if en.quantity.ofStation then .reset else x.prot[i] }

/-- Whether an entry is active for the position with an action (R142). -/
def Position.activeWith (T : Tables) (x : Position) (a : Action) (i : Fin 16) : Bool :=
  x.prot[i].active && (T.t8[i].any fun en => en.action == a)

/-- The unload result (R142). -/
def Position.unload (T : Tables) (x : Position) : Bool := protIndices.any (x.activeWith T .unload)

/-- The lower of a percent already found and that of an entry. -/
def lowerPct (found : Option Nat) (pct : Nat) : Option Nat :=
  match found with
  | none => some pct
  | some n => some (min n pct)

/-- The derate percent (R142): the lowest derate_pct among the active DERATE entries. -/
def Position.deratePct (T : Tables) (x : Position) : Option Nat :=
  protIndices.foldl (fun found i =>
    if x.activeWith T .derate i then
      match T.t8[i] with
      | none => found
      | some en => lowerPct found en.deratePct
    else found) none

/-- The faults of the SHUTDOWN entries activated between two records, lowest index first, with the values the conditions
were judged on (R147, R150). -/
def shutdowns (T : Tables) (before after : Position) : List (FaultCode × Option Int) :=
  (protIndices.filter fun i => !before.prot[i].active && after.activeWith T .shutdown i).map fun i =>
    (.protection i, (T.t8[i]).bind fun en => after.quantity en.quantity)

/-- Whether the start failed at this instant (R87, R101, log 34): a fatal cause that arrives now sets the further-fault mark. -/
def Position.failedAt (x : Position) (now : Nat) : Bool :=
  x.st == .faulted && (x.failedStart.any fun f => f.instant == now)

/-- The SHUTDOWN faults that the tests of a sample or of a pickup update bring (R147, R150): at a tested position, and at one
whose start failed at this instant, where they are those the start would have met (R87, R101, log 34). `met` has the pairs as
the tests settle them. -/
def shutdownsTested (T : Tables) (now : Nat) (before met : Position) : List (FaultCode × Option Int) :=
  if before.st.tested || before.failedAt now then shutdowns T before met else []

/-- Only PROTECT. -/
def Causes.protectOnly : Causes := { Causes.none with protect := true }

/-- PROTECT added where the unload result has become set (R149). -/
def protectAdded (T : Tables) (before after : Position) : Causes :=
  if after.unload T && !before.unload T then .protectOnly else .none

/-- PROTECT removed where the unload result has become clear (R149). -/
def protectRemoved (T : Tables) (before after : Position) : Causes :=
  if before.unload T && !after.unload T then .protectOnly else .none

/-- The expiry of a persistence timer with its action (R146 to R150). A ceiling change acts at the close of the event. -/
def persistenceExpires (T : Tables) (p : Pos) (i : Fin 16) (e : Engine) : Engine :=
  let before := e.at p
  let after := { before with prot := before.prot.set i before.prot[i].expire }
  let e := e.put p after
  match shutdowns T before after with
  | [] => judgeCauses T p (protectAdded T before after) .none e
  | list => faults T p list e

/-- Whether a SHUTDOWN entry's persistence timer expired at the instant at which the start failed (R87, R101, log 34). -/
def Position.shutdownMet (x : Position) (now : Nat) (i : Fin 16) : Bool :=
  x.failedAt now && (x.failedStart.any fun f => f.due.contains i)

/-- That expiry taken after the failure: the further-fault mark is set (R87, R101). -/
def shutdownAfterFailure (T : Tables) (p : Pos) (i : Fin 16) (e : Engine) : Engine :=
  fault T p (.protection i) none (e.modify p fun x =>
    { x with failedStart := x.failedStart.map fun f => { f with due := f.due.filter fun j => j != i } })

/-- The rewritten entries' pairs of one position cleared, with PROTECT withdrawn where no UNLOAD entry stays active (R152).
`T` holds the old entries. Where the start failed at this instant, a SHUTDOWN entry then due stays due across the rewrite, and
its expiry still sets the further-fault mark: the spec orders no three such events, and this is the model's choice (log 34). -/
def protRewritten (T : Tables) (first count : Nat) (p : Pos) (e : Engine) : Engine :=
  let before := e.at p
  let after := { before with prot := Vector.ofFn fun i =>
    if first ≤ i.val ∧ i.val < first + count then .reset else before.prot[i] }
  judgeCauses T p .none (protectRemoved T before after) (e.put p after)

end Sys2Proof.Machine
end

