-- ==== Sys2Proof/Machine/Loading.lean ====
section
/-! DEFINITION. The load-phase machine: targets, the choice of a phase, speed and load phases, target changes, promotion and
demotion (R18, R123 to R131). -/

namespace Sys2Proof.Machine

/-- The derate ceiling (R148). -/
def derateCeiling (loadPermille pct : Nat) : Nat := loadPermille * pct / 100

/-- S* and L* of an ONLINE position (R18). -/
def SchedEntry.target (x : SchedEntry) (pr : Profile) (pct : Option Nat) : Target :=
  ⟨max pr.idleRpm (min x.speedRpm pr.maxRpm),
    match pct with
    | none => x.loadPermille
    | some n => min x.loadPermille (derateCeiling x.loadPermille n)⟩

/-- The schedule target of a position at the resolved notch (R18). -/
def scheduleTarget (T : Tables) (p : Pos) (e : Engine) : Option Target :=
  match T.profile p, T.active e.res.resolved with
  | some pr, some x => some (x.target pr ((e.at p).deratePct T))
  | _, _ => none

/-- The choice of a phase (R125): the first row that holds. -/
def choice (slot : Target) (duty speed : Nat) : Phase :=
  if slot.load < duty then .loadDown
  else if speed < slot.speed then .speedUp
  else if slot.speed < speed then .speedDown
  else if duty < slot.load then .loadUp
  else .steady

/-- The start of a speed phase (R126). -/
def Load.startSpeed (l : Load) (phase : Phase) (slot : Target) (settle : Timer) : Load :=
  { l with phase := some phase, speed := some slot.speed, phaseTarget := none, settleT := settle }

/-- The start of a load phase (R128). -/
def Load.startLoad (l : Load) (phase : Phase) (slot : Target) : Load :=
  { l with phase := some phase, phaseTarget := some slot.load }

/-- STEADY (R130). -/
def Load.rest (l : Load) : Load := { l with phase := some .steady, phaseTarget := none }

/-- A speed phase begins at a position: the commanded speed goes to the station (R126, R109). -/
def startSpeedPhase (T : Tables) (p : Pos) (phase : Phase) (slot : Target) (e : Engine) : Engine :=
  let settle : Timer := match T.profile p with
    | none => .stopped
    | some pr => e.timer (ms pr.settleLimitMs)
  handDrive T p (e.modify p fun x => { x with load := x.load.startSpeed phase slot settle })

/-- A load phase begins at a position, with its ramp order (R128, R135). -/
def startLoadPhase (T : Tables) (p : Pos) (phase : Phase) (slot : Target) (e : Engine) : Engine :=
  match T.active e.res.resolved with
  | none => e
  | some entry =>
    e.modify p fun x =>
      { x with load := x.load.startLoad phase slot, chan := x.chan.ramp entry e.pwm.periodMs slot.load }

/-- The next phase chosen and begun (R125); STEADY in UNLOADING completes the unload (R131, R44). -/
def choosePhase (T : Tables) (p : Pos) (e : Engine) : Engine :=
  let x := e.at p
  match x.load.slot, x.load.speed with
  | some slot, some speed =>
    match choice slot x.chan.duty speed with
    | .speedUp => startSpeedPhase T p .speedUp slot e
    | .speedDown => startSpeedPhase T p .speedDown slot e
    | .loadUp => startLoadPhase T p .loadUp slot e
    | .loadDown => startLoadPhase T p .loadDown slot e
    | .steady =>
      if x.st = .unloading then enterReady T p e else e.put p { x with load := x.load.rest }
  | _, _ => e

/-- The end of a phase and the next choice (R125): the settle timer stops, the phase load target becomes none. -/
def endPhase (T : Tables) (p : Pos) (e : Engine) : Engine :=
  choosePhase T p (e.modify p fun x => { x with load := { x.load with phaseTarget := none, settleT := .stopped } })

/-- Whether the target load lies below the duty in force (R129). -/
def Position.aboveTarget (x : Position) : Bool :=
  match x.load.slot with
  | none => false
  | some slot => decide (slot.load < x.chan.duty)

/-- The end of a phase in force, which a target change of the same instant may meet (R129, log 39). -/
def completePhase (T : Tables) (p : Pos) (e : Engine) : Engine :=
  endPhase T p (e.modify p fun x => { x with phaseEnd := if x.st.loaded then some ⟨e.now, x.load.speed⟩ else none })

/-- The end of a phase at this instant, if there was one (R129, log 39). -/
def Position.endAt (x : Position) (now : Nat) : Option PhaseEnd := x.phaseEnd.filter fun f => f.instant == now

/-- A position as it stood at the choice of a phase end: its commanded speed of before, and no ramp ordered (R129, log 39). -/
def Position.beforeChoice (x : Position) (f : PhaseEnd) : Position :=
  { x with load := { x.load with speed := f.speed }
           chan := if x.chan.state = .ramping then x.chan.stopRamp else x.chan }

/-- What a new target does to the phase in force (R129, R130). Where a phase ended at this instant, the choice made at its end
is made anew on the slot as it stands after both (R129, log 39). -/
def actOnTarget (T : Tables) (p : Pos) (e : Engine) : Engine :=
  let x := e.at p
  match x.endAt e.now with
  | some f => endPhase T p (e.put p (x.beforeChoice f))
  | none =>
    match x.load.phase with
    | some .steady => choosePhase T p e
    | some .speedUp => if x.aboveTarget then endPhase T p e else e
    | some .loadUp => if x.aboveTarget then endPhase T p (e.put p { x with chan := x.chan.stopRamp }) else e
    | _ => e

/-- The slot of an ONLINE position brought to the schedule target (R124). -/
def writeSlot (T : Tables) (p : Pos) (e : Engine) : Engine :=
  let x := e.at p
  if x.st = .online then
    match scheduleTarget T p e with
    | none => e
    | some t => e.put p { x with load := { x.load with slot := some t } }
  else e

/-- Whether the slot of an ONLINE position differs from the schedule target: a target change (R124). -/
def slotStale (T : Tables) (e : Engine) (p : Pos) : Bool :=
  let x := e.at p
  x.st == .online && (scheduleTarget T p e).isSome && x.load.slot != scheduleTarget T p e

/-- A promote order (R42, R131): READY to ONLINE with the targets in the slot and S at idle_rpm. -/
def promoteOrder (T : Tables) (p : Pos) (e : Engine) : Engine :=
  if (e.at p).st = .ready then
    let e := enter T p .online e
    let e := e.modify p fun x =>
      { x with load := { x.load with phase := none, speed := (T.profile p).map (·.idleRpm), slot := scheduleTarget T p e,
                                     phaseTarget := none, settleT := .stopped } }
    choosePhase T p e
  else e

/-- A demote order (R42, R131): ONLINE to UNLOADING with idle_rpm and 0 in the slot. -/
def demoteOrder (T : Tables) (p : Pos) (e : Engine) : Engine :=
  if (e.at p).st = .online then
    let e := enter T p .unloading e
    let e := e.modify p fun x =>
      { x with load := { x.load with slot := (T.profile p).map fun pr => ⟨pr.idleRpm, 0⟩ } }
    actOnTarget T p e
  else e

/-- Whether a timer was started before an instant; a stopped one counts as started. -/
def Timer.startedBefore (now : Nat) : Timer → Bool
  | .stopped => true
  | .running since _ => decide (since < now)

/-- Whether a sample settles the speed phase in force (R127). A sample of the instant at which the phase began is not tested
(log 36). -/
def settles (T : Tables) (p : Pos) (now : Nat) (x : Position) (s : Sample) : Bool :=
  match T.profile p, x.load.speed with
  | some pr, some speed =>
    (x.load.phase == some .speedUp || x.load.phase == some .speedDown) && x.load.settleT.startedBefore now && s.settled
      && decide (speed ≤ s.speedRpm + pr.disagreeTolRpm) && decide (s.speedRpm ≤ speed + pr.disagreeTolRpm)
  | _, _ => false

/-- The end of a speed phase, settled or late (R127). -/
def endSpeedPhase (T : Tables) (p : Pos) (late : Bool) (e : Engine) : Engine :=
  completePhase T p (e.modify p fun x => { x with load := { x.load with settleLate := late } })

/-- The end of a load phase at its ramp completion (R128, R136). A cut or a stop taken before it leaves nothing to end. -/
def endLoadPhase (T : Tables) (p : Pos) (e : Engine) : Engine :=
  let x := e.at p
  if (x.load.phase = some .loadUp ∨ x.load.phase = some .loadDown) ∧ x.chan.state ≠ .ramping then completePhase T p e else e

/-- The ramp steps of all four channels computed anew with the rates of the resolved notch (R134). -/
def restepAll (T : Tables) (e : Engine) : Engine :=
  match T.active e.res.resolved with
  | none => e
  | some entry =>
    e.eachPos fun p e => e.modify p fun x => { x with chan := x.chan.restep entry e.pwm.periodMs }

end Sys2Proof.Machine
end

