-- ==== Sys2Proof/Machine/Start.lean ====
section
/-! DEFINITION. The Step Executor: program choice, step entry, exit conditions, success and failure (R67 to R90). -/

namespace Sys2Proof.Machine

/-- The number that stands for END in a next field (R67). -/
def nextEnd : Nat := 127

/-- Whether on_limit is allowed for the kind (R68). -/
def onLimitLegal : StepKind → OnLimit → Bool
  | .purge, l | .dwell, l => l == .pass
  | .crank, l => l == .fail
  | _, _ => true

/-- Whether a next field is 0..63 or END (R74). -/
def nextLegal (n : Nat) : Bool := decide (n ≤ 63) || n == nextEnd

/-- The step context at a start order, before its first step is entered (R72). -/
def StepCtx.fresh (ptr : Nat) : StepCtx := ⟨ptr, .runningStep, 0, 0, .stopped, .stopped, false, false⟩

/-- The exit condition of a PRELUBE, SETTLE or WARM step on a sample (R69, R75). -/
def sampleMeets (pr : Profile) (r : StepRec) (s : Sample) : Bool :=
  match r.kind with
  | .prelube => decide (r.threshold ≤ s.oilKpa)
  | .settle =>
    decide (pr.idleRpm ≤ s.speedRpm + pr.disagreeTolRpm) && decide (s.speedRpm ≤ pr.idleRpm + pr.disagreeTolRpm)
      && decide (r.threshold ≤ s.oilKpa)
  | .warm => decide (r.threshold ≤ s.coolantC)
  | _ => false

/-- The exit condition of a CRANK step on the pickup speed (R69, R75). -/
def speedMeets (r : StepRec) (speed : Nat) : Bool := r.kind == .crank && decide (r.threshold ≤ speed)

/-- The test at step entry: the latest valid sample, or the pickup speed as it stands (R75). -/
def entryMeets (T : Tables) (p : Pos) (x : Position) (r : StepRec) : Bool :=
  match r.kind with
  | .crank => speedMeets r x.pickup.speed
  | _ =>
    match T.profile p, x.link.latest with
    | some pr, some s => sampleMeets pr r s
    | _, _ => false

/-- The quantity a step tests, as it stands (R53, R79). -/
def testedQuantity (x : Position) (kind : StepKind) : Option Int :=
  match kind with
  | .prelube | .settle => x.link.latest.map fun s => Int.ofNat s.oilKpa
  | .warm => x.link.latest.map (·.coolantC)
  | .crank => x.rpmValue
  | .purge | .dwell => none

/-- The end of a start chain (R43). -/
def chainEnd (T : Tables) (p : Pos) (e : Engine) : Engine :=
  let causes := (e.at p).causes
  if causes.isEmpty then enterReady T p e else enterHeld T p causes e

/-- A step's success before the chain goes on (R76, items 1 to 3; R82): timers stop, the bus is left, fire and marker. -/
def endStep (T : Tables) (p : Pos) (r : StepRec) (e : Engine) : Engine :=
  let e := leaveBus T p e
  e.modify p fun x =>
    { x with
      ctx := x.ctx.map fun c =>
        { c with stepT := .stopped, restT := .stopped,
                 fired := c.fired || r.kind == .crank,
                 watch := c.watch || (r.kind == .crank && !belowRunning T p x.pickup.speed) }
      stepEvent := x.stepEvent || r.report }

/-- The check of a step entry (R74): the record when it may be entered as the `visited`-th step. -/
def checkEntry (T : Tables) (visited idx : Nat) : Option StepRec :=
  if 32 < visited then none
  else match T.stepRec idx with
    | none => none
    | some r => keepIfLegal r
where
  /-- The record when its on_limit and next are legal. -/
  keepIfLegal (r : StepRec) : Option StepRec :=
    if onLimitLegal r.kind r.onLimit && nextLegal r.next then some r else none

/-- Entry to a step (R73): count, check, load retries, claim or time, DRIVE (R69, R90), test; a step whose condition holds at
entry succeeds at once and the next is entered (R77). `counts` is false for a re-run. The fuel outlasts the 32 visits. -/
def enterStep (T : Tables) (p : Pos) : Nat → Bool → Nat → Engine → Engine
  | 0, _, idx, e => faultWith T p .programError (some idx) none e
  | fuel + 1, counts, idx, e =>
    let x := e.at p
    let c := x.ctx.getD (StepCtx.fresh idx)
    let visited := if counts then c.visited + 1 else c.visited
    match checkEntry T visited idx with
    | none => faultWith T p .programError (some idx) none e
    | some r =>
      let bus := r.kind == .purge || r.kind == .crank
      let c := { c with ptr := idx, visited := visited, restT := .stopped,
                        retries := if counts then r.retries else c.retries,
                        sub := if bus then .busWait else .runningStep,
                        stepT := if bus then .stopped else e.timer (sec r.timeLimitS) }
      let e := handDrive T p (e.put p { x with ctx := some c })
      if entryMeets T p x r then
        let e := endStep T p r e
        if r.next = nextEnd then chainEnd T p e else enterStep T p fuel true r.next e
      else if bus then requestBus T p e
      else e

/-- Fuel of a walk at one event: more than the 33 entries R74 can let through. -/
def walkFuel : Nat := 40

/-- The success of the current step (R76). -/
def stepSuccess (T : Tables) (p : Pos) (r : StepRec) (e : Engine) : Engine :=
  let e := endStep T p r e
  if r.next = nextEnd then chainEnd T p e else enterStep T p walkFuel true r.next e

/-- The Program Select entry of a coolant reading (R71): the first defined entry whose upper_c reaches it, else entry 3. -/
def chooseProgram (T : Tables) (coolant : Option Int) : Option SelectEntry :=
  let fits : Option SelectEntry → Bool := fun s =>
    match s, coolant with
    | some s, some c => decide (c ≤ s.upperC)
    | _, _ => false
  match T.t7.toList.find? fits with
  | some s => s
  | none => T.t7[3]

/-- A start order (R42, R71): STARTING, the program chosen, its first step entered, or NO_PROGRAM. -/
def startOrder (T : Tables) (p : Pos) (e : Engine) : Engine :=
  if (e.at p).st = .off then
    let e := enter T p .starting e
    let coolant := (e.at p).link.latest.map (·.coolantC)
    match chooseProgram T coolant with
    | none => faultWith T p .noProgram none coolant e
    | some s =>
      if (T.stepRec s.entryStep).isNone then faultWith T p .noProgram (some s.entryStep) coolant e
      else enterStep T p walkFuel true s.entryStep e
  else e

/-- An abandon order (R42, R85): ignored once fired. -/
def abandonOrder (T : Tables) (p : Pos) (e : Engine) : Engine :=
  let x := e.at p
  if x.st = .starting ∧ ¬ (x.ctx.any (·.fired)) then enter T p .off e else e

/-- Entry to RETRY_REST with fuel off (R80, R90); a rest of 0 s re-runs the step at this event. -/
def retryRest (T : Tables) (p : Pos) (r : StepRec) (e : Engine) : Engine :=
  let e := handDrive T p (e.modify p fun x =>
    { x with ctx := x.ctx.map fun c =>
        { c with retries := c.retries - 1, sub := .retryRest, stepT := .stopped, fired := false, watch := false,
                 restT := e.timer (sec r.retryRestS) } })
  if r.retryRestS = 0 then
    match (e.at p).ctx with
    | none => e
    | some c => enterStep T p walkFuel false c.ptr e
  else e

/-- The SHUTDOWN entries whose persistence timers have reached their limits (R146). -/
def Position.shutdownsDue (T : Tables) (x : Position) (now : Nat) : List (Fin 16) :=
  protIndices.filter fun i => x.prot[i].timer.isDue now && (T.t8[i].any fun en => en.action == .shutdown)

/-- The failure of a start at its time limit or at the crank guard: the fault, with what a fatal cause of the same instant finds
later (R87, R101, log 34). -/
def failStart (T : Tables) (p : Pos) (code : FaultCode) (value : Option Int) (e : Engine) : Engine :=
  let failed : FailedStart := ⟨e.now, (e.at p).shutdownsDue T e.now, (e.at p).ctx.any (·.watch)⟩
  (fault T p code value e).modify p fun x => { x with failedStart := some failed }

/-- A retryable failure (R79): the bus is released; a rest while retries remain, else START_FAILED. -/
def retryableFailure (T : Tables) (p : Pos) (r : StepRec) (c : StepCtx) (e : Engine) : Engine :=
  let e := leaveBus T p e
  if 0 < c.retries then retryRest T p r e
  else failStart T p .startFailed (testedQuantity (e.at p) r.kind) e

/-- The expiry of the step timer (R78). -/
def stepExpires (T : Tables) (p : Pos) (e : Engine) : Engine :=
  match (e.at p).ctx with
  | none => e
  | some c =>
    match T.stepRec c.ptr with
    | none => e
    | some r =>
      match r.onLimit with
      | .pass => stepSuccess T p r e
      | .fail => retryableFailure T p r c e

/-- The current step of a STARTING position in RUNNING_STEP or BUS_WAIT, where exit conditions and the stall watch are
tested (R75, R83). -/
def Position.runningRec (T : Tables) (x : Position) : Option StepRec :=
  if x.st = .starting then
    match x.ctx with
    | none => none
    | some c => if c.sub = .retryRest then none else T.stepRec c.ptr
  else none

/-- The test of the current step on an arriving sample (R75). -/
def stepTestSample (T : Tables) (p : Pos) (s : Sample) (e : Engine) : Engine :=
  match (e.at p).runningRec T, T.profile p with
  | some r, some pr => if sampleMeets pr r s then stepSuccess T p r e else e
  | _, _ => e

/-- The stall watch at a pickup update (R82): armed once fired and at or above running_rpm. -/
def armWatch (T : Tables) (p : Pos) (e : Engine) : Engine :=
  e.modify p fun x =>
    { x with ctx := x.ctx.map fun c =>
        { c with watch := c.watch || (c.fired && (T.profile p).isSome && !belowRunning T p x.pickup.speed) } }

/-- The test of the current step at a pickup update (R75, R81). -/
def stepTestSpeed (T : Tables) (p : Pos) (e : Engine) : Engine :=
  let x := e.at p
  match x.runningRec T with
  | some r => if speedMeets r x.pickup.speed then stepSuccess T p r e else e
  | none => e

/-- Whether the stall watch is armed (R82, R83): in STARTING outside a rest, and where the start failed at this instant, as it
stood then (R87, R101, log 34). -/
def Position.watched (x : Position) (now : Nat) : Bool :=
  if x.st = .starting then x.ctx.any fun c => c.watch && c.sub != .retryRest
  else x.failedAt now && x.failedStart.any (·.watch)

/-- Whether a pickup update is a stall (R83): watch armed, speed below running_rpm. -/
def Position.stalls (T : Tables) (p : Pos) (now : Nat) (x : Position) : Bool :=
  belowRunning T p x.pickup.speed && x.watched now

end Sys2Proof.Machine
end

