-- ==== Sys2Proof/Machine/Planner.lean ====
section
/-! DEFINITION. The Staging Planner: classes, desired counts, the five steps of an evaluation, SHORT and the achieved result
(R17 to R37). An evaluation works on a view of the position states in which each order counts at once (R24). -/

namespace Sys2Proof.Machine

/-- The orders of one evaluation (R24, R25, R30). -/
inductive Order where
  | demote (p : Pos)
  | promote (p : Pos)
  | start (p : Pos)
  | abandon (p : Pos)
  | stop (p : Pos)
  | lingerStart (p : Pos)
  | lingerStop (p : Pos)
  deriving DecidableEq, Repr

/-- The position states as the evaluation counts them, and its orders so far. -/
structure Plan where
  view : Four PState
  orders : List Order
  deriving DecidableEq, Repr

/-- The state an order names (R24). -/
def Order.countedAs : Order → Option (Pos × PState)
  | .demote p => some (p, .unloading)
  | .promote p => some (p, .online)
  | .start p => some (p, .starting)
  | .abandon p => some (p, .off)
  | .stop p => some (p, .stopping)
  | .lingerStart _ | .lingerStop _ => none

/-- An order given: its position counts as being in the state the order names (R24). -/
def Plan.give (pl : Plan) (o : Order) : Plan :=
  { view := match o.countedAs with
      | none => pl.view
      | some (p, st) => pl.view.set p st
    orders := pl.orders ++ [o] }

/-- What one evaluation reads (chapter 2): the zero condition, the request modes in effect, the notch's entry counts,
the setup states, local flags, profiles, fired flags, meters and linger timers. -/
structure Staging where
  zero : Bool
  mode : Four Mode
  running : Nat
  online : Nat
  confirmed : Four Bool
  localSet : Four Bool
  profile : Four Bool
  fired : Four Bool
  meter : Four Nat
  lingering : Four Bool
  expired : Option Pos
  deriving DecidableEq, Repr

/-- A zero condition (R23). -/
def zeroCondition (T : Tables) (r : Resolver) : Bool := !r.runPerm || r.latch || !T.configured

/-- RUN-mode positions are treated as AUTO-mode ones while a zero condition holds (R37). -/
def Mode.underZero (zero : Bool) (m : Mode) : Mode := if zero ∧ m = .run then .auto else m

/-- What an evaluation reads at an engine record. -/
def staging (T : Tables) (expired : Option Pos) (e : Engine) : Staging :=
  let zero := zeroCondition T e.res
  let count (f : SchedEntry → Nat) : Nat := match T.active e.res.resolved with
    | none => 0
    | some x => if zero then 0 else f x
  { zero := zero
    mode := .make fun p => (e.at p).mode.underZero zero
    running := count (·.runningRequired)
    online := count (·.onlineRequired)
    confirmed := .make fun p => (e.at p).link.setup == .confirmed
    localSet := .make fun p => (e.at p).link.localSet
    profile := .make fun p => (T.profile p).isSome
    fired := .make fun p => (e.at p).ctx.any (·.fired)
    meter := .make fun p => (e.at p).meter.value
    lingering := .make fun p => (e.at p).lingerT.isRunning
    expired := expired }

/-- Startable (R22). -/
def Staging.startable (g : Staging) (view : Four PState) (p : Pos) : Bool :=
  view.get p == .off && g.mode.get p != .out && g.confirmed.get p && !g.localSet.get p && g.profile.get p

/-- Counted running (R22). -/
def Staging.counted (g : Staging) (view : Four PState) (p : Pos) : Bool :=
  (view.get p).runningSet && g.mode.get p != .out

/-- Available (R22). -/
def Staging.available (g : Staging) (view : Four PState) (p : Pos) : Bool :=
  g.mode.get p != .out &&
    match view.get p with
    | .off => !g.localSet.get p
    | .starting | .ready | .online | .unloading => true
    | _ => false

/-- Supply (R22). -/
def Staging.supplies (g : Staging) (view : Four PState) (p : Pos) : Bool :=
  g.mode.get p != .out &&
    match view.get p with
    | .off => g.startable view p
    | .starting | .ready | .online => true
    | _ => false

/-- The number of positions of a class. -/
def countOf (f : Pos → Bool) : Nat := (Pos.all.filter f).length

/-- The count of ONLINE positions. -/
def onlineCount (view : Four PState) : Nat := countOf fun p => view.get p == .online

/-- Dr (R23). -/
def Staging.desiredRunning (g : Staging) (view : Four PState) : Nat :=
  if g.zero then 0
  else
    min (max g.running (countOf fun p => g.available view p && g.mode.get p == .run)) (countOf (g.available view))

/-- Do (R23). -/
def Staging.desiredOnline (g : Staging) : Nat := if g.zero then 0 else g.online

/-- The candidate with the most run hours, the later letter where hours are equal (R31). -/
def Staging.mostHours (g : Staging) (candidate : Pos → Bool) : Option Pos :=
  Pos.all.foldl (fun best p =>
    if candidate p then
      match best with
      | none => some p
      | some b => if g.meter.get b ≤ g.meter.get p then some p else some b
    else best) none

/-- The candidate with the fewest run hours, the earlier letter where hours are equal (R31). -/
def Staging.fewestHours (g : Staging) (candidate : Pos → Bool) : Option Pos :=
  Pos.all.foldl (fun best p =>
    if candidate p then
      match best with
      | none => some p
      | some b => if g.meter.get p < g.meter.get b then some p else some b
    else best) none

/-- Orders repeated while a condition holds and a candidate is found; four positions need at most four rounds. -/
def Plan.repeatOrder (more : Plan → Bool) (choose : Plan → Option Pos) (order : Pos → Order) : Nat → Plan → Plan
  | 0, pl => pl
  | n + 1, pl =>
    if more pl then
      match choose pl with
      | none => pl
      | some p => Plan.repeatOrder more choose order n (pl.give (order p))
    else pl

/-- Step 1 at one position: out of service (R25). -/
def Staging.outOfService (g : Staging) (pl : Plan) (p : Pos) : Plan :=
  if g.mode.get p = .out then
    match pl.view.get p with
    | .online => pl.give (.demote p)
    | .starting => if g.fired.get p then pl else pl.give (.abandon p)
    | .ready =>
      if g.expired = some p then pl.give (.stop p)
      else if g.lingering.get p then pl
      else pl.give (.lingerStart p)
    | _ => pl
  else pl

/-- Step 2 (R26). -/
def Staging.demotes (g : Staging) (pl : Plan) : Plan :=
  pl.repeatOrder (fun pl => decide (g.desiredOnline < onlineCount pl.view))
    (fun pl => g.mostHours fun p => pl.view.get p == .online) .demote 4

/-- Step 3 (R27). -/
def Staging.promotes (g : Staging) (pl : Plan) : Plan :=
  pl.repeatOrder (fun pl => decide (onlineCount pl.view < g.desiredOnline))
    (fun pl => g.fewestHours fun p => pl.view.get p == .ready && g.mode.get p != .out) .promote 4

/-- Step 4 (R28): the startable RUN-mode positions in letter order, then AUTO-mode ones while the set is too small. -/
def Staging.starts (g : Staging) (dr : Nat) (pl : Plan) : Plan :=
  let pl := Pos.all.foldl (fun pl p =>
    if g.startable pl.view p && g.mode.get p == .run then pl.give (.start p) else pl) pl
  pl.repeatOrder (fun pl => decide (countOf (g.counted pl.view) < dr))
    (fun pl => g.fewestHours fun p => g.startable pl.view p && g.mode.get p == .auto) .start 4

/-- Step 5, abandons (R29). -/
def Staging.abandons (g : Staging) (dr : Nat) (pl : Plan) : Plan :=
  pl.repeatOrder (fun pl => decide (dr < countOf (g.counted pl.view)))
    (fun pl => g.mostHours fun p => pl.view.get p == .starting && g.mode.get p == .auto && !g.fired.get p) .abandon 4

/-- Step 5, the stop at the expiry of an AUTO-mode linger timer while the surplus remains (R30). -/
def Staging.stops (g : Staging) (dr : Nat) (pl : Plan) : Plan :=
  match g.expired with
  | none => pl
  | some p =>
    if g.mode.get p = .auto ∧ pl.view.get p = .ready ∧ dr < countOf (g.counted pl.view) then pl.give (.stop p) else pl

/-- Step 5, linger timers (R30): the AUTO-mode READY positions' timers start while a surplus remains and stop otherwise;
a RUN-mode position is not lingered (R20, log 20). -/
def Staging.lingers (g : Staging) (dr : Nat) (pl : Plan) : Plan :=
  let surplus := decide (dr < countOf (g.counted pl.view))
  Pos.all.foldl (fun pl p =>
    if g.mode.get p = .auto ∧ surplus then
      if pl.view.get p = .ready ∧ ¬ g.lingering.get p then pl.give (.lingerStart p) else pl
    else if g.mode.get p ≠ .out ∧ g.lingering.get p then pl.give (.lingerStop p)
    else pl) pl

/-- One evaluation's plan: the five steps of R24 in order. -/
def Staging.plan (g : Staging) (view : Four PState) : Plan :=
  let dr := g.desiredRunning view
  let pl := Pos.all.foldl g.outOfService ⟨view, []⟩
  let pl := g.starts dr (g.promotes (g.demotes pl))
  g.lingers dr (g.stops dr (g.abandons dr pl))

/-- SHORT (R34): Do exceeds the supply. -/
def Staging.short (g : Staging) (view : Four PState) : Bool :=
  decide (countOf (g.supplies view) < g.desiredOnline)

/-- A load phase STEADY of an ONLINE position. -/
def Position.onlineSteady (x : Position) : Bool := x.st == .online && x.load.phase == some .steady

/-- The achieved result (R35), on the states as the orders name them and the load phases after the orders. -/
def Staging.achieved (g : Staging) (view : Four PState) (e : Engine) : Bool :=
  decide (min g.desiredOnline (countOf (g.supplies view)) ≤ onlineCount view)
    && Pos.all.all fun p => (e.at p).st != .online || (e.at p).onlineSteady

/-- A stop order (R42): READY to STOPPING. -/
def stopOrder (T : Tables) (p : Pos) (e : Engine) : Engine :=
  if (e.at p).st = .ready then enterStopping T p e else e

/-- The linger timer of a READY position started with the profile's linger_s (R30). -/
def lingerStart (T : Tables) (p : Pos) (e : Engine) : Engine :=
  match T.profile p with
  | none => e
  | some pr => if (e.at p).st = .ready then e.modify p fun x => { x with lingerT := e.timer (sec pr.lingerS) } else e

/-- One order handed to its Position Controller (R42), or to the Planner's own linger timer. -/
def giveOrder (T : Tables) (e : Engine) (o : Order) : Engine :=
  match o with
  | .demote p => demoteOrder T p e
  | .promote p => promoteOrder T p e
  | .start p => startOrder T p e
  | .abandon p => abandonOrder T p e
  | .stop p => stopOrder T p e
  | .lingerStart p => lingerStart T p e
  | .lingerStop p => e.modify p fun x => { x with lingerT := .stopped }

end Sys2Proof.Machine
end

