-- ==== Sys2Proof/Machine/Resolver.lean ====
section
/-! DEFINITION. The Demand Resolver: taken NOTCH frames, the holding conditions, the fall and the rise of the resolved notch
(R1 to R15). -/

namespace Sys2Proof.Machine

/-- The four holding conditions (R10). -/
structure Conds where
  lost : Bool
  latched : Bool
  runOff : Bool
  unconfigured : Bool
  deriving DecidableEq, Repr

/-- The holding conditions in force (R10). -/
def holdingConds (T : Tables) (r : Resolver) : Conds :=
  ⟨r.link == .lost, r.latch, !r.runPerm, !T.configured⟩

/-- Whether any holding condition is in force. -/
def Conds.any (c : Conds) : Bool := c.lost || c.latched || c.runOff || c.unconfigured

/-- Whether a condition in force now was not in force before: an onset (R10). -/
def Conds.onset (before after : Conds) : Bool :=
  (after.lost && !before.lost) || (after.latched && !before.latched) || (after.runOff && !before.runOff)
    || (after.unconfigured && !before.unconfigured)

/-- Whether the last condition has ended (R10). -/
def Conds.ended (before after : Conds) : Bool := before.any && !after.any

/-- The dwell and achieve timers started at the resolved notch, with the mark clear (R11, R14). -/
def Resolver.startTimers (r : Resolver) (T : Tables) (now : Nat) : Resolver :=
  { r with dwell := (match T.dwellLimit r.resolved with
             | none => .stopped
             | some n => Watch.start now n)
           achieve := (match T.achieveLimit with
             | none => .stopped
             | some n => Watch.start now n)
           achieved := false }

/-- The resolved notch at IDLE with the timers stopped and the mark clear (R10). -/
def Resolver.hold (r : Resolver) : Resolver :=
  { r with resolved := 0, dwell := .stopped, achieve := .stopped, achieved := false }

/-- The fall of the resolved notch to the demand notch (R12). -/
def Resolver.fall (r : Resolver) (T : Tables) (now : Nat) : Resolver :=
  if r.demand < r.resolved then ({ r with resolved := r.demand }).startTimers T now else r

/-- The dwell timer compared with dwell_s as read now (R11). -/
def Resolver.rereadDwell (r : Resolver) (T : Tables) (now : Nat) : Resolver :=
  match T.dwellLimit r.resolved with
  | none => r
  | some n => { r with dwell := r.dwell.compare now n }

/-- The achieve timer compared with achieve_limit_s as read now (R11). -/
def Resolver.rereadAchieve (r : Resolver) (T : Tables) (now : Nat) : Resolver :=
  match T.achieveLimit with
  | none => r
  | some n => { r with achieve := r.achieve.compare now n }

/-- The rise of the resolved notch examined (R13). -/
def Resolver.rise (r : Resolver) (T : Tables) (now : Nat) : Resolver :=
  if (holdingConds T r).any = false ∧ r.resolved < r.demand ∧ r.dwell.isExpired = true
      ∧ (r.achieved = true ∨ r.achieve.isExpired = true) then
    ({ r with resolved := r.resolved + 1 }).startTimers T now
  else r

/-- What the holding conditions do at an event that found `before` in force (R10, R12). -/
def Resolver.settle (r : Resolver) (T : Tables) (now : Nat) (before : Conds) : Resolver :=
  let after := holdingConds T r
  if before.onset after then r.hold
  else if before.ended after then r.startTimers T now
  else if after.any then r
  else r.fall T now

/-- The emergency latch at a taken frame (R4). -/
def latchAfter (latch emergency run : Bool) : Bool := emergency || (latch && run)

/-- A taken NOTCH frame (R2, R3, R4, R5, R7). -/
def Resolver.take (r : Resolver) (T : Tables) (now : Nat) (value : Nat) (run emergency : Bool) : Resolver :=
  let before := holdingConds T r
  let latch := latchAfter r.latch emergency run
  let requested := min value 8
  let r := { r with requested := requested, demand := T.cap requested, runRequest := run, latch := latch,
                    runPerm := run && !latch, notchT := .running now T.notchTimeout, link := .live }
  (r.settle T now before).rise T now

/-- The expiry of the NOTCH timer (R7). -/
def Resolver.notchExpires (r : Resolver) (T : Tables) (now : Nat) : Resolver :=
  let before := holdingConds T r
  ({ r with link := .lost, requested := 0, demand := 0, notchT := .stopped }).settle T now before

/-- The Resolver at a T1 write (R3, R8, R11): `before` are the holding conditions before it. -/
def Resolver.afterT1 (r : Resolver) (T : Tables) (now : Nat) (before : Conds) : Resolver :=
  let r := { r with demand := T.cap r.requested }
  ((r.rereadAchieve T now).settle T now before).rise T now

/-- The Resolver at the application of a commit (R15): the mark is cleared and dwell_s re-read, or the last holding
condition ends; the rise is examined (R13), so that the targets of the event are those of the notch it reaches (R124, log 30). -/
def Resolver.afterCommit (r : Resolver) (T : Tables) (now : Nat) (before : Conds) : Resolver :=
  ((({ r with achieved := false }).rereadDwell T now).settle T now before).rise T now

/-- The dwell timer expires and the rise is examined (R11, R13). -/
def Resolver.dwellExpires (r : Resolver) (T : Tables) (now : Nat) : Resolver :=
  match r.dwell with
  | .running since => ({ r with dwell := .expired since }).rise T now
  | _ => r

/-- The achieve timer expires and the rise is examined (R11, R13). -/
def Resolver.achieveExpires (r : Resolver) (T : Tables) (now : Nat) : Resolver :=
  match r.achieve with
  | .running since => ({ r with achieve := .expired since }).rise T now
  | _ => r

end Sys2Proof.Machine
end

