-- ==== Sys2Proof/Machine/Event.lean ====
section
/-! DEFINITION. The close of an event of operation: handshakes, a commit that finds the unit steady, targets, evaluations of
the Planner until nothing prompts one, and the DRIVE content (R21, R35, R111, R178; logs 4, 5, 12, 13, 27, 30). -/

namespace Sys2Proof.Machine

/-- The unit is steady (R177). -/
def steady (e : Engine) : Bool :=
  Pos.all.all fun p => (e.at p).st != .unloading && ((e.at p).st != .online || (e.at p).onlineSteady)

/-- Whether a position's state, or the load phase of an ONLINE position, differs between two records (R178). -/
def movedBetween (a b : Engine) : Bool :=
  Pos.all.any fun p =>
    (a.at p).st != (b.at p).st || ((b.at p).st == .online && (a.at p).load.phase != (b.at p).load.phase)

/-- The application of a commit to the tables and the Resolver (R178, items 1 and 2). -/
def applyCommit (w : Works) : Works :=
  let before := holdingConds w.tab w.eng.res
  let tab := { w.tab with t5 := w.tab.t4 }
  { tab := tab, eng := { w.eng with res := w.eng.res.afterCommit tab w.eng.now before }, commitPending := false }

/-- Whether the Planner is prompted at one position (R21): `a` is the record at the last evaluation, `b` the record now. -/
def promptedAt (a b : Position) : Bool :=
  a.st != b.st || a.mode != b.mode || a.link.setup != b.link.setup
    || (b.st == .off && a.link.localSet != b.link.localSet) || a.onlineSteady != b.onlineSteady

/-- The onset of a holding condition or the end of the last one (R10). -/
def condsTurned (a b : Works) : Bool :=
  let before := holdingConds a.tab a.eng.res
  let after := holdingConds b.tab b.eng.res
  before.onset after || before.ended after

/-- Whether the Planner is prompted (R21), commits and linger expiries aside. The end of the last zero condition prompts it also
while the link is LOST (R37). -/
def prompted (a b : Works) : Bool :=
  a.eng.res.resolved != b.eng.res.resolved || condsTurned a b
    || zeroCondition a.tab a.eng.res != zeroCondition b.tab b.eng.res
    || a.eng.res.runPerm != b.eng.res.runPerm || a.eng.res.latch != b.eng.res.latch
    || Pos.all.any fun p => promptedAt (a.eng.at p) (b.eng.at p)

/-- A READY position whose linger timer was started with a period of 0 (R30), the first in letter order (log 12). -/
def zeroLinger (e : Engine) : Option Pos :=
  Pos.all.find? fun p =>
    match (e.at p).lingerT with
    | .running _ 0 => true
    | _ => false

/-- The linger timer of the expired position stopped. -/
def stopLinger (linger : Option Pos) (e : Engine) : Engine :=
  match linger with
  | none => e
  | some p => e.modify p fun x => { x with lingerT := .stopped }

/-- The achieved report to the Resolver (R14, R35): sent when forced or when it differs from the last report. -/
def report (force result : Bool) (e : Engine) : Engine :=
  if force || e.lastReport != some result then
    { e with lastReport := some result, res := { e.res with achieved := result } }
  else e

/-- The slots of the ONLINE positions brought to their targets, the machine not yet acting (R124). -/
def writeSlots (T : Tables) (e : Engine) : Engine := e.eachPos (writeSlot T)

/-- The positions whose target changed act on it (R129, R130). -/
def actOnTargets (T : Tables) (changed : List Pos) (e : Engine) : Engine :=
  changed.foldl (fun e p => if (e.at p).st = .online then actOnTarget T p e else e) e

/-- One evaluation of the Planner (R24, R34, R35) with the changed targets acted on; the record the next prompt is judged
against has the states as the orders named them (R24), and the rise of R13 follows the report. -/
def evaluate (T : Tables) (linger : Option Pos) (force : Bool) (changed : List Pos) (e : Engine) : Engine × Engine :=
  let g := staging T linger e
  let states : Four PState := .make fun p => (e.at p).st
  let pl := g.plan states
  let setups : Four SetupState := .make fun p => (e.at p).link.setup
  let e := pl.orders.foldl (giveOrder T) e
  let e := actOnTargets T changed e
  let e := { e with short := g.short pl.view }
  let e := report force (g.achieved pl.view e) e
  let judged : Engine := e.eachPos fun p e => e.modify p fun x =>
    { x with st := pl.view.get p, link := { x.link with setup := setups.get p } }
  ({ e with res := e.res.rise T e.now }, judged)

/-- The handshakes that R111 allows now. -/
def handshakes (w : Works) : Works := { w with eng := w.eng.eachPos (handshake w.tab) }

/-- Whether a pending commit applies at this event (R178): the unit is steady and moved at it. -/
def commitDue (start : Engine) (w : Works) : Bool := w.commitPending && steady w.eng && movedBetween start w.eng

/-- A pending commit applied where it is due. -/
def commitWhenDue (start : Engine) (w : Works) : Works := if commitDue start w then applyCommit w else w

/-- The record before an evaluation: ramps re-stepped where the resolved notch changed or a commit applied (R134), the expired
linger timer stopped. -/
def beforeTargets (T : Tables) (linger : Option Pos) (turned : Bool) (e : Engine) : Engine :=
  stopLinger linger (if turned then restepAll T e else e)

/-- The rounds of the close of an event: `start` is the record before the event, `ref` the one at the last evaluation. A setup
that a write made UNSET prompts an evaluation, also where its handshake makes it SENT again (R21, R111, R113). -/
def closeRounds (start : Engine) : Nat → Works → Option Pos → Bool → Works → Works
  | 0, _, _, _, w => w
  | fuel + 1, ref, linger, commit, w =>
    let asked := prompted ref w
    let greeted := handshakes w
    let w := commitWhenDue start greeted
    let commit := commit || commitDue start greeted
    let linger := if linger.isSome then linger else zeroLinger w.eng
    let turned := ref.eng.res.resolved != w.eng.res.resolved || commit
    let e := beforeTargets w.tab linger turned w.eng
    let changed := Pos.all.filter (slotStale w.tab e)
    let e := writeSlots w.tab e
    if asked || prompted ref w || commit || linger.isSome then
      let judgedOn := evaluate w.tab linger (turned || condsTurned ref w) changed e
      closeRounds start fuel { w with eng := judgedOn.2 } none false { w with eng := judgedOn.1 }
    else if changed.isEmpty then { w with eng := e }
    else closeRounds start fuel ref none false { w with eng := actOnTargets w.tab changed e }

/-- Rounds of one event: more than the single rises, state changes and zero lingers one event can chain (log 27). -/
def closeFuel : Nat := 200

/-- The close of an event that began at `start` (R21): the rounds, then each position's DRIVE content. -/
def closeEventWith (linger : Option Pos) (commit : Bool) (start w : Works) : Works :=
  let w := closeRounds start.eng closeFuel start linger commit w
  { w with eng := w.eng.eachPos (refreshDrive w.tab start.eng) }

/-- The close of an ordinary event. -/
def closeEvent (start w : Works) : Works := closeEventWith none false start w

/-- An event that acts on the engine record alone, closed. -/
def Works.event (w : Works) (f : Tables → Engine → Engine) : Works :=
  closeEvent w { w with eng := f w.tab w.eng }

end Sys2Proof.Machine
end

