-- ==== Sys2Proof/Machine/Meter.lean ====
section
/-! DEFINITION. The Run-Hour Meters and the hour-meter hold (R63 to R66). -/

namespace Sys2Proof.Machine

/-- The highest meter value (R63). -/
def meterTop : Nat := 999999

/-- Whether a meter counts (R64): speed at or above running_rpm, profile defined, not ABSENT. -/
def counts (T : Tables) (p : Pos) (x : Position) : Bool :=
  x.st != .absent &&
    match T.profile p with
    | none => false
    | some pr => decide (pr.runningRpm ≤ x.pickup.speed)

/-- The accumulator has reached 360 s (R64): it returns to 0 and the meter takes an increment. -/
def Meter.rollover (m : Meter) (hold : Bool) : Meter :=
  if hold then { m with acc := 0, pendingInc := true } else { m with acc := 0, value := min (m.value + 1) meterTop }

/-- The pending increment applied at the end of a hold (R65). -/
def Meter.applyPending (m : Meter) : Meter :=
  if m.pendingInc then { m with value := min (m.value + 1) meterTop, pendingInc := false } else m

/-- One position's meter replaced in the block. -/
def Block.setMeter (b : Block) (p : Pos) (m : Meter) : Block :=
  { b with works := { b.works with eng := b.works.eng.modify p fun x => { x with meter := m } } }

/-- One position's meter. -/
def Block.meter (b : Block) (p : Pos) : Meter := (b.works.eng.at p).meter

/-- One position's meter replaced, and its cell written with the new value. -/
def Block.writeMeter (b : Block) (p : Pos) (m : Meter) : Block :=
  { b.setMeter p m with nv := { b.nv with meters := b.nv.meters.set p (some m.value) } }

/-- A rollover of one meter (R64): the cell is written when the meter changes. -/
def rolloverAt (p : Pos) (b : Block) : Block :=
  let m := b.meter p
  let m' := m.rollover b.hours.hold
  if m'.value = m.value then b.setMeter p m' else b.writeMeter p m'

/-- The 1 s tick at one meter (R64). -/
def tickAt (p : Pos) (b : Block) : Block :=
  let m := b.meter p
  if counts b.works.tab p (b.works.eng.at p) then
    if 359 ≤ m.acc then rolloverAt p b else b.setMeter p { m with acc := m.acc + 1 }
  else b

/-- A meter's pending increment applied and written to its cell (R65). -/
def applyPendingAt (p : Pos) (b : Block) : Block :=
  let m := b.meter p
  if m.pendingInc then b.writeMeter p m.applyPending else b

/-- The same done for every position in letter order. -/
def Block.eachPos (b : Block) (f : Pos → Block → Block) : Block := f .D (f .C (f .B (f .A b)))

/-- HOLD_HOURS (R65): the hold made active with a full 10 s. -/
def startHold (b : Block) : Block :=
  { b with hours := { b.hours with hold := true, holdT := b.works.eng.timer (sec 10) } }

/-- The end of a hold, by release or expiry (R65). -/
def endHold (b : Block) : Block :=
  let b := b.eachPos applyPendingAt
  { b with hours := { b.hours with hold := false, holdT := .stopped } }

/-- RELEASE_HOURS (R65): nothing when no hold is active. -/
def releaseHold (b : Block) : Block := if b.hours.hold then endHold b else b

end Sys2Proof.Machine
end

