-- ==== Sys2Proof/Machine/Operands.lean ====
section
/-! DEFINITION. The operand forms: the frame envelope and its check (R184), the checks of consist-line frames (R156, R157,
R185), the SAMPLE frame (R105, R186) and the table entries as carried in MGMT frames (R187, with the ranges of each table). -/

namespace Sys2Proof.Machine

/-! ## Numbers in bytes (spec/11: most significant byte first, signed numbers in two's complement) -/

/-- The two bytes of a number. -/
def be16 (n : Nat) : List Byte := [BitVec.ofNat 8 (n / 256), BitVec.ofNat 8 n]

/-- The four bytes of a number. -/
def be32 (n : Nat) : List Byte := be16 (n / 65536) ++ be16 n

/-- The two bytes of a signed number. -/
def beInt16 (i : Int) : List Byte := be16 (BitVec.ofInt 16 i).toNat

/-- An unsigned number from two bytes. -/
def u16 (hi lo : Byte) : Nat := hi.toNat * 256 + lo.toNat

/-- A signed number from two bytes. -/
def s16 (hi lo : Byte) : Int := (BitVec.ofNat 16 (u16 hi lo)).toInt

/-- A yes/no byte: 0 or 1 (R187). -/
def yesNo (b : Byte) : Option Bool :=
  if b = 0 then some false else if b = 1 then some true else none

/-- The byte of a yes/no field. -/
def boolByte (b : Bool) : Byte := if b then 1 else 0

/-- Whether a number lies in a range, both ends included (spec/00, Ranges). -/
def within (lo hi n : Nat) : Bool := decide (lo ≤ n) && decide (n ≤ hi)

/-- The same for a signed number. -/
def withinInt (lo hi i : Int) : Bool := decide (lo ≤ i) && decide (i ≤ hi)

/-- A value kept only when it passes a check. -/
def keepIf {α : Type} (ok : Bool) (x : α) : Option α := if ok then some x else none

/-! ## The CRC-16 (R184) -/

/-- One bit of the register: x¹⁶ + x¹² + x⁵ + 1, most significant bit first. -/
def crcBit (c : Check) : Check :=
  if c.msb then (c <<< 1) ^^^ 0x1021#16 else c <<< 1

/-- One byte taken into the register. -/
def crcByte (c : Check) (b : Byte) : Check :=
  let c := c ^^^ (b.zeroExtend 16 <<< 8)
  crcBit (crcBit (crcBit (crcBit (crcBit (crcBit (crcBit (crcBit c)))))))

/-- The CRC-16 of some bytes: the register starts at all ones, no final inversion. -/
def crc16 (bytes : List Byte) : Check := bytes.foldl crcByte 0xFFFF#16

/-- The bytes of a frame with its envelope (R184). -/
def envelope (kind : Byte) (payload : List Byte) : List Byte :=
  let body := BitVec.ofNat 8 payload.length :: kind :: payload
  body ++ be16 (crc16 body).toNat

/-- A frame from the bytes received: the length field agrees with the bytes, does not exceed 120, and the check holds
(R156, items 1 and 2). -/
def openEnvelope (raw : List Byte) : Option Frame :=
  match raw with
  | len :: kind :: rest =>
    let payload := rest.take len.toNat
    keepIf (decide (len.toNat ≤ 120) && decide (rest.length = len.toNat + 2)
      && decide (rest.drop len.toNat = be16 (crc16 (len :: kind :: payload)).toNat)) ⟨kind, payload⟩
  | _ => none

/-- The bytes of a consist-line frame on the line. -/
def Frame.wire (f : Frame) : List Byte := envelope f.kind f.payload

/-! ## Consist-line frames (R185) -/

/-- Kind numbers (R185). -/
def kindNotch : Byte := 0x10
def kindEngineReq : Byte := 0x11
def kindEnumerate : Byte := 0x12
def kindPoll : Byte := 0x13
def kindMgmt : Byte := 0x14
def kindStatus : Byte := 0x20
def kindMgmtReply : Byte := 0x21

/-- The kinds that travel downstream (R157). -/
def downstreamKind (k : Byte) : Bool :=
  k == kindNotch || k == kindEngineReq || k == kindEnumerate || k == kindPoll || k == kindMgmt

/-- The kinds that travel upstream (R157). -/
def upstreamKind (k : Byte) : Bool := k == kindStatus || k == kindMgmtReply

/-- Every other kind number is unknown (R185). -/
def knownKind (k : Byte) : Bool := downstreamKind k || upstreamKind k

/-- Items 3 and 4 of R156 on a known kind: payload length of the layout, and the fields checked on arrival.
An unknown kind's payload is not examined. -/
def layoutOk (f : Frame) : Bool :=
  if f.kind = kindNotch then
    match f.payload with
    | [group, _, _] => within 1 4 group.toNat
    | _ => false
  else if f.kind = kindEngineReq then
    match f.payload with
    | [group, target, position, request] =>
      within 1 4 group.toNat && within 1 15 target.toNat && within 0 4 position.toNat && within 0 3 request.toNat
    | _ => false
  else if f.kind = kindEnumerate then f.payload.length == 1
  else if f.kind = kindPoll then
    match f.payload with
    | [group, target] => within 1 4 group.toNat && within 1 15 target.toNat
    | _ => false
  else if f.kind = kindMgmt then
    match f.payload with
    | target :: _ :: _ :: _ :: _ :: count :: _ => within 1 15 target.toNat && within 1 4 count.toNat
    | _ => false
  else if f.kind = kindStatus then f.payload.length == 71
  else if f.kind = kindMgmtReply then decide (6 ≤ f.payload.length)
  else true

/-- A frame that R156 lets through: at most 120 payload bytes and items 3 and 4. -/
def Frame.ok (f : Frame) : Bool := decide (f.payload.length ≤ 120) && layoutOk f

/-- A known kind on the port of the other direction (R157). -/
def wrongPort (port : Port) (k : Byte) : Bool :=
  match port with
  | .up => upstreamKind k
  | .down => downstreamKind k

/-- Whether the bytes received at a port are discarded and counted (R156, R157). -/
def discarded (port : Port) (raw : List Byte) : Bool :=
  match openEnvelope raw with
  | none => true
  | some f => !layoutOk f || wrongPort port f.kind

/-- The NOTCH frame of a command. -/
def notchFrame (group value flags : Byte) : Frame := ⟨kindNotch, [group, value, flags]⟩

/-- The ENGINE_REQ frame of a command. -/
def engineReqFrame (group target position request : Byte) : Frame := ⟨kindEngineReq, [group, target, position, request]⟩

/-- The POLL frame of a command. -/
def pollFrame (group target : Byte) : Frame := ⟨kindPoll, [group, target]⟩

/-- The ENUMERATE frame of a command. -/
def enumerateFrame (nextAddr : Byte) : Frame := ⟨kindEnumerate, [nextAddr]⟩

/-- The MGMT frame of a command with an op byte. -/
def mgmtFrame (op : Byte) (r : MgmtReq) : Frame :=
  ⟨kindMgmt, r.target :: r.tag :: op :: r.table :: r.first :: r.count :: r.entries⟩

/-- The kind number of an upstream kind. -/
def upKindByte : UpKind → Byte
  | .status => kindStatus
  | .mgmtReply => kindMgmtReply

/-- The positions an ENGINE_REQ names: one, or all four for ALL (R185). -/
def positionsNamed (b : Byte) : List Pos :=
  if b.toNat = 4 then Pos.all else (Pos.ofNat? b.toNat).toList

/-! ## SAMPLE (R105, R186) -/

/-- The fields of a SAMPLE payload. -/
def sampleFields : List Byte → Option Sample
  | [s1, s0, o1, o0, c1, c0, flags, echo, code] =>
    some { speedRpm := u16 s1 s0, oilKpa := u16 o1 o0, coolantC := s16 c1 c0, settled := flags.getLsbD 0,
           fresh := flags.getLsbD 1, localPanel := flags.getLsbD 2, setupEcho := echo.toNat, faultCode := code.toNat }
  | _ => none

/-- The ranges of R105. -/
def Sample.inRange (x : Sample) : Bool :=
  within 0 4000 x.speedRpm && within 0 1000 x.oilKpa && withinInt (-50) 150 x.coolantC

/-- A valid SAMPLE from the bytes received on a station link (R105, R184): check, kind 01, length 9, ranges. -/
def sampleOfRaw (raw : List Byte) : Option Sample :=
  match openEnvelope raw with
  | none => none
  | some f =>
    if f.kind = 0x01 then
      match sampleFields f.payload with
      | none => none
      | some x => keepIf x.inRange x
    else none

/-- The payload of a SAMPLE (R186). -/
def Sample.payload (x : Sample) : List Byte :=
  be16 x.speedRpm ++ be16 x.oilKpa ++ beInt16 x.coolantC ++
    [BitVec.ofNat 8 (x.settled.toNat + 2 * x.fresh.toNat + 4 * x.localPanel.toNat),
     BitVec.ofNat 8 x.setupEcho, BitVec.ofNat 8 x.faultCode]

/-- The bytes of a SAMPLE on the link. -/
def Sample.wire (x : Sample) : List Byte := envelope 0x01 x.payload

/-- The bytes of a frame to the station (R186). -/
def StationFrame.wire : StationFrame → List Byte
  | .clear => envelope 0x02 []
  | .setup s =>
    envelope 0x03 (BitVec.ofNat 8 s.setupId :: be16 s.idleRpm ++ be16 s.maxRpm ++
      [BitVec.ofNat 8 s.droopPermille, BitVec.ofNat 8 s.govSet])
  | .drive d =>
    envelope 0x04 (be16 d.setpointRpm ++ [BitVec.ofNat 8 (d.fuelEnable.toNat + 2 * d.prelube.toNat)])

/-! ## Table entries (R187) -/

/-- The number of entries of a table (spec/00, Tables); `none` for a byte that names no table. -/
def tableSize : Nat → Option Nat
  | 1 => some 1
  | 2 => some 4
  | 3 => some 4
  | 4 => some 9
  | 5 => some 9
  | 6 => some 64
  | 7 => some 4
  | 8 => some 16
  | 9 => some 16
  | 10 => some 4
  | _ => none

/-- The bytes of one entry of a table (R187). -/
def entrySize : Nat → Nat
  | 1 => 8
  | 2 => 2
  | 3 => 25
  | 4 => 11
  | 5 => 11
  | 6 => 11
  | 7 => 2
  | 8 => 12
  | 9 => 4
  | 10 => 4
  | _ => 0

/-- One entry of a WRITE burst. -/
inductive Entry where
  | t1 (x : UnitParams)
  | t2 (x : PosEntry)
  | t3 (x : Profile)
  | t4 (x : SchedEntry)
  | t6 (x : StepRec)
  | t7 (x : SelectEntry)
  | t8 (x : ProtEntry)
  | t9 (x : DispEntry)
  | t10 (meter : Nat)
  deriving DecidableEq, Repr

/-- T1 with the ranges of R9. -/
def readT1 : List Byte → Option UnitParams
  | [n1, n0, a1, a0, cap, rest, guardS, pwm] =>
    let x : UnitParams := ⟨u16 n1 n0, u16 a1 a0, cap.toNat, rest.toNat, guardS.toNat, pwm.toNat⟩
    keepIf (within 200 60000 x.notchTimeoutMs && within 1 3600 x.achieveLimitS && within 0 8 x.notchCap
      && within 0 255 x.crankRestS && within 1 255 x.crankGuardS && within 2 20 x.pwmPeriodMs) x
  | _ => none

/-- T2 (R187). -/
def readT2 : List Byte → Option PosEntry
  | [present, profile] =>
    match yesNo present with
    | none => none
    | some y => if h : profile.toNat < 4 then some ⟨y, ⟨profile.toNat, h⟩⟩ else none
  | _ => none

/-- T3 with the ranges of R39 and its joining rules (R173). -/
def readT3 : List Byte → Option Profile
  | [i1, i0, m1, m0, o1, o0, r1, r0, t1, t0, filter, s1, s0, d1, d0, l1, l0, g1, g0, p1, p0, h1, h0, droop, gov] =>
    let x : Profile :=
      { idleRpm := u16 i1 i0, maxRpm := u16 m1 m0, overspeedRpm := u16 o1 o0, runningRpm := u16 r1 r0,
        teeth := u16 t1 t0, filterUs := filter.toNat, sampleTimeoutMs := u16 s1 s0, disagreeTolRpm := u16 d1 d0,
        settleLimitMs := u16 l1 l0, lingerS := u16 g1 g0, stopLimitS := u16 p1 p0, holdLimitS := u16 h1 h0,
        droopPermille := droop.toNat, govSet := gov.toNat }
    keepIf (within 400 1200 x.idleRpm && within (x.idleRpm + 100) 2400 x.maxRpm
      && within (x.maxRpm + 50) 4000 x.overspeedRpm && within 50 x.idleRpm x.runningRpm && within 20 400 x.teeth
      && (x.filterUs == 8 || x.filterUs == 16 || x.filterUs == 32 || x.filterUs == 64)
      && within 100 5000 x.sampleTimeoutMs && within 10 500 x.disagreeTolRpm && within 100 60000 x.settleLimitMs
      && within 0 3600 x.lingerS && within 1 600 x.stopLimitS && within 1 3600 x.holdLimitS) x
  | _ => none

/-- T4 with the ranges of R17 and its joining rules (R173); the notch is the entry's index. -/
def readT4 (notch : Nat) : List Byte → Option SchedEntry
  | [run, online, s1, s0, l1, l0, u1, u0, d1, d0, dwell] =>
    let x : SchedEntry :=
      { runningRequired := run.toNat, onlineRequired := online.toNat, speedRpm := u16 s1 s0,
        loadPermille := u16 l1 l0, rampUp := u16 u1 u0, rampDown := u16 d1 d0, dwellS := dwell.toNat }
    keepIf (within 0 4 x.runningRequired && within 0 x.runningRequired x.onlineRequired && within 400 2400 x.speedRpm
      && within 0 1000 x.loadPermille && within 1 1000 x.rampUp && within 1 1000 x.rampDown && within 0 60 x.dwellS
      && (notch != 0 || (x.onlineRequired == 0 && x.loadPermille == 0))) x
  | _ => none

/-- Step kinds by number (R187). -/
def stepKindOf : Nat → Option StepKind
  | 0 => some .prelube
  | 1 => some .purge
  | 2 => some .crank
  | 3 => some .settle
  | 4 => some .warm
  | 5 => some .dwell
  | _ => none

/-- The threshold range of a kind (R68). -/
def thresholdOk (k : StepKind) (t : Int) : Bool :=
  match k with
  | .prelube | .settle => withinInt 0 1000 t
  | .purge | .dwell => t == 0
  | .crank => withinInt 50 1000 t
  | .warm => withinInt (-40) 120 t

/-- T6 with the ranges of R67 and R68. -/
def readT6 : List Byte → Option StepRec
  | [kind, h1, h0, l1, l0, onLimit, retries, r1, r0, report, next] =>
    match stepKindOf kind.toNat, yesNo onLimit, yesNo report with
    | some k, some lim, some rep =>
      let x : StepRec :=
        { kind := k, threshold := s16 h1 h0, timeLimitS := u16 l1 l0, onLimit := if lim then .pass else .fail,
          retries := retries.toNat, retryRestS := u16 r1 r0, report := rep, next := next.toNat }
      keepIf (thresholdOk k x.threshold && within 1 600 x.timeLimitS && within 0 3 x.retries
        && within 0 300 x.retryRestS && within 0 127 x.next) x
    | _, _, _ => none
  | _ => none

/-- T7 with the ranges of R70. -/
def readT7 : List Byte → Option SelectEntry
  | [upper, entry] =>
    keepIf (withinInt (-40) 120 upper.toInt && within 0 63 entry.toNat) ⟨upper.toInt, entry.toNat⟩
  | _ => none

/-- Quantities by number (R187). -/
def quantityOf : Nat → Option Quantity
  | 0 => some .oil
  | 1 => some .coolant
  | 2 => some .stationSpeed
  | 3 => some .pickupSpeed
  | 4 => some .stationFault
  | _ => none

/-- Actions by number (R187). -/
def actionOf : Nat → Option Action
  | 0 => some .derate
  | 1 => some .unload
  | 2 => some .shutdown
  | _ => none

/-- The threshold range of a quantity (R140). -/
def limitOk (q : Quantity) (t : Int) : Bool :=
  match q with
  | .oil => withinInt 0 1000 t
  | .coolant => withinInt (-50) 150 t
  | .stationSpeed | .pickupSpeed => withinInt 0 4000 t
  | .stationFault => withinInt 0 255 t

/-- The derate_pct of an action (R140). -/
def deratePctOk (a : Action) (pct : Nat) : Bool :=
  match a with
  | .derate => within 10 90 pct
  | .unload | .shutdown => pct == 0

/-- T8 with the ranges of R140; positions bits 4 to 7 must be clear (R187). -/
def readT8 : List Byte → Option ProtEntry
  | [enabled, positions, quantity, sense, h1, h0, m1, m0, p1, p0, action, pct] =>
    match yesNo enabled, quantityOf quantity.toNat, yesNo sense, actionOf action.toNat with
    | some en, some q, some se, some ac =>
      let x : ProtEntry :=
        { enabled := en,
          positions := ⟨positions.getLsbD 0, positions.getLsbD 1, positions.getLsbD 2, positions.getLsbD 3⟩,
          quantity := q, sense := if se then .above else .below, threshold := s16 h1 h0, minRpm := u16 m1 m0,
          persistMs := u16 p1 p0, action := ac, deratePct := pct.toNat }
      keepIf (within 0 15 positions.toNat && limitOk q x.threshold && within 0 3000 x.minRpm
        && within 0 10000 x.persistMs && deratePctOk ac x.deratePct) x
    | _, _, _, _ => none
  | _ => none

/-- Dispatch kinds by number (R187). -/
def dispKindOf : Nat → Option DispKind
  | 0 => some .notch
  | 1 => some .engineReq
  | 2 => some .poll
  | 3 => some .any
  | _ => none

/-- Dispatch actions by number (R187). -/
def dispActionOf : Nat → Option DispAction
  | 0 => some .actAndPass
  | 1 => some .actOnly
  | 2 => some .passOnly
  | 3 => some .discard
  | _ => none

/-- T9 (R160, R187). -/
def readT9 : List Byte → Option DispEntry
  | [enabled, kind, group, action] =>
    match yesNo enabled, dispKindOf kind.toNat, dispActionOf action.toNat with
    | some en, some k, some a => keepIf (within 0 4 group.toNat) ⟨en, k, group.toNat, a⟩
    | _, _, _ => none
  | _ => none

/-- T10 (R66). -/
def readT10 : List Byte → Option Nat
  | [b3, b2, b1, b0] =>
    let n := u16 b3 b2 * 65536 + u16 b1 b0
    keepIf (within 0 999999 n) n
  | _ => none

/-- An entry of a WRITE to a table at an index, when every field is in range (R173, check 6). -/
def readEntry (table index : Nat) (bytes : List Byte) : Option Entry :=
  match table with
  | 1 => (readT1 bytes).map .t1
  | 2 => (readT2 bytes).map .t2
  | 3 => (readT3 bytes).map .t3
  | 4 => (readT4 index bytes).map .t4
  | 6 => (readT6 bytes).map .t6
  | 7 => (readT7 bytes).map .t7
  | 8 => (readT8 bytes).map .t8
  | 9 => (readT9 bytes).map .t9
  | 10 => (readT10 bytes).map .t10
  | _ => none

/-- `count` pieces of `size` bytes. -/
def pieces (size : Nat) : Nat → List Byte → List (List Byte)
  | 0, _ => []
  | n + 1, bytes => bytes.take size :: pieces size n (bytes.drop size)

/-! The layouts of the entries as a READ returns them (R187). -/

def stepKindByte : StepKind → Byte
  | .prelube => 0
  | .purge => 1
  | .crank => 2
  | .settle => 3
  | .warm => 4
  | .dwell => 5

def quantityByte : Quantity → Byte
  | .oil => 0
  | .coolant => 1
  | .stationSpeed => 2
  | .pickupSpeed => 3
  | .stationFault => 4

def actionByte : Action → Byte
  | .derate => 0
  | .unload => 1
  | .shutdown => 2

def dispKindByte : DispKind → Byte
  | .notch => 0
  | .engineReq => 1
  | .poll => 2
  | .any => 3

def dispActionByte : DispAction → Byte
  | .actAndPass => 0
  | .actOnly => 1
  | .passOnly => 2
  | .discard => 3

def UnitParams.bytes (x : UnitParams) : List Byte :=
  be16 x.notchTimeoutMs ++ be16 x.achieveLimitS ++
    [BitVec.ofNat 8 x.notchCap, BitVec.ofNat 8 x.crankRestS, BitVec.ofNat 8 x.crankGuardS, BitVec.ofNat 8 x.pwmPeriodMs]

def PosEntry.bytes (x : PosEntry) : List Byte := [boolByte x.present, BitVec.ofNat 8 x.profile]

def Profile.bytes (x : Profile) : List Byte :=
  be16 x.idleRpm ++ be16 x.maxRpm ++ be16 x.overspeedRpm ++ be16 x.runningRpm ++ be16 x.teeth ++
    [BitVec.ofNat 8 x.filterUs] ++ be16 x.sampleTimeoutMs ++ be16 x.disagreeTolRpm ++ be16 x.settleLimitMs ++
    be16 x.lingerS ++ be16 x.stopLimitS ++ be16 x.holdLimitS ++
    [BitVec.ofNat 8 x.droopPermille, BitVec.ofNat 8 x.govSet]

def SchedEntry.bytes (x : SchedEntry) : List Byte :=
  [BitVec.ofNat 8 x.runningRequired, BitVec.ofNat 8 x.onlineRequired] ++ be16 x.speedRpm ++ be16 x.loadPermille ++
    be16 x.rampUp ++ be16 x.rampDown ++ [BitVec.ofNat 8 x.dwellS]

def StepRec.bytes (x : StepRec) : List Byte :=
  [stepKindByte x.kind] ++ beInt16 x.threshold ++ be16 x.timeLimitS ++
    [boolByte (x.onLimit == .pass), BitVec.ofNat 8 x.retries] ++ be16 x.retryRestS ++
    [boolByte x.report, BitVec.ofNat 8 x.next]

def SelectEntry.bytes (x : SelectEntry) : List Byte := [BitVec.ofInt 8 x.upperC, BitVec.ofNat 8 x.entryStep]

def ProtEntry.bytes (x : ProtEntry) : List Byte :=
  [boolByte x.enabled,
   BitVec.ofNat 8 (x.positions.a.toNat + 2 * x.positions.b.toNat + 4 * x.positions.c.toNat + 8 * x.positions.d.toNat),
   quantityByte x.quantity, boolByte (x.sense == .above)] ++ beInt16 x.threshold ++ be16 x.minRpm ++
    be16 x.persistMs ++ [actionByte x.action, BitVec.ofNat 8 x.deratePct]

def DispEntry.bytes (x : DispEntry) : List Byte :=
  [boolByte x.enabled, dispKindByte x.kind, BitVec.ofNat 8 x.group, dispActionByte x.action]

/-- One entry of a READ reply: the defined byte and the layout; an undefined entry reads all zeros (R176, R187). -/
def markedBytes (size : Nat) : Option (List Byte) → List Byte
  | none => 0 :: List.replicate size 0
  | some bytes => 1 :: bytes

end Sys2Proof.Machine
end

