-- ==== Sys2Proof/Machine/Relay.lean ====
section
/-! DEFINITION. The Line Relay: the three queues and the two transmitters, carrier changes, counters, ENUMERATE and dispatch
(R154 to R168). -/

namespace Sys2Proof.Machine

/-- A frame discarded at a port, counted once (R156, R168). -/
def Relay.countBad (r : Relay) (port : Port) : Relay :=
  match port with
  | .up => { r with badUp := saturate r.badUp }
  | .down => { r with badDown := saturate r.badDown }

/-- The DOWN transmitter takes the oldest frame when it is idle, with DOWN in CARRIER (R162). -/
def Relay.serveDown (r : Relay) : Relay :=
  match r.downCarrier, r.downTx, r.downQ with
  | true, none, f :: rest => { r with downTx := some f, downQ := rest }
  | _, _, _ => r

/-- A frame passed downstream (R155, R162). -/
def Relay.passDown (r : Relay) (f : Frame) : Relay :=
  if !r.downCarrier then r
  else if r.downQ.length < 4 then ({ r with downQ := r.downQ ++ [f] }).serveDown
  else { r with relayDrops := saturate r.relayDrops }

/-- The place kept in a queue by the frame being sent on UP (R163, R164). -/
def Relay.placeKept (r : Relay) (src : Source) : Nat :=
  match r.upTx with
  | none => 0
  | some (s, _) => if s = src then 1 else 0

/-- The frames counted in the upstream relay queue (R163). -/
def Relay.upCount (r : Relay) : Nat := r.upQ.length + r.placeKept .relay

/-- The frames counted in the local queue (R164). -/
def Relay.localCount (r : Relay) : Nat := r.localQ.length + r.placeKept .localQ

/-- Whether the local queue has room for one more frame (R164). -/
def Relay.hasRoom (r : Relay) : Bool := decide (r.localCount < 4)

/-- The oldest frame of the upstream relay queue begun on UP (R165). -/
def Relay.beginRelay (r : Relay) (f : Frame) (rest : List Frame) : Relay :=
  { r with upTx := some (.relay, f), upQ := rest, lastSource := .relay }

/-- The oldest frame of the local queue begun on UP (R165). -/
def Relay.beginLocal (r : Relay) (f : Frame) (rest : List Frame) : Relay :=
  { r with upTx := some (.localQ, f), localQ := rest, lastSource := .localQ }

/-- The choice of the UP transmitter (R165): alternation while both queues hold frames. -/
def Relay.serveUp (r : Relay) : Relay :=
  if r.upCarrier ∧ r.upTx = none then
    match r.upQ, r.localQ with
    | [], [] => r
    | f :: rest, [] => r.beginRelay f rest
    | [], g :: rest => r.beginLocal g rest
    | f :: restUp, g :: restLocal =>
      if r.lastSource = .relay then r.beginLocal g restLocal else r.beginRelay f restUp
  else r

/-- A frame from behind queued toward the cab (R163). -/
def Relay.queueUp (r : Relay) (f : Frame) : Relay :=
  if r.upCount < 8 then ({ r with upQ := r.upQ ++ [f] }).serveUp else { r with relayDrops := saturate r.relayDrops }

/-- A frame of this unit queued in the local queue, room having been found (R164). -/
def Relay.queueLocal (r : Relay) (f : Frame) : Relay := ({ r with localQ := r.localQ ++ [f] }).serveUp

/-- A reply due at a later event: queued, or lost and counted in reply_drops (R168, R179). -/
def Relay.queueLate (r : Relay) (f : Frame) : Relay :=
  if r.hasRoom then r.queueLocal f else { r with replyDrops := saturate r.replyDrops }

/-- DOWN loses carrier (R155). -/
def Relay.downLost (r : Relay) : Relay := { r with downCarrier := false, downQ := [], downTx := none }

/-- DOWN gains carrier (R155). -/
def Relay.downGained (r : Relay) : Relay := ({ r with downCarrier := true }).serveDown

/-- UP loses carrier (R155): the frame in transmission goes back to the head of its queue. -/
def Relay.upLost (r : Relay) : Relay :=
  match r.upTx with
  | none => { r with upCarrier := false }
  | some (.relay, f) => { r with upCarrier := false, upTx := none, upQ := f :: r.upQ }
  | some (.localQ, f) => { r with upCarrier := false, upTx := none, localQ := f :: r.localQ }

/-- UP gains carrier (R155, R165). -/
def Relay.upGained (r : Relay) : Relay := ({ r with upCarrier := true }).serveUp

/-- A transmission on DOWN ends (R162). -/
def Relay.downEnd (r : Relay) : Relay := ({ r with downTx := none }).serveDown

/-- A transmission on UP ends (R165). -/
def Relay.upEnd (r : Relay) : Relay := ({ r with upTx := none }).serveUp

/-- ENUMERATE at its arrival (R159): the address and the frame passed. -/
def Relay.enumerate (r : Relay) (nextAddr : Byte) : Relay :=
  if within 1 14 nextAddr.toNat then
    ({ r with address := nextAddr.toNat }).passDown (enumerateFrame (nextAddr + 1))
  else ({ r with address := 0 }).passDown (enumerateFrame nextAddr)

/-- Whether a target names this unit (R158, R161). -/
def Relay.addressed (r : Relay) (target : Byte) : Bool := target.toNat == r.address || target.toNat == 15

/-- Whether an entry matches a frame (R160). -/
def DispEntry.fits (x : DispEntry) (kind : DispKind) (group : Nat) : Bool :=
  x.enabled && (x.kind == .any || x.kind == kind) && (x.group == 0 || x.group == group)

/-- The action the Dispatch Table decides (R160): the first defined, enabled entry that matches, else PASS_ONLY. -/
def dispatch (T : Tables) (kind : DispKind) (group : Nat) : DispAction :=
  match T.t9.toList.find? fun x => x.any fun x => x.fits kind group with
  | some (some x) => x.action
  | _ => .passOnly

/-- Whether an action acts (R160). -/
def DispAction.acts : DispAction → Bool
  | .actAndPass | .actOnly => true
  | .passOnly | .discard => false

/-- Whether an action passes (R160). -/
def DispAction.passes : DispAction → Bool
  | .actAndPass | .passOnly => true
  | .actOnly | .discard => false

/-- The relay of a block changed. -/
def Block.onRelay (b : Block) (f : Relay → Relay) : Block := { b with relay := f b.relay }

/-- The engine blocks and tables changed. -/
def Block.onWorks (b : Block) (f : Works → Works) : Block := { b with works := f b.works }

/-- What arrives on UP: nothing while UP is in NO_CARRIER (R155, log 37). -/
def Block.fromUp (f : Block → Block) (b : Block) : Block := if b.relay.upCarrier then f b else b

/-- A frame on UP that the Dispatch Table decides (R156, R158, R160, R161): discarded and counted, or taken, passed, both or
neither; the taking comes before the passing (log 32). -/
def dispatched (f : Frame) (kind : DispKind) (group : Byte) (mine : Bool) (take : Block → Block) : Block → Block :=
  .fromUp fun b =>
    if f.ok then
      let action := dispatch b.works.tab kind group.toNat
      let b := if action.acts && mine then take b else b
      if action.passes then b.onRelay (·.passDown f) else b
    else b.onRelay (·.countBad .up)

end Sys2Proof.Machine
end

