-- ==== Sys2Proof/Machine/Time.lean ====
section
/-! DEFINITION. The block's clock: what an empty queue does, and the taking of an expiry (logs 1, 2, 3). -/

namespace Sys2Proof.Machine

/-- A command posted when its timer has reached its limit. -/
def postIf (due : Bool) (c : Instr) : List Instr := if due then [c] else []

/-- Whether a running watch has reached its limit (R11). -/
def Watch.isDue (now : Nat) (limit : Option Nat) (x : Watch) : Bool :=
  match x, limit with
  | .running since, some n => decide (since + n ≤ now)
  | _, _ => false

/-- The expiries due at one position. -/
def dueAt (e : Engine) (p : Pos) : List Instr :=
  let x := e.at p
  let due (t : Timer) : Bool := t.isDue e.now
  postIf (due x.lingerT) (.lingerTimerExpires p)
  ++ postIf (due x.holdT) (.holdTimerExpires p)
  ++ postIf (due x.stopT) (.stopTimerExpires p)
  ++ postIf (x.ctx.any fun c => due c.stepT) (.stepTimerExpires p)
  ++ postIf (x.ctx.any fun c => due c.restT) (.retryRestExpires p)
  ++ postIf (due x.link.sampleT) (.sampleTimerExpires p)
  ++ postIf (due x.link.confirmT) (.confirmTimerExpires p)
  ++ postIf (due x.link.refreshT) (.refreshTimerExpires p)
  ++ postIf (due x.link.disagreeT) (.disagreeTimerExpires p)
  ++ postIf (due x.pickup.filterT) (.filterTimerExpires p)
  ++ postIf (due x.pickup.zeroT) (.zeroSpeedTimerExpires p)
  ++ postIf (due x.load.settleT) (.settleTimerExpires p)
  ++ protIndices.flatMap fun i => postIf (due x.prot[i].timer || x.shutdownMet e.now i) (.persistenceTimerExpires p i)

/-- The expiries due now, in a fixed order (log 3). -/
def dueCommands (b : Block) : List Instr :=
  let e := b.works.eng
  postIf (e.res.notchT.isDue e.now) .notchTimerExpires
  ++ postIf (e.res.dwell.isDue e.now (b.works.tab.dwellLimit e.res.resolved)) .dwellTimerExpires
  ++ postIf (e.res.achieve.isDue e.now b.works.tab.achieveLimit) .achieveTimerExpires
  ++ postIf (e.bus.restT.isDue e.now) .restTimerExpires
  ++ postIf (e.bus.guardT.isDue e.now) .guardTimerExpires
  ++ Pos.all.flatMap (dueAt e)
  ++ postIf (e.pwm.timer.isDue e.now) .periodEnd
  ++ postIf (b.hours.tickT.isDue e.now) .runHourTick
  ++ postIf (b.hours.holdT.isDue e.now) .hourHoldTimerExpires

/-- One microsecond passes. -/
def Block.passTime (b : Block) : Block :=
  { b with works := { b.works with eng := { b.works.eng with now := b.works.eng.now + 1 } } }

/-- The clock brought to an instant (log 2). -/
def Block.reach (b : Block) (t : Nat) : Block :=
  { b with works := { b.works with eng := b.works.eng.reach t } }

/-- An empty queue (log 1): the first expiry due is posted, else one microsecond passes; an unpowered part does nothing. -/
def idle (s : State) : State :=
  if s.block.powered then
    match dueCommands s.block with
    | [] => { s with block := s.block.passTime }
    | c :: _ => { s with pending := [c] }
  else s

/-- The expiry of a timer: no effect while it is stopped; else the clock is brought to its limit and the event taken. -/
def Block.expiry (b : Block) (t : Timer) (f : Block → Block) : Block :=
  if t.isRunning then f (b.reach (t.expiryTime b.works.eng.now)) else b

/-- The expiry of a timer whose event acts on the engine record and is then closed. -/
def Block.expiryEvent (b : Block) (t : Timer) (f : Tables → Engine → Engine) : Block :=
  b.expiry t fun b => b.onWorks (·.event f)

/-- The next run of a periodic timer: it starts at the limit of the last. -/
def Timer.again (t : Timer) (now period : Nat) : Timer :=
  match t with
  | .stopped => .running now period
  | .running since last => .running (since + last) period

end Sys2Proof.Machine
end

