-- ==== Sys2Proof/Machine/Answer.lean ====
section
/-! DEFINITION. How a command answers: always with a next state; without supply, or with RESET held low, only a power-on reset has
an effect (R188, log 14). -/

namespace Sys2Proof.Machine

/-- A command's effect on the block, while it is powered. -/
def answer (f : Block → Block) (s : State) : Host.Outcome State Fault Refusal :=
  .next (if s.block.powered then { s with block := f s.block } else s)

/-- A command whose effect does not depend on the supply. -/
def answerAlways (f : Block → Block) (s : State) : Host.Outcome State Fault Refusal :=
  .next { s with block := f s.block }

end Sys2Proof.Machine
end

