-- ==== Sys2Proof/Machine/EngineCommands.lean ====
section
/-! DEFINITION. The commands of the Position Controllers, the Step Executor and the Crank Bus Arbiter: their timers. -/

namespace Sys2Proof.Machine

/-- The hold timer expires (R49). -/
def holdExpires (p : Pos) (T : Tables) (e : Engine) : Engine :=
  fault T p .heldTimeout none (e.modify p fun x => { x with holdT := .stopped })

/-- HOLD_TIMER_EXPIRES (R49). -/
def execHoldTimerExpires (p : Pos) (s : State) : Host.Outcome State Fault Refusal :=
  answer (fun b => b.expiryEvent (b.works.eng.at p).holdT (holdExpires p)) s

/-- The stop timer expires (R51). -/
def stopExpires (p : Pos) (T : Tables) (e : Engine) : Engine :=
  fault T p .failToStop (e.at p).rpmValue (e.modify p fun x => { x with stopT := .stopped })

/-- STOP_TIMER_EXPIRES (R51). -/
def execStopTimerExpires (p : Pos) (s : State) : Host.Outcome State Fault Refusal :=
  answer (fun b => b.expiryEvent (b.works.eng.at p).stopT (stopExpires p)) s

/-- The step timer of a position, stopped where no step context is held (R72). -/
def Position.stepTimer (x : Position) : Timer :=
  match x.ctx with
  | none => .stopped
  | some c => c.stepT

/-- The retry-rest timer of a position, stopped where no step context is held (R72). -/
def Position.restTimer (x : Position) : Timer :=
  match x.ctx with
  | none => .stopped
  | some c => c.restT

/-- STEP_TIMER_EXPIRES (R78). -/
def execStepTimerExpires (p : Pos) (s : State) : Host.Outcome State Fault Refusal :=
  answer (fun b => b.expiryEvent (b.works.eng.at p).stepTimer fun T e =>
    stepExpires T p (e.modify p fun x => { x with ctx := x.ctx.map fun c => { c with stepT := .stopped } })) s

/-- The retry-rest timer expires (R80): the same step is entered again, no visit counted. -/
def retryRestExpires (p : Pos) (T : Tables) (e : Engine) : Engine :=
  match (e.at p).ctx with
  | none => e
  | some c => enterStep T p walkFuel false c.ptr e

/-- RETRY_REST_EXPIRES (R80). -/
def execRetryRestExpires (p : Pos) (s : State) : Host.Outcome State Fault Refusal :=
  answer (fun b => b.expiryEvent (b.works.eng.at p).restTimer (retryRestExpires p)) s

/-- The rest timer of the bus expires (R97). -/
def busRestExpires (T : Tables) (e : Engine) : Engine :=
  grantNext T { e with bus := { e.bus with state := .free, restT := .stopped } }

/-- REST_TIMER_EXPIRES (R97). -/
def execRestTimerExpires (s : State) : Host.Outcome State Fault Refusal :=
  answer (fun b => b.expiryEvent b.works.eng.bus.restT busRestExpires) s

/-- The guard timer expires (R98): the hold ends first, then the holder's start fails. -/
def guardExpires (T : Tables) (e : Engine) : Engine :=
  match e.bus.state with
  | .taken p => failStart T p .crankOverrun (e.at p).rpmValue (freeBus T e)
  | _ => { e with bus := { e.bus with guardT := .stopped } }

/-- GUARD_TIMER_EXPIRES (R98). -/
def execGuardTimerExpires (s : State) : Host.Outcome State Fault Refusal :=
  answer (fun b => b.expiryEvent b.works.eng.bus.guardT guardExpires) s

end Sys2Proof.Machine
end

