-- ==== Sys2Proof/Machine/Flags.lean ====
section
/-! DEFINITION. What the outside sees: the pins, the unit flags, the code numbers and the STATUS frame
(R16, R40, R62, R89, R95, R103, R139, R153, R155, R166, R167, R185, R188). -/

namespace Sys2Proof.Machine

/-! ## Pins -/

/-- Whether the current step of a STARTING position claims the bus (R69, R95). -/
def Position.inBusStep (T : Tables) (x : Position) : Bool :=
  x.st == .starting &&
    match x.ctx with
    | none => false
    | some c => (T.stepRec c.ptr).any fun r => r.kind == .purge || r.kind == .crank

/-- Whether the position holds the crank bus (R103). -/
def Engine.holds (e : Engine) (p : Pos) : Bool := e.bus.state == .taken p

/-- The CRANK line (R95, R188). -/
def Block.crankClosed (b : Block) (p : Pos) : Bool :=
  b.powered && b.works.eng.holds p && (b.works.eng.at p).inBusStep b.works.tab

/-- The STOP line (R40, R188). -/
def Block.stopAsserted (b : Block) (p : Pos) : Bool :=
  b.powered &&
    match (b.works.eng.at p).st with
    | .stopping | .faulted | .isolated => true
    | _ => false

/-- The excitation duty on the output (R139, R188). -/
def Block.excitation (b : Block) (p : Pos) : Nat := if b.powered then (b.works.eng.at p).chan.duty else 0

/-- Whether the excitation output is active now (R133, R139): from the start of each period for the duty's share of it. A period
end not yet taken leaves the clock running (log 2). -/
def Block.excitationActive (b : Block) (p : Pos) : Bool :=
  match b.works.eng.pwm.timer with
  | .stopped => false
  | .running start period => decide ((b.works.eng.now - start) % period * 1000 < b.excitation p * period)

/-- TAIL (R155). -/
def Relay.tail (r : Relay) : Bool := !r.downCarrier

/-! ## Code numbers (R185, 11.5) -/

def PState.code : PState → Byte
  | .absent => 0
  | .off => 1
  | .starting => 2
  | .ready => 3
  | .online => 4
  | .unloading => 5
  | .held => 6
  | .stopping => 7
  | .faulted => 8
  | .isolated => 9

def FaultCode.code : FaultCode → Byte
  | .startFailed => 1
  | .programError => 2
  | .noProgram => 3
  | .stationLost => 4
  | .stalledInStart => 5
  | .crankOverrun => 6
  | .overspeed => 7
  | .protection _ => 8
  | .heldTimeout => 9
  | .unexpectedStop => 10
  | .failToStop => 11

/-- The protection entry index carried beside a fault code (R185). -/
def FaultCode.entryByte : FaultCode → Byte
  | .protection i => BitVec.ofNat 8 i.val
  | _ => 255

def Phase.code : Phase → Nat
  | .steady => 1
  | .speedUp => 2
  | .loadUp => 3
  | .loadDown => 4
  | .speedDown => 5

def SetupState.code : SetupState → Nat
  | .unset => 0
  | .sent => 1
  | .confirmed => 2
  | .failed => 3

/-- A number of flag bits, the first being bit 0. -/
def flagBits : List Bool → Nat
  | [] => 0
  | f :: rest => f.toNat + 2 * flagBits rest

/-! ## STATUS (R167, R185) -/

/-- The step index shown (R62, R89). -/
def Position.stepShown (x : Position) : Option Nat :=
  match x.st with
  | .starting => x.ctx.map (·.ptr)
  | .faulted => x.fault.step
  | _ => none

/-- The held-cause byte (R62): the set in STARTING and HELD. -/
def Position.causesShown (x : Position) : Byte :=
  if x.st.keepsCauses then
    BitVec.ofNat 8
      (flagBits [x.causes.link, x.causes.setup, x.causes.localPanel, x.causes.disagree, x.causes.protect])
  else 0

/-- The fault value (R185): 8000 hexadecimal for none, held at 32767. -/
def faultValueBytes : Option Int → List Byte
  | none => [0x80, 0x00]
  | some v => beInt16 (min v 32767)

/-- The 14 bytes of one position in a STATUS (R185). -/
def positionBytes (T : Tables) (p : Pos) (e : Engine) : List Byte :=
  let x := e.at p
  [x.st.code,
   (match x.stepShown with
    | none => 255
    | some n => BitVec.ofNat 8 n),
   x.causesShown,
   (match x.fault.code with
    | none => 0
    | some c => c.code),
   (match x.fault.code with
    | none => 255
    | some c => c.entryByte)]
  ++ faultValueBytes x.fault.value
  ++ [BitVec.ofNat 8 (flagBits [x.fault.further, x.resetRefused, e.holds p, x.stepEvent, x.load.settleLate]),
      BitVec.ofNat 8 (16 * (match x.load.phase with
        | none => 0
        | some ph => ph.code) + x.link.setup.code)]
  ++ be16 x.chan.duty ++ be16 x.pickup.speed
  ++ [BitVec.ofNat 8 ((x.deratePct T).getD 0)]

/-- The unit flags (R16, R34, R65, R155, R169, R185). -/
def unitFlags (b : Block) : Nat :=
  let r := b.works.eng.res
  flagBits [r.link == .lost, b.relay.tail, !b.works.tab.configured, b.works.eng.short, r.latch, r.runPerm,
    b.works.commitPending, b.saving.isSome, b.hours.hold]

/-- The payload of a STATUS built now (R167). -/
def statusPayload (b : Block) : List Byte :=
  let e := b.works.eng
  [BitVec.ofNat 8 b.relay.address, BitVec.ofNat 8 e.res.demand, BitVec.ofNat 8 e.res.resolved]
  ++ be16 (unitFlags b)
  ++ Pos.all.flatMap (fun p => positionBytes b.works.tab p e)
  ++ be16 b.relay.badUp ++ be16 b.relay.badDown ++ be16 b.relay.relayDrops ++ be16 b.relay.replyDrops
  ++ be16 b.relay.mgmtDrops

/-- The markers a queued STATUS clears (R62, R88, R166). -/
def Position.clearMarkers (x : Position) : Position := { x with stepEvent := false, resetRefused := false }

/-- A taken POLL (R166): a STATUS built and queued with the markers cleared, or reply_drops counted. -/
def answerPoll (b : Block) : Block :=
  if b.relay.hasRoom then
    let b' := b.onRelay (·.queueLocal ⟨kindStatus, statusPayload b⟩)
    { b' with works := { b'.works with eng := b'.works.eng.eachPos fun p e => e.modify p (·.clearMarkers) } }
  else b.onRelay fun r => { r with replyDrops := saturate r.replyDrops }

end Sys2Proof.Machine
end

