-- ==== Sys2Proof/Machine/LineCommands.lean ====
section
/-! DEFINITION. The commands of the consist line: bad and unknown frames, ENUMERATE, POLL, upstream frames, transmission ends
and carrier changes. -/

namespace Sys2Proof.Machine

/-- What arrives at a port: nothing on UP while UP is in NO_CARRIER (R155). -/
def Block.fromPort (port : Port) (f : Block → Block) : Block → Block :=
  match port with
  | .up => .fromUp f
  | .down => f

/-- Bytes received at a port (R156, R157): counted when they are to be discarded. Bytes of a good frame are another command's
matter and change nothing here (log 23). -/
def badBytes (port : Port) (raw : List Byte) (b : Block) : Block :=
  if discarded port raw then b.onRelay (·.countBad port) else b

/-- BAD_FRAME (R156, R157). -/
def execBadFrame (port : Port) (raw : List Byte) (s : State) : Host.Outcome State Fault Refusal :=
  answer (.fromPort port (badBytes port raw)) s

/-- A frame of an unknown kind (R157): passed untouched in its direction; too long, it is discarded and counted (R156).
A known kind is another command's matter (log 23). -/
def unknownFrame (port : Port) (f : Frame) (b : Block) : Block :=
  if knownKind f.kind then b
  else if f.ok then
    match port with
    | .up => b.onRelay (·.passDown f)
    | .down => b.onRelay (·.queueUp f)
  else b.onRelay (·.countBad port)

/-- UNKNOWN_KIND (R157). -/
def execUnknownKind (port : Port) (kind : Byte) (payload : List Byte) (s : State) : Host.Outcome State Fault Refusal :=
  answer (.fromPort port (unknownFrame port ⟨kind, payload⟩)) s

/-- ENUMERATE (R159). -/
def execEnumerate (nextAddr : Byte) (s : State) : Host.Outcome State Fault Refusal :=
  answer (.fromUp (·.onRelay (·.enumerate nextAddr))) s

/-- POLL (R160, R161, R166). -/
def pollArrives (group target : Byte) (b : Block) : Block :=
  dispatched (pollFrame group target) .poll group (b.relay.addressed target) answerPoll b

/-- POLL (R166). -/
def execPoll (group target : Byte) (s : State) : Host.Outcome State Fault Refusal := answer (pollArrives group target) s

/-- A STATUS or MGMT_REPLY arriving on DOWN (R156, R163). -/
def upstreamArrives (f : Frame) (b : Block) : Block :=
  if f.ok then b.onRelay (·.queueUp f) else b.onRelay (·.countBad .down)

/-- UPSTREAM_FRAME_ARRIVES (R163). -/
def execUpstreamFrameArrives (kind : UpKind) (payload : List Byte) (s : State) : Host.Outcome State Fault Refusal :=
  answer (upstreamArrives ⟨upKindByte kind, payload⟩) s

/-- DOWN_TRANSMISSION_END (R162). -/
def execDownTransmissionEnd (s : State) : Host.Outcome State Fault Refusal := answer (·.onRelay Relay.downEnd) s

/-- UP_TRANSMISSION_END (R165). -/
def execUpTransmissionEnd (s : State) : Host.Outcome State Fault Refusal := answer (·.onRelay Relay.upEnd) s

/-- DOWN_LOSES_CARRIER (R155). -/
def execDownLosesCarrier (s : State) : Host.Outcome State Fault Refusal := answer (·.onRelay Relay.downLost) s

/-- DOWN_GAINS_CARRIER (R155). -/
def execDownGainsCarrier (s : State) : Host.Outcome State Fault Refusal := answer (·.onRelay Relay.downGained) s

/-- UP_LOSES_CARRIER (R155). -/
def execUpLosesCarrier (s : State) : Host.Outcome State Fault Refusal := answer (·.onRelay Relay.upLost) s

/-- UP_GAINS_CARRIER (R155). -/
def execUpGainsCarrier (s : State) : Host.Outcome State Fault Refusal := answer (·.onRelay Relay.upGained) s

end Sys2Proof.Machine
end

