-- ==== Sys2Proof/Machine/LoadCommands.lean ====
section
/-! DEFINITION. The commands of loading, excitation, protection and the run-hour meters. -/

namespace Sys2Proof.Machine

/-- The settle timer expires (R127): the phase ends late. -/
def settleExpires (p : Pos) (T : Tables) (e : Engine) : Engine := endSpeedPhase T p true e

/-- SETTLE_TIMER_EXPIRES (R127). -/
def execSettleTimerExpires (p : Pos) (s : State) : Host.Outcome State Fault Refusal :=
  answer (fun b => b.expiryEvent (b.works.eng.at p).load.settleT (settleExpires p)) s

/-- A change of the period taken at a period end (R138): ramp steps and pending duties recomputed before step 1 of R134. -/
def takePeriod (T : Tables) (e : Engine) : Engine :=
  if T.pwmPeriod = e.pwm.periodMs then e else restepAll T { e with pwm := { e.pwm with periodMs := T.pwmPeriod } }

/-- The channels' period end, the period clock running on (R134). -/
def channelsEnd (e : Engine) : Engine :=
  let clock : PwmClock := { e.pwm with timer := e.pwm.timer.again e.now (ms e.pwm.periodMs) }
  { (e.eachPos fun p e => e.modify p fun x => { x with chan := x.chan.periodEnd }) with pwm := clock }

/-- A period end (R134): each completion is an event of its own, in letter order (R136, log 11). -/
def periodEnds (w : Works) : Works :=
  let e := takePeriod w.tab w.eng
  let completing := Pos.all.filter fun p => (e.at p).chan.completes
  completing.foldl (fun w p => w.event fun T e => endLoadPhase T p e) { w with eng := channelsEnd e }

/-- PERIOD_END (R134). -/
def execPeriodEnd (s : State) : Host.Outcome State Fault Refusal :=
  answer (fun b => b.expiry b.works.eng.pwm.timer (·.onWorks periodEnds)) s

/-- The expiry of a persistence timer (R146), also of one that expired at the instant at which the start failed (R87, R101). -/
def persistenceTimer (p : Pos) (entry : Fin 16) (b : Block) : Block :=
  if (b.works.eng.at p).shutdownMet b.works.eng.now entry then
    b.onWorks (·.event fun T e => shutdownAfterFailure T p entry e)
  else b.expiryEvent (b.works.eng.at p).prot[entry].timer fun T e => persistenceExpires T p entry e

/-- PERSISTENCE_TIMER_EXPIRES (R146). -/
def execPersistenceTimerExpires (p : Pos) (entry : Fin 16) (s : State) : Host.Outcome State Fault Refusal :=
  answer (persistenceTimer p entry) s

/-- The common 1 s tick (R64). -/
def hourTick (b : Block) : Block :=
  let b := b.eachPos tickAt
  { b with hours := { b.hours with tickT := b.hours.tickT.again b.works.eng.now (sec 1) } }

/-- RUN_HOUR_TICK (R64). -/
def execRunHourTick (s : State) : Host.Outcome State Fault Refusal :=
  answer (fun b => b.expiry b.hours.tickT hourTick) s

/-- The rollover of one meter taken by itself (R64, log 6): only where the next second counted completes 360 s. -/
def meterIncrement (p : Pos) (b : Block) : Block :=
  if counts b.works.tab p (b.works.eng.at p) ∧ 359 ≤ (b.meter p).acc then rolloverAt p b else b

/-- METER_INCREMENT (R64). -/
def execMeterIncrement (p : Pos) (s : State) : Host.Outcome State Fault Refusal := answer (meterIncrement p) s

/-- HOUR_HOLD_TIMER_EXPIRES (R65). -/
def execHourHoldTimerExpires (s : State) : Host.Outcome State Fault Refusal :=
  answer (fun b => b.expiry b.hours.holdT endHold) s

end Sys2Proof.Machine
end

