-- ==== Sys2Proof/Machine/Mgmt.lean ====
section
/-! DEFINITION. The Management Responder and Table Memory: the taking of a request, the checks and effects of WRITE, READ,
COMMIT, SAVE, isolation and the replies (R59 to R61, R66, R169 to R181, R187). -/

namespace Sys2Proof.Machine

/-- Reply statuses (R171). -/
inductive Status where
  | ok | pending | badTable | badIndex | badValue | readOnly | inUse | busy | incomplete | notHeld | stateWrong
  | saveFailed
  deriving DecidableEq, Repr

/-- Status numbers (11.5). -/
def Status.code : Status → Byte
  | .ok => 0
  | .pending => 1
  | .badTable => 2
  | .badIndex => 3
  | .badValue => 4
  | .readOnly => 5
  | .inUse => 6
  | .busy => 7
  | .incomplete => 8
  | .notHeld => 9
  | .stateWrong => 10
  | .saveFailed => 11

/-- A reply less the echoes of tag and operation (R171). -/
structure Reply where
  table : Byte
  status : Status
  failing : Option Nat
  entries : List (List Byte)
  deriving DecidableEq, Repr

/-- A reply that carries no entries. -/
def plainReply (table : Byte) (status : Status) (failing : Option Nat) : Reply := ⟨table, status, failing, []⟩

/-- The MGMT_REPLY frame (R171, R185). -/
def replyFrame (tag op : Byte) (rp : Reply) : Frame :=
  ⟨kindMgmtReply,
    tag :: op :: rp.table :: rp.status.code ::
      (match rp.failing with
        | none => 255
        | some n => BitVec.ofNat 8 n) ::
      BitVec.ofNat 8 rp.entries.length :: rp.entries.flatten⟩

/-- Op codes (R185). -/
def opWrite : Byte := 1
def opRead : Byte := 2
def opCommit : Byte := 3
def opSave : Byte := 4
def opHoldHours : Byte := 5
def opReleaseHours : Byte := 6
def opIsolate : Byte := 7
def opRestore : Byte := 8
def opRestart : Byte := 9

/-- An MGMT frame on UP (R156, R158): discarded and counted, or taken by `take` when addressed and passed when the target is
not the unit address; the taking comes before the passing. -/
def mgmtFrameTaken (op : Byte) (r : MgmtReq) (take : Block → Block) : Block → Block :=
  .fromUp fun b =>
    let f := mgmtFrame op r
    if f.ok then
      let passes := r.target.toNat != b.relay.address
      let b := if b.relay.addressed r.target then take b else b
      if passes then b.onRelay (·.passDown f) else b
    else b.onRelay (·.countBad .up)

/-- A reply queued in the local queue (R170). -/
def queueReply (op : Byte) (tag : Byte) (rp : Option Reply) (b : Block) : Block :=
  match rp with
  | none => b
  | some rp => b.onRelay (·.queueLocal (replyFrame tag op rp))

/-- An operation other than RESTART (R170): executed with its reply when the local queue has room, else counted. -/
def operation (op : Byte) (r : MgmtReq) (run : Block → Block × Option Reply) (b : Block) : Block :=
  mgmtFrameTaken op r (fun b =>
    if b.relay.hasRoom then
      let (b', rp) := run b
      queueReply op r.tag rp b'
    else b.onRelay fun y => { y with mgmtDrops := saturate y.mgmtDrops }) b

/-! ## Checks (R173, R174) -/

/-- Check 2: the first index outside the table, if any. -/
def indexOutside (size first count : Nat) : Option Nat :=
  if size ≤ first then some first else if size < first + count then some size else none

/-- The indices of a burst. -/
def burst (first count : Nat) : List Nat := (List.range count).map (first + ·)

/-- The states in which T2 and T3 entries may be written (R174). -/
def PState.atRest : PState → Bool
  | .off | .isolated | .absent => true
  | _ => false

/-- The lock of T1 (R138, R174): pwm_period_ms unchanged, or every duty 0. A burst too short to hold the field counts as
unchanged (log 18). -/
def periodLock (b : Block) (entries : List Byte) : Bool :=
  match entries[7]? with
  | none => true
  | some p => p.toNat == b.works.tab.pwmPeriod || Pos.all.all fun q => (b.works.eng.at q).chan.duty == 0

/-- Whether a position uses a profile: its T2 entry is defined and names it (R174). -/
def Tables.uses (T : Tables) (p : Pos) (i : Nat) : Bool := (T.t2.get p).any fun x => x.profile.val == i

/-- Check 5: whether the lock allows an entry (R174). -/
def lockAllows (b : Block) (table : Nat) (entries : List Byte) (i : Nat) : Bool :=
  match table with
  | 1 => periodLock b entries
  | 2 => (Pos.ofNat? i).all fun p => (b.works.eng.at p).st.atRest
  | 3 => Pos.all.all fun p => !b.works.tab.uses p i || (b.works.eng.at p).st.atRest
  | 6 | 7 => Pos.all.all fun p => (b.works.eng.at p).st != .starting
  | 10 => b.hours.hold
  | _ => true

/-- The entries of a burst, when every field of every entry is in range (R173, check 6). -/
def readBurst (table : Nat) : Nat → List (List Byte) → Except Nat (List Entry)
  | _, [] => .ok []
  | i, bytes :: rest =>
    match readEntry table i bytes with
    | none => .error i
    | some x =>
      match readBurst table (i + 1) rest with
      | .error j => .error j
      | .ok list => .ok (x :: list)

/-- The six checks of a WRITE in order (R173, R187): the refusal, or the entries to write. -/
def checkWrite (b : Block) (r : MgmtReq) : Except Reply (List Entry) :=
  let table := r.table.toNat
  let first := r.first.toNat
  let count := r.count.toNat
  match tableSize table with
  | none => .error (plainReply r.table .badTable none)
  | some size =>
    match indexOutside size first count with
    | some i => .error (plainReply r.table .badIndex (some i))
    | none =>
      if table = 5 then .error (plainReply r.table .readOnly (some first))
      else if b.saving.isSome then .error (plainReply r.table .busy (some first))
      else
        match (burst first count).find? fun i => !lockAllows b table r.entries i with
        | some i => .error (plainReply r.table (if table = 10 then .notHeld else .inUse) (some i))
        | none =>
          if r.entries.length ≠ count * entrySize table then .error (plainReply r.table .badValue none)
          else
            match readBurst table first (pieces (entrySize table) count r.entries) with
            | .error i => .error (plainReply r.table .badValue (some i))
            | .ok list => .ok list

/-! ## Effects of an accepted WRITE (R175) -/

/-- One entry of T1 to T9 written and made defined (R172). -/
def Tables.store (T : Tables) (i : Nat) : Entry → Tables
  | .t1 x => { T with t1 := some x }
  | .t2 x =>
    match Pos.ofNat? i with
    | none => T
    | some p => { T with t2 := T.t2.set p (some x) }
  | .t3 x => { T with t3 := T.t3.setIfInBounds i (some x) }
  | .t4 x => { T with t4 := T.t4.setIfInBounds i (some x) }
  | .t6 x => { T with t6 := T.t6.setIfInBounds i (some x) }
  | .t7 x => { T with t7 := T.t7.setIfInBounds i (some x) }
  | .t8 x => { T with t8 := T.t8.setIfInBounds i (some x) }
  | .t9 x => { T with t9 := T.t9.setIfInBounds i (some x) }
  | .t10 _ => T

/-- A burst written to consecutive indices. -/
def Tables.storeAll (T : Tables) : Nat → List Entry → Tables
  | _, [] => T
  | i, x :: rest => (T.store i x).storeAll (i + 1) rest

/-- The link of a position that leaves ABSENT or ISOLATED for OFF: LOST, setup UNSET (R106). -/
def Position.unsilence (x : Position) : Position := { x with link := ({ x.link with state := .lost }).unset }

/-- Entry to OFF from ABSENT or ISOLATED (R60, R61, R106). -/
def enterOffUnheard (T : Tables) (p : Pos) (e : Engine) : Engine := (enter T p .off e).modify p (·.unsilence)

/-- The setup made UNSET by a T2 or T3 write (R113); the sample timer stops when no profile is left (log 21). -/
def Link.rewritten (l : Link) (defined : Bool) : Link :=
  let l := l.unset
  if defined then l else { l with sampleT := .stopped }

/-- A T2 write at its position (R61), the new tables given. -/
def positionRewritten (old new : Tables) (p : Pos) (e : Engine) : Engine :=
  let sameProfile := (old.t2.get p).map (·.profile) == (new.t2.get p).map (·.profile)
  let e := e.modify p fun x =>
    { x with link := x.link.rewritten (new.profile p).isSome, pickup := if sameProfile then x.pickup else x.pickup.clear }
  match (e.at p).st with
  | .absent => if new.present p then enterOffUnheard new p e else e
  | .off | .isolated => if new.present p then e else enter new p .absent e
  | _ => e

/-- The isolation cell after a T2 write (R61): written clear when an ISOLATED position is written not present. -/
def isolationAfter (new : Tables) (p : Pos) (st : PState) (cells : Four (Option Bool)) : Four (Option Bool) :=
  if st = .isolated ∧ ¬ new.present p then cells.set p (some false) else cells

/-- A T2 burst (R61, R175). -/
def writeT2 (new : Tables) (first count : Nat) (b : Block) : Block :=
  let old := b.works.tab
  let named := (burst first count).filterMap Pos.ofNat?
  let eng := named.foldl (fun e p => positionRewritten old new p e) b.works.eng
  let cells := named.foldl (fun cells p => isolationAfter new p (b.works.eng.at p).st cells) b.nv.isolation
  { b with works := closeEvent b.works { b.works with tab := new, eng := eng }, nv := { b.nv with isolation := cells } }

/-- A T3 burst at one position that uses a written profile (R175): setup UNSET and the pickup cleared. -/
def profileRewritten (new : Tables) (first count : Nat) (p : Pos) (e : Engine) : Engine :=
  if (burst first count).any fun i => new.uses p i then
    e.modify p fun x => { x with link := x.link.rewritten true, pickup := x.pickup.clear }
  else e

/-- One T10 entry written (R66). -/
def writeT10At (i value : Nat) (b : Block) : Block :=
  match Pos.ofNat? i with
  | none => b
  | some p => b.writeMeter p { b.meter p with value := value, pendingInc := false }

/-- A T10 burst (R66). -/
def writeT10 (b : Block) : Nat → List Entry → Block
  | _, [] => b
  | i, .t10 value :: rest => writeT10 (writeT10At i value b) (i + 1) rest
  | i, _ :: rest => writeT10 b (i + 1) rest

/-- An accepted WRITE (R175): every entry written at this event, and the blocks that read it act. -/
def writeAccepted (b : Block) (table first count : Nat) (list : List Entry) : Block :=
  let w := b.works
  let new := w.tab.storeAll first list
  match table with
  | 1 =>
    let res := w.eng.res.afterT1 new w.eng.now (holdingConds w.tab w.eng.res)
    { b with works := closeEvent w { w with tab := new, eng := { w.eng with res := res } } }
  | 2 => writeT2 new first count b
  | 3 =>
    let eng := w.eng.eachPos (profileRewritten new first count)
    { b with works := closeEvent w { w with tab := new, eng := eng } }
  | 4 => { b with works := { w with tab := new, commitPending := false } }
  | 8 =>
    let eng := w.eng.eachPos (protRewritten w.tab first count)
    { b with works := closeEvent w { w with tab := new, eng := eng } }
  | 10 => writeT10 b first list
  | _ => { b with works := { w with tab := new } }

/-- WRITE (R173). -/
def runWrite (r : MgmtReq) (b : Block) : Block × Option Reply :=
  match checkWrite b r with
  | .error rp => (b, some rp)
  | .ok list =>
    (writeAccepted b r.table.toNat r.first.toNat r.count.toNat list, some (plainReply r.table .ok none))

/-! ## READ (R176) -/

/-- One entry as a READ returns it (R176, R187). -/
def readOut (b : Block) (table i : Nat) : List Byte :=
  let T := b.works.tab
  let bytes : Option (List Byte) :=
    match table with
    | 1 => T.t1.map (·.bytes)
    | 2 => (Pos.ofNat? i).bind fun p => (T.t2.get p).map (·.bytes)
    | 3 => (T.t3[i]?).join.map (·.bytes)
    | 4 => (T.t4[i]?).join.map (·.bytes)
    | 5 => (T.t5[i]?).join.map (·.bytes)
    | 6 => (T.t6[i]?).join.map (·.bytes)
    | 7 => (T.t7[i]?).join.map (·.bytes)
    | 8 => (T.t8[i]?).join.map (·.bytes)
    | 9 => (T.t9[i]?).join.map (·.bytes)
    | 10 => (Pos.ofNat? i).map fun p => be32 (b.meter p).value
    | _ => none
  markedBytes (entrySize table) bytes

/-- READ (R176). -/
def runRead (r : MgmtReq) (b : Block) : Block × Option Reply :=
  let table := r.table.toNat
  match tableSize table with
  | none => (b, some (plainReply r.table .badTable none))
  | some size =>
    match indexOutside size r.first.toNat r.count.toNat with
    | some i => (b, some (plainReply r.table .badIndex (some i)))
    | none => (b, some ⟨r.table, .ok, none, (burst r.first.toNat r.count.toNat).map (readOut b table)⟩)

/-! ## COMMIT (R177, R178) -/

/-- The lowest undefined entry of a list. -/
def firstUndefined {α : Type} (list : List (Option α)) : Option Nat := list.findIdx? Option.isNone

/-- A commit applied and its event closed (R178). -/
def commitNow (w : Works) : Works := closeEventWith none true w (applyCommit w)

/-- COMMIT (R177). -/
def runCommit (r : MgmtReq) (b : Block) : Block × Option Reply :=
  if r.table.toNat ≠ 4 then (b, some (plainReply r.table .badTable none))
  else if b.saving.isSome then (b, some (plainReply r.table .busy none))
  else if b.works.commitPending then (b, some (plainReply r.table .pending none))
  else
    match firstUndefined b.works.tab.t4.toList with
    | some i => (b, some (plainReply r.table .incomplete (some i)))
    | none =>
      if steady b.works.eng then (b.onWorks commitNow, some (plainReply r.table .ok none))
      else ({ b with works := { b.works with commitPending := true } }, some (plainReply r.table .pending none))

/-! ## SAVE (R179) -/

/-- The tables a SAVE needs, in order, each with its lowest undefined entry. -/
def undefinedTables (T : Tables) : List (Byte × Option Nat) :=
  [(1, firstUndefined [T.t1]), (2, firstUndefined [T.t2.a, T.t2.b, T.t2.c, T.t2.d]), (3, firstUndefined T.t3.toList),
   (5, firstUndefined T.t5.toList), (6, firstUndefined T.t6.toList), (7, firstUndefined T.t7.toList),
   (8, firstUndefined T.t8.toList), (9, firstUndefined T.t9.toList)]

/-- The contents of the image, T5 standing for the schedule. -/
def Tables.image (T : Tables) : Image :=
  { t1 := T.t1, t2 := T.t2, t3 := T.t3, sched := T.t5, t6 := T.t6, t7 := T.t7, t8 := T.t8, t9 := T.t9 }

/-- SAVE at its taking (R179). -/
def runSave (r : MgmtReq) (b : Block) : Block × Option Reply :=
  if b.saving.isSome then (b, some (plainReply r.table .busy none))
  else
    match (undefinedTables b.works.tab).find? fun x => x.2.isSome with
    | some (t, i) => (b, some (plainReply t .incomplete i))
    | none =>
      ({ b with saving := some ⟨r.tag, r.table, b.works.tab.image⟩, nv := { b.nv with image := none } }, none)

/-- The completion of a SAVE (R179): the mark cleared, the image valid or invalid, the reply queued or lost. With no SAVE in
flight nothing happens (log 38). -/
def completeSave (passes : Bool) (b : Block) : Block :=
  match b.saving with
  | none => b
  | some sv =>
    let status : Status := if passes then .ok else .saveFailed
    let image := if passes then some sv.contents else none
    ({ b with saving := none, nv := { b.nv with image := image } }).onRelay
      (·.queueLate (replyFrame sv.tag opSave (plainReply sv.table status none)))

/-! ## Hours and isolation (R59, R60, R181) -/

/-- HOLD_HOURS (R181). -/
def runHold (r : MgmtReq) (b : Block) : Block × Option Reply := (startHold b, some (plainReply r.table .ok none))

/-- RELEASE_HOURS (R181). -/
def runRelease (r : MgmtReq) (b : Block) : Block × Option Reply := (releaseHold b, some (plainReply r.table .ok none))

/-- The position an ISOLATE or RESTORE names (R171). -/
def namedPosition (r : MgmtReq) : Option Pos := if r.count.toNat = 1 then Pos.ofNat? r.first.toNat else none

/-- The isolation cell of a position written (R181). -/
def Block.writeIsolation (b : Block) (p : Pos) (mark : Bool) : Block :=
  { b with nv := { b.nv with isolation := b.nv.isolation.set p (some mark) } }

/-- Whether an ISOLATE is allowed (R59). -/
def canIsolate (x : Position) : Bool := (x.st == .off || x.st == .faulted) && x.pickup.speed == 0

/-- ISOLATE (R59, R181). -/
def runIsolate (r : MgmtReq) (b : Block) : Block × Option Reply :=
  match namedPosition r with
  | none => (b, some (plainReply r.table .badIndex none))
  | some p =>
    if canIsolate (b.works.eng.at p) then
      ((b.onWorks (·.event fun T e => enter T p .isolated e)).writeIsolation p true, some (plainReply r.table .ok none))
    else (b, some (plainReply r.table .stateWrong none))

/-- The state a RESTORE leads to (R60). -/
def restoreAt (T : Tables) (p : Pos) (e : Engine) : Engine :=
  if T.present p then enterOffUnheard T p e else enter T p .absent e

/-- RESTORE (R60, R181). -/
def runRestore (r : MgmtReq) (b : Block) : Block × Option Reply :=
  match namedPosition r with
  | none => (b, some (plainReply r.table .badIndex none))
  | some p =>
    if (b.works.eng.at p).st = .isolated then
      ((b.onWorks (·.event fun T e => restoreAt T p e)).writeIsolation p false, some (plainReply r.table .ok none))
    else (b, some (plainReply r.table .stateWrong none))

/-- An op code that names no operation (R171). -/
def runUnknown (r : MgmtReq) (b : Block) : Block × Option Reply := (b, some (plainReply r.table .badValue none))

end Sys2Proof.Machine
end

