-- ==== Sys2Proof/Machine/Reset.lean ====
section
/-! DEFINITION. The two resets and the loss of supply (R1, R19, R38, R63, R72, R91, R104, R118, R123, R133, R142, R154, R169,
R180, R182, R183, R188). -/

namespace Sys2Proof.Machine

/-- The working copies after power-on (R183): the image with its schedule in T4 and T5, or every entry undefined. -/
def Image.load (i : Image) : Tables :=
  { t1 := i.t1, t2 := i.t2, t3 := i.t3, t4 := i.sched, t5 := i.sched, t6 := i.t6, t7 := i.t7, t8 := i.t8, t9 := i.t9 }

/-- Table Memory after power-on (R183). -/
def loadTables (image : Option Image) : Tables :=
  match image with
  | none => .undefinedAll
  | some i => i.load

/-- The state a position comes up in (R38); a failing isolation cell is read as set (R181). -/
def stateAtReset (T : Tables) (cell : Option Bool) (p : Pos) : PState :=
  if cell.getD true then .isolated else if T.present p then .off else .absent

/-- A position after either reset (R38, R104): its DRIVE content is that of the state it comes up in. -/
def positionAtReset (T : Tables) (cells : Four (Option Bool)) (levels : Four Level) (meters : Four Nat) (p : Pos) : Position :=
  let x := Position.reset (stateAtReset T (cells.get p) p) none (levels.get p) (meters.get p)
  { x with link := { x.link with drive := driveContent T p x } }

/-- The engine blocks after either reset. The clock runs on. -/
def engineAtReset (T : Tables) (cells : Four (Option Bool)) (levels : Four Level) (meters : Four Nat) (now : Nat) : Engine :=
  { now := now, res := .reset, short := false, lastReport := none, bus := .reset,
    pwm := ⟨T.pwmPeriod, .running now (ms T.pwmPeriod)⟩,
    pos := .make (positionAtReset T cells levels meters) }

/-- The hold and the tick after either reset (R63, R64). -/
def hoursAtReset (now : Nat) : Hours := ⟨false, .stopped, .running now (sec 1)⟩

/-- POWER_ON_RESET (R183) with its image load complete, and the port states and pickup levels found. -/
def powerOn (up down : Bool) (levels : Four Level) (b : Block) : Block :=
  let T := loadTables b.nv.image
  let meters : Four Nat := .make fun p => (b.nv.meters.get p).getD 0
  { powered := true
    works := { tab := T, eng := engineAtReset T b.nv.isolation levels meters b.works.eng.now, commitPending := false }
    hours := hoursAtReset b.works.eng.now
    saving := none
    relay := .reset up down
    nv := b.nv }

/-- The relay after RESTART (R154): address and port states kept, everything else as after power-on reset. -/
def Relay.restart (r : Relay) : Relay := { Relay.reset r.upCarrier r.downCarrier with address := r.address }

/-- RESTART (R182). A SAVE in flight ends with the image invalid, as it is from the taking (R180). -/
def restartAll (b : Block) : Block :=
  let e := b.works.eng
  { powered := b.powered
    works :=
      { tab := b.works.tab
        eng := engineAtReset b.works.tab b.nv.isolation (.make fun p => (e.at p).pickup.input)
          (.make fun p => (e.at p).meter.value) e.now
        commitPending := false }
    hours := hoursAtReset e.now
    saving := none
    relay := b.relay.restart
    nv := b.nv }

/-- SUPPLY_DIP (R188): the supply falls below 16.0 V or RESET is driven low. The part is out of work until the power-on reset,
every transmitter idle, a SAVE in flight lost. -/
def supplyDip (b : Block) : Block :=
  let e := b.works.eng.eachPos fun p e => e.modify p fun x => { x with link := { x.link with sending := none } }
  { b with powered := false, saving := none, relay := { b.relay with downTx := none, upTx := none },
           works := { b.works with eng := e } }

end Sys2Proof.Machine
end

