-- ==== Sys2Proof/Machine/MgmtCommands.lean ====
section
/-! DEFINITION. The management commands. -/

namespace Sys2Proof.Machine

/-- WRITE (R173). -/
def execWrite (r : MgmtReq) (s : State) : Host.Outcome State Fault Refusal := answer (operation opWrite r (runWrite r)) s

/-- READ (R176). -/
def execRead (r : MgmtReq) (s : State) : Host.Outcome State Fault Refusal := answer (operation opRead r (runRead r)) s

/-- COMMIT (R177). -/
def execCommit (r : MgmtReq) (s : State) : Host.Outcome State Fault Refusal := answer (operation opCommit r (runCommit r)) s

/-- The application of a pending commit taken by itself (R178, log 5): where a commit is pending and the unit is steady. -/
def commitApplies (w : Works) : Works := if w.commitPending && steady w.eng then commitNow w else w

/-- COMMIT_APPLICATION (R178). -/
def execCommitApplication (s : State) : Host.Outcome State Fault Refusal := answer (·.onWorks commitApplies) s

/-- SAVE (R179). -/
def execSave (r : MgmtReq) (s : State) : Host.Outcome State Fault Refusal := answer (operation opSave r (runSave r)) s

/-- SAVE_COMPLETION (R179). -/
def execSaveCompletion (passes : Bool) (s : State) : Host.Outcome State Fault Refusal := answer (completeSave passes) s

/-- HOLD_HOURS (R65). -/
def execHoldHours (r : MgmtReq) (s : State) : Host.Outcome State Fault Refusal :=
  answer (operation opHoldHours r (runHold r)) s

/-- RELEASE_HOURS (R65). -/
def execReleaseHours (r : MgmtReq) (s : State) : Host.Outcome State Fault Refusal :=
  answer (operation opReleaseHours r (runRelease r)) s

/-- ISOLATE (R59). -/
def execIsolate (r : MgmtReq) (s : State) : Host.Outcome State Fault Refusal :=
  answer (operation opIsolate r (runIsolate r)) s

/-- RESTORE (R60). -/
def execRestore (r : MgmtReq) (s : State) : Host.Outcome State Fault Refusal :=
  answer (operation opRestore r (runRestore r)) s

/-- RESTART (R154, R170, R182): executed whatever the local queue holds, with no reply. -/
def execRestart (r : MgmtReq) (s : State) : Host.Outcome State Fault Refusal :=
  answer (mgmtFrameTaken opRestart r restartAll) s

/-- An op byte that names an operation (R185). -/
def knownOp (op : Byte) : Bool := within 1 9 op.toNat

/-- UNKNOWN_OP (R171); an op byte that names an operation is another command's matter (log 23). -/
def execUnknownOp (op : Byte) (r : MgmtReq) (s : State) : Host.Outcome State Fault Refusal :=
  answer (fun b => if knownOp op then b else operation op r (runUnknown r) b) s

end Sys2Proof.Machine
end

