-- ==== Sys2Proof/Machine/PowerCommands.lean ====
section
/-! DEFINITION. The commands of the supply: POWER_ON_RESET and SUPPLY_DIP. -/

namespace Sys2Proof.Machine

/-- POWER_ON_RESET (R183). -/
def execPowerOnReset (up down : Bool) (levels : Four Level) (s : State) : Host.Outcome State Fault Refusal :=
  answerAlways (powerOn up down levels) s

/-- SUPPLY_DIP (R188): the supply below 16.0 V, or RESET held low. -/
def execSupplyDip (s : State) : Host.Outcome State Fault Refusal := answerAlways supplyDip s

end Sys2Proof.Machine
end

