-- ==== Sys2Proof/Machine/StagingCommands.lean ====
section
/-! DEFINITION. The commands of the Demand Resolver and the Staging Planner: NOTCH, ENGINE_REQ and their timers. -/

namespace Sys2Proof.Machine

/-- A taken NOTCH frame (R2), with the emergency order at the event that sets the latch (R6). -/
def notchTaken (value : Nat) (run emergency : Bool) (T : Tables) (e : Engine) : Engine :=
  let res := e.res.take T e.now value run emergency
  let taken := { e with res := res }
  if res.latch && !e.res.latch then emergencyOrder T taken else taken

/-- NOTCH (R2, R160, R185): flag bit 0 is RUN, bit 1 EMERGENCY. -/
def execNotch (group value flags : Byte) (s : State) : Host.Outcome State Fault Refusal :=
  answer (dispatched (notchFrame group value flags) .notch group true
    (·.onWorks (·.event (notchTaken value.toNat (flags.getLsbD 0) (flags.getLsbD 1))))) s

/-- NOTCH_TIMER_EXPIRES (R7). -/
def execNotchTimerExpires (s : State) : Host.Outcome State Fault Refusal :=
  answer (fun b => b.expiryEvent b.works.eng.res.notchT fun T e => { e with res := e.res.notchExpires T e.now }) s

/-- The expiry of the dwell timer (R11, R13): the clock is brought to its limit. -/
def dwellExpires (b : Block) : Block :=
  let r := b.works.eng.res
  match r.dwell, b.works.tab.dwellLimit r.resolved with
  | .running since, some n =>
    (b.reach (since + n)).onWorks (·.event fun T e => { e with res := e.res.dwellExpires T e.now })
  | _, _ => b

/-- DWELL_TIMER_EXPIRES (R11). -/
def execDwellTimerExpires (s : State) : Host.Outcome State Fault Refusal := answer dwellExpires s

/-- The expiry of the achieve timer (R11, R13): the clock is brought to its limit. -/
def achieveExpires (b : Block) : Block :=
  match b.works.eng.res.achieve, b.works.tab.achieveLimit with
  | .running since, some n =>
    (b.reach (since + n)).onWorks (·.event fun T e => { e with res := e.res.achieveExpires T e.now })
  | _, _ => b

/-- ACHIEVE_TIMER_EXPIRES (R11, R13). -/
def execAchieveTimerExpires (s : State) : Host.Outcome State Fault Refusal := answer achieveExpires s

/-- The expiry of a linger timer (R25, R30): an evaluation with the expired position named. -/
def lingerExpires (p : Pos) (b : Block) : Block :=
  b.expiry (b.works.eng.at p).lingerT fun b => b.onWorks fun w => closeEventWith (some p) false w w

/-- LINGER_TIMER_EXPIRES (R30). -/
def execLingerTimerExpires (p : Pos) (s : State) : Host.Outcome State Fault Refusal := answer (lingerExpires p) s

/-- A request mode set at one position (R20): a change stops the linger timer. -/
def setModeAt (m : Mode) (e : Engine) (p : Pos) : Engine :=
  e.modify p fun x => if x.mode = m then x else { x with mode := m, lingerT := .stopped }

/-- An ENGINE_REQ frame (R156, R160, R161, R185) whose request does `f` at each named position. -/
def engineRequest (request group target position : Byte) (f : Tables → Engine → Pos → Engine) (b : Block) : Block :=
  dispatched (engineReqFrame group target position request) .engineReq group (b.relay.addressed target)
    (·.onWorks (·.event fun T e => (positionsNamed position).foldl (f T) e)) b

/-- MODE_AUTO (R20). -/
def execModeAuto (group target position : Byte) (s : State) : Host.Outcome State Fault Refusal :=
  answer (engineRequest 0 group target position fun _ => setModeAt .auto) s

/-- MODE_RUN (R20). -/
def execModeRun (group target position : Byte) (s : State) : Host.Outcome State Fault Refusal :=
  answer (engineRequest 1 group target position fun _ => setModeAt .run) s

/-- MODE_OUT (R20). -/
def execModeOut (group target position : Byte) (s : State) : Host.Outcome State Fault Refusal :=
  answer (engineRequest 2 group target position fun _ => setModeAt .out) s

/-- RESET_FAULT (R57). -/
def execResetFault (group target position : Byte) (s : State) : Host.Outcome State Fault Refusal :=
  answer (engineRequest 3 group target position fun T e p => resetFaultAt T p e) s

end Sys2Proof.Machine
end

