-- ==== Sys2Proof/Machine/Pickup.lean ====
section
/-! DEFINITION. The Speed Pickup and what a pickup update does (R117 to R122, R50, R51, R54, R55, R82, R83). -/

namespace Sys2Proof.Machine

/-- The pickup speed of a history (R120): rounded down, held at 65535. A sum of 0 µs has a free value (log 17). -/
def rpmOf (teeth : Nat) (history : List Nat) : Nat :=
  match history with
  | [] => 0
  | _ =>
    let sum := history.sum
    min 65535 (if teeth * sum = 0 then Config.rpmOfZeroTime history.length teeth
      else 60000000 * history.length / (teeth * sum))

/-- An interval joins the history as its newest member; a seventeenth removes the oldest (R119). -/
def joinHistory (history : List Nat) (interval : Nat) : List Nat :=
  let h := history ++ [interval]
  h.drop (h.length - 16)

/-- An accepted rising edge (R119). -/
def Pickup.risingEdge (k : Pickup) (teeth now : Nat) : Pickup :=
  let history := match k.lastEdge with
    | none => k.history
    | some t => joinHistory k.history (now - t)
  { k with history := history, lastEdge := some now, speed := rpmOf teeth history, zeroT := .running now (ms 500) }

/-- The expiry of the zero-speed timer (R121). -/
def Pickup.standstill (k : Pickup) : Pickup :=
  { k with speed := 0, history := [], lastEdge := none, zeroT := .stopped }

/-- A change of level at the input (R119). Without a profile, or ABSENT, no edge is accepted and no timer starts (log 22). -/
def Pickup.levelChange (k : Pickup) (level : Level) (filterUs : Option Nat) (now : Nat) : Pickup :=
  if level = k.input then k
  else if level = k.accepted then { k with input := level, filterT := .stopped }
  else
    match filterUs with
    | none => { k with input := level }
    | some us => { k with input := level, filterT := .running now us }

/-- The profile under which the pickup of a position accepts edges (R118). -/
def pickupProfile (T : Tables) (p : Pos) (x : Position) : Option Profile :=
  if x.st = .absent then none else T.profile p

/-- The disagree test (R117): the position after it, and whether DISAGREE is to be removed. A speed of 0 decides before the
tolerance does (log 31). -/
def disagreeTest (T : Tables) (p : Pos) (now : Nat) (x : Position) : Position × Bool :=
  match T.profile p, x.link.latest with
  | some pr, some s =>
    if x.st.tested && x.link.state == .up then
      if x.pickup.speed = 0 ∨ s.speedRpm = 0 then
        ({ x with link := { x.link with disagreeT := .stopped } }, false)
      else if x.pickup.speed ≤ s.speedRpm + pr.disagreeTolRpm ∧ s.speedRpm ≤ x.pickup.speed + pr.disagreeTolRpm then
        ({ x with link := { x.link with disagreeT := .stopped, disagree := false } }, true)
      else if x.link.disagree then ({ x with link := { x.link with disagreeT := .stopped } }, false)
      else if x.link.disagreeT.isRunning then (x, false)
      else ({ x with link := { x.link with disagreeT := .running now (sec 1) } }, false)
    else (x, false)
  | _, _ => (x, false)

/-- Only DISAGREE. -/
def Causes.disagreeOnly : Causes := { Causes.none with disagree := true }

/-- Overspeed at a pickup update (R54). -/
def Position.overspeeds (T : Tables) (p : Pos) (x : Position) : Bool :=
  x.st != .absent && x.st != .isolated &&
    match T.profile p with
    | none => false
    | some pr => decide (pr.overspeedRpm ≤ x.pickup.speed)

/-- An unexpected stop at a pickup update: below running_rpm in READY, ONLINE or UNLOADING (R55), or at standstill in HELD
without LOCAL (R50). -/
def Position.stopsUnexpectedly (T : Tables) (p : Pos) (stopped : Bool) (x : Position) : Bool :=
  match x.st with
  | .ready | .online | .unloading => belowRunning T p x.pickup.speed
  | .held => stopped && !x.causes.localPanel
  | _ => false

/-- The faults a pickup update brings, in the order they are taken (R58, log 7). `met` has the pairs as its tests settle them. -/
def pickupFaults (T : Tables) (p : Pos) (now : Nat) (stopped : Bool) (before met after : Position) :
    List (FaultCode × Option Int) :=
  (if after.overspeeds T p then [(.overspeed, after.rpmValue)] else [])
    ++ (if after.stopsUnexpectedly T p stopped then [(.unexpectedStop, after.rpmValue)] else [])
    ++ (if after.stalls T p now then [(.stalledInStart, after.rpmValue)] else [])
    ++ shutdownsTested T now before met

/-- A pickup update with the new speed in place and the old one given (R122): protection, disagreement, faults, standstill
in HELD and STOPPING, held causes, the stall watch and the CRANK test. A fault is taken before a standstill of HELD{LOCAL} that
leads to OFF, and before a PROTECT that the same update adds (R58, R149, R150; log 7). -/
def pickupUpdate (T : Tables) (p : Pos) (old : Nat) (e : Engine) : Engine :=
  let before := e.at p
  let met := protAtPickup T p e.now old before
  let tested := if before.st.tested then met else before
  let (after, agrees) := disagreeTest T p e.now tested
  let stopped := decide (old ≠ 0) && decide (after.pickup.speed = 0)
  let e := e.put p after
  match pickupFaults T p e.now stopped before met after with
  | [] =>
    if stopped ∧ (after.st = .held ∨ after.st = .stopping) then enter T p .off e
    else
      let remove := (protectRemoved T before after).union (if agrees then .disagreeOnly else .none)
      stepTestSpeed T p (armWatch T p (judgeCauses T p (protectAdded T before after) remove e))
  | list => faults T p list e

/-- The filter timer expires with the input at the new level (R119). -/
def filterExpires (T : Tables) (p : Pos) (e : Engine) : Engine :=
  let x := e.at p
  match pickupProfile T p x with
  | none => e.put p { x with pickup := { x.pickup with filterT := .stopped } }
  | some pr =>
    let k := { x.pickup with filterT := .stopped, accepted := x.pickup.input }
    if k.accepted = .high ∧ x.pickup.accepted = .low then
      pickupUpdate T p x.pickup.speed (e.put p { x with pickup := k.risingEdge pr.teeth e.now })
    else e.put p { x with pickup := k }

/-- The zero-speed timer expires (R121). -/
def zeroSpeedExpires (T : Tables) (p : Pos) (e : Engine) : Engine :=
  let x := e.at p
  pickupUpdate T p x.pickup.speed (e.put p { x with pickup := x.pickup.standstill })

end Sys2Proof.Machine
end

