-- ==== Sys2Proof/Machine/Samples.lean ====
section
/-! DEFINITION. A SAMPLE at its arrival, and the other events of the station link (R47, R105 to R117). -/

namespace Sys2Proof.Machine

/-- Only LINK. -/
def Causes.linkOnly : Causes := { Causes.none with link := true }

/-- The link after a valid sample is taken: UP, the sample the latest, the sample timer restarted while the profile is
defined (R105, R107). -/
def Link.takeSample (l : Link) (pr : Option Profile) (s : Sample) (now : Nat) : Link :=
  { l with state := .up, latest := some s,
           sampleT := match pr with
             | none => .stopped
             | some pr => .running now (ms pr.sampleTimeoutMs) }

/-- Whether a sample confirms the setup sent (R112). -/
def Link.confirmedBy (l : Link) (s : Sample) : Bool :=
  l.setup == .sent && s.setupEcho == l.setupId && !s.fresh

/-- Whether a fresh sample takes the setup away (R113, R114): CONFIRMED or FAILED, outside STOPPING and FAULTED (log 19). -/
def Link.lostBy (l : Link) (st : PState) (s : Sample) : Bool :=
  s.fresh && (l.setup == .confirmed || l.setup == .failed) && st != .stopping && st != .faulted

/-- The setup state after a sample (R112 to R114); a start that loses its setup keeps it CONFIRMED. -/
def Link.judgeSetup (l : Link) (st : PState) (s : Sample) : Link :=
  if l.confirmedBy s then { l with setup := .confirmed, confirmT := .stopped, attempts := 0 }
  else if l.lostBy st s && st != .starting then l.unset
  else l

/-- Whether a sample is fatal to a start: fresh with the setup CONFIRMED (R114), also to one that failed at this instant (R87,
R101). -/
def losesStart (x : Position) (s : Sample) (now : Nat) : Bool :=
  (x.st == .starting || x.failedAt now) && x.link.setup == .confirmed && s.fresh

/-- The held causes a sample adds (R45, R114, R116). -/
def causesAdded (T : Tables) (before after : Position) (s : Sample) : Causes :=
  { protectAdded T before after with
    setup := before.link.setup == .confirmed && s.fresh
    localPanel := s.localPanel }

/-- The held causes a sample removes (R45, R108, R112, R116, R117). -/
def causesRemoved (T : Tables) (before after : Position) (s : Sample) (agrees : Bool) : Causes :=
  { protectRemoved T before after with
    link := true
    setup := before.link.confirmedBy s
    localPanel := !s.localPanel
    disagree := agrees }

/-- Whether a sample finds the engine of an OFF position running as its link comes up (R115). -/
def resyncs (T : Tables) (p : Pos) (before after : Position) : Bool :=
  before.st == .off && before.link.state != .up &&
    match T.profile p with
    | none => false
    | some pr => after.engineRunning pr

/-- The held-cause set of a resynchronisation (R115). -/
def resyncCauses (s : Sample) : Causes := { Causes.none with setup := true, localPanel := s.localPanel }

/-- A valid sample taken at a position that is neither ABSENT nor ISOLATED (R47, R105). A held cause or a SHUTDOWN of the sample
is taken before the speed phase it settles (R132, log 35); a settled phase ends before a target that the sample changes acts,
and chooses on the slot with that target (R129, log 9). -/
def takeSample (T : Tables) (p : Pos) (s : Sample) (e : Engine) : Engine :=
  let before := e.at p
  let x := { before with link := (before.link.judgeSetup before.st s).takeSample (T.profile p) s e.now }
  let met := protAtSample T p e.now x
  let x := if before.st.tested then met else x
  let (after, agrees) := disagreeTest T p e.now x
  let e := e.put p after
  match (if losesStart before s e.now then [(FaultCode.stationLost, none)] else []) ++ shutdownsTested T e.now before met with
  | [] =>
    if resyncs T p before after then
      let e := enterHeld T p (resyncCauses s) e
      e.put p (disagreeTest T p e.now (e.at p)).1
    else
      let e := judgeCauses T p (causesAdded T before after s) (causesRemoved T before after s agrees) e
      let e := stepTestSample T p s e
      if settles T p e.now (e.at p) s then endSpeedPhase T p false (writeSlot T p e) else e
  | list => faults T p list e

/-- A sample arrives (R105, R106): discarded when invalid, ignored in ABSENT and ISOLATED. -/
def sampleArrives (T : Tables) (p : Pos) (raw : List Byte) (e : Engine) : Engine :=
  match sampleOfRaw raw with
  | none => e
  | some s => if (e.at p).st = .absent ∨ (e.at p).st = .isolated then e else takeSample T p s e

/-- The link becomes LOST (R107, R108, R145). At the instant at which a start failed it is a further fault (R87, R101). -/
def linkLost (T : Tables) (p : Pos) (e : Engine) : Engine :=
  let before := e.at p
  let x := { before with link := before.link.lose }
  match before.st with
  | .off => e.put p { x with link := x.link.unset }
  | .starting => fault T p .stationLost none (e.put p (protSuspend T p x))
  | .ready | .online | .unloading | .held =>
    let after := protSuspend T p x
    judgeCauses T p .linkOnly (protectRemoved T before after) (e.put p after)
  | .faulted => if before.failedAt e.now then fault T p .stationLost none (e.put p x) else e.put p x
  | _ => e.put p x

/-- The confirm timer expires (R112). -/
def confirmExpires (T : Tables) (p : Pos) (e : Engine) : Engine :=
  e.modify p fun x =>
    match T.profile p with
    | none => { x with link := { x.link with confirmT := .stopped } }
    | some pr => { x with link := x.link.confirmExpires pr e.now }

/-- The refresh timer expires (R109). -/
def refreshExpires (p : Pos) (e : Engine) : Engine :=
  e.modify p fun x => { x with link := ({ x.link with refreshT := .stopped }).sendDrive e.now }

/-- The station transmitter finishes its frame and begins the next (R109). -/
def stationFrameEnds (p : Pos) (e : Engine) : Engine :=
  e.modify p fun x => { x with link := ({ x.link with sending := none }).beginNext }

/-- The disagree timer expires (R117). -/
def disagreeExpires (T : Tables) (p : Pos) (e : Engine) : Engine :=
  let e := e.modify p fun x => { x with link := { x.link with disagreeT := .stopped, disagree := true } }
  judgeCauses T p .disagreeOnly .none e

end Sys2Proof.Machine
end

