-- ==== Sys2Proof/Machine/StationCommands.lean ====
section
/-! DEFINITION. The commands of the station links and the speed pickups. -/

namespace Sys2Proof.Machine

/-- SAMPLE (R105): the bytes received on the link of a position. -/
def execSample (p : Pos) (raw : List Byte) (s : State) : Host.Outcome State Fault Refusal :=
  answer (·.onWorks (·.event fun T e => sampleArrives T p raw e)) s

/-- SAMPLE_TIMER_EXPIRES (R107). -/
def execSampleTimerExpires (p : Pos) (s : State) : Host.Outcome State Fault Refusal :=
  answer (fun b => b.expiryEvent (b.works.eng.at p).link.sampleT fun T e => linkLost T p e) s

/-- CONFIRM_TIMER_EXPIRES (R112). -/
def execConfirmTimerExpires (p : Pos) (s : State) : Host.Outcome State Fault Refusal :=
  answer (fun b => b.expiryEvent (b.works.eng.at p).link.confirmT fun T e => confirmExpires T p e) s

/-- REFRESH_TIMER_EXPIRES (R109). -/
def execRefreshTimerExpires (p : Pos) (s : State) : Host.Outcome State Fault Refusal :=
  answer (fun b => b.expiryEvent (b.works.eng.at p).link.refreshT fun _ e => refreshExpires p e) s

/-- STATION_FRAME_SENT (R109). -/
def execStationFrameSent (p : Pos) (s : State) : Host.Outcome State Fault Refusal :=
  answer (·.onWorks (·.event fun _ e => stationFrameEnds p e)) s

/-- DISAGREE_TIMER_EXPIRES (R117). -/
def execDisagreeTimerExpires (p : Pos) (s : State) : Host.Outcome State Fault Refusal :=
  answer (fun b => b.expiryEvent (b.works.eng.at p).link.disagreeT fun T e => disagreeExpires T p e) s

/-- A level change at a pickup input (R119). -/
def levelChanges (p : Pos) (level : Level) (T : Tables) (e : Engine) : Engine :=
  e.modify p fun x =>
    { x with pickup := x.pickup.levelChange level ((pickupProfile T p x).map (·.filterUs)) e.now }

/-- PICKUP_LEVEL_CHANGE (R119). -/
def execPickupLevelChange (p : Pos) (level : Level) (s : State) : Host.Outcome State Fault Refusal :=
  answer (·.onWorks (·.event (levelChanges p level))) s

/-- FILTER_TIMER_EXPIRES (R119). -/
def execFilterTimerExpires (p : Pos) (s : State) : Host.Outcome State Fault Refusal :=
  answer (fun b => b.expiryEvent (b.works.eng.at p).pickup.filterT fun T e => filterExpires T p e) s

/-- ZERO_SPEED_TIMER_EXPIRES (R121). -/
def execZeroSpeedTimerExpires (p : Pos) (s : State) : Host.Outcome State Fault Refusal :=
  answer (fun b => b.expiryEvent (b.works.eng.at p).pickup.zeroT fun T e => zeroSpeedExpires T p e) s

end Sys2Proof.Machine
end

