-- ==== Sys2Proof/Machine/Dispatch.lean ====
section
/-! DEFINITION. The meaning of each command: one arm per constructor of Instr. -/

namespace Sys2Proof.Machine

def exec (i : Instr) (s : State) : Host.Outcome State Fault Refusal :=
  match i with
  | .powerOnReset upCarrier downCarrier levels => Sys2Proof.Machine.execPowerOnReset upCarrier downCarrier levels s
  | .notch group value flags => Sys2Proof.Machine.execNotch group value flags s
  | .notchTimerExpires => Sys2Proof.Machine.execNotchTimerExpires s
  | .dwellTimerExpires => Sys2Proof.Machine.execDwellTimerExpires s
  | .achieveTimerExpires => Sys2Proof.Machine.execAchieveTimerExpires s
  | .lingerTimerExpires p => Sys2Proof.Machine.execLingerTimerExpires p s
  | .modeAuto group target position => Sys2Proof.Machine.execModeAuto group target position s
  | .modeRun group target position => Sys2Proof.Machine.execModeRun group target position s
  | .modeOut group target position => Sys2Proof.Machine.execModeOut group target position s
  | .resetFault group target position => Sys2Proof.Machine.execResetFault group target position s
  | .holdTimerExpires p => Sys2Proof.Machine.execHoldTimerExpires p s
  | .stopTimerExpires p => Sys2Proof.Machine.execStopTimerExpires p s
  | .stepTimerExpires p => Sys2Proof.Machine.execStepTimerExpires p s
  | .retryRestExpires p => Sys2Proof.Machine.execRetryRestExpires p s
  | .restTimerExpires => Sys2Proof.Machine.execRestTimerExpires s
  | .guardTimerExpires => Sys2Proof.Machine.execGuardTimerExpires s
  | .sample p raw => Sys2Proof.Machine.execSample p raw s
  | .sampleTimerExpires p => Sys2Proof.Machine.execSampleTimerExpires p s
  | .confirmTimerExpires p => Sys2Proof.Machine.execConfirmTimerExpires p s
  | .refreshTimerExpires p => Sys2Proof.Machine.execRefreshTimerExpires p s
  | .stationFrameSent p => Sys2Proof.Machine.execStationFrameSent p s
  | .disagreeTimerExpires p => Sys2Proof.Machine.execDisagreeTimerExpires p s
  | .pickupLevelChange p level => Sys2Proof.Machine.execPickupLevelChange p level s
  | .filterTimerExpires p => Sys2Proof.Machine.execFilterTimerExpires p s
  | .zeroSpeedTimerExpires p => Sys2Proof.Machine.execZeroSpeedTimerExpires p s
  | .settleTimerExpires p => Sys2Proof.Machine.execSettleTimerExpires p s
  | .periodEnd => Sys2Proof.Machine.execPeriodEnd s
  | .persistenceTimerExpires p entry => Sys2Proof.Machine.execPersistenceTimerExpires p entry s
  | .runHourTick => Sys2Proof.Machine.execRunHourTick s
  | .meterIncrement p => Sys2Proof.Machine.execMeterIncrement p s
  | .hourHoldTimerExpires => Sys2Proof.Machine.execHourHoldTimerExpires s
  | .badFrame port raw => Sys2Proof.Machine.execBadFrame port raw s
  | .unknownKind port kind payload => Sys2Proof.Machine.execUnknownKind port kind payload s
  | .enumerate nextAddr => Sys2Proof.Machine.execEnumerate nextAddr s
  | .poll group target => Sys2Proof.Machine.execPoll group target s
  | .upstreamFrameArrives kind payload => Sys2Proof.Machine.execUpstreamFrameArrives kind payload s
  | .downTransmissionEnd => Sys2Proof.Machine.execDownTransmissionEnd s
  | .upTransmissionEnd => Sys2Proof.Machine.execUpTransmissionEnd s
  | .downLosesCarrier => Sys2Proof.Machine.execDownLosesCarrier s
  | .downGainsCarrier => Sys2Proof.Machine.execDownGainsCarrier s
  | .upLosesCarrier => Sys2Proof.Machine.execUpLosesCarrier s
  | .upGainsCarrier => Sys2Proof.Machine.execUpGainsCarrier s
  | .write r => Sys2Proof.Machine.execWrite r s
  | .read r => Sys2Proof.Machine.execRead r s
  | .commit r => Sys2Proof.Machine.execCommit r s
  | .commitApplication => Sys2Proof.Machine.execCommitApplication s
  | .save r => Sys2Proof.Machine.execSave r s
  | .saveCompletion passes => Sys2Proof.Machine.execSaveCompletion passes s
  | .holdHours r => Sys2Proof.Machine.execHoldHours r s
  | .releaseHours r => Sys2Proof.Machine.execReleaseHours r s
  | .isolate r => Sys2Proof.Machine.execIsolate r s
  | .restore r => Sys2Proof.Machine.execRestore r s
  | .restart r => Sys2Proof.Machine.execRestart r s
  | .unknownOp op r => Sys2Proof.Machine.execUnknownOp op r s
  | .supplyDip => Sys2Proof.Machine.execSupplyDip s

end Sys2Proof.Machine
end

