-- ==== Sys2Proof/Machine/Step.lean ====
section
/-! DEFINITION. One step: the command at the front of the queue, or what an empty queue does. -/

namespace Sys2Proof.Machine

/-- One step: the front command runs on the state with the queue's rest; an empty queue idles (log 1). -/
def step (s : State) : Host.Outcome State Fault Refusal :=
  match s.pending with
  | [] => .next (idle s)
  | c :: rest => exec c { s with pending := rest }

/-- The state with the command that a word spells at the front of the queue; unchanged where the word spells none. -/
def State.withFetchWord (s : State) (nbits w : Nat) : State :=
  match decodeTableWord nbits w with
  | none => s
  | some c => { s with pending := c :: s.pending }

end Sys2Proof.Machine
end

