-- ==== Sys2Proof/WellFormed.lean ====
section
/-! DEFINITION. When a command carries what its row stands for: a frame of its kind that R156 lets through, bytes that R156 or
R157 discards, an unknown kind, an unknown op. The block answers any command, well formed or not (log 23). -/

namespace Sys2Proof

open Sys2Proof.Machine

/-- The op byte of a management command (R185). -/
def Instr.opByte : Instr → Option Byte
  | .write _ => some 1
  | .read _ => some 2
  | .commit _ => some 3
  | .save _ => some 4
  | .holdHours _ => some 5
  | .releaseHours _ => some 6
  | .isolate _ => some 7
  | .restore _ => some 8
  | .restart _ => some 9
  | .unknownOp op _ => some op
  | _ => none

/-- The consist-line frame a command carries, if any. -/
def Instr.frame : Instr → Option Frame
  | .notch group value flags => some (notchFrame group value flags)
  | .modeAuto group target position => some (engineReqFrame group target position 0)
  | .modeRun group target position => some (engineReqFrame group target position 1)
  | .modeOut group target position => some (engineReqFrame group target position 2)
  | .resetFault group target position => some (engineReqFrame group target position 3)
  | .poll group target => some (pollFrame group target)
  | .enumerate nextAddr => some (enumerateFrame nextAddr)
  | .unknownKind _ kind payload => some ⟨kind, payload⟩
  | .upstreamFrameArrives kind payload => some ⟨upKindByte kind, payload⟩
  | .write r => some (mgmtFrame 1 r)
  | .read r => some (mgmtFrame 2 r)
  | .commit r => some (mgmtFrame 3 r)
  | .save r => some (mgmtFrame 4 r)
  | .holdHours r => some (mgmtFrame 5 r)
  | .releaseHours r => some (mgmtFrame 6 r)
  | .isolate r => some (mgmtFrame 7 r)
  | .restore r => some (mgmtFrame 8 r)
  | .restart r => some (mgmtFrame 9 r)
  | .unknownOp op r => some (mgmtFrame op r)
  | _ => none

/-- The frame carried passes the checks of R156. -/
def Instr.frameOk (c : Instr) : Bool :=
  match c.frame with
  | none => true
  | some f => f.ok

/-- BAD_FRAME carries bytes that R156 or R157 discards. -/
def Instr.badOk : Instr → Bool
  | .badFrame port raw => discarded port raw
  | _ => true

/-- UNKNOWN_KIND carries a kind that R185 does not number. -/
def Instr.kindOk : Instr → Bool
  | .unknownKind _ kind _ => !knownKind kind
  | _ => true

/-- UNKNOWN_OP carries an op byte outside 1..9 (R171, R185). -/
def Instr.opOk : Instr → Bool
  | .unknownOp op _ => !within 1 9 op.toNat
  | _ => true

/-- A well-formed command. -/
def Instr.wellFormed (c : Instr) : Bool := c.frameOk && c.badOk && c.kindOk && c.opOk

end Sys2Proof
end

