-- ==== Sys2Proof/Safety.lean ====
section
/-! DEFINITION. What the statements name: the parts of a state, when a frame is taken, the invariants, and the quiet block. -/

namespace Sys2Proof.Machine

/-! ## The parts of a state -/

abbrev State.tab (s : State) : Tables := s.block.works.tab
abbrev State.eng (s : State) : Engine := s.block.works.eng
abbrev State.res (s : State) : Resolver := s.eng.res
abbrev State.pos (s : State) (p : Pos) : Position := s.eng.at p
abbrev State.relay (s : State) : Relay := s.block.relay
abbrev State.nv (s : State) : NonVol := s.block.nv
abbrev State.hours (s : State) : Hours := s.block.hours

/-! ## Frames taken -/

/-- A powered unit with carrier on UP hears what arrives there (R155). -/
abbrev State.hears (s : State) : Prop := s.block.powered = true ∧ s.relay.upCarrier = true

/-- An MGMT frame with this op byte is heard and taken (R156, R158). -/
abbrev Taken (op : Byte) (r : MgmtReq) (s : State) : Prop :=
  s.hears ∧ (mgmtFrame op r).ok = true ∧ s.relay.addressed r.target = true

/-- A taken MGMT frame finds room for its reply (R170). -/
abbrev Ran (op : Byte) (r : MgmtReq) (s : State) : Prop := Taken op r s ∧ s.relay.hasRoom = true

/-- A relay that passes an MGMT frame downstream unless its target is the unit address (R158). -/
def Relay.forward (y : Relay) (op : Byte) (r : MgmtReq) : Relay :=
  if r.target.toNat ≠ y.address then y.passDown (mgmtFrame op r) else y

/-- A relay that queues a reply and then forwards the request. -/
def Relay.answered (y : Relay) (op : Byte) (r : MgmtReq) (rp : Reply) : Relay :=
  (y.queueLocal (replyFrame r.tag op rp)).forward op r

/-- A relay that passes a frame where the Dispatch Table's action passes (R160). -/
def Relay.passIf (y : Relay) (a : DispAction) (f : Frame) : Relay := if a.passes then y.passDown f else y

/-- The port a command's frame or bytes arrive on (R157). -/
def arrivalPort : Instr → Port
  | .upstreamFrameArrives _ _ => .down
  | .unknownKind port _ _ | .badFrame port _ => port
  | _ => .up

/-- Whether a command is an arrival of a frame or of bytes on a port. -/
def arrives : Instr → Bool
  | .badFrame _ _ => true
  | c => c.frame.isSome

/-- A relay with one more bad frame counted at a port (R156, R168). -/
def Relay.withBad (y : Relay) (port : Port) : Relay :=
  match port with
  | .up => { y with badUp := min (y.badUp + 1) 65535 }
  | .down => { y with badDown := min (y.badDown + 1) 65535 }

/-- The commands of the consist line that touch nothing but the relay. -/
def onLine : Instr → Bool
  | .badFrame _ _ | .unknownKind _ _ _ | .enumerate _ | .upstreamFrameArrives _ _ | .downTransmissionEnd
  | .upTransmissionEnd | .downLosesCarrier | .downGainsCarrier | .upLosesCarrier | .upGainsCarrier => true
  | _ => false

/-- The events of engines, stations, loading and protection, which no frame brings. -/
def onEngines : Instr → Bool
  | .notchTimerExpires | .dwellTimerExpires | .achieveTimerExpires | .lingerTimerExpires _ | .holdTimerExpires _
  | .stopTimerExpires _ | .stepTimerExpires _ | .retryRestExpires _ | .restTimerExpires | .guardTimerExpires
  | .sample _ _ | .sampleTimerExpires _ | .confirmTimerExpires _ | .refreshTimerExpires _ | .stationFrameSent _
  | .disagreeTimerExpires _ | .pickupLevelChange _ _ | .filterTimerExpires _ | .zeroSpeedTimerExpires _
  | .settleTimerExpires _ | .periodEnd | .persistenceTimerExpires _ _ | .commitApplication => true
  | _ => false

/-- The frames of the Resolver, the Planner and the positions. -/
def onOrders : Instr → Bool
  | .notch _ _ _ | .modeAuto _ _ _ | .modeRun _ _ _ | .modeOut _ _ _ | .resetFault _ _ _ => true
  | _ => false

/-- The position whose pickup a command touches. -/
def touchesPickup : Instr → Option Pos
  | .pickupLevelChange p _ | .filterTimerExpires p | .zeroSpeedTimerExpires p => some p
  | _ => none

/-- The MODE command of a mode (R20). -/
def modeCommand (m : Mode) (group target position : Byte) : Instr :=
  match m with
  | .auto => .modeAuto group target position
  | .run => .modeRun group target position
  | .out => .modeOut group target position

/-- The request byte of a mode (R185). -/
def modeByte : Mode → Byte
  | .auto => 0
  | .run => 1
  | .out => 2

/-- Whether an ENGINE_REQ with this request byte is heard and taken (R156, R160, R161). -/
abbrev RequestTaken (request group target position : Byte) (s : State) : Prop :=
  s.hears ∧ (engineReqFrame group target position request).ok = true ∧
  (dispatch s.tab .engineReq group.toNat).acts = true ∧ s.relay.addressed target = true

/-- No zero condition of R23 holds, and no commit that could bring one is pending. -/
abbrev State.staged (s : State) : Prop := zeroCondition s.tab s.res = false ∧ s.block.works.commitPending = false

/-- The Planner cannot start an OFF position with this record: OUT, setup not CONFIRMED, or no run permission (R22, R23). -/
abbrev Position.unstartable (x : Position) (r : Resolver) : Prop :=
  x.mode = .out ∨ x.link.setup ≠ .confirmed ∨ r.runPerm = false ∨ r.latch = true

/-- The channel after a number of period ends (R134). -/
def Channel.after : Nat → Channel → Channel
  | 0, c => c
  | n + 1, c => (Channel.after n c).periodEnd

/-! ## The Line Relay (R154, R162 to R165, R168) -/

/-- Queues, address and counters within the bounds of R154. -/
structure Relay.Bounded (r : Relay) : Prop where
  down : r.downQ.length ≤ 4
  up : r.upCount ≤ 8
  localQ : r.localCount ≤ 4
  address : r.address ≤ 14
  badUp : r.badUp ≤ 65535
  badDown : r.badDown ≤ 65535
  relayDrops : r.relayDrops ≤ 65535
  replyDrops : r.replyDrops ≤ 65535
  mgmtDrops : r.mgmtDrops ≤ 65535

/-- No frame waits behind an idle transmitter with carrier, and nothing is sent or kept for a port without it
(R155, R162, R165). -/
structure Relay.Serving (r : Relay) : Prop where
  down : r.downCarrier = true → r.downTx = none → r.downQ = []
  noDown : r.downCarrier = false → r.downTx = none ∧ r.downQ = []
  up : r.upCarrier = true → r.upTx = none → r.upQ = [] ∧ r.localQ = []
  noUp : r.upCarrier = false → r.upTx = none

/-! ## The Demand Resolver (R3, R5, R7, R10, R12) -/

/-- The resolved notch is 0 under a holding condition and never above the demand notch; the demand is the capped request; run
permission is the run request without the latch; a LOST link demands nothing. -/
structure Resolver.Sound (T : Tables) (r : Resolver) : Prop where
  held : (holdingConds T r).any = true → r.resolved = 0
  reached : r.resolved ≤ r.demand
  demand : r.demand = T.cap r.requested
  requested : r.requested ≤ 8
  runPerm : r.runPerm = (r.runRequest && !r.latch)
  lost : r.link = .lost → r.requested = 0

/-! ## Positions (R40, R41, R52, R72, R106, R117, R123, R137, R142, R151) -/

/-- Every item of a position that belongs to a state is empty outside that state. -/
structure Position.Sound (x : Position) : Prop where
  duty : x.st.loaded = false → x.chan.duty = 0 ∧ x.chan.pending = 0 ∧ x.chan.target = 0 ∧ x.chan.state = .idle
  load : x.st.loaded = false →
    x.load.phase = none ∧ x.load.speed = none ∧ x.load.slot = none ∧ x.load.phaseTarget = none ∧ x.load.settleT = .stopped ∧
      x.phaseEnd = none
  causes : x.st.keepsCauses = false → x.causes = .none ∧ x.holdT = .stopped
  ctx : x.st ≠ .starting → x.ctx = none
  fault : x.st ≠ .faulted → x.fault = .clear ∧ x.failedStart = none
  linger : x.st ≠ .ready → x.lingerT = .stopped
  stop : x.st ≠ .stopping → x.stopT = .stopped
  prot : x.st.tested = false → x.prot = Vector.replicate 16 .reset
  disagree : x.st.tested = false → x.link.disagreeT = .stopped ∧ x.link.disagree = false
  silent : x.st = .absent ∨ x.st = .isolated →
    x.link.state = .silent ∧ x.link.latest = none ∧ x.link.setup = .unset ∧ x.link.sampleT = .stopped ∧
    x.link.confirmT = .stopped ∧ x.link.refreshT = .stopped

/-- All four positions are sound. -/
def Engine.Sound (e : Engine) : Prop := ∀ p, (e.at p).Sound

/-! ## The layouts of the table entries (R187) -/

/-- The bytes of each table's fields in order, the higher byte of a field first (R184, R187). -/
def EntryLayouts : Prop :=
  (∀ n : Nat, be16 n = [BitVec.ofNat 8 (n / 256), BitVec.ofNat 8 n]) ∧
  (∀ v : Int, beInt16 v = be16 (BitVec.ofInt 16 v).toNat) ∧
  (∀ n : Nat, be32 n = be16 (n / 65536) ++ be16 n) ∧
  (∀ x : UnitParams, x.bytes = be16 x.notchTimeoutMs ++ be16 x.achieveLimitS ++
    [BitVec.ofNat 8 x.notchCap, BitVec.ofNat 8 x.crankRestS, BitVec.ofNat 8 x.crankGuardS, BitVec.ofNat 8 x.pwmPeriodMs]) ∧
  (∀ x : PosEntry, x.bytes = [if x.present then 1 else 0, BitVec.ofNat 8 x.profile.val]) ∧
  (∀ x : Profile, x.bytes = be16 x.idleRpm ++ be16 x.maxRpm ++ be16 x.overspeedRpm ++ be16 x.runningRpm ++ be16 x.teeth ++
    [BitVec.ofNat 8 x.filterUs] ++ be16 x.sampleTimeoutMs ++ be16 x.disagreeTolRpm ++ be16 x.settleLimitMs ++
    be16 x.lingerS ++ be16 x.stopLimitS ++ be16 x.holdLimitS ++
    [BitVec.ofNat 8 x.droopPermille, BitVec.ofNat 8 x.govSet]) ∧
  (∀ x : SchedEntry, x.bytes = [BitVec.ofNat 8 x.runningRequired, BitVec.ofNat 8 x.onlineRequired] ++ be16 x.speedRpm ++
    be16 x.loadPermille ++ be16 x.rampUp ++ be16 x.rampDown ++ [BitVec.ofNat 8 x.dwellS]) ∧
  (∀ x : StepRec, x.bytes =
    ([match x.kind with | .prelube => 0 | .purge => 1 | .crank => 2 | .settle => 3 | .warm => 4 | .dwell => 5] : List Byte) ++
    beInt16 x.threshold ++ be16 x.timeLimitS ++
    ([match x.onLimit with | .fail => 0 | .pass => 1, BitVec.ofNat 8 x.retries] : List Byte) ++ be16 x.retryRestS ++
    [if x.report then 1 else 0, BitVec.ofNat 8 x.next]) ∧
  (∀ x : SelectEntry, x.bytes = [BitVec.ofInt 8 x.upperC, BitVec.ofNat 8 x.entryStep]) ∧
  (∀ x : ProtEntry, x.bytes =
    ([if x.enabled then 1 else 0,
     BitVec.ofNat 8 ((if x.positions.a then 1 else 0) + (if x.positions.b then 2 else 0) +
       (if x.positions.c then 4 else 0) + (if x.positions.d then 8 else 0)),
     match x.quantity with | .oil => 0 | .coolant => 1 | .stationSpeed => 2 | .pickupSpeed => 3 | .stationFault => 4,
     match x.sense with | .below => 0 | .above => 1] : List Byte) ++
    beInt16 x.threshold ++ be16 x.minRpm ++ be16 x.persistMs ++
    [match x.action with | .derate => 0 | .unload => 1 | .shutdown => 2, BitVec.ofNat 8 x.deratePct]) ∧
  ∀ x : DispEntry, x.bytes =
    [if x.enabled then 1 else 0,
     match x.kind with | .notch => 0 | .engineReq => 1 | .poll => 2 | .any => 3,
     BitVec.ofNat 8 x.group,
     match x.action with | .actAndPass => 0 | .actOnly => 1 | .passOnly => 2 | .discard => 3]

/-! ## A quiet block -/

/-- Whether the block has nothing left to do at this event: no handshake to begin, no linger timer of 0, no target to bring
up to date, no DRIVE to send (R109, R111, R124, R30). -/
def Works.quiet (w : Works) : Bool :=
  (zeroLinger w.eng).isNone &&
  Pos.all.all fun p =>
    let x := w.eng.at p
    (decide (x.link.setup ≠ .unset) || decide (x.link.state ≠ .up) || (x.st != .off && x.st != .held)
      || (w.tab.profile p).isNone)
    && !slotStale w.tab w.eng p && decide (driveContent w.tab p x = x.link.drive)

end Sys2Proof.Machine
end

