-- ==== Sys2Proof/Certificates/Slice0/Obligations.lean ====
section
/-! DEFINITION. The statements for the provers. Each docstring names the rules of spec/ it formalises or rests on; what rests on
a choice of the model names the row of the assumption log. -/

open Sys2Proof Sys2Proof.Machine

/-! ## The step and the queue -/

/-- Log 1 (DESIGN CHOICE): the queue of commands is the model's. -/
def Obligations.StepRunsTheFrontCommand : Prop :=
  ∀ (s : State) (c : Instr) (rest : List Instr), s.pending = c :: rest → step s = exec c { s with pending := rest }

/-- Log 1 (DESIGN CHOICE): what an empty queue does. The order of the expiries due is log 3 (DESIGN CHOICE). -/
def Obligations.EmptyQueueLetsTimePass : Prop :=
  ∀ s : State, s.pending = [] →
    (s.block.powered = false → step s = .next s) ∧
    (s.block.powered = true → ∀ c rest, dueCommands s.block = c :: rest → step s = .next { s with pending := [c] }) ∧
    (s.block.powered = true → dueCommands s.block = [] →
      step s = .next { s with block := { s.block with works := { s.block.works with
        eng := { s.eng with now := s.eng.now + 1 } } } })

def Obligations.EveryCommandAnswersAndLeavesTheQueue : Prop :=
  ∀ (c : Instr) (s : State), ∃ t, exec c s = .next t ∧ t.pending = s.pending

/-- Log 14 (DESIGN CHOICE). -/
def Obligations.WithoutSupplyACommandDoesNothing : Prop :=
  ∀ (c : Instr) (s : State), s.block.powered = false → c ≠ .supplyDip →
    (∀ up down levels, c ≠ .powerOnReset up down levels) → exec c s = .next s

/-! ## Resets -/

/-- R1, with the rest at IDLE that lasts until a NOTCH frame is taken. -/
def Obligations.BothResetsGiveTheResolverItsValues : Prop :=
  (∀ (c : Instr) (s t : State), exec c s = .next t → (∀ group value flags, c ≠ .notch group value flags) →
    s.res.link = .lost → s.res.resolved = 0 → s.res.dwell = .stopped → s.res.achieve = .stopped →
    t.res.link = .lost ∧ t.res.resolved = 0 ∧ t.res.dwell = .stopped ∧ t.res.achieve = .stopped) ∧
  ∀ s : State,
    (∀ up down levels, ∃ t, exec (.powerOnReset up down levels) s = .next t ∧
      t.res = { requested := 0, demand := 0, resolved := 0, link := .lost, runRequest := false, runPerm := false,
                latch := false, notchT := .stopped, dwell := .stopped, achieve := .stopped, achieved := false }) ∧
    (∀ r, Taken 9 r s → ∃ t, exec (.restart r) s = .next t ∧
      t.res = { requested := 0, demand := 0, resolved := 0, link := .lost, runRequest := false, runPerm := false,
                latch := false, notchT := .stopped, dwell := .stopped, achieve := .stopped, achieved := false })

/-- R183, R38, R63, R91, R104, R118, R123, R133, R142, R154, R181. The port states and levels are those found (log 16). -/
def Obligations.PowerOnLoadsTheImage : Prop :=
  ∀ (s : State) (up down : Bool) (levels : Four Level), ∃ t, exec (.powerOnReset up down levels) s = .next t ∧
    t.block.powered = true ∧ t.block.saving = none ∧ t.block.works.commitPending = false ∧ t.nv = s.nv ∧
    (∀ i, s.nv.image = some i →
      t.tab = { t1 := i.t1, t2 := i.t2, t3 := i.t3, t4 := i.sched, t5 := i.sched, t6 := i.t6, t7 := i.t7, t8 := i.t8,
                t9 := i.t9 }) ∧
    (s.nv.image = none → t.tab = .undefinedAll) ∧
    t.relay = { upCarrier := up, downCarrier := down, address := 0, downQ := [], upQ := [], localQ := [], downTx := none,
                upTx := none, lastSource := .localQ, badUp := 0, badDown := 0, relayDrops := 0, replyDrops := 0,
                mgmtDrops := 0 } ∧
    t.res = .reset ∧ t.eng.now = s.eng.now ∧ t.eng.short = false ∧ t.eng.lastReport = none ∧
    t.eng.bus = { state := .free, requesters := ⟨false, false, false, false⟩, pointer := .A, guardT := .stopped,
                  restT := .stopped } ∧
    t.eng.pwm = { periodMs := t.tab.pwmPeriod, timer := .running s.eng.now (t.tab.pwmPeriod * 1000) } ∧
    t.hours = { hold := false, holdT := .stopped, tickT := .running s.eng.now 1000000 } ∧
    ∀ p, t.pos p = Position.reset
      (if s.nv.isolation.get p ≠ some false then .isolated else if t.tab.present p then .off else .absent)
      (if s.nv.isolation.get p ≠ some false ∨ t.tab.present p = false then none
        else (t.tab.profile p).map fun pr => ⟨pr.idleRpm, false, false⟩)
      (levels.get p) ((s.nv.meters.get p).getD 0)

/-- R182, R154, R180, R38, R63, R91, R104, R118, R123, R133, R142. The port states and levels are those the state holds (log 16);
an isolation cell that fails its check counts as set (log 25). -/
def Obligations.RestartKeepsTablesAddressAndMeters : Prop :=
  ∀ (s : State) (r : MgmtReq), Taken 9 r s → s.relay.address ≤ 14 → ∃ t, exec (.restart r) s = .next t ∧
    t.block.powered = true ∧ t.tab = s.tab ∧ t.nv = s.nv ∧ t.block.saving = none ∧ t.block.works.commitPending = false ∧
    t.relay = { upCarrier := s.relay.upCarrier, downCarrier := s.relay.downCarrier, address := s.relay.address, downQ := [],
                upQ := [], localQ := [],
                downTx := if r.target.toNat = 15 ∧ s.relay.downCarrier = true then some (mgmtFrame 9 r) else none,
                upTx := none, lastSource := .localQ, badUp := 0, badDown := 0, relayDrops := 0, replyDrops := 0,
                mgmtDrops := 0 } ∧
    t.res = .reset ∧ t.eng.now = s.eng.now ∧ t.eng.short = false ∧ t.eng.lastReport = none ∧
    t.eng.bus = { state := .free, requesters := ⟨false, false, false, false⟩, pointer := .A, guardT := .stopped,
                  restT := .stopped } ∧
    t.eng.pwm = { periodMs := s.tab.pwmPeriod, timer := .running s.eng.now (s.tab.pwmPeriod * 1000) } ∧
    t.hours = { hold := false, holdT := .stopped, tickT := .running s.eng.now 1000000 } ∧
    ∀ p, t.pos p = Position.reset
      (if s.nv.isolation.get p ≠ some false then .isolated else if s.tab.present p then .off else .absent)
      (if s.nv.isolation.get p ≠ some false ∨ s.tab.present p = false then none
        else (s.tab.profile p).map fun pr => ⟨pr.idleRpm, false, false⟩)
      (s.pos p).pickup.input (s.pos p).meter.value

/-- R188, R180. Log 14 (DESIGN CHOICE) names the unpowered state, which is also that of RESET held low. -/
def Obligations.SupplyDipReleasesEveryPin : Prop :=
  ∀ s : State, ∃ t, exec .supplyDip s = .next t ∧ t.block.powered = false ∧ t.nv = s.nv ∧ t.block.saving = none ∧
    t.relay.downTx = none ∧ t.relay.upTx = none ∧
    ∀ p, (t.pos p).link.sending = none ∧ t.block.crankClosed p = false ∧ t.block.stopAsserted p = false ∧
      t.block.excitation p = 0 ∧ t.block.excitationActive p = false

/-! ## The Demand Resolver -/

/-- R2, R3, R4, R5, R7, R155, R160. A frame that is not taken changes nothing of the Resolver, the engines and the tables. -/
def Obligations.NotchFrameSetsTheDemand : Prop :=
  ∀ (s : State) (group value flags : Byte), s.hears → 1 ≤ group.toNat → group.toNat ≤ 4 →
    ∃ t, exec (.notch group value flags) s = .next t ∧
      t.relay = s.relay.passIf (dispatch s.tab .notch group.toNat) (notchFrame group value flags) ∧
      ((dispatch s.tab .notch group.toNat).acts = true →
        t.res.requested = min value.toNat 8 ∧
        t.res.demand = (match s.tab.t1 with
          | none => min value.toNat 8
          | some u => min (min value.toNat 8) u.notchCap) ∧
        t.res.runRequest = flags.getLsbD 0 ∧
        t.res.latch = (flags.getLsbD 1 || (s.res.latch && flags.getLsbD 0)) ∧
        t.res.runPerm = (t.res.runRequest && !t.res.latch) ∧
        t.res.notchT = .running s.eng.now (match s.tab.t1 with
          | none => 5000000
          | some u => u.notchTimeoutMs * 1000) ∧
        t.res.link = .live ∧
        (s.res.Sound s.tab → t.res.resolved ≤ t.res.demand ∧ ((holdingConds t.tab t.res).any = true → t.res.resolved = 0))) ∧
      ((dispatch s.tab .notch group.toNat).acts = false → t.eng = s.eng ∧ t.tab = s.tab)

/-- R4: the table, what leaves the latch, and the order of R6 that stands while it is set. -/
def Obligations.LatchFollowsItsTable : Prop :=
  (∀ (s : State) (group value flags : Byte), s.hears → 1 ≤ group.toNat → group.toNat ≤ 4 →
    (dispatch s.tab .notch group.toNat).acts = true →
    ∃ t, exec (.notch group value flags) s = .next t ∧
      (flags.getLsbD 1 = true → t.res.latch = true) ∧
      (flags.getLsbD 1 = false → s.res.latch = false → t.res.latch = false) ∧
      (flags.getLsbD 1 = false → s.res.latch = true → t.res.latch = flags.getLsbD 0) ∧
      (flags.getLsbD 1 = true → s.res.latch = true →
        ∀ p, (s.pos p).st = .held ∨ (s.pos p).st = .unloading → (t.pos p).st = (s.pos p).st)) ∧
  (∀ (s t : State) (group value flags : Byte), exec (.notch group value flags) s = .next t →
    ¬ (s.hears ∧ (notchFrame group value flags).ok = true ∧ (dispatch s.tab .notch group.toNat).acts = true) →
    t.res.latch = s.res.latch) ∧
  (∀ s : State, ∃ t, exec .notchTimerExpires s = .next t ∧ t.res.latch = s.res.latch) ∧
  (∀ (s : State) up down levels, ∃ t, exec (.powerOnReset up down levels) s = .next t ∧ t.res.latch = false) ∧
  (∀ (s : State) r, Taken 9 r s → ∃ t, exec (.restart r) s = .next t ∧ t.res.latch = false) ∧
  (∀ (s t : State) r, exec (.restart r) s = .next t → ¬ Taken 9 r s → t.res.latch = s.res.latch) ∧
  (∀ (c : Instr) (s t : State), exec c s = .next t → (∀ group value flags, c ≠ .notch group value flags) →
    (∀ up down levels, c ≠ .powerOnReset up down levels) → (∀ r, c ≠ .restart r) → t.res.latch = s.res.latch) ∧
  (∀ (T : Tables) (e : Engine) value run emergency, e.res.latch = true →
    (notchTaken value run emergency T e).pos = e.pos ∧ (notchTaken value run emergency T e).bus = e.bus) ∧
  (∀ (c : Instr) (s t : State) (p : Pos), exec c s = .next t → s.eng.Sound → s.res.latch = true → t.res.latch = true →
    (t.pos p).st = .starting ∨ (t.pos p).st = .ready ∨ (t.pos p).st = .online ∨ (t.pos p).st = .unloading ∨
      (t.pos p).st = .held →
    (s.pos p).st = .starting ∨ (s.pos p).st = .ready ∨ (s.pos p).st = .online ∨ (s.pos p).st = .unloading ∨
      (s.pos p).st = .held) ∧
  (∀ (T : Tables) (p : Pos) (causes : Causes) (e : Engine), e.res.latch = true →
    ((enterHeld T p causes e).at p).st = (if (e.at p).pickup.speed = 0 then .off else .stopping))

/-- R7, R10. The expiry is taken at the limit of the timer (log 2). -/
def Obligations.NotchTimerExpiryLosesTheLink : Prop :=
  ∀ (s : State) (since period : Nat), s.block.powered = true → s.res.notchT = .running since period → s.res.link = .live →
    ∃ t, exec .notchTimerExpires s = .next t ∧ t.res.link = .lost ∧ t.res.requested = 0 ∧ t.res.demand = 0 ∧
      t.res.resolved = 0 ∧ t.res.dwell = .stopped ∧ t.res.achieve = .stopped ∧ t.res.notchT = .stopped ∧
      t.res.runRequest = s.res.runRequest ∧ t.res.runPerm = s.res.runPerm ∧ t.res.latch = s.res.latch ∧
      t.eng.now = max s.eng.now (since + period)

/-- R6, R51. A position at speed 0 passes through STOPPING to OFF at the event. -/
def Obligations.EmergencyStopsEveryRunningEngine : Prop :=
  ∀ (s : State) (group value flags : Byte), s.hears → 1 ≤ group.toNat → group.toNat ≤ 4 →
    (dispatch s.tab .notch group.toNat).acts = true → flags.getLsbD 1 = true → s.res.latch = false → s.eng.Sound →
    ∃ t, exec (.notch group value flags) s = .next t ∧ t.res.latch = true ∧ t.res.runPerm = false ∧ t.res.resolved = 0 ∧
      ∀ p,
        ((s.pos p).st = .starting ∨ (s.pos p).st = .ready ∨ (s.pos p).st = .online ∨ (s.pos p).st = .unloading ∨
            (s.pos p).st = .held →
          (t.pos p).st = (if (s.pos p).pickup.speed = 0 then .off else .stopping) ∧ (t.pos p).chan.duty = 0 ∧
          (t.pos p).ctx = none ∧ (t.pos p).causes = .none) ∧
        ((s.pos p).st = .off ∨ (s.pos p).st = .stopping ∨ (s.pos p).st = .faulted ∨ (s.pos p).st = .isolated ∨
            (s.pos p).st = .absent →
          (t.pos p).st = (s.pos p).st)

/-- R11, R13: the expiry of either timer examines the rise.
The instant of the expiry is the model's choice (log 2). -/
def Obligations.DwellAndAchieveExpiriesRaiseTheNotch : Prop :=
  ∀ (s : State) (since limit : Nat), s.block.powered = true → s.block.works.commitPending = false →
    (s.res.dwell = .running since → s.tab.dwellLimit s.res.resolved = some limit →
      ∃ t, exec .dwellTimerExpires s = .next t ∧ s.res.resolved ≤ t.res.resolved ∧
        t.res.resolved ≤ max s.res.resolved s.res.demand ∧ t.res.demand = s.res.demand ∧
        ((holdingConds s.tab s.res).any = false → s.res.resolved < s.res.demand →
          s.res.achieved = true ∨ s.res.achieve.isExpired = true → s.res.resolved + 1 ≤ t.res.resolved) ∧
        t.eng.now = max s.eng.now (since + limit)) ∧
    (s.res.achieve = .running since → s.tab.achieveLimit = some limit →
      ∃ t, exec .achieveTimerExpires s = .next t ∧ s.res.resolved ≤ t.res.resolved ∧
        t.res.resolved ≤ max s.res.resolved s.res.demand ∧ t.res.demand = s.res.demand ∧
        ((holdingConds s.tab s.res).any = false → s.res.resolved < s.res.demand → s.res.dwell.isExpired = true →
          s.res.resolved + 1 ≤ t.res.resolved) ∧
        t.eng.now = max s.eng.now (since + limit))

/-! ## The Staging Planner -/

/-- R25, R30, R37: out of service, or without run permission, the engine that has lingered is stopped.
The instant of the expiry is the model's choice (log 2). -/
def Obligations.LingerExpiryStopsTheEngine : Prop :=
  ∀ (s : State) (p : Pos) (since period : Nat), s.block.powered = true → (s.pos p).lingerT = .running since period →
    (s.pos p).st = .ready → (s.pos p).mode = .out ∨ s.res.runPerm = false →
    ∃ t, exec (.lingerTimerExpires p) s = .next t ∧
      (t.pos p).st = (if (s.pos p).pickup.speed = 0 then .off else .stopping) ∧
      t.eng.now = max s.eng.now (since + period)

/-- R20, R28, R71, R73, R155, R161: the modes; the start that MODE_RUN brings at a startable position of a sound state (an OFF
position has no step context, R41); the choice of the program. -/
def Obligations.ModeRequestsSetTheModes : Prop :=
  (∀ (s : State) (m : Mode) (group target position : Byte),
    (RequestTaken (modeByte m) group target position s →
      ∃ t, exec (modeCommand m group target position) s = .next t ∧
        ∀ p, (t.pos p).mode = (if p ∈ positionsNamed position then m else (s.pos p).mode)) ∧
    (s.hears → (engineReqFrame group target position (modeByte m)).ok = true →
      ((dispatch s.tab .engineReq group.toNat).acts && s.relay.addressed target) = false →
      ∃ t, exec (modeCommand m group target position) s = .next t ∧ t.eng = s.eng)) ∧
  (∀ (s : State) (group target position : Byte) (p : Pos), RequestTaken 1 group target position s →
    p ∈ positionsNamed position → (s.pos p).st = .off → (s.pos p).mode ≠ .run → (s.pos p).link.setup = .confirmed →
    (s.pos p).link.localSet = false → (s.tab.profile p).isSome = true → s.staged → s.eng.Sound →
    ∃ t, exec (.modeRun group target position) s = .next t ∧
      (chooseProgram s.tab ((s.pos p).link.latest.map (·.coolantC)) = none → (t.pos p).st = .faulted ∧
        (t.pos p).fault = ⟨some .noProgram, none, (s.pos p).link.latest.map (·.coolantC), false⟩) ∧
      ∀ sel, chooseProgram s.tab ((s.pos p).link.latest.map (·.coolantC)) = some sel →
        (s.tab.stepRec sel.entryStep = none → (t.pos p).st = .faulted ∧
          (t.pos p).fault = ⟨some .noProgram, some sel.entryStep, (s.pos p).link.latest.map (·.coolantC), false⟩) ∧
        ∀ r, checkEntry s.tab 1 sel.entryStep = some r → entryMeets s.tab p (s.pos p) r = false →
          ∃ c, (t.pos p).st = .starting ∧ (t.pos p).ctx = some c ∧ c.ptr = sel.entryStep ∧ c.visited = 1 ∧
            c.retries = r.retries ∧ c.fired = false ∧ c.watch = false ∧ c.restT = .stopped) ∧
  (∀ (T : Tables) (coolant : Int) (i : Fin 4) (sel : SelectEntry), T.t7[i] = some sel → coolant ≤ sel.upperC →
    (∀ (j : Fin 4) (y : SelectEntry), j < i → T.t7[j] = some y → y.upperC < coolant) →
    chooseProgram T (some coolant) = some sel) ∧
  (∀ (T : Tables) (coolant : Int), (∀ (j : Fin 4) (y : SelectEntry), T.t7[j] = some y → y.upperC < coolant) →
    chooseProgram T (some coolant) = T.t7[3])

/-- R57. A position at standstill leaves FAULTED for OFF with its record clear; a turning one keeps both. -/
def Obligations.FaultResetClearsOrIsRefused : Prop :=
  ∀ (s : State) (group target position : Byte), RequestTaken 3 group target position s →
    ∃ t, exec (.resetFault group target position) s = .next t ∧
      ∀ p, p ∈ positionsNamed position → (s.pos p).st = .faulted →
        ((s.pos p).pickup.speed ≠ 0 → (t.pos p).st = .faulted ∧ (t.pos p).fault = (s.pos p).fault ∧
          (t.pos p).resetRefused = true) ∧
        ((s.pos p).pickup.speed = 0 → (s.pos p).unstartable s.res →
          (t.pos p).st = .off ∧ (t.pos p).fault = .clear ∧ (t.pos p).resetRefused = (s.pos p).resetRefused)

/-! ## Positions, steps and the crank bus -/

/-- R49, R51, R52, R53. -/
def Obligations.HoldAndStopLimitsFaultThePosition : Prop :=
  ∀ (s : State) (p : Pos) (since period : Nat), s.block.powered = true →
    ((s.pos p).st = .held → (s.pos p).holdT = .running since period →
      ∃ t, exec (.holdTimerExpires p) s = .next t ∧ (t.pos p).st = .faulted ∧
        (t.pos p).fault = ⟨some .heldTimeout, none, none, false⟩ ∧ (t.pos p).causes = .none ∧ (t.pos p).holdT = .stopped) ∧
    ((s.pos p).st = .stopping → (s.pos p).stopT = .running since period →
      ∃ t, exec (.stopTimerExpires p) s = .next t ∧ (t.pos p).st = .faulted ∧
        (t.pos p).fault = ⟨some .failToStop, none, some ((s.pos p).pickup.speed : Int), false⟩ ∧ (t.pos p).stopT = .stopped)

/-- R52, R73, R76, R78, R79, R80. Without retries the start fails; with a rest to make it rests; on PASS the step succeeds and the
next is entered, or the chain ends in HELD under held causes (R43). The mode and the zero condition keep the Planner from
abandoning the start (R29, R37).
The instant of the expiry is the model's choice (log 2). -/
def Obligations.StepLimitFailsOrRests : Prop :=
  ∀ (s : State) (p : Pos) (c : StepCtx) (r : StepRec) (since period : Nat), s.block.powered = true →
    (s.pos p).st = .starting → (s.pos p).ctx = some c → c.stepT = .running since period → s.tab.stepRec c.ptr = some r →
    (r.onLimit = .fail →
      (c.retries = 0 → ∃ t, exec (.stepTimerExpires p) s = .next t ∧ (t.pos p).st = .faulted ∧
        (t.pos p).fault = ⟨some .startFailed, some c.ptr, testedQuantity (s.pos p) r.kind, false⟩ ∧ (t.pos p).ctx = none) ∧
      (0 < c.retries → 0 < r.retryRestS → (s.pos p).mode = .run → s.staged →
        ∃ t c', exec (.stepTimerExpires p) s = .next t ∧ (t.pos p).st = .starting ∧ (t.pos p).ctx = some c' ∧
          c'.ptr = c.ptr ∧ c'.visited = c.visited ∧ c'.retries = c.retries - 1 ∧ c'.fired = false ∧ c'.watch = false ∧
          c'.restT = .running (max s.eng.now (since + period)) (r.retryRestS * 1000000))) ∧
    (r.onLimit = .pass →
      (∀ r', r.next ≠ 127 → checkEntry s.tab (c.visited + 1) r.next = some r' →
        entryMeets s.tab p (s.pos p) r' = false → (s.pos p).mode = .run → s.staged →
        ∃ t c', exec (.stepTimerExpires p) s = .next t ∧ (t.pos p).st = .starting ∧ (t.pos p).ctx = some c' ∧
          c'.ptr = r.next ∧ c'.visited = c.visited + 1 ∧ c'.retries = r'.retries ∧
          c'.fired = (c.fired || r.kind == .crank) ∧ c'.restT = .stopped ∧
          (t.pos p).stepEvent = ((s.pos p).stepEvent || r.report)) ∧
      (r.next = 127 → (s.pos p).causes.isEmpty = false → s.res.latch = false →
        ∃ t, exec (.stepTimerExpires p) s = .next t ∧ (t.pos p).st = .held ∧ (t.pos p).causes = (s.pos p).causes ∧
          (t.pos p).ctx = none ∧ (t.pos p).stepEvent = ((s.pos p).stepEvent || r.report)))

/-- R73, R80: the same step is entered again and no visit is counted. -/
def Obligations.RetryRestEndsInTheSameStep : Prop :=
  ∀ (s : State) (p : Pos) (c : StepCtx) (r : StepRec) (since period : Nat), s.block.powered = true →
    (s.pos p).st = .starting → (s.pos p).ctx = some c → c.restT = .running since period →
    checkEntry s.tab c.visited c.ptr = some r → entryMeets s.tab p (s.pos p) r = false → (s.pos p).mode = .run → s.staged →
    ∃ t c', exec (.retryRestExpires p) s = .next t ∧ (t.pos p).st = .starting ∧ (t.pos p).ctx = some c' ∧
      c'.ptr = c.ptr ∧ c'.visited = c.visited ∧ c'.retries = c.retries ∧ c'.restT = .stopped

/-- R93, R94, R97: the search of the requester set from the pointer in cyclic order, and the end of the rest. In a quiet block
nothing else happens at the event.
The instant of the expiry is the model's choice (log 2). -/
def Obligations.RestEndsInAGrantOrFree : Prop :=
  (∀ (set : Four Bool) (start p : Pos), firstRequester set start = some p ↔
    set.get p = true ∧
    ((p = start) ∨ (p = start.next ∧ set.get start = false) ∨
      (p = start.next.next ∧ set.get start = false ∧ set.get start.next = false) ∨
      (p = start.next.next.next ∧ set.get start = false ∧ set.get start.next = false ∧ set.get start.next.next = false))) ∧
  ∀ (s : State) (since period : Nat), s.block.powered = true → s.block.works.quiet = true → s.eng.bus.state = .rest →
    s.eng.bus.restT = .running since period →
    ∃ t, exec .restTimerExpires s = .next t ∧ t.eng.bus.restT = .stopped ∧
      (firstRequester s.eng.bus.requesters s.eng.bus.pointer = none →
        t.eng.bus.state = .free ∧ t.eng.bus.requesters = s.eng.bus.requesters ∧ t.eng.bus.pointer = s.eng.bus.pointer) ∧
      (∀ p, firstRequester s.eng.bus.requesters s.eng.bus.pointer = some p →
        t.eng.bus.state = .taken p ∧ t.eng.bus.requesters = s.eng.bus.requesters.set p false ∧
        t.eng.bus.pointer = p.next ∧
        (∀ u, s.tab.t1 = some u →
          t.eng.bus.guardT = .running (max s.eng.now (since + period)) (u.crankGuardS * 1000000)) ∧
        (∀ c r, (s.pos p).ctx = some c → s.tab.stepRec c.ptr = some r →
          (t.pos p).ctx = some { c with sub := .runningStep,
                                        stepT := .running (max s.eng.now (since + period)) (r.timeLimitS * 1000000) }))

/-- R98, R84, R53, and R101 for the link that is lost at the instant of the failure, for the SHUTDOWN entry without persistence
that a sample or a standstill of that instant tests true, and for the standstill that is a stall (R83).
The instant of an expiry is the model's choice (log 2), what makes two causes meet at one instant log 34. -/
def Obligations.GuardExpiryFailsTheHolder : Prop :=
  (∀ (s : State) (p : Pos) (c : StepCtx) (since period : Nat), s.block.powered = true → s.eng.bus.state = .taken p →
    s.eng.bus.guardT = .running since period → (s.pos p).st = .starting → (s.pos p).ctx = some c →
    ∃ t, exec .guardTimerExpires s = .next t ∧ (t.pos p).st = .faulted ∧
      (t.pos p).fault = ⟨some .crankOverrun, some c.ptr, some ((s.pos p).pickup.speed : Int), false⟩ ∧
      (t.pos p).ctx = none ∧ (t.pos p).failedAt t.eng.now = true) ∧
  (∀ (s : State) (p : Pos) (since period : Nat), s.block.powered = true → (s.pos p).failedAt s.eng.now = true →
    (s.pos p).link.sampleT = .running since period → since + period ≤ s.eng.now →
    ∃ t, exec (.sampleTimerExpires p) s = .next t ∧ (t.pos p).st = .faulted ∧ (t.pos p).link.state = .lost ∧
      (t.pos p).fault = { (s.pos p).fault with further := true }) ∧
  (∀ (s : State) (p : Pos) (raw : List Byte) (smp : Sample) (i : Fin 16) (en : ProtEntry), s.block.powered = true →
    (s.pos p).failedAt s.eng.now = true → (s.pos p).prot[i].active = false → sampleOfRaw raw = some smp →
    s.tab.inForce p i = some en → en.action = .shutdown → en.persistMs = 0 → en.quantity.ofStation = true →
    (s.pos p).prot[i].timer = .stopped → en.minRpm ≤ (s.pos p).pickup.speed → en.holdsOn (smp.quantity en.quantity) = true →
    ∃ t, exec (.sample p raw) s = .next t ∧ (t.pos p).st = .faulted ∧ (t.pos p).link.state = .up ∧
      (t.pos p).fault = { (s.pos p).fault with further := true } ∧ (t.pos p).prot = (s.pos p).prot) ∧
  (∀ (s : State) (p : Pos) (since period : Nat), s.block.powered = true → (s.pos p).failedAt s.eng.now = true →
    (s.pos p).pickup.zeroT = .running since period → since + period ≤ s.eng.now →
    ((∃ (i : Fin 16) (en : ProtEntry), s.tab.inForce p i = some en ∧ en.action = .shutdown ∧ en.persistMs = 0 ∧
        en.quantity = .pickupSpeed ∧ en.minRpm = 0 ∧ en.holdsOn 0 = true ∧ (s.pos p).prot[i] = ⟨.stopped, false⟩) ∨
      ∃ pr, s.tab.profile p = some pr ∧ 0 < pr.runningRpm ∧ (s.pos p).failedStart.any (·.watch) = true) →
    ∃ t, exec (.zeroSpeedTimerExpires p) s = .next t ∧ (t.pos p).st = .faulted ∧ (t.pos p).pickup.speed = 0 ∧
      (t.pos p).fault = { (s.pos p).fault with further := true })

/-- R95. -/
def Obligations.AtMostOneCrankLineIsClosed : Prop :=
  ∀ (b : Block) (p : Pos), b.crankClosed p = true →
    b.works.eng.bus.state = .taken p ∧ (b.works.eng.at p).st = .starting ∧
    (∃ c r, (b.works.eng.at p).ctx = some c ∧ b.works.tab.stepRec c.ptr = some r ∧ (r.kind = .purge ∨ r.kind = .crank)) ∧
    ∀ q, b.crankClosed q = true → q = p

/-- R40, R69, R80, R133, R139, R188: what each state sets on the lines (a position without a profile among them), the share of the period for which an excitation output is
active, and the DRIVE content held for the station: the content of the state at each step's end where it was so before. -/
def Obligations.LinesFollowTheState : Prop :=
  (∀ (b : Block) (p : Pos), b.powered = true → b.works.eng.Sound →
    (b.stopAsserted p = true ↔ (b.works.eng.at p).st = .stopping ∨ (b.works.eng.at p).st = .faulted ∨
      (b.works.eng.at p).st = .isolated) ∧
    ((b.works.eng.at p).st ≠ .online → (b.works.eng.at p).st ≠ .unloading →
      b.excitation p = 0 ∧ b.excitationActive p = false) ∧
    (b.crankClosed p = true ↔ (b.works.eng.at p).st = .starting ∧ b.works.eng.bus.state = .taken p ∧
      ∃ c r, (b.works.eng.at p).ctx = some c ∧ b.works.tab.stepRec c.ptr = some r ∧ (r.kind = .purge ∨ r.kind = .crank))) ∧
  (∀ (b : Block) (p : Pos) (start period elapsed : Nat), b.powered = true → b.works.eng.pwm.timer = .running start period →
    b.works.eng.now = start + elapsed → elapsed < period →
    (b.excitationActive p = true ↔ elapsed * 1000 < (b.works.eng.at p).chan.duty * period)) ∧
  (∀ s t : State, step s = .next t → (∀ p, (s.pos p).link.drive = driveContent s.tab p (s.pos p)) →
    ∀ p, (t.pos p).link.drive = driveContent t.tab p (t.pos p)) ∧
  (∀ (s : State) (p : Pos), (s.pos p).link.drive = driveContent s.tab p (s.pos p) →
    (s.tab.profile p = none → (s.pos p).link.drive = none) ∧
    ∀ pr, s.tab.profile p = some pr →
      ((s.pos p).st = .absent ∨ (s.pos p).st = .isolated → (s.pos p).link.drive = none) ∧
      ((s.pos p).st = .off ∨ (s.pos p).st = .stopping ∨ (s.pos p).st = .faulted →
        (s.pos p).link.drive = some ⟨pr.idleRpm, false, false⟩) ∧
      ((s.pos p).st = .ready ∨ (s.pos p).st = .held → (s.pos p).link.drive = some ⟨pr.idleRpm, true, false⟩) ∧
      (∀ speed, (s.pos p).st = .online ∨ (s.pos p).st = .unloading → (s.pos p).load.speed = some speed →
        (s.pos p).link.drive = some ⟨speed, true, false⟩) ∧
      (∀ c r, (s.pos p).st = .starting → (s.pos p).ctx = some c → s.tab.stepRec c.ptr = some r →
        (c.sub = .retryRest → (s.pos p).link.drive = some ⟨pr.idleRpm, false, false⟩) ∧
        (c.sub ≠ .retryRest →
          (r.kind = .prelube → (s.pos p).link.drive = some ⟨pr.idleRpm, false, true⟩) ∧
          (r.kind = .purge → (s.pos p).link.drive = some ⟨pr.idleRpm, false, false⟩) ∧
          (r.kind = .crank ∨ r.kind = .settle ∨ r.kind = .warm →
            (s.pos p).link.drive = some ⟨pr.idleRpm, true, false⟩) ∧
          (r.kind = .dwell → (s.pos p).link.drive = some ⟨pr.idleRpm, c.fired, false⟩))))

/-! ## Stations and pickups -/

/-- R105, R107, R184, R186; and R109, R110, R111, R115 for the sample that finds a silent OFF position's engine stopped or running:
the handshake and its frames. -/
def Obligations.ValidSampleIsTaken : Prop :=
  (∀ (s : State) (p : Pos) (raw : List Byte) (x : Sample), s.block.powered = true → sampleOfRaw raw = some x →
    (s.pos p).st ≠ .absent → (s.pos p).st ≠ .isolated →
    ∃ t, exec (.sample p raw) s = .next t ∧ (t.pos p).link.state = .up ∧ (t.pos p).link.latest = some x ∧
      (t.pos p).link.sampleT = (match s.tab.profile p with
        | none => .stopped
        | some pr => .running s.eng.now (pr.sampleTimeoutMs * 1000)) ∧
      (t.pos p).pickup = (s.pos p).pickup ∧ (t.pos p).meter = (s.pos p).meter ∧ (t.pos p).mode = (s.pos p).mode) ∧
  (∀ (s : State) (p : Pos) (raw : List Byte) (x : Sample) (pr : Profile), s.block.powered = true →
    sampleOfRaw raw = some x → (s.pos p).st = .off → (s.pos p).link.state ≠ .up → (s.pos p).link.setup = .unset →
    s.tab.profile p = some pr → (s.pos p).link.drive = some ⟨pr.idleRpm, false, false⟩ → (s.pos p).link.sending = none →
    (s.pos p).link.waiting = [] → s.eng.Sound →
    ∃ t, exec (.sample p raw) s = .next t ∧
      ((s.pos p).pickup.speed < pr.runningRpm → x.speedRpm < pr.runningRpm →
        (t.pos p).st = .off ∧ (t.pos p).link.setup = .sent ∧ (t.pos p).link.attempts = 1 ∧
        (t.pos p).link.setupId = ((s.pos p).link.setupId + 1) % 256 ∧
        (t.pos p).link.confirmT = .running s.eng.now 1000000 ∧ (t.pos p).link.refreshT = .running s.eng.now 200000 ∧
        (t.pos p).link.sending = some .clear ∧
        (t.pos p).link.waiting = [.setup ⟨((s.pos p).link.setupId + 1) % 256, pr.idleRpm, pr.maxRpm, pr.droopPermille,
          pr.govSet⟩, .drive]) ∧
      (pr.runningRpm ≤ (s.pos p).pickup.speed ∨ pr.runningRpm ≤ x.speedRpm → s.res.latch = false →
        (t.pos p).st = .held ∧ (t.pos p).causes = ⟨false, true, x.localPanel, false, false⟩ ∧
        (t.pos p).holdT = (if x.localPanel then .stopped else .running s.eng.now (pr.holdLimitS * 1000000)) ∧
        (t.pos p).link.setup = .sent ∧ (t.pos p).link.attempts = 1 ∧
        (t.pos p).link.setupId = ((s.pos p).link.setupId + 1) % 256 ∧
        (t.pos p).link.confirmT = .running s.eng.now 1000000 ∧ (t.pos p).link.refreshT = .running s.eng.now 200000 ∧
        (t.pos p).link.drive = some ⟨pr.idleRpm, true, false⟩ ∧
        (t.pos p).link.sending = some (.setup ⟨((s.pos p).link.setupId + 1) % 256, pr.idleRpm, pr.maxRpm,
          pr.droopPermille, pr.govSet⟩) ∧
        (t.pos p).link.waiting = [.drive]))

/-- R105, R106: an invalid sample, or one for ABSENT or ISOLATED, changes nothing in a quiet block. -/
def Obligations.OtherSamplesAreIgnored : Prop :=
  ∀ (s : State) (p : Pos) (raw : List Byte), s.block.powered = true → s.block.works.quiet = true →
    sampleOfRaw raw = none ∨ (s.pos p).st = .absent ∨ (s.pos p).st = .isolated → exec (.sample p raw) s = .next s

/-- R46, R116, R49: local control takes the load off and no hold timer runs. -/
def Obligations.LocalFlagHoldsTheEngine : Prop :=
  ∀ (s : State) (p : Pos) (raw : List Byte) (x : Sample), s.block.powered = true → sampleOfRaw raw = some x →
    x.localPanel = true → s.res.latch = false → (∀ i, s.tab.inForce p i = none) →
    (s.pos p).st = .ready ∨ (s.pos p).st = .online ∨ (s.pos p).st = .unloading → s.eng.Sound →
    ∃ t, exec (.sample p raw) s = .next t ∧ (t.pos p).st = .held ∧ (t.pos p).causes.localPanel = true ∧
      (t.pos p).holdT = .stopped ∧ (t.pos p).chan.duty = 0

/-- R107, R108, R84. -/
def Obligations.SampleTimerExpiryLosesTheStation : Prop :=
  ∀ (s : State) (p : Pos) (since period : Nat), s.block.powered = true → (s.pos p).link.sampleT = .running since period →
    (s.pos p).st ≠ .absent → (s.pos p).st ≠ .isolated → s.eng.Sound →
    ∃ t, exec (.sampleTimerExpires p) s = .next t ∧ (t.pos p).link.state = .lost ∧ (t.pos p).link.sampleT = .stopped ∧
      ((s.pos p).st = .off → (t.pos p).st = .off ∧ (t.pos p).link.setup = .unset) ∧
      (∀ c, (s.pos p).st = .starting → (s.pos p).ctx = some c → (t.pos p).st = .faulted ∧
        (t.pos p).fault = ⟨some .stationLost, some c.ptr, none, false⟩) ∧
      ((s.pos p).st = .ready ∨ (s.pos p).st = .online ∨ (s.pos p).st = .unloading → s.res.latch = false →
        (t.pos p).st = .held ∧ (t.pos p).causes = ⟨true, false, false, false, false⟩ ∧ (t.pos p).chan.duty = 0) ∧
      ((s.pos p).st = .held → (t.pos p).st = .held ∧ (t.pos p).causes.link = true)

/-- R109, R110, R112: the SETUP with the next identifier and the DRIVE behind it, at once or behind the frames that wait; no frame
at the third expiry. The clauses on frames are over a quiet block.
The instant of the expiry is the model's choice (log 2). -/
def Obligations.ConfirmExpiryRepeatsOrFails : Prop :=
  ∀ (s : State) (p : Pos) (pr : Profile) (since period : Nat), s.block.powered = true → s.tab.profile p = some pr →
    (s.pos p).link.confirmT = .running since period → (s.pos p).link.setup = .sent →
    (s.pos p).st = .off ∨ (s.pos p).st = .held →
    ∃ t, exec (.confirmTimerExpires p) s = .next t ∧ (t.pos p).st = (s.pos p).st ∧
      ((s.pos p).link.attempts < 3 → (t.pos p).link.setup = .sent ∧
        (t.pos p).link.setupId = ((s.pos p).link.setupId + 1) % 256 ∧
        (t.pos p).link.attempts = (s.pos p).link.attempts + 1 ∧
        (t.pos p).link.confirmT = .running (max s.eng.now (since + period)) 1000000) ∧
      (3 ≤ (s.pos p).link.attempts → (t.pos p).link.setup = .failed ∧ (t.pos p).link.confirmT = .stopped) ∧
      (∀ d, s.block.works.quiet = true → (s.pos p).link.attempts < 3 → (s.pos p).link.state = .up →
        (s.pos p).link.drive = some d →
        (t.pos p).link.refreshT = .running (max s.eng.now (since + period)) 200000 ∧ (t.pos p).link.drive = some d ∧
        ((s.pos p).link.sending = none → (s.pos p).link.waiting = [] →
          (t.pos p).link.sending = some (.setup ⟨((s.pos p).link.setupId + 1) % 256, pr.idleRpm, pr.maxRpm,
            pr.droopPermille, pr.govSet⟩) ∧
          (t.pos p).link.waiting = [.drive]) ∧
        (∀ f, (s.pos p).link.sending = some f → (t.pos p).link.sending = some f ∧
          (t.pos p).link.waiting = (s.pos p).link.waiting.filter (fun w => w != .drive) ++
            [.setup ⟨((s.pos p).link.setupId + 1) % 256, pr.idleRpm, pr.maxRpm, pr.droopPermille, pr.govSet⟩, .drive]) ∧
        ∀ q, q ≠ p → t.pos q = s.pos q) ∧
      (s.block.works.quiet = true → 3 ≤ (s.pos p).link.attempts →
        (t.pos p).link.sending = (s.pos p).link.sending ∧ (t.pos p).link.waiting = (s.pos p).link.waiting)

/-- R109: the refresh sends DRIVE, at once or at the tail of the frames that wait.
The instant of the expiry is the model's choice (log 2). -/
def Obligations.RefreshSendsDrive : Prop :=
  ∀ (s : State) (p : Pos) (d : Drive) (since period : Nat), s.block.powered = true → s.block.works.quiet = true →
    (s.pos p).link.refreshT = .running since period → (s.pos p).link.state = .up → (s.pos p).link.drive = some d →
    ∃ t, exec (.refreshTimerExpires p) s = .next t ∧
      (t.pos p).link.refreshT = .running (max s.eng.now (since + period)) 200000 ∧
      ((s.pos p).link.sending = none → (s.pos p).link.waiting = [] →
        (t.pos p).link.sending = some (.drive d) ∧ (t.pos p).link.waiting = []) ∧
      (∀ f, (s.pos p).link.sending = some f → (t.pos p).link.sending = some f ∧
        (t.pos p).link.waiting = (s.pos p).link.waiting.filter (fun w => w != .drive) ++ [.drive]) ∧
      ∀ q, q ≠ p → t.pos q = s.pos q

/-- R109: frames wait their turn; a waiting DRIVE takes the content in force when it is begun. -/
def Obligations.StationFramesFollowInOrder : Prop :=
  ∀ (s : State) (p : Pos), s.block.powered = true → s.block.works.quiet = true →
    ∃ t, exec (.stationFrameSent p) s = .next t ∧
      ((s.pos p).link.waiting = [] → (t.pos p).link.sending = none ∧ (t.pos p).link.waiting = []) ∧
      (∀ w rest, (s.pos p).link.waiting = w :: rest → (t.pos p).link.waiting = rest ∧
        (t.pos p).link.sending = (match w with
          | .clear => some .clear
          | .setup c => some (.setup c)
          | .drive => (s.pos p).link.drive.map .drive)) ∧
      ∀ q, q ≠ p → t.pos q = s.pos q

/-- R117, R46. -/
def Obligations.DisagreementHoldsTheEngine : Prop :=
  ∀ (s : State) (p : Pos) (since period : Nat), s.block.powered = true → (s.pos p).link.disagreeT = .running since period →
    s.eng.Sound →
    ∃ t, exec (.disagreeTimerExpires p) s = .next t ∧
      ((s.pos p).st = .ready ∨ (s.pos p).st = .online ∨ (s.pos p).st = .unloading → s.res.latch = false →
        (t.pos p).st = .held ∧ (t.pos p).causes = ⟨false, false, false, true, false⟩ ∧ (t.pos p).chan.duty = 0 ∧
        (t.pos p).link.disagree = true ∧ (t.pos p).link.disagreeT = .stopped) ∧
      ((s.pos p).st = .held → (t.pos p).st = .held ∧ (t.pos p).causes = { (s.pos p).causes with disagree := true } ∧
        (t.pos p).link.disagree = true ∧ (t.pos p).link.disagreeT = .stopped)

/-- R119. -/
def Obligations.LevelChangeStartsTheFilter : Prop :=
  ∀ (s : State) (p : Pos) (level : Level), s.block.powered = true →
    ∃ t, exec (.pickupLevelChange p level) s = .next t ∧
      (level = (s.pos p).pickup.input → (t.pos p).pickup = (s.pos p).pickup) ∧
      (level ≠ (s.pos p).pickup.input → level = (s.pos p).pickup.accepted →
        (t.pos p).pickup = { (s.pos p).pickup with input := level, filterT := .stopped }) ∧
      (∀ pr, level ≠ (s.pos p).pickup.input → level ≠ (s.pos p).pickup.accepted → s.tab.profile p = some pr →
        (s.pos p).st ≠ .absent →
        (t.pos p).pickup = { (s.pos p).pickup with input := level, filterT := .running s.eng.now pr.filterUs })

/-- R119, R120; R54 and R55 at the pickup update of an accepted rising edge (R122). Where the update brings several faults, the order
is the model's choice (log 7): OVERSPEED before UNEXPECTED_STOP, both before a SHUTDOWN entry.
The instant of the expiry is the model's choice (log 2). -/
def Obligations.FilterExpiryAcceptsTheLevel : Prop :=
  ∀ (s : State) (p : Pos) (pr : Profile) (since period : Nat), s.block.powered = true → s.tab.profile p = some pr →
    (s.pos p).st ≠ .absent → (s.pos p).pickup.filterT = .running since period →
    ∃ t, exec (.filterTimerExpires p) s = .next t ∧
      (t.pos p).pickup.accepted = (s.pos p).pickup.input ∧ (t.pos p).pickup.filterT = .stopped ∧
      ((s.pos p).pickup.input = .high → (s.pos p).pickup.accepted = .low →
        (t.pos p).pickup.lastEdge = some (max s.eng.now (since + period)) ∧
        (t.pos p).pickup.zeroT = .running (max s.eng.now (since + period)) 500000 ∧
        (t.pos p).pickup.history = (match (s.pos p).pickup.lastEdge with
          | none => (s.pos p).pickup.history
          | some t₀ => ((s.pos p).pickup.history ++ [max s.eng.now (since + period) - t₀]).drop
              ((s.pos p).pickup.history.length + 1 - 16)) ∧
        (t.pos p).pickup.speed = rpmOf pr.teeth (t.pos p).pickup.history ∧
        (pr.overspeedRpm ≤ (t.pos p).pickup.speed → (s.pos p).st ≠ .isolated →
          (t.pos p).st = .faulted ∧
          ((s.pos p).st = .faulted → (t.pos p).fault = { (s.pos p).fault with further := true }) ∧
          ((s.pos p).st ≠ .faulted → (t.pos p).fault.code = some .overspeed ∧
            (t.pos p).fault.step = (s.pos p).faultStep ∧
            (t.pos p).fault.value = some ((t.pos p).pickup.speed : Int))) ∧
        ((t.pos p).pickup.speed < pr.overspeedRpm → (t.pos p).pickup.speed < pr.runningRpm →
          (s.pos p).st = .ready ∨ (s.pos p).st = .online ∨ (s.pos p).st = .unloading →
          (t.pos p).st = .faulted ∧ (t.pos p).fault.code = some .unexpectedStop ∧
          (t.pos p).fault.step = none ∧ (t.pos p).fault.value = some ((t.pos p).pickup.speed : Int))) ∧
      ((s.pos p).pickup.input = .low →
        (t.pos p).pickup.history = (s.pos p).pickup.history ∧ (t.pos p).pickup.speed = (s.pos p).pickup.speed)

/-- R120. -/
def Obligations.PickupSpeedAveragesTheHistory : Prop :=
  ∀ (teeth : Nat) (history : List Nat), 0 < teeth → 1 ≤ history.length → history.length ≤ 16 → 0 < history.sum →
    rpmOf teeth history = (if 65535 < 60000000 * history.length / (teeth * history.sum) then 65535
      else 60000000 * history.length / (teeth * history.sum))

/-- R121, R50, R51, R55, R83. Where the same update also activates a SHUTDOWN entry, UNEXPECTED_STOP and STALLED_IN_START come first
by the model's choice (log 7); the clause on HELD with LOCAL shuts such an entry out. -/
def Obligations.ZeroSpeedClearsThePickup : Prop :=
  ∀ (s : State) (p : Pos) (pr : Profile) (since period : Nat), s.block.powered = true →
    (s.pos p).pickup.zeroT = .running since period → s.tab.profile p = some pr → 0 < pr.overspeedRpm →
    ∃ t, exec (.zeroSpeedTimerExpires p) s = .next t ∧ (t.pos p).pickup.speed = 0 ∧ (t.pos p).pickup.history = [] ∧
      (t.pos p).pickup.lastEdge = none ∧ (t.pos p).pickup.zeroT = .stopped ∧
      ((s.pos p).st = .stopping → (s.pos p).pickup.speed ≠ 0 → (s.pos p).unstartable s.res → s.eng.Sound →
        (t.pos p).st = .off ∧ (t.pos p).stopT = .stopped) ∧
      ((s.pos p).st = .held → (s.pos p).pickup.speed ≠ 0 → (s.pos p).causes.localPanel = false →
        (t.pos p).st = .faulted ∧ (t.pos p).fault.code = some .unexpectedStop ∧ (t.pos p).fault.value = some 0) ∧
      ((s.pos p).st = .held → (s.pos p).pickup.speed ≠ 0 → (s.pos p).causes.localPanel = true →
        (∀ i, s.tab.inForce p i = none) → (s.pos p).unstartable s.res →
        (t.pos p).st = .off ∧ (t.pos p).causes = .none ∧ (t.pos p).holdT = .stopped) ∧
      ((s.pos p).st = .ready ∨ (s.pos p).st = .online ∨ (s.pos p).st = .unloading → 0 < pr.runningRpm →
        (t.pos p).st = .faulted ∧ (t.pos p).fault.code = some .unexpectedStop ∧ (t.pos p).fault.value = some 0) ∧
      (∀ c, (s.pos p).st = .starting → (s.pos p).ctx = some c → c.watch = true → c.sub ≠ .retryRest → 0 < pr.runningRpm →
        (t.pos p).st = .faulted ∧ (t.pos p).fault.code = some .stalledInStart ∧ (t.pos p).fault.step = some c.ptr ∧
        (t.pos p).fault.value = some 0)

/-! ## Loading, excitation and protection -/

/-- R125 to R128, R130, R131: the end of a speed phase and the next choice. In UNLOADING with load still on, that is LOAD_DOWN; the
clauses on ONLINE are over a quiet block, and the phases that prompt the Planner are those of the operation itself.
The instant of the expiry is the model's choice (log 2). -/
def Obligations.SettleExpiryEndsThePhaseLate : Prop :=
  (∀ (s : State) (p : Pos) (since period : Nat), s.block.powered = true → (s.pos p).load.settleT = .running since period →
    ∃ t, exec (.settleTimerExpires p) s = .next t ∧ (t.pos p).load.settleLate = true ∧
      t.eng.now = max s.eng.now (since + period) ∧
      (∀ slot speed x, (s.pos p).st = .unloading → (s.pos p).load.slot = some slot → (s.pos p).load.speed = some speed →
        slot.load < (s.pos p).chan.duty → s.tab.active s.res.resolved = some x →
        (t.pos p).st = .unloading ∧ (t.pos p).load.phase = some .loadDown ∧
        (t.pos p).load.phaseTarget = some slot.load ∧ (t.pos p).load.settleT = .stopped ∧
        (t.pos p).load.speed = some speed ∧ (t.pos p).chan.duty = (s.pos p).chan.duty) ∧
      (∀ slot speed x pr, (s.pos p).st = .online → s.block.works.quiet = true →
        (s.pos p).load.phase = some .speedUp ∨ (s.pos p).load.phase = some .speedDown →
        (s.pos p).load.slot = some slot → (s.pos p).load.speed = some speed → s.tab.profile p = some pr →
        s.tab.active s.res.resolved = some x →
        (slot.load ≠ (s.pos p).chan.duty ∨ slot.speed ≠ speed →
          (t.pos p).st = .online ∧ (t.pos p).chan.duty = (s.pos p).chan.duty ∧ (t.pos p).load.slot = some slot) ∧
        (slot.load < (s.pos p).chan.duty →
          (t.pos p).load.phase = some .loadDown ∧ (t.pos p).load.phaseTarget = some slot.load ∧
          (t.pos p).load.speed = some speed ∧ (t.pos p).load.settleT = .stopped ∧
          (t.pos p).chan.target = slot.load ∧ (t.pos p).chan.state = .ramping) ∧
        ((s.pos p).chan.duty ≤ slot.load → slot.speed ≠ speed →
          (t.pos p).load.phase = some (if speed < slot.speed then .speedUp else .speedDown) ∧
          (t.pos p).load.speed = some slot.speed ∧ (t.pos p).load.phaseTarget = none ∧
          (t.pos p).load.settleT = .running (max s.eng.now (since + period)) (pr.settleLimitMs * 1000) ∧
          (t.pos p).link.drive = some ⟨slot.speed, true, false⟩) ∧
        ((s.pos p).chan.duty < slot.load → slot.speed = speed →
          (t.pos p).load.phase = some .loadUp ∧ (t.pos p).load.phaseTarget = some slot.load ∧
          (t.pos p).load.speed = some speed ∧ (t.pos p).load.settleT = .stopped ∧
          (t.pos p).chan.target = slot.load ∧ (t.pos p).chan.state = .ramping))) ∧
  (∀ (T : Tables) (p : Pos) (late : Bool) (e : Engine) (slot : Target), (e.at p).load.slot = some slot →
    (e.at p).load.speed = some slot.speed → (e.at p).chan.duty = slot.load →
    ((e.at p).st = .online → ((endSpeedPhase T p late e).at p).st = .online ∧
      ((endSpeedPhase T p late e).at p).load = { (e.at p).load with
        phase := some .steady, phaseTarget := none, settleT := .stopped, settleLate := late } ∧
      ((endSpeedPhase T p late e).at p).chan = (e.at p).chan) ∧
    ((e.at p).st = .unloading → belowRunning T p (e.at p).pickup.speed = false →
      ((endSpeedPhase T p late e).at p).st = .ready ∧ ((endSpeedPhase T p late e).at p).load.settleLate = late ∧
      ((endSpeedPhase T p late e).at p).load.phase = none))

/-- R134, R136, R138. -/
def Obligations.PeriodEndMovesTheDuties : Prop :=
  ∀ (s : State) (since period : Nat), s.block.powered = true → s.eng.pwm.timer = .running since period →
    ∃ t, exec .periodEnd s = .next t ∧ t.eng.pwm.periodMs = s.tab.pwmPeriod ∧
      t.eng.pwm.timer = .running (since + period) (s.tab.pwmPeriod * 1000) ∧
      (s.tab.pwmPeriod = s.eng.pwm.periodMs → (∀ p, (s.pos p).chan.completes = false) →
        t.tab = s.tab ∧ t.res = s.res ∧ t.eng.bus = s.eng.bus ∧
        ∀ p, t.pos p = { s.pos p with chan := { (s.pos p).chan with
          duty := (s.pos p).chan.pending
          pending := (match (s.pos p).chan.state, (s.pos p).chan.step with
            | .ramping, some step => moveToward (s.pos p).chan.pending (s.pos p).chan.target step
            | _, _ => (s.pos p).chan.pending) } }) ∧
      (s.tab.pwmPeriod = s.eng.pwm.periodMs → s.eng.Sound →
        ∀ p, (s.pos p).st ≠ .unloading → (t.pos p).chan.duty = (s.pos p).chan.pending) ∧
      (∀ x p, s.tab.pwmPeriod ≠ s.eng.pwm.periodMs → s.eng.Sound → s.tab.active s.res.resolved = some x →
        (s.pos p).st = .online → (s.pos p).chan.state = .ramping →
        (t.pos p).chan.duty = moveToward (s.pos p).chan.duty (s.pos p).chan.target
          (((if (s.pos p).chan.duty < (s.pos p).chan.target then x.rampUp else x.rampDown) * s.tab.pwmPeriod + 999) / 1000))

/-- R128, R134, R135: a ramp moves one step a period end and stops at its target. -/
def Obligations.RampReachesItsTargetInSteps : Prop :=
  ∀ (c : Channel) (x : SchedEntry) (periodMs target n : Nat),
    (c.duty < target → ((c.ramp x periodMs target).after n).duty = min (c.duty + n * rampStep x.rampUp periodMs) target) ∧
    (target < c.duty → ((c.ramp x periodMs target).after n).duty = max (c.duty - n * rampStep x.rampDown periodMs) target) ∧
    (target = c.duty → ((c.ramp x periodMs target).after n).duty = c.duty ∧ (c.ramp x periodMs target).state ≠ .ramping)

/-- R18, R125, R126, R128, R131: the phase a promotion begins. -/
def Obligations.PromotionChoosesThePhase : Prop :=
  ∀ (T : Tables) (e : Engine) (p : Pos) (pr : Profile) (x : SchedEntry), (e.at p).st = .ready → (e.at p).chan.duty = 0 →
    T.profile p = some pr → T.active e.res.resolved = some x →
    ((promoteOrder T p e).at p).st = .online ∧ ((promoteOrder T p e).at p).chan.duty = 0 ∧
    ∃ t, ((promoteOrder T p e).at p).load.slot = some t ∧ t.speed = max pr.idleRpm (min x.speedRpm pr.maxRpm) ∧
      t.load = (match (e.at p).deratePct T with
        | none => x.loadPermille
        | some n => min x.loadPermille (x.loadPermille * n / 100)) ∧
      (pr.idleRpm < t.speed → ((promoteOrder T p e).at p).load.phase = some .speedUp ∧
        ((promoteOrder T p e).at p).load.speed = some t.speed ∧
        ((promoteOrder T p e).at p).load.settleT = .running e.now (pr.settleLimitMs * 1000)) ∧
      (t.speed = pr.idleRpm → 0 < t.load → ((promoteOrder T p e).at p).load.phase = some .loadUp ∧
        ((promoteOrder T p e).at p).load.speed = some pr.idleRpm ∧
        ((promoteOrder T p e).at p).load.phaseTarget = some t.load ∧
        ((promoteOrder T p e).at p).chan.target = t.load ∧ ((promoteOrder T p e).at p).chan.state = .ramping) ∧
      (t.speed = pr.idleRpm → t.load = 0 → ((promoteOrder T p e).at p).load.phase = some .steady ∧
        ((promoteOrder T p e).at p).load.speed = some pr.idleRpm)

/-- R146, R148, R149, R150, R142; R129 for an ONLINE position whose ceiling falls, in a quiet block: no phase ended at the same
instant, or one did, and its choice is made on the slot as it stands after both. How that second choice is reached, and the DEDUCED
reading behind it, are the model's (log 39); so is the instant of the expiry (log 2). A second choice of STEADY is stated for the
operation itself, since STEADY prompts the Planner and may bring a commit or a rise. -/
def Obligations.PersistenceExpiryActs : Prop :=
  (∀ (s : State) (p : Pos) (i : Fin 16) (en : ProtEntry) (since period : Nat), s.block.powered = true →
    (s.pos p).prot[i].timer = .running since period → (s.pos p).prot[i].active = false → s.tab.t8[i] = some en →
    ∃ t, exec (.persistenceTimerExpires p i) s = .next t ∧
      (en.action = .shutdown → (s.pos p).st ≠ .faulted →
        (t.pos p).st = .faulted ∧
        (t.pos p).fault = ⟨some (.protection i), (s.pos p).faultStep, (s.pos p).quantity en.quantity, false⟩) ∧
      (en.action = .unload → (s.pos p).unload s.tab = false → s.res.latch = false → s.eng.Sound →
        ((s.pos p).st = .ready ∨ (s.pos p).st = .online ∨ (s.pos p).st = .unloading →
          (t.pos p).st = .held ∧ (t.pos p).causes = ⟨false, false, false, false, true⟩ ∧ (t.pos p).chan.duty = 0) ∧
        ((s.pos p).st = .held →
          (t.pos p).st = .held ∧ (t.pos p).causes = { (s.pos p).causes with protect := true })) ∧
      (en.action = .derate → (s.pos p).st = .held →
        (s.pos p).causes.isEmpty = false ∨ (s.pos p).link.setup ≠ .confirmed →
        (t.pos p).prot[i] = ⟨.stopped, true⟩ ∧ ∃ n, (t.pos p).deratePct t.tab = some n ∧ n ≤ en.deratePct) ∧
      (∀ pr x ph n, en.action = .derate → (s.pos p).st = .online → s.block.works.quiet = true → s.eng.Sound →
        (s.pos p).load.phase = some ph → ph ≠ .steady → s.tab.profile p = some pr → s.tab.active s.res.resolved = some x →
        (s.pos p).load.speed ≠ none →
        n = min x.loadPermille (x.loadPermille * (match (s.pos p).deratePct s.tab with
          | none => en.deratePct
          | some m => min m en.deratePct) / 100) →
        (∀ f speed, (s.pos p).endAt (max s.eng.now (since + period)) = some f → f.speed = some speed →
          choice ⟨max pr.idleRpm (min x.speedRpm pr.maxRpm), n⟩ (s.pos p).chan.duty speed ≠ .steady) →
        (t.pos p).st = .online ∧ (t.pos p).prot[i] = ⟨.stopped, true⟩ ∧ t.eng.now = max s.eng.now (since + period) ∧
        (t.pos p).load.slot = some ⟨max pr.idleRpm (min x.speedRpm pr.maxRpm), n⟩ ∧
        (t.pos p).chan.duty = (s.pos p).chan.duty ∧ (t.pos p).load.settleLate = (s.pos p).load.settleLate ∧
        ((s.pos p).endAt t.eng.now = none → ph = .speedUp ∨ ph = .loadUp → n < (s.pos p).chan.duty →
          (s.pos p).load.slot ≠ some ⟨max pr.idleRpm (min x.speedRpm pr.maxRpm), n⟩ →
          (t.pos p).load.phase = some .loadDown ∧ (t.pos p).load.phaseTarget = some n ∧
          (t.pos p).load.settleT = .stopped ∧ (t.pos p).chan.target = n ∧ (t.pos p).chan.state = .ramping) ∧
        ((s.pos p).endAt t.eng.now = none → ph = .speedDown ∨ ph = .loadDown ∨ (s.pos p).chan.duty ≤ n →
          (t.pos p).load.phase = some ph ∧ (t.pos p).load.phaseTarget = (s.pos p).load.phaseTarget ∧
          (t.pos p).chan = (s.pos p).chan) ∧
        (∀ f speed, (s.pos p).endAt t.eng.now = some f → f.speed = some speed →
          (s.pos p).load.slot ≠ some ⟨max pr.idleRpm (min x.speedRpm pr.maxRpm), n⟩ →
          (t.pos p).load.phase = some (choice ⟨max pr.idleRpm (min x.speedRpm pr.maxRpm), n⟩ (s.pos p).chan.duty speed) ∧
          (n < (s.pos p).chan.duty → (t.pos p).load.phaseTarget = some n ∧ (t.pos p).load.speed = some speed ∧
            (t.pos p).chan.target = n ∧ (t.pos p).chan.state = .ramping)))) ∧
  (∀ (T : Tables) (p : Pos) (e : Engine) (f : PhaseEnd) (slot : Target) (speed : Nat), (e.at p).st = .online →
    (e.at p).endAt e.now = some f → f.speed = some speed → (e.at p).load.slot = some slot →
    choice slot (e.at p).chan.duty speed = .steady →
    ((actOnTarget T p e).at p).st = .online ∧
    ((actOnTarget T p e).at p).load = { (e.at p).load with
      phase := some .steady, speed := some speed, phaseTarget := none, settleT := .stopped } ∧
    ((actOnTarget T p e).at p).chan.duty = (e.at p).chan.duty ∧ ((actOnTarget T p e).at p).chan.state ≠ .ramping)

/-! ## Run-Hour Meters -/

/-- R64. METER_INCREMENT is the roll-over of one meter taken by itself (log 6, DESIGN CHOICE). -/
def Obligations.RunHoursAccumulate : Prop :=
  ∀ s : State, s.block.powered = true →
    (∀ p, counts s.tab p (s.pos p) = true ↔
      (s.pos p).st ≠ .absent ∧ ∃ pr, s.tab.profile p = some pr ∧ pr.runningRpm ≤ (s.pos p).pickup.speed) ∧
    (∀ since period, s.hours.tickT = .running since period →
      ∃ t, exec .runHourTick s = .next t ∧ t.hours = { s.hours with tickT := .running (since + period) 1000000 } ∧
        ∀ p,
          (counts s.tab p (s.pos p) = false →
            (t.pos p).meter = (s.pos p).meter ∧ t.nv.meters.get p = s.nv.meters.get p) ∧
          (counts s.tab p (s.pos p) = true → (s.pos p).meter.acc < 359 →
            (t.pos p).meter = { (s.pos p).meter with acc := (s.pos p).meter.acc + 1 } ∧
            t.nv.meters.get p = s.nv.meters.get p) ∧
          (counts s.tab p (s.pos p) = true → 359 ≤ (s.pos p).meter.acc → s.hours.hold = true →
            (t.pos p).meter = ⟨(s.pos p).meter.value, 0, true⟩ ∧ t.nv.meters.get p = s.nv.meters.get p) ∧
          (counts s.tab p (s.pos p) = true → 359 ≤ (s.pos p).meter.acc → s.hours.hold = false →
            (t.pos p).meter = ⟨min ((s.pos p).meter.value + 1) 999999, 0, (s.pos p).meter.pendingInc⟩ ∧
            t.nv.meters.get p = (if (t.pos p).meter.value = (s.pos p).meter.value then s.nv.meters.get p
              else some (t.pos p).meter.value))) ∧
    (∀ p, ∃ t, exec (.meterIncrement p) s = .next t ∧ t.hours = s.hours ∧
      (counts s.tab p (s.pos p) = false ∨ (s.pos p).meter.acc < 359 → t = s) ∧
      (counts s.tab p (s.pos p) = true → 359 ≤ (s.pos p).meter.acc →
        (t.pos p).meter.acc = 0 ∧
        (s.hours.hold = true → (t.pos p).meter.pendingInc = true ∧ (t.pos p).meter.value = (s.pos p).meter.value ∧
          t.nv = s.nv) ∧
        (s.hours.hold = false → (t.pos p).meter.value = min ((s.pos p).meter.value + 1) 999999 ∧
          (t.pos p).meter.pendingInc = (s.pos p).meter.pendingInc ∧
          ((t.pos p).meter.value ≠ (s.pos p).meter.value → t.nv.meters.get p = some (t.pos p).meter.value)) ∧
        ∀ q, q ≠ p → t.pos q = s.pos q ∧ t.nv.meters.get q = s.nv.meters.get q))

/-- R65, R181: the hold begins with 10 s, and its end, by release or expiry, applies the pending increments.
The instant of the expiry is the model's choice (log 2). -/
def Obligations.HourHoldBeginsAndEnds : Prop :=
  (∀ (s : State) (r : MgmtReq), Ran 5 r s → ∃ t, exec (.holdHours r) s = .next t ∧
    t.block = { s.block with
      hours := { s.hours with hold := true, holdT := .running s.eng.now 10000000 }
      relay := s.relay.answered 5 r ⟨r.table, .ok, none, []⟩ }) ∧
  (∀ (s : State) (r : MgmtReq), Ran 6 r s → ∃ t, exec (.releaseHours r) s = .next t ∧
    t.relay = s.relay.answered 6 r ⟨r.table, .ok, none, []⟩ ∧ t.tab = s.tab ∧
    t.eng = { s.eng with pos := t.eng.pos } ∧ t.block.works.commitPending = s.block.works.commitPending ∧
    t.block.saving = s.block.saving ∧ t.block.powered = s.block.powered ∧ t.nv = { s.nv with meters := t.nv.meters } ∧
    (s.hours.hold = false → t.block.works = s.block.works ∧ t.hours = s.hours ∧ t.nv = s.nv) ∧
    (s.hours.hold = true → t.hours = { s.hours with hold := false, holdT := .stopped } ∧
      ∀ p, ((s.pos p).meter.pendingInc = false → t.pos p = s.pos p ∧ t.nv.meters.get p = s.nv.meters.get p) ∧
        ((s.pos p).meter.pendingInc = true →
          t.pos p = { s.pos p with meter := ⟨min ((s.pos p).meter.value + 1) 999999, (s.pos p).meter.acc, false⟩ } ∧
          t.nv.meters.get p = some (min ((s.pos p).meter.value + 1) 999999)))) ∧
  (∀ (s : State) (since period : Nat), s.block.powered = true → s.hours.holdT = .running since period →
    ∃ t, exec .hourHoldTimerExpires s = .next t ∧ t.relay = s.relay ∧ t.tab = s.tab ∧
      t.eng = { s.eng with pos := t.eng.pos, now := max s.eng.now (since + period) } ∧
      t.block.works.commitPending = s.block.works.commitPending ∧ t.block.saving = s.block.saving ∧
      t.block.powered = s.block.powered ∧ t.nv = { s.nv with meters := t.nv.meters } ∧
      t.hours = { s.hours with hold := false, holdT := .stopped } ∧ t.eng.now = max s.eng.now (since + period) ∧
      ∀ p, ((s.pos p).meter.pendingInc = false → t.pos p = s.pos p ∧ t.nv.meters.get p = s.nv.meters.get p) ∧
        ((s.pos p).meter.pendingInc = true →
          t.pos p = { s.pos p with meter := ⟨min ((s.pos p).meter.value + 1) 999999, (s.pos p).meter.acc, false⟩ } ∧
          t.nv.meters.get p = some (min ((s.pos p).meter.value + 1) 999999)))

/-! ## The Line Relay -/

/-- R155, R156, R157, R168. A BAD_FRAME whose bytes are a good frame changes nothing (log 23). That UP without carrier receives
nothing of any kind is log 37. -/
def Obligations.DiscardedFramesAreCounted : Prop :=
  ∀ s : State, s.block.powered = true →
    (∀ port raw, (port = .up → s.relay.upCarrier = true) → ∃ t, exec (.badFrame port raw) s = .next t ∧
      t = (if discarded port raw then { s with block := { s.block with relay := s.relay.withBad port } } else s)) ∧
    (∀ c f, c.frame = some f → f.ok = false → c.kindOk = true → c.opOk = true →
      (arrivalPort c = .up → s.relay.upCarrier = true) →
      exec c s = .next { s with block := { s.block with relay := s.relay.withBad (arrivalPort c) } }) ∧
    (∀ c, arrives c = true → arrivalPort c = .up → s.relay.upCarrier = false → exec c s = .next s)

/-- R157, R163. An UNKNOWN_KIND of a known kind changes nothing (log 23). -/
def Obligations.UpstreamAndUnknownFramesAreQueued : Prop :=
  ∀ s : State, s.block.powered = true →
    (∀ port kind payload, payload.length ≤ 120 → knownKind kind = false → (port = .up → s.relay.upCarrier = true) →
      ∃ t, exec (.unknownKind port kind payload) s = .next t ∧
        t.block = { s.block with relay := (match port with
          | .up => s.relay.passDown ⟨kind, payload⟩
          | .down => s.relay.queueUp ⟨kind, payload⟩) }) ∧
    (∀ kind payload, knownKind kind = true → ∀ port, exec (.unknownKind port kind payload) s = .next s) ∧
    (∀ kind payload, (⟨upKindByte kind, payload⟩ : Frame).ok = true →
      ∃ t, exec (.upstreamFrameArrives kind payload) s = .next t ∧
        t.block = { s.block with relay := s.relay.queueUp ⟨upKindByte kind, payload⟩ })

/-- R155, R162, R163, R164: the three queues, a frame put in each. -/
def Obligations.QueuesHoldTheirFrames : Prop :=
  ∀ (y : Relay) (f : Frame), y.Serving →
    (y.downCarrier = false → y.passDown f = y) ∧
    (y.downCarrier = true → y.downTx = none → y.passDown f = { y with downTx := some f }) ∧
    (∀ g, y.downTx = some g → y.downQ.length < 4 → y.passDown f = { y with downQ := y.downQ ++ [f] }) ∧
    (∀ g, y.downTx = some g → 4 ≤ y.downQ.length →
      y.passDown f = { y with relayDrops := min (y.relayDrops + 1) 65535 }) ∧
    (8 ≤ y.upCount → y.queueUp f = { y with relayDrops := min (y.relayDrops + 1) 65535 }) ∧
    (y.upCount < 8 → y.upCarrier = true → y.upTx = none →
      y.queueUp f = { y with upTx := some (.relay, f), lastSource := .relay }) ∧
    (y.upCount < 8 → y.upCarrier = false ∨ y.upTx ≠ none → y.queueUp f = { y with upQ := y.upQ ++ [f] }) ∧
    (y.upCarrier = true → y.upTx = none → y.queueLocal f = { y with upTx := some (.localQ, f), lastSource := .localQ }) ∧
    (y.upCarrier = false ∨ y.upTx ≠ none → y.queueLocal f = { y with localQ := y.localQ ++ [f] })

/-- R159. -/
def Obligations.EnumerateSetsTheAddress : Prop :=
  ∀ (s : State) (n : Byte), s.hears →
    ∃ t, exec (.enumerate n) s = .next t ∧
      t.relay.address = (if 1 ≤ n.toNat ∧ n.toNat ≤ 14 then n.toNat else 0) ∧
      t.block = { s.block with relay :=
        (if 1 ≤ n.toNat ∧ n.toNat ≤ 14 then ({ s.relay with address := n.toNat }).passDown ⟨0x12, [n + 1]⟩
         else ({ s.relay with address := 0 }).passDown ⟨0x12, [n]⟩) }

/-- R16, R155, R160, R161, R166, R167, R168, R185. A taken POLL is answered before it is passed (log 32, DESIGN CHOICE). -/
def Obligations.PollQueuesAStatus : Prop :=
  ∀ (s : State) (group target : Byte), s.hears → (pollFrame group target).ok = true →
    ∃ t, exec (.poll group target) s = .next t ∧ (statusPayload s.block).length = 71 ∧
      (∀ flags, flags = (if s.res.link = .lost then 1 else 0) + (if s.relay.downCarrier = false then 2 else 0)
          + (if s.tab.configured = false then 4 else 0) + (if s.eng.short = true then 8 else 0)
          + (if s.res.latch = true then 16 else 0) + (if s.res.runPerm = true then 32 else 0)
          + (if s.block.works.commitPending = true then 64 else 0) + (if s.block.saving ≠ none then 128 else 0)
          + (if s.hours.hold = true then 256 else 0) →
        (statusPayload s.block).take 5 = [BitVec.ofNat 8 s.relay.address, BitVec.ofNat 8 s.res.demand,
          BitVec.ofNat 8 s.res.resolved, BitVec.ofNat 8 (flags / 256), BitVec.ofNat 8 flags]) ∧
      (statusPayload s.block).drop 61 = be16 s.relay.badUp ++ be16 s.relay.badDown ++ be16 s.relay.relayDrops
        ++ be16 s.relay.replyDrops ++ be16 s.relay.mgmtDrops ∧
      (∀ (k : Nat) (p : Pos), Pos.ofNat? k = some p →
        ((statusPayload s.block).drop (5 + 14 * k)).take 14 = positionBytes s.tab p s.eng ∧
        (statusPayload s.block)[5 + 14 * k]? = some (s.pos p).st.code) ∧
      t.tab = s.tab ∧ t.res = s.res ∧ t.hours = s.hours ∧ t.nv = s.nv ∧ t.block.saving = s.block.saving ∧
      (((dispatch s.tab .poll group.toNat).acts && s.relay.addressed target) = false →
        t.relay = s.relay.passIf (dispatch s.tab .poll group.toNat) (pollFrame group target) ∧ t.eng = s.eng) ∧
      (((dispatch s.tab .poll group.toNat).acts && s.relay.addressed target) = true →
        (s.relay.hasRoom = true →
          t.relay = (s.relay.queueLocal ⟨0x20, statusPayload s.block⟩).passIf (dispatch s.tab .poll group.toNat)
            (pollFrame group target) ∧
          ∀ p, t.pos p = { s.pos p with stepEvent := false, resetRefused := false }) ∧
        (s.relay.hasRoom = false →
          t.relay = ({ s.relay with replyDrops := min (s.relay.replyDrops + 1) 65535 }).passIf
            (dispatch s.tab .poll group.toNat) (pollFrame group target) ∧ t.eng = s.eng))

/-- R155, R162, R165: the transmitters at the end of a frame and at a change of carrier. -/
def Obligations.PortEventsServeTheQueues : Prop :=
  ∀ s : State, s.block.powered = true →
    exec .downTransmissionEnd s = .next { s with block := { s.block with relay :=
      (match s.relay.downCarrier, s.relay.downQ with
        | true, f :: rest => { s.relay with downTx := some f, downQ := rest }
        | _, _ => { s.relay with downTx := none }) } } ∧
    exec .upTransmissionEnd s = .next { s with block := { s.block with relay :=
      (match s.relay.upCarrier, s.relay.upQ, s.relay.localQ, s.relay.lastSource with
        | true, f :: rest, [], _ => { s.relay with upTx := some (.relay, f), upQ := rest, lastSource := .relay }
        | true, [], g :: rest, _ => { s.relay with upTx := some (.localQ, g), localQ := rest, lastSource := .localQ }
        | true, f :: rest, _ :: _, .localQ => { s.relay with upTx := some (.relay, f), upQ := rest, lastSource := .relay }
        | true, _ :: _, g :: rest, .relay => { s.relay with upTx := some (.localQ, g), localQ := rest, lastSource := .localQ }
        | _, _, _, _ => { s.relay with upTx := none }) } } ∧
    exec .downLosesCarrier s = .next { s with block := { s.block with relay :=
      { s.relay with downCarrier := false, downQ := [], downTx := none } } } ∧
    exec .downGainsCarrier s = .next { s with block := { s.block with relay :=
      (match s.relay.downTx, s.relay.downQ with
        | none, f :: rest => { s.relay with downCarrier := true, downTx := some f, downQ := rest }
        | _, _ => { s.relay with downCarrier := true }) } } ∧
    exec .upLosesCarrier s = .next { s with block := { s.block with relay :=
      (match s.relay.upTx with
        | none => { s.relay with upCarrier := false }
        | some (.relay, f) => { s.relay with upCarrier := false, upTx := none, upQ := f :: s.relay.upQ }
        | some (.localQ, f) => { s.relay with upCarrier := false, upTx := none, localQ := f :: s.relay.localQ }) } } ∧
    exec .upGainsCarrier s = .next { s with block := { s.block with relay :=
      (match s.relay.upTx, s.relay.upQ, s.relay.localQ, s.relay.lastSource with
        | none, f :: rest, [], _ =>
          { s.relay with upCarrier := true, upTx := some (.relay, f), upQ := rest, lastSource := .relay }
        | none, [], g :: rest, _ =>
          { s.relay with upCarrier := true, upTx := some (.localQ, g), localQ := rest, lastSource := .localQ }
        | none, f :: rest, _ :: _, .localQ =>
          { s.relay with upCarrier := true, upTx := some (.relay, f), upQ := rest, lastSource := .relay }
        | none, _ :: _, g :: rest, .relay =>
          { s.relay with upCarrier := true, upTx := some (.localQ, g), localQ := rest, lastSource := .localQ }
        | _, _, _, _ => { s.relay with upCarrier := true }) } }

/-! ## In-band management -/

/-- R170, R173, R174, R187: each refusal, the checks before it passed; nothing but the reply is queued. -/
def Obligations.RefusedWritesChangeNothing : Prop :=
  ∀ (s : State) (r : MgmtReq), Ran 1 r s →
    (∀ rp, checkWrite s.block r = .error rp → ∃ t, exec (.write r) s = .next t ∧
      t.block = { s.block with relay := s.relay.answered 1 r rp }) ∧
    (tableSize r.table.toNat = none → checkWrite s.block r = .error ⟨r.table, .badTable, none, []⟩) ∧
    ∀ size, tableSize r.table.toNat = some size →
      (size ≤ r.first.toNat → checkWrite s.block r = .error ⟨r.table, .badIndex, some r.first.toNat, []⟩) ∧
      (r.first.toNat < size → size < r.first.toNat + r.count.toNat →
        checkWrite s.block r = .error ⟨r.table, .badIndex, some size, []⟩) ∧
      (r.first.toNat + r.count.toNat ≤ size →
        (r.table = 5 → checkWrite s.block r = .error ⟨r.table, .readOnly, some r.first.toNat, []⟩) ∧
        (r.table ≠ 5 → s.block.saving ≠ none → checkWrite s.block r = .error ⟨r.table, .busy, some r.first.toNat, []⟩) ∧
        (s.block.saving = none →
          (r.table = 10 → s.hours.hold = false →
            checkWrite s.block r = .error ⟨r.table, .notHeld, some r.first.toNat, []⟩) ∧
          (r.table = 6 ∨ r.table = 7 → (∃ p, (s.pos p).st = .starting) →
            checkWrite s.block r = .error ⟨r.table, .inUse, some r.first.toNat, []⟩) ∧
          (∀ p, r.table = 2 → Pos.ofNat? r.first.toNat = some p →
            (s.pos p).st ≠ .off → (s.pos p).st ≠ .isolated → (s.pos p).st ≠ .absent →
            checkWrite s.block r = .error ⟨r.table, .inUse, some r.first.toNat, []⟩) ∧
          (r.table = 4 ∨ r.table = 8 ∨ r.table = 9 →
            r.entries.length ≠ r.count.toNat * entrySize r.table.toNat →
            checkWrite s.block r = .error ⟨r.table, .badValue, none, []⟩)))

/-- R3, R39, R61, R66, R113, R118, R152, R172, R175, R178. That a running filter timer runs on across the write of a profile is the
model's choice (log 22, DESIGN CHOICE): R118 does not name that timer. -/
def Obligations.AcceptedWritesStoreTheEntries : Prop :=
  ∀ (s : State) (r : MgmtReq) (list : List Entry), Ran 1 r s → checkWrite s.block r = .ok list →
    ∃ t, exec (.write r) s = .next t ∧ t.relay = s.relay.answered 1 r ⟨r.table, .ok, none, []⟩ ∧
      t.hours = s.hours ∧ t.block.saving = s.block.saving ∧ t.nv.image = s.nv.image ∧
      (s.block.works.commitPending = false → t.tab = s.tab.storeAll r.first.toNat list) ∧
      (r.table = 4 → t.block = { s.block with
        works := { tab := s.tab.storeAll r.first.toNat list, eng := s.eng, commitPending := false }
        relay := t.relay }) ∧
      (r.table = 6 ∨ r.table = 7 ∨ r.table = 9 → t.block = { s.block with
        works := { s.block.works with tab := s.tab.storeAll r.first.toNat list }
        relay := t.relay }) ∧
      (r.table = 1 → t.res.demand = t.tab.cap s.res.requested ∧ t.res.requested = s.res.requested) ∧
      (∀ (k : Nat) (y : PosEntry) (p : Pos), r.table = 2 → list[k]? = some (.t2 y) →
        Pos.ofNat? (r.first.toNat + k) = some p →
        ((s.pos p).st = .absent → y.present = true → (t.pos p).st = .off ∧ (t.pos p).link.setup = .unset ∧
          (t.pos p).link.state = .lost) ∧
        ((s.pos p).st = .absent → y.present = false → (t.pos p).st = .absent) ∧
        ((s.pos p).st = .off → y.present = true → (t.pos p).st = .off ∧
          ((t.pos p).link.setup = .unset ∨ (t.pos p).link.setup = .sent)) ∧
        ((s.pos p).st = .off ∨ (s.pos p).st = .isolated → y.present = false → (t.pos p).st = .absent ∧
          (t.pos p).link.state = .silent ∧ (t.pos p).link.setup = .unset) ∧
        ((s.pos p).st = .isolated → y.present = true → (t.pos p).st = .isolated ∧ (t.pos p).link.setup = .unset) ∧
        t.nv.isolation.get p = (if (s.pos p).st = .isolated ∧ y.present = false then some false
          else s.nv.isolation.get p)) ∧
      (r.table ≠ 2 → t.nv.isolation = s.nv.isolation) ∧
      (∀ (k : Nat) (x : Profile) (y : PosEntry) (p : Pos), r.table = 3 → list[k]? = some (.t3 x) →
        s.tab.t2.get p = some y → y.profile.val = r.first.toNat + k →
        (t.pos p).st = (s.pos p).st ∧ ((t.pos p).link.setup = .unset ∨ (t.pos p).link.setup = .sent) ∧
        (t.pos p).pickup = { (s.pos p).pickup with lastEdge := none, history := [], speed := 0, zeroT := .stopped }) ∧
      (∀ (i : Fin 16) (p : Pos), r.table = 8 → r.first.toNat ≤ i.val → i.val < r.first.toNat + r.count.toNat →
        (t.pos p).prot[i] = ⟨.stopped, false⟩) ∧
      (∀ p, r.table = 8 → (s.pos p).st = .held → (s.pos p).unload s.tab = true →
        (∀ i : Fin 16, i.val < r.first.toNat ∨ r.first.toNat + r.count.toNat ≤ i.val →
          (s.pos p).activeWith s.tab .unload i = false) →
        ({ (s.pos p).causes with protect := false } : Causes).isEmpty = false →
        (t.pos p).st = .held ∧ (t.pos p).causes = { (s.pos p).causes with protect := false }) ∧
      (∀ (k v : Nat) (p : Pos), r.table = 10 → list[k]? = some (.t10 v) → Pos.ofNat? (r.first.toNat + k) = some p →
        (t.pos p).meter = { (s.pos p).meter with value := v, pendingInc := false } ∧ t.nv.meters.get p = some v) ∧
      (r.table ≠ 10 → ∀ p, (t.pos p).meter = (s.pos p).meter ∧ t.nv.meters.get p = s.nv.meters.get p)

/-- R176, R187, R66: the entries with their defined marks, in the layouts of R187, of every table; nothing changes but the reply
queued. -/
def Obligations.ReadReturnsTheEntries : Prop :=
  (∀ (s : State) (r : MgmtReq), Ran 2 r s →
    (tableSize r.table.toNat = none → ∃ t, exec (.read r) s = .next t ∧
      t.block = { s.block with relay := s.relay.answered 2 r ⟨r.table, .badTable, none, []⟩ }) ∧
    (∀ size, tableSize r.table.toNat = some size →
      (size < r.first.toNat + r.count.toNat → ∃ t, exec (.read r) s = .next t ∧
        t.block = { s.block with
          relay := s.relay.answered 2 r ⟨r.table, .badIndex, some (max size r.first.toNat), []⟩ }) ∧
      (r.first.toNat + r.count.toNat ≤ size → ∃ (t : State) (entries : List (List Byte)), exec (.read r) s = .next t ∧
        t.block = { s.block with relay := s.relay.answered 2 r ⟨r.table, .ok, none, entries⟩ } ∧
        entries.length = r.count.toNat ∧
        (∀ (k : Nat) (bytes : List Byte), entries[k]? = some bytes → bytes.length = 1 + entrySize r.table.toNat) ∧
        (∀ (k : Nat) (x : SchedEntry), k < r.count.toNat → r.table = 4 → s.tab.t4[r.first.toNat + k]? = some (some x) →
          entries[k]? = some (1 :: x.bytes)) ∧
        (∀ k : Nat, k < r.count.toNat → r.table = 4 → s.tab.t4[r.first.toNat + k]? = some none →
          entries[k]? = some (0 :: List.replicate 11 0)) ∧
        (∀ (k : Nat) (p : Pos), k < r.count.toNat → r.table = 10 → Pos.ofNat? (r.first.toNat + k) = some p →
          entries[k]? = some (1 :: be32 (s.pos p).meter.value)) ∧
        (∀ k : Nat, k < r.count.toNat →
          (r.table = 1 → entries[k]? = some (match s.tab.t1 with
            | none => 0 :: List.replicate 8 0
            | some x => 1 :: x.bytes)) ∧
          (∀ p, r.table = 2 → Pos.ofNat? (r.first.toNat + k) = some p → entries[k]? = some (match s.tab.t2.get p with
            | none => 0 :: List.replicate 2 0
            | some x => 1 :: x.bytes)) ∧
          (∀ y, r.table = 3 → s.tab.t3[r.first.toNat + k]? = some y → entries[k]? = some (match y with
            | none => 0 :: List.replicate 25 0
            | some x => 1 :: x.bytes)) ∧
          (∀ y, r.table = 5 → s.tab.t5[r.first.toNat + k]? = some y → entries[k]? = some (match y with
            | none => 0 :: List.replicate 11 0
            | some x => 1 :: x.bytes)) ∧
          (∀ y, r.table = 6 → s.tab.t6[r.first.toNat + k]? = some y → entries[k]? = some (match y with
            | none => 0 :: List.replicate 11 0
            | some x => 1 :: x.bytes)) ∧
          (∀ y, r.table = 7 → s.tab.t7[r.first.toNat + k]? = some y → entries[k]? = some (match y with
            | none => 0 :: List.replicate 2 0
            | some x => 1 :: x.bytes)) ∧
          (∀ y, r.table = 8 → s.tab.t8[r.first.toNat + k]? = some y → entries[k]? = some (match y with
            | none => 0 :: List.replicate 12 0
            | some x => 1 :: x.bytes)) ∧
          (∀ y, r.table = 9 → s.tab.t9[r.first.toNat + k]? = some y → entries[k]? = some (match y with
            | none => 0 :: List.replicate 4 0
            | some x => 1 :: x.bytes)))))) ∧
  EntryLayouts

/-- R177, R178. COMMIT_APPLICATION acts where a commit is pending and the unit is steady (log 5, DESIGN CHOICE). -/
def Obligations.CommitIsDecidedInOrder : Prop :=
  (∀ (s : State) (r : MgmtReq), Ran 3 r s → ∃ (t : State) (rp : Reply), exec (.commit r) s = .next t ∧ t.relay = s.relay.answered 3 r rp ∧
    rp.table = r.table ∧ rp.entries = [] ∧ t.nv = s.nv ∧ t.hours = s.hours ∧ t.block.saving = s.block.saving ∧
    (r.table ≠ 4 → rp.status = .badTable ∧ rp.failing = none ∧ t.block.works = s.block.works) ∧
    (r.table = 4 → s.block.saving ≠ none → rp.status = .busy ∧ rp.failing = none ∧ t.block.works = s.block.works) ∧
    (r.table = 4 → s.block.saving = none → s.block.works.commitPending = true →
      rp.status = .pending ∧ rp.failing = none ∧ t.block.works = s.block.works) ∧
    (r.table = 4 → s.block.saving = none → s.block.works.commitPending = false →
      (∀ i : Nat, s.tab.t4[i]? = some none → (∀ j : Nat, j < i → s.tab.t4[j]? ≠ some none) →
        rp.status = .incomplete ∧ rp.failing = some i ∧ t.block.works = s.block.works) ∧
      ((∀ i : Nat, s.tab.t4[i]? ≠ some none) → steady s.eng = true → rp.status = .ok ∧ rp.failing = none ∧
        t.tab = { s.tab with t5 := s.tab.t4 } ∧ t.block.works.commitPending = false ∧ t.res.demand = s.res.demand) ∧
      ((∀ i : Nat, s.tab.t4[i]? ≠ some none) → steady s.eng = false → rp.status = .pending ∧ rp.failing = none ∧
        t.block.works = { s.block.works with commitPending := true }))) ∧
  (∀ s : State, s.block.powered = true → ∃ t, exec .commitApplication s = .next t ∧
    (s.block.works.commitPending = true → steady s.eng = true →
      t.tab = { s.tab with t5 := s.tab.t4 } ∧ t.block.works.commitPending = false ∧ t.res.demand = s.res.demand) ∧
    (s.block.works.commitPending = false ∨ steady s.eng = false → t = s))

/-- R179, R180. A completion with no SAVE in flight changes nothing (log 38). -/
def Obligations.SaveFixesAndWritesTheImage : Prop :=
  (∀ (s : State) (r : MgmtReq), Ran 4 r s → ∃ t, exec (.save r) s = .next t ∧ t.block.works = s.block.works ∧
    t.hours = s.hours ∧ t.nv.meters = s.nv.meters ∧ t.nv.isolation = s.nv.isolation ∧
    (s.block.saving ≠ none → t.block.saving = s.block.saving ∧ t.nv = s.nv ∧
      t.relay = s.relay.answered 4 r ⟨r.table, .busy, none, []⟩) ∧
    (∀ n i, s.block.saving = none → (undefinedTables s.tab).find? (fun x => x.2.isSome) = some (n, i) →
      t.block.saving = none ∧ t.nv = s.nv ∧ t.relay = s.relay.answered 4 r ⟨n, .incomplete, i, []⟩) ∧
    (s.block.saving = none → (∀ x ∈ undefinedTables s.tab, x.2 = none) →
      t.block.saving = some ⟨r.tag, r.table,
        { t1 := s.tab.t1, t2 := s.tab.t2, t3 := s.tab.t3, sched := s.tab.t5, t6 := s.tab.t6, t7 := s.tab.t7,
          t8 := s.tab.t8, t9 := s.tab.t9 }⟩ ∧
      t.nv.image = none ∧ t.relay = s.relay.forward 4 r)) ∧
  (∀ (s : State) (passes : Bool) (sv : Saving), s.block.powered = true → s.block.saving = some sv →
    ∃ t, exec (.saveCompletion passes) s = .next t ∧ t.block.works = s.block.works ∧ t.hours = s.hours ∧
      t.block.saving = none ∧
      t.nv = { s.nv with image := if passes then some sv.contents else none } ∧
      t.relay = (if s.relay.hasRoom then
          s.relay.queueLocal (replyFrame sv.tag 4 ⟨sv.table, if passes then .ok else .saveFailed, none, []⟩)
        else { s.relay with replyDrops := min (s.relay.replyDrops + 1) 65535 })) ∧
  (∀ (s : State) (passes : Bool), s.block.saving = none → exec (.saveCompletion passes) s = .next s)

/-- R59, R60, R106, R171, R181. -/
def Obligations.IsolateAndRestoreMoveThePosition : Prop :=
  (∀ (s : State) (r : MgmtReq), Ran 7 r s → ∃ (t : State) (rp : Reply), exec (.isolate r) s = .next t ∧ t.relay = s.relay.answered 7 r rp ∧
    rp.table = r.table ∧ rp.failing = none ∧ rp.entries = [] ∧ t.hours = s.hours ∧ t.block.saving = s.block.saving ∧
    t.nv.image = s.nv.image ∧ t.nv.meters = s.nv.meters ∧
    (3 < r.first.toNat ∨ r.count ≠ 1 → rp.status = .badIndex ∧ t.block.works = s.block.works ∧ t.nv = s.nv) ∧
    (∀ p, r.count = 1 → Pos.ofNat? r.first.toNat = some p →
      ((s.pos p).st = .off ∨ (s.pos p).st = .faulted → (s.pos p).pickup.speed = 0 →
        rp.status = .ok ∧ (t.pos p).st = .isolated ∧ (t.pos p).link.state = .silent ∧
        (t.pos p).fault = (if (s.pos p).st = .faulted then .clear else (s.pos p).fault) ∧
        t.nv.isolation = s.nv.isolation.set p (some true)) ∧
      (((s.pos p).st ≠ .off ∧ (s.pos p).st ≠ .faulted) ∨ (s.pos p).pickup.speed ≠ 0 →
        rp.status = .stateWrong ∧ t.block.works = s.block.works ∧ t.nv = s.nv))) ∧
  (∀ (s : State) (r : MgmtReq), Ran 8 r s → ∃ (t : State) (rp : Reply), exec (.restore r) s = .next t ∧ t.relay = s.relay.answered 8 r rp ∧
    rp.table = r.table ∧ rp.failing = none ∧ rp.entries = [] ∧ t.hours = s.hours ∧ t.block.saving = s.block.saving ∧
    t.nv.image = s.nv.image ∧ t.nv.meters = s.nv.meters ∧
    (3 < r.first.toNat ∨ r.count ≠ 1 → rp.status = .badIndex ∧ t.block.works = s.block.works ∧ t.nv = s.nv) ∧
    (∀ p, r.count = 1 → Pos.ofNat? r.first.toNat = some p →
      ((s.pos p).st = .isolated → rp.status = .ok ∧ t.nv.isolation = s.nv.isolation.set p (some false) ∧
        (s.tab.present p = true → (t.pos p).st = .off ∧ (t.pos p).link.state = .lost ∧ (t.pos p).link.setup = .unset) ∧
        (s.tab.present p = false → (t.pos p).st = .absent ∧ (t.pos p).link.state = .silent)) ∧
      ((s.pos p).st ≠ .isolated → rp.status = .stateWrong ∧ t.block.works = s.block.works ∧ t.nv = s.nv)))

/-- R158, R170, R171: an unknown op, a request without room for its reply, a request for another unit. -/
def Obligations.RequestsNotExecuted : Prop :=
  (∀ (s : State) (op : Byte) (r : MgmtReq), Ran op r s → op.toNat < 1 ∨ 9 < op.toNat →
    ∃ t, exec (.unknownOp op r) s = .next t ∧
      t.block = { s.block with relay := s.relay.answered op r ⟨r.table, .badValue, none, []⟩ }) ∧
  (∀ (s : State) (c : Instr) (op : Byte) (r : MgmtReq), c.frame = some (mgmtFrame op r) → c.opByte = some op →
    c.opOk = true → op ≠ 9 → Taken op r s → s.relay.hasRoom = false →
    exec c s = .next { s with block := { s.block with
      relay := ({ s.relay with mgmtDrops := min (s.relay.mgmtDrops + 1) 65535 }).forward op r } }) ∧
  (∀ (s : State) (c : Instr) (op : Byte) (r : MgmtReq), c.frame = some (mgmtFrame op r) → c.opByte = some op →
    c.opOk = true → s.hears → (mgmtFrame op r).ok = true → s.relay.addressed r.target = false →
    exec c s = .next { s with block := { s.block with relay := s.relay.passDown (mgmtFrame op r) } })

/-! ## Frames and invariants -/

/-- What the commands of the line, of the engines and of the orders leave unchanged. The order frames also pass (R160); a
commit that becomes due copies T4 to T5 (R178). -/
def Obligations.CommandsKeepTheOtherBlocks : Prop :=
  ∀ (c : Instr) (s t : State), exec c s = .next t →
    (onLine c = true → t.block = { s.block with relay := t.relay }) ∧
    (onEngines c = true → t.relay = s.relay) ∧
    (onEngines c = true ∨ onOrders c = true →
      t.hours = s.hours ∧ t.nv = s.nv ∧ t.block.saving = s.block.saving ∧ t.block.powered = s.block.powered ∧
      (t.tab = s.tab ∨ t.tab = { s.tab with t5 := s.tab.t4 }) ∧
      (s.block.works.commitPending = false → t.tab = s.tab ∧ t.block.works.commitPending = false) ∧
      ∀ p, (t.pos p).meter = (s.pos p).meter ∧
        (touchesPickup c ≠ some p → (t.pos p).pickup = (s.pos p).pickup) ∧
        (onEngines c = true → (t.pos p).mode = (s.pos p).mode))

/-- R154, R155, R162 to R165, R168. -/
def Obligations.EveryStepKeepsTheRelayBounded : Prop :=
  ∀ s t : State, step s = .next t → s.relay.Bounded → (s.block.powered = true → s.relay.Serving) →
    t.relay.Bounded ∧ (t.block.powered = true → t.relay.Serving)

/-- R3, R5, R7, R10, R12. -/
def Obligations.EveryStepKeepsTheResolverSound : Prop :=
  ∀ s t : State, step s = .next t → s.res.Sound s.tab → t.res.Sound t.tab

/-- R40, R41, R52, R72, R106, R117, R123, R137, R142, R151. -/
def Obligations.EveryStepKeepsThePositionsSound : Prop :=
  ∀ s t : State, step s = .next t → s.eng.Sound → t.eng.Sound

/-- R1, R38, R154. -/
def Obligations.ResetIsSound : Prop :=
  State.reset.relay.Bounded ∧ State.reset.relay.Serving ∧ State.reset.res.Sound State.reset.tab ∧ State.reset.eng.Sound
end

