-- ==== Sys2Proof/Laws/Plan.lean ====
section
/-! SUPPORT. Which orders an evaluation of the Planner can give. -/

namespace Sys2Proof.Machine

/-- What an order of an evaluation tells about the position it names (R25 to R30). -/
def Staging.allows (g : Staging) : Order → Prop
  | .start p => g.confirmed.get p = true ∧ g.mode.get p ≠ .out ∧ (g.zero = true → g.mode.get p = .run)
  | .promote p => g.mode.get p ≠ .out ∧ g.zero = false
  | .abandon p => g.fired.get p = false ∧ g.mode.get p ≠ .run
  | .stop p => g.expired = some p ∧ g.mode.get p ≠ .run
  | .demote _ | .lingerStart _ | .lingerStop _ => True

/-- All orders of a plan are such. -/
def Staging.AllAllowed (g : Staging) (pl : Plan) : Prop := ∀ o ∈ pl.orders, g.allows o

theorem give_allowed {g : Staging} {pl : Plan} {o : Order} (h : g.AllAllowed pl) (ho : g.allows o) :
    g.AllAllowed (pl.give o) := by
  intro o' h'
  simp only [Plan.give, List.mem_append, List.mem_singleton] at h'
  rcases h' with h' | rfl
  · exact h o' h'
  · exact ho

theorem foldl_allowed {g : Staging} {f : Plan → Pos → Plan} (hf : ∀ pl p, g.AllAllowed pl → g.AllAllowed (f pl p))
    (list : List Pos) {pl : Plan} (h : g.AllAllowed pl) : g.AllAllowed (list.foldl f pl) := by
  induction list generalizing pl with
  | nil => exact h
  | cons p rest ih => exact ih (hf _ _ h)

theorem repeatOrder_allowed {g : Staging} {more : Plan → Bool} {choose : Plan → Option Pos} {order : Pos → Order}
    (ho : ∀ pl p, more pl = true → choose pl = some p → g.allows (order p)) (n : Nat) {pl : Plan} (h : g.AllAllowed pl) :
    g.AllAllowed (Plan.repeatOrder more choose order n pl) := by
  induction n generalizing pl with
  | zero => exact h
  | succ n ih =>
    unfold Plan.repeatOrder
    split
    · rename_i hm
      split
      · exact h
      · rename_i p hp
        exact ih (give_allowed h (ho _ _ hm hp))
    · exact h

theorem fewestHours_candidate {g : Staging} {cand : Pos → Bool} {p : Pos} (h : g.fewestHours cand = some p) :
    cand p = true := by
  unfold Staging.fewestHours at h
  have key : ∀ (list : List Pos) (best : Option Pos), (∀ q, best = some q → cand q = true) →
      ∀ p, list.foldl (fun best p =>
        if cand p then
          match best with
          | none => some p
          | some b => if g.meter.get p < g.meter.get b then some p else some b
        else best) best = some p → cand p = true := by
    intro list
    induction list with
    | nil => intro best hb p hp; exact hb p hp
    | cons q rest ih =>
      intro best hb p hp
      refine ih _ ?_ p hp
      intro r hr
      dsimp only at hr
      split at hr
      · rename_i hc
        split at hr
        · cases hr; exact hc
        · rename_i b
          split at hr
          · cases hr; exact hc
          · cases hr; exact hb _ rfl
      · exact hb _ hr
  exact key _ _ (by simp) p h

theorem mostHours_candidate {g : Staging} {cand : Pos → Bool} {p : Pos} (h : g.mostHours cand = some p) :
    cand p = true := by
  unfold Staging.mostHours at h
  have key : ∀ (list : List Pos) (best : Option Pos), (∀ q, best = some q → cand q = true) →
      ∀ p, list.foldl (fun best p =>
        if cand p then
          match best with
          | none => some p
          | some b => if g.meter.get b ≤ g.meter.get p then some p else some b
        else best) best = some p → cand p = true := by
    intro list
    induction list with
    | nil => intro best hb p hp; exact hb p hp
    | cons q rest ih =>
      intro best hb p hp
      refine ih _ ?_ p hp
      intro r hr
      dsimp only at hr
      split at hr
      · rename_i hc
        split at hr
        · cases hr; exact hc
        · rename_i b
          split at hr
          · cases hr; exact hc
          · cases hr; exact hb _ rfl
      · exact hb _ hr
  exact key _ _ (by simp) p h

theorem outOfService_allowed {g : Staging} (pl : Plan) (p : Pos) (h : g.AllAllowed pl) :
    g.AllAllowed (g.outOfService pl p) := by
  unfold Staging.outOfService
  split
  · rename_i hm
    split
    · exact give_allowed h trivial
    · split
      · exact h
      · rename_i hf
        exact give_allowed h ⟨by simpa using hf, by simp [hm]⟩
    · split
      · rename_i he
        exact give_allowed h ⟨he, by simp [hm]⟩
      · split
        · exact h
        · exact give_allowed h trivial
    · exact h
  · exact h

theorem demotes_allowed {g : Staging} {pl : Plan} (h : g.AllAllowed pl) : g.AllAllowed (g.demotes pl) :=
  repeatOrder_allowed (order := .demote) (fun _ _ _ _ => trivial) _ h

theorem promotes_allowed {g : Staging} {pl : Plan} (h : g.AllAllowed pl) : g.AllAllowed (g.promotes pl) := by
  refine repeatOrder_allowed (fun pl p hm hp => ?_) _ h
  have hc := fewestHours_candidate hp
  simp only [Bool.and_eq_true, bne_iff_ne, ne_eq] at hc
  refine ⟨hc.2, ?_⟩
  cases hz : g.zero
  · rfl
  · simp [Staging.desiredOnline, hz] at hm

theorem starts_allowed {g : Staging} {dr : Nat} (hdr : g.zero = true → dr = 0) {pl : Plan} (h : g.AllAllowed pl) :
    g.AllAllowed (g.starts dr pl) := by
  unfold Staging.starts
  refine repeatOrder_allowed (fun pl p hm hp => ?_) _ (foldl_allowed (fun pl p h => ?_) _ h)
  · have hc := fewestHours_candidate hp
    simp only [Staging.startable, Bool.and_eq_true, bne_iff_ne, ne_eq] at hc
    refine ⟨hc.1.1.1.2, hc.1.1.1.1.2, fun hz => ?_⟩
    simp [hdr hz] at hm
  · split
    · rename_i hc
      simp only [Staging.startable, Bool.and_eq_true, bne_iff_ne, ne_eq, beq_iff_eq] at hc
      exact give_allowed h ⟨hc.1.1.1.2, hc.1.1.1.1.2, fun _ => hc.2⟩
    · exact h

theorem abandons_allowed {g : Staging} {dr : Nat} {pl : Plan} (h : g.AllAllowed pl) : g.AllAllowed (g.abandons dr pl) := by
  refine repeatOrder_allowed (fun pl p _ hp => ?_) _ h
  have hc := mostHours_candidate hp
  simp only [Bool.and_eq_true, beq_iff_eq, Bool.not_eq_true'] at hc
  exact ⟨hc.2, by simp [hc.1.2]⟩

theorem stops_allowed {g : Staging} {dr : Nat} {pl : Plan} (h : g.AllAllowed pl) : g.AllAllowed (g.stops dr pl) := by
  unfold Staging.stops
  split
  · exact h
  · split
    · rename_i he hc
      exact give_allowed h ⟨he, by simp [hc.1]⟩
    · exact h

theorem lingers_allowed {g : Staging} {dr : Nat} {pl : Plan} (h : g.AllAllowed pl) : g.AllAllowed (g.lingers dr pl) := by
  unfold Staging.lingers
  refine foldl_allowed (fun pl p h => ?_) _ h
  split
  · split
    · exact give_allowed h trivial
    · exact h
  · split
    · exact give_allowed h trivial
    · exact h

/-- Every order of an evaluation is allowed. -/
theorem plan_allowed (g : Staging) (view : Four PState) : g.AllAllowed (g.plan view) := by
  unfold Staging.plan
  refine lingers_allowed (stops_allowed (abandons_allowed (starts_allowed ?_ (promotes_allowed (demotes_allowed ?_)))))
  · intro hz
    simp [Staging.desiredRunning, hz]
  · refine foldl_allowed (fun pl p h => outOfService_allowed pl p h) _ ?_
    intro o ho
    simp at ho

end Sys2Proof.Machine
end

