-- ==== Sys2Proof/Laws/Resolver.lean ====
section
/-! SUPPORT. What the Resolver's operations keep, and how they move the resolved notch. -/

namespace Sys2Proof.Machine

/-- The items of the Resolver that only a NOTCH frame, its timer and a T1 write change. -/
structure ResKept (r r' : Resolver) : Prop where
  requested : r'.requested = r.requested
  demand : r'.demand = r.demand
  link : r'.link = r.link
  runRequest : r'.runRequest = r.runRequest
  runPerm : r'.runPerm = r.runPerm
  latch : r'.latch = r.latch
  notchT : r'.notchT = r.notchT

theorem ResKept.refl (r : Resolver) : ResKept r r := ⟨rfl, rfl, rfl, rfl, rfl, rfl, rfl⟩

theorem ResKept.trans {a b c : Resolver} (h₁ : ResKept a b) (h₂ : ResKept b c) : ResKept a c :=
  ⟨h₂.requested.trans h₁.requested, h₂.demand.trans h₁.demand, h₂.link.trans h₁.link,
    h₂.runRequest.trans h₁.runRequest, h₂.runPerm.trans h₁.runPerm, h₂.latch.trans h₁.latch, h₂.notchT.trans h₁.notchT⟩

theorem ResKept.conds {r r' : Resolver} (h : ResKept r r') (T : Tables) : holdingConds T r' = holdingConds T r := by
  simp [holdingConds, h.link, h.latch, h.runPerm]

theorem startTimers_kept (r : Resolver) (T : Tables) (now : Nat) : ResKept r (r.startTimers T now) := by
  constructor <;> rfl
theorem hold_kept (r : Resolver) : ResKept r r.hold := by constructor <;> rfl
@[simp] theorem startTimers_resolved (r : Resolver) (T : Tables) (now : Nat) : (r.startTimers T now).resolved = r.resolved := rfl
@[simp] theorem hold_resolved (r : Resolver) : r.hold.resolved = 0 := rfl

theorem fall_kept (r : Resolver) (T : Tables) (now : Nat) : ResKept r (r.fall T now) := by
  unfold Resolver.fall
  split <;> constructor <;> rfl
theorem fall_resolved (r : Resolver) (T : Tables) (now : Nat) : (r.fall T now).resolved = min r.resolved r.demand := by
  unfold Resolver.fall
  split
  · simp; omega
  · omega

theorem rereadDwell_kept (r : Resolver) (T : Tables) (now : Nat) : ResKept r (r.rereadDwell T now) := by
  unfold Resolver.rereadDwell
  split <;> constructor <;> rfl
@[simp] theorem rereadDwell_resolved (r : Resolver) (T : Tables) (now : Nat) :
    (r.rereadDwell T now).resolved = r.resolved := by
  unfold Resolver.rereadDwell
  split <;> rfl
theorem rereadAchieve_kept (r : Resolver) (T : Tables) (now : Nat) : ResKept r (r.rereadAchieve T now) := by
  unfold Resolver.rereadAchieve
  split <;> constructor <;> rfl
@[simp] theorem rereadAchieve_resolved (r : Resolver) (T : Tables) (now : Nat) :
    (r.rereadAchieve T now).resolved = r.resolved := by
  unfold Resolver.rereadAchieve
  split <;> rfl

theorem rise_kept (r : Resolver) (T : Tables) (now : Nat) : ResKept r (r.rise T now) := by
  unfold Resolver.rise
  split <;> constructor <;> rfl
/-- A rise never lowers the resolved notch and never takes it past the demand. -/
theorem rise_resolved (r : Resolver) (T : Tables) (now : Nat) :
    r.resolved ≤ (r.rise T now).resolved ∧ (r.rise T now).resolved ≤ max r.resolved r.demand := by
  unfold Resolver.rise
  split
  · rename_i h
    simp; omega
  · omega
/-- No rise under a holding condition (R13). -/
theorem rise_held (r : Resolver) (T : Tables) (now : Nat) (h : (holdingConds T r).any = true) : r.rise T now = r := by
  unfold Resolver.rise
  simp [h]

theorem settle_kept (r : Resolver) (T : Tables) (now : Nat) (before : Conds) : ResKept r (r.settle T now before) := by
  unfold Resolver.settle
  simp only
  split
  · exact hold_kept _
  · split
    · exact startTimers_kept _ _ _
    · split
      · exact .refl _
      · exact fall_kept _ _ _

/-- A condition in force now and none of its kind before is an onset. -/
theorem any_of_no_onset {before after : Conds} (h : before.onset after = false) (ha : after.any = true) :
    before.any = true := by
  rcases before with ⟨a, b, c, d⟩
  rcases after with ⟨a', b', c', d'⟩
  revert h ha
  cases a <;> cases b <;> cases c <;> cases d <;> cases a' <;> cases b' <;> cases c' <;> cases d' <;> decide

theorem settle_resolved_le (r : Resolver) (T : Tables) (now : Nat) (before : Conds) :
    (r.settle T now before).resolved ≤ r.resolved := by
  unfold Resolver.settle
  simp only
  split
  · simp
  · split
    · simp
    · split
      · simp
      · rw [fall_resolved]; omega

/-- After the holding conditions are judged the resolved notch is 0 while one is in force (R10). -/
theorem settle_held (r : Resolver) (T : Tables) (now : Nat) (before : Conds) (hb : before.any = true → r.resolved = 0)
    (ha : (holdingConds T r).any = true) : (r.settle T now before).resolved = 0 := by
  unfold Resolver.settle
  simp only
  split
  · simp
  · rename_i ho
    have := hb (any_of_no_onset (by simpa using ho) ha)
    split
    · simpa using this
    · simpa [ha] using this

/-- After the holding conditions are judged the resolved notch lies at or below the demand (R12). -/
theorem settle_demand (r : Resolver) (T : Tables) (now : Nat) (before : Conds) (hb : before.any = true → r.resolved = 0) :
    (r.settle T now before).resolved ≤ r.demand := by
  unfold Resolver.settle
  simp only
  split
  · simp
  · rename_i ho
    split
    · rename_i he
      simp only [Conds.ended, Bool.and_eq_true] at he
      simp [hb he.1]
    · split
      · rename_i ha
        have := hb (any_of_no_onset (by simpa using ho) ha)
        omega
      · rw [fall_resolved]; omega

theorem take_settled (r : Resolver) (T : Tables) (now value : Nat) (run emergency : Bool) :
    (r.take T now value run emergency).requested = min value 8 ∧
    (r.take T now value run emergency).demand = T.cap (min value 8) ∧
    (r.take T now value run emergency).runRequest = run ∧
    (r.take T now value run emergency).latch = latchAfter r.latch emergency run ∧
    (r.take T now value run emergency).runPerm = (run && !latchAfter r.latch emergency run) ∧
    (r.take T now value run emergency).notchT = .running now T.notchTimeout ∧
    (r.take T now value run emergency).link = .live := by
  unfold Resolver.take
  simp only
  have h := fun x : Resolver => (settle_kept x T now (holdingConds T r)).trans (rise_kept _ T now)
  refine ⟨?_, ?_, ?_, ?_, ?_, ?_, ?_⟩
  · rw [(h _).requested]
  · rw [(h _).demand]
  · rw [(h _).runRequest]
  · rw [(h _).latch]
  · rw [(h _).runPerm]
  · rw [(h _).notchT]
  · rw [(h _).link]

end Sys2Proof.Machine
end

