-- ==== Sys2Proof/Laws/State.lean ====
section
/-! SUPPORT. What each update of the state leaves and sets, one lemma per field, so that no proof unfolds a record update. -/

namespace Sys2Proof

@[simp] theorem Four.get_set_self {α : Type} (f : Four α) (p : Pos) (x : α) : (f.set p x).get p = x := by
  cases p <;> rfl

theorem Four.get_set_other {α : Type} (f : Four α) {p q : Pos} (x : α) (h : q ≠ p) : (f.set p x).get q = f.get q := by
  cases p <;> cases q <;> first | rfl | exact absurd rfl h

theorem Four.get_set {α : Type} (f : Four α) (p q : Pos) (x : α) : (f.set p x).get q = if q = p then x else f.get q := by
  by_cases h : q = p
  · subst h; simp
  · simp [h, Four.get_set_other f x h]

@[simp] theorem Four.set_get {α : Type} (f : Four α) (p : Pos) : f.set p (f.get p) = f := by cases p <;> rfl

@[simp] theorem Four.get_make {α : Type} (f : Pos → α) (p : Pos) : (Four.make f).get p = f p := by cases p <;> rfl

theorem Four.ext_get {α : Type} {f g : Four α} (h : ∀ p, f.get p = g.get p) : f = g := by
  cases f; cases g
  have ha := h .A; have hb := h .B; have hc := h .C; have hd := h .D
  simp only [Four.get] at ha hb hc hd
  simp [ha, hb, hc, hd]

theorem Pos.mem_all (p : Pos) : p ∈ Pos.all := by cases p <;> simp [Pos.all]

end Sys2Proof

namespace Sys2Proof.Machine

variable (e : Engine) (p q : Pos) (x : Position) (f : Position → Position)

@[simp] theorem Engine.at_put_self : (e.put p x).at p = x := by simp [Engine.put, Engine.at]
theorem Engine.at_put_other {p q : Pos} (h : q ≠ p) : (e.put p x).at q = e.at q := by
  simp [Engine.put, Engine.at, Four.get_set_other _ _ h]
theorem Engine.at_put : (e.put p x).at q = if q = p then x else e.at q := by
  simp [Engine.put, Engine.at, Four.get_set]
@[simp] theorem Engine.put_at : e.put p (e.at p) = e := by simp [Engine.put, Engine.at]
@[simp] theorem Engine.put_put (y : Position) : (e.put p x).put p y = e.put p y := by
  cases p <;> rfl
@[simp] theorem Engine.put_now : (e.put p x).now = e.now := rfl
@[simp] theorem Engine.put_res : (e.put p x).res = e.res := rfl
@[simp] theorem Engine.put_short : (e.put p x).short = e.short := rfl
@[simp] theorem Engine.put_lastReport : (e.put p x).lastReport = e.lastReport := rfl
@[simp] theorem Engine.put_bus : (e.put p x).bus = e.bus := rfl
@[simp] theorem Engine.put_pwm : (e.put p x).pwm = e.pwm := rfl

@[simp] theorem Engine.at_modify_self : (e.modify p f).at p = f (e.at p) := by simp [Engine.modify]
theorem Engine.at_modify_other {p q : Pos} (h : q ≠ p) : (e.modify p f).at q = e.at q := by
  simp [Engine.modify, Engine.at_put_other e _ h]
theorem Engine.at_modify : (e.modify p f).at q = if q = p then f (e.at p) else e.at q := by
  simp [Engine.modify, Engine.at_put]
@[simp] theorem Engine.modify_now : (e.modify p f).now = e.now := rfl
@[simp] theorem Engine.modify_res : (e.modify p f).res = e.res := rfl
@[simp] theorem Engine.modify_short : (e.modify p f).short = e.short := rfl
@[simp] theorem Engine.modify_lastReport : (e.modify p f).lastReport = e.lastReport := rfl
@[simp] theorem Engine.modify_bus : (e.modify p f).bus = e.bus := rfl
@[simp] theorem Engine.modify_pwm : (e.modify p f).pwm = e.pwm := rfl

@[simp] theorem Engine.timer_eq (n : Nat) : e.timer n = .running e.now n := rfl
@[simp] theorem Engine.at_make (now : Nat) (res : Resolver) (short : Bool) (rep : Option Bool) (bus : Bus) (pwm : PwmClock)
    (g : Pos → Position) (p : Pos) : (Engine.mk now res short rep bus pwm (.make g)).at p = g p := by simp [Engine.at]
@[simp] theorem Engine.at_bus (b : Bus) : ({ e with bus := b } : Engine).at p = e.at p := rfl
@[simp] theorem Engine.at_res (r : Resolver) : ({ e with res := r } : Engine).at p = e.at p := rfl
@[simp] theorem Engine.at_short (s : Bool) : ({ e with short := s } : Engine).at p = e.at p := rfl
@[simp] theorem Engine.at_pwm (c : PwmClock) : ({ e with pwm := c } : Engine).at p = e.at p := rfl
@[simp] theorem Engine.at_reach (t : Nat) : (e.reach t).at p = e.at p := rfl
@[simp] theorem Engine.reach_res (t : Nat) : (e.reach t).res = e.res := rfl
@[simp] theorem Engine.reach_now (t : Nat) : (e.reach t).now = max e.now t := rfl
@[simp] theorem Engine.reach_bus (t : Nat) : (e.reach t).bus = e.bus := rfl

variable (b : Block)

@[simp] theorem Block.onRelay_relay (g : Relay → Relay) : (b.onRelay g).relay = g b.relay := rfl
@[simp] theorem Block.onRelay_works (g : Relay → Relay) : (b.onRelay g).works = b.works := rfl
@[simp] theorem Block.onRelay_hours (g : Relay → Relay) : (b.onRelay g).hours = b.hours := rfl
@[simp] theorem Block.onRelay_saving (g : Relay → Relay) : (b.onRelay g).saving = b.saving := rfl
@[simp] theorem Block.onRelay_nv (g : Relay → Relay) : (b.onRelay g).nv = b.nv := rfl
@[simp] theorem Block.onRelay_powered (g : Relay → Relay) : (b.onRelay g).powered = b.powered := rfl
@[simp] theorem Block.onWorks_relay (g : Works → Works) : (b.onWorks g).relay = b.relay := rfl
@[simp] theorem Block.onWorks_works (g : Works → Works) : (b.onWorks g).works = g b.works := rfl
@[simp] theorem Block.onWorks_hours (g : Works → Works) : (b.onWorks g).hours = b.hours := rfl
@[simp] theorem Block.onWorks_saving (g : Works → Works) : (b.onWorks g).saving = b.saving := rfl
@[simp] theorem Block.onWorks_nv (g : Works → Works) : (b.onWorks g).nv = b.nv := rfl
@[simp] theorem Block.onWorks_powered (g : Works → Works) : (b.onWorks g).powered = b.powered := rfl

@[simp] theorem Block.setMeter_meter_self (m : Meter) : (b.setMeter p m).meter p = m := by
  simp [Block.setMeter, Block.meter]
theorem Block.setMeter_meter_other {p q : Pos} (m : Meter) (h : q ≠ p) : (b.setMeter p m).meter q = b.meter q := by
  simp [Block.setMeter, Block.meter, Engine.at_modify_other _ _ h]
@[simp] theorem Block.setMeter_relay (m : Meter) : (b.setMeter p m).relay = b.relay := rfl
@[simp] theorem Block.setMeter_hours (m : Meter) : (b.setMeter p m).hours = b.hours := rfl
@[simp] theorem Block.setMeter_nv (m : Meter) : (b.setMeter p m).nv = b.nv := rfl
@[simp] theorem Block.writeMeter_relay (m : Meter) : (b.writeMeter p m).relay = b.relay := rfl
@[simp] theorem Block.writeMeter_hours (m : Meter) : (b.writeMeter p m).hours = b.hours := rfl
@[simp] theorem Block.writeMeter_meter_self (m : Meter) : (b.writeMeter p m).meter p = m := by
  simp [Block.writeMeter, Block.setMeter, Block.meter]
theorem Block.writeMeter_meter_other {p q : Pos} (m : Meter) (h : q ≠ p) : (b.writeMeter p m).meter q = b.meter q := by
  simp [Block.writeMeter, Block.setMeter, Block.meter, Engine.at_modify_other _ _ h]

end Sys2Proof.Machine
end

