-- ==== Sys2Proof/Laws/Link.lean ====
section
/-! SUPPORT. What producing and sending frames to the station keeps of a link, and what handing over a DRIVE content does to an
engine record. -/

namespace Sys2Proof.Machine

/-! ## Frames to the station -/

/-- What producing and sending frames keeps of a link. -/
structure LinkKept (l l' : Link) : Prop where
  state : l'.state = l.state
  sampleT : l'.sampleT = l.sampleT
  latest : l'.latest = l.latest
  setup : l'.setup = l.setup
  attempts : l'.attempts = l.attempts
  drive : l'.drive = l.drive
  disagreeT : l'.disagreeT = l.disagreeT
  disagree : l'.disagree = l.disagree

theorem LinkKept.refl (l : Link) : LinkKept l l := ⟨rfl, rfl, rfl, rfl, rfl, rfl, rfl, rfl⟩

theorem LinkKept.trans {a b c : Link} (h₁ : LinkKept a b) (h₂ : LinkKept b c) : LinkKept a c :=
  ⟨h₂.state.trans h₁.state, h₂.sampleT.trans h₁.sampleT, h₂.latest.trans h₁.latest, h₂.setup.trans h₁.setup,
    h₂.attempts.trans h₁.attempts, h₂.drive.trans h₁.drive, h₂.disagreeT.trans h₁.disagreeT,
    h₂.disagree.trans h₁.disagree⟩

theorem beginNext_kept (l : Link) : LinkKept l l.beginNext := by
  unfold Link.beginNext
  split <;> exact ⟨rfl, rfl, rfl, rfl, rfl, rfl, rfl, rfl⟩

theorem beginNext_setupId (l : Link) : l.beginNext.setupId = l.setupId := by
  unfold Link.beginNext
  split <;> rfl

theorem beginNext_confirmT (l : Link) : l.beginNext.confirmT = l.confirmT := by
  unfold Link.beginNext
  split <;> rfl

theorem beginNext_refreshT (l : Link) : l.beginNext.refreshT = l.refreshT := by
  unfold Link.beginNext
  split <;> rfl

theorem produce_kept (l : Link) (w : StationWait) : LinkKept l (l.produce w) := by
  unfold Link.produce
  refine .trans ?_ (beginNext_kept _)
  exact ⟨rfl, rfl, rfl, rfl, rfl, rfl, rfl, rfl⟩

theorem sendDrive_kept (l : Link) (now : Nat) : LinkKept l (l.sendDrive now) := by
  unfold Link.sendDrive
  split
  · refine .trans ?_ (beginNext_kept _)
    exact ⟨rfl, rfl, rfl, rfl, rfl, rfl, rfl, rfl⟩
  · exact .refl _

theorem sendSetup_kept (l : Link) (pr : Profile) (now : Nat) : LinkKept l (l.sendSetup pr now) := by
  unfold Link.sendSetup
  refine .trans ?_ (sendDrive_kept _ _)
  refine .trans ?_ (produce_kept _ _)
  exact ⟨rfl, rfl, rfl, rfl, rfl, rfl, rfl, rfl⟩

theorem produce_setupId (l : Link) (w : StationWait) : (l.produce w).setupId = l.setupId := beginNext_setupId _
theorem produce_confirmT (l : Link) (w : StationWait) : (l.produce w).confirmT = l.confirmT := beginNext_confirmT _

theorem sendDrive_setupId (l : Link) (now : Nat) : (l.sendDrive now).setupId = l.setupId := by
  unfold Link.sendDrive
  split
  · rw [beginNext_setupId]
  · rfl
theorem sendDrive_confirmT (l : Link) (now : Nat) : (l.sendDrive now).confirmT = l.confirmT := by
  unfold Link.sendDrive
  split
  · rw [beginNext_confirmT]
  · rfl
/-- The refresh timer after a DRIVE is asked for (R109). -/
theorem sendDrive_refreshT (l : Link) (now : Nat) :
    (l.sendDrive now).refreshT = l.refreshT ∨ (l.sendDrive now).refreshT = .running now (ms 200) := by
  unfold Link.sendDrive
  split
  · right; rw [beginNext_refreshT]
  · exact Or.inl rfl

theorem sendSetup_setupId (l : Link) (pr : Profile) (now : Nat) : (l.sendSetup pr now).setupId = (l.setupId + 1) % 256 := by
  unfold Link.sendSetup
  simp only
  rw [sendDrive_setupId, produce_setupId]
theorem sendSetup_confirmT (l : Link) (pr : Profile) (now : Nat) : (l.sendSetup pr now).confirmT = .running now (sec 1) := by
  unfold Link.sendSetup
  simp only
  rw [sendDrive_confirmT, produce_confirmT]

theorem beginHandshake_kept (l : Link) (pr : Profile) (running : Bool) (now : Nat) :
    (l.beginHandshake pr running now).state = l.state ∧ (l.beginHandshake pr running now).latest = l.latest ∧
    (l.beginHandshake pr running now).sampleT = l.sampleT ∧ (l.beginHandshake pr running now).setup = .sent ∧
    (l.beginHandshake pr running now).disagreeT = l.disagreeT ∧
    (l.beginHandshake pr running now).disagree = l.disagree := by
  unfold Link.beginHandshake
  have h := fun a : Link => sendSetup_kept a pr now
  have g := produce_kept l .clear
  simp only
  split
  · exact ⟨(h _).state, (h _).latest, (h _).sampleT, trivial, (h _).disagreeT, (h _).disagree⟩
  · exact ⟨(h _).state.trans g.state, (h _).latest.trans g.latest, (h _).sampleT.trans g.sampleT, trivial,
      (h _).disagreeT.trans g.disagreeT, (h _).disagree.trans g.disagree⟩

theorem greets_iff {x : Position} :
    x.greets = true ↔ x.link.setup = .unset ∧ x.link.state = .up ∧ (x.st = .off ∨ x.st = .held) := by
  simp [Position.greets, and_assoc]

/-! ## DRIVE handed over -/

/-- What handing over a DRIVE content keeps of a link: all but the frames, the content and, while UP, the refresh timer. -/
structure LinkHanded (l l' : Link) : Prop where
  state : l'.state = l.state
  sampleT : l'.sampleT = l.sampleT
  latest : l'.latest = l.latest
  setup : l'.setup = l.setup
  setupId : l'.setupId = l.setupId
  attempts : l'.attempts = l.attempts
  confirmT : l'.confirmT = l.confirmT
  disagreeT : l'.disagreeT = l.disagreeT
  disagree : l'.disagree = l.disagree
  refreshT : l.state ≠ .up → l'.refreshT = l.refreshT

theorem LinkHanded.refl (l : Link) : LinkHanded l l := ⟨rfl, rfl, rfl, rfl, rfl, rfl, rfl, rfl, rfl, fun _ => rfl⟩

theorem LinkHanded.trans {a b c : Link} (h₁ : LinkHanded a b) (h₂ : LinkHanded b c) : LinkHanded a c :=
  ⟨h₂.state.trans h₁.state, h₂.sampleT.trans h₁.sampleT, h₂.latest.trans h₁.latest, h₂.setup.trans h₁.setup,
    h₂.setupId.trans h₁.setupId, h₂.attempts.trans h₁.attempts, h₂.confirmT.trans h₁.confirmT,
    h₂.disagreeT.trans h₁.disagreeT, h₂.disagree.trans h₁.disagree,
    fun h => (h₂.refreshT (h₁.state ▸ h)).trans (h₁.refreshT h)⟩

theorem sendDrive_handed (l : Link) (now : Nat) : LinkHanded l (l.sendDrive now) := by
  have h := sendDrive_kept l now
  refine ⟨h.state, h.sampleT, h.latest, h.setup, sendDrive_setupId .., h.attempts, sendDrive_confirmT .., h.disagreeT,
    h.disagree, fun hu => ?_⟩
  simp [Link.sendDrive, hu]

theorem driveSet_handed (l : Link) (d : Option Drive) : LinkHanded l { l with drive := d } :=
  ⟨rfl, rfl, rfl, rfl, rfl, rfl, rfl, rfl, rfl, fun _ => rfl⟩

/-- An operation on the frames and the DRIVE content of one link. -/
def LinkOnly (p : Pos) (e e' : Engine) : Prop :=
  ∃ l, e' = e.put p { e.at p with link := l } ∧ LinkHanded (e.at p).link l

theorem LinkOnly.refl (p : Pos) (e : Engine) : LinkOnly p e e := ⟨(e.at p).link, (Engine.put_at e p).symm, .refl _⟩

theorem LinkOnly.trans {p : Pos} {a b c : Engine} (h₁ : LinkOnly p a b) (h₂ : LinkOnly p b c) : LinkOnly p a c := by
  obtain ⟨l, rfl, k⟩ := h₁
  obtain ⟨m, rfl, g⟩ := h₂
  refine ⟨m, by simp, ?_⟩
  simp only [Engine.at_put_self] at g
  exact k.trans g

theorem handDrive_linkOnly (T : Tables) (p : Pos) (e : Engine) : LinkOnly p e (handDrive T p e) := by
  unfold handDrive
  simp only
  split
  · exact .refl _ _
  · split
    · exact ⟨_, rfl, driveSet_handed _ _⟩
    · exact ⟨_, rfl, (driveSet_handed _ _).trans (sendDrive_handed _ _)⟩

theorem driveAtUp_linkOnly (before : Engine) (p : Pos) (e : Engine) : LinkOnly p e (driveAtUp before p e) := by
  unfold driveAtUp
  simp only
  split
  · exact ⟨_, rfl, sendDrive_handed _ _⟩
  · exact .refl _ _

theorem refreshDrive_linkOnly (T : Tables) (before : Engine) (p : Pos) (e : Engine) :
    LinkOnly p e (refreshDrive T before p e) := (handDrive_linkOnly T p e).trans (driveAtUp_linkOnly before p _)

@[simp] theorem handDrive_st (T : Tables) (p : Pos) (e : Engine) : ((handDrive T p e).at p).st = (e.at p).st := by
  obtain ⟨l, h, _⟩ := handDrive_linkOnly T p e
  simp [h]

end Sys2Proof.Machine
end

