-- ==== Sys2Proof/Laws/Touch.lean ====
section
/-! SUPPORT. What the operations of one position can do: to the others at most a grant of the crank bus, to itself nothing of
its mode, pickup, meter, markers of refusal and lateness, link state and samples; and nothing to the Resolver and the clocks. -/

namespace Sys2Proof.Machine

/-- A position as it stood, but for a grant of the bus that its step context may have received (R94). -/
def GrantedOnly (T : Tables) (now : Nat) (x y : Position) : Prop :=
  y = x ∨ y = { x with ctx := x.ctx.map fun c => c.granted T now }

theorem StepCtx.granted_granted (c : StepCtx) (T : Tables) (now : Nat) : (c.granted T now).granted T now = c.granted T now := rfl

theorem GrantedOnly.refl (T : Tables) (now : Nat) (x : Position) : GrantedOnly T now x x := Or.inl rfl

theorem GrantedOnly.trans {T : Tables} {now : Nat} {x y z : Position} (h₁ : GrantedOnly T now x y)
    (h₂ : GrantedOnly T now y z) : GrantedOnly T now x z := by
  rcases h₁ with rfl | rfl
  · exact h₂
  · rcases h₂ with rfl | rfl
    · exact Or.inr rfl
    · right
      cases x.ctx <;> simp [StepCtx.granted_granted]

/-- What the operations of a position in service keep of it. -/
structure Kept (x y : Position) : Prop where
  mode : y.mode = x.mode
  pickup : y.pickup = x.pickup
  meter : y.meter = x.meter
  refused : y.resetRefused = x.resetRefused
  late : y.load.settleLate = x.load.settleLate
  linkState : y.link.state = x.link.state
  latest : y.link.latest = x.link.latest
  sampleT : y.link.sampleT = x.link.sampleT
  duty : y.chan.duty = x.chan.duty ∨ y.chan.duty = 0

theorem Kept.refl (x : Position) : Kept x x := by constructor <;> first | rfl | exact Or.inl rfl

theorem Kept.trans {x y z : Position} (a : Kept x y) (b : Kept y z) : Kept x z := by
  constructor
  · exact b.mode.trans a.mode
  · exact b.pickup.trans a.pickup
  · exact b.meter.trans a.meter
  · exact b.refused.trans a.refused
  · exact b.late.trans a.late
  · exact b.linkState.trans a.linkState
  · exact b.latest.trans a.latest
  · exact b.sampleT.trans a.sampleT
  · rcases b.duty with h | h
    · rw [h]; exact a.duty
    · exact Or.inr h

theorem GrantedOnly.kept {T : Tables} {now : Nat} {x y : Position} (h : GrantedOnly T now x y) : Kept x y := by
  rcases h with rfl | rfl
  · exact Kept.refl _
  · constructor <;> first | rfl | exact Or.inl rfl

/-- An operation on one position: the Resolver, the Planner's marks and the clocks stay; the others at most receive a grant. -/
structure Touches (T : Tables) (p : Pos) (e e' : Engine) : Prop where
  now : e'.now = e.now
  res : e'.res = e.res
  short : e'.short = e.short
  report : e'.lastReport = e.lastReport
  pwm : e'.pwm = e.pwm
  others : ∀ q, q ≠ p → GrantedOnly T e.now (e.at q) (e'.at q)
  self : Kept (e.at p) (e'.at p)

/-- An operation of the bus alone. -/
structure BusOnly (T : Tables) (e e' : Engine) : Prop where
  now : e'.now = e.now
  res : e'.res = e.res
  short : e'.short = e.short
  report : e'.lastReport = e.lastReport
  pwm : e'.pwm = e.pwm
  all : ∀ q, GrantedOnly T e.now (e.at q) (e'.at q)

theorem Touches.refl (T : Tables) (p : Pos) (e : Engine) : Touches T p e e :=
  ⟨rfl, rfl, rfl, rfl, rfl, fun _ _ => .refl _ _ _, .refl _⟩

theorem Touches.trans {T : Tables} {p : Pos} {a b c : Engine} (h₁ : Touches T p a b) (h₂ : Touches T p b c) :
    Touches T p a c := by
  refine ⟨h₂.now.trans h₁.now, h₂.res.trans h₁.res, h₂.short.trans h₁.short, h₂.report.trans h₁.report,
    h₂.pwm.trans h₁.pwm, fun q hq => ?_, h₁.self.trans h₂.self⟩
  have := h₂.others q hq
  rw [h₁.now] at this
  exact (h₁.others q hq).trans this

theorem BusOnly.refl (T : Tables) (e : Engine) : BusOnly T e e :=
  ⟨rfl, rfl, rfl, rfl, rfl, fun _ => .refl _ _ _⟩

theorem BusOnly.trans {T : Tables} {a b c : Engine} (h₁ : BusOnly T a b) (h₂ : BusOnly T b c) : BusOnly T a c := by
  refine ⟨h₂.now.trans h₁.now, h₂.res.trans h₁.res, h₂.short.trans h₁.short, h₂.report.trans h₁.report,
    h₂.pwm.trans h₁.pwm, fun q => ?_⟩
  have := h₂.all q
  rw [h₁.now] at this
  exact (h₁.all q).trans this

theorem BusOnly.touches {T : Tables} {a b : Engine} (h : BusOnly T a b) (p : Pos) : Touches T p a b :=
  ⟨h.now, h.res, h.short, h.report, h.pwm, fun q _ => h.all q, (h.all p).kept⟩

theorem touches_put (T : Tables) {p : Pos} {e : Engine} {x : Position} (h : Kept (e.at p) x) : Touches T p e (e.put p x) :=
  ⟨rfl, rfl, rfl, rfl, rfl, fun _ hq => by rw [Engine.at_put_other _ _ hq]; exact .refl _ _ _, by simpa using h⟩

theorem touches_modify (T : Tables) {p : Pos} {e : Engine} {f : Position → Position} (h : Kept (e.at p) (f (e.at p))) :
    Touches T p e (e.modify p f) := touches_put T h

theorem busOnly_bus (T : Tables) (e : Engine) (b : Bus) : BusOnly T e { e with bus := b } :=
  ⟨rfl, rfl, rfl, rfl, rfl, fun _ => .refl _ _ _⟩

/-! ## The bus -/

theorem giveBus_busOnly (T : Tables) (p : Pos) (e : Engine) : BusOnly T e (giveBus T p e) := by
  refine ⟨rfl, rfl, rfl, rfl, rfl, fun q => ?_⟩
  simp only [giveBus]
  rw [Engine.at_modify]
  split
  · subst q; exact Or.inr rfl
  · exact Or.inl rfl

theorem grantNext_busOnly (T : Tables) (e : Engine) : BusOnly T e (grantNext T e) := by
  unfold grantNext
  split
  · split
    · exact .refl _ _
    · exact giveBus_busOnly _ _ _
  · exact .refl _ _

theorem requestBus_busOnly (T : Tables) (p : Pos) (e : Engine) : BusOnly T e (requestBus T p e) := by
  unfold requestBus
  split
  · exact giveBus_busOnly _ _ _
  · exact busOnly_bus _ _ _

theorem freeBus_busOnly (T : Tables) (e : Engine) : BusOnly T e (freeBus T e) := by
  unfold freeBus
  split
  · exact busOnly_bus _ _ _
  · split
    · exact (busOnly_bus _ _ _).trans (grantNext_busOnly _ _)
    · exact busOnly_bus _ _ _

theorem leaveBus_busOnly (T : Tables) (p : Pos) (e : Engine) : BusOnly T e (leaveBus T p e) := by
  unfold leaveBus
  simp only
  split
  · exact (busOnly_bus _ _ _).trans (freeBus_busOnly _ _)
  · exact busOnly_bus _ _ _

/-! ## The Position Controller -/

theorem kept_of_link {x : Position} {l : Link} (h₁ : l.state = x.link.state) (h₂ : l.latest = x.link.latest)
    (h₃ : l.sampleT = x.link.sampleT) : Kept x { x with link := l } :=
  ⟨rfl, rfl, rfl, rfl, rfl, h₁, h₂, h₃, Or.inl rfl⟩

theorem LinkOnly.touches {T : Tables} {p : Pos} {e e' : Engine} (h : LinkOnly p e e') : Touches T p e e' := by
  obtain ⟨l, rfl, k⟩ := h
  exact touches_put T (kept_of_link k.state k.latest k.sampleT)

theorem handDrive_touches (T : Tables) (p : Pos) (e : Engine) : Touches T p e (handDrive T p e) :=
  (handDrive_linkOnly T p e).touches

theorem handshake_touches (T : Tables) (p : Pos) (e : Engine) : Touches T p e (handshake T p e) := by
  unfold handshake
  simp only
  split
  · exact .refl _ _ _
  · split
    · have h := beginHandshake_kept (e.at p).link ‹Profile› ((e.at p).engineRunning ‹Profile›) e.now
      exact touches_put T (kept_of_link h.1 h.2.1 h.2.2.1)
    · exact .refl _ _ _

theorem leave_kept (x : Position) (dest : PState) : Kept x (x.leave dest) := by
  constructor
  case late => simp only [Position.leave]; split <;> rfl
  case duty => simp only [Position.leave]; split <;> simp [Channel.cut]
  all_goals rfl

theorem onEntry_same (l : Link) {dest : PState} (h₁ : dest ≠ .absent) (h₂ : dest ≠ .isolated) :
    l.onEntry dest = l ∨ l.onEntry dest = l.unset := by
  cases dest <;> simp only [Link.onEntry] <;> first | exact Or.inl rfl | (split <;> simp) | simp_all

theorem arrive_kept (x : Position) {dest : PState} (h₁ : dest ≠ .absent) (h₂ : dest ≠ .isolated) : Kept x (x.arrive dest) := by
  have h := onEntry_same x.link h₁ h₂
  constructor
  case pickup => simp [Position.arrive, h₁]
  case duty => exact Or.inl rfl
  all_goals
    first
    | rfl
    | (simp only [Position.arrive, Link.disagreeOnEntry]; rcases h with h | h <;> rw [h] <;> rfl)

theorem enter_touches (T : Tables) (p : Pos) {dest : PState} (e : Engine) (h₁ : dest ≠ .absent) (h₂ : dest ≠ .isolated) :
    Touches T p e (enter T p dest e) := by
  unfold enter
  simp only
  refine .trans ?_ (handDrive_touches ..)
  split
  · exact ((leaveBus_busOnly T p e).touches p).trans (touches_modify T ((leave_kept _ _).trans (arrive_kept _ h₁ h₂)))
  · exact touches_modify T ((leave_kept _ _).trans (arrive_kept _ h₁ h₂))

theorem faultWith_touches (T : Tables) (p : Pos) (code : FaultCode) (step : Option Nat) (value : Option Int) (e : Engine) :
    Touches T p e (faultWith T p code step value e) := by
  unfold faultWith
  split
  · exact touches_modify T (by constructor <;> first | rfl | exact Or.inl rfl)
  · exact (enter_touches T p e (by simp) (by simp)).trans (touches_modify T (by constructor <;> first | rfl | exact Or.inl rfl))

theorem fault_touches (T : Tables) (p : Pos) (code : FaultCode) (value : Option Int) (e : Engine) :
    Touches T p e (fault T p code value e) := faultWith_touches ..

theorem faults_touches (T : Tables) (p : Pos) (list : List (FaultCode × Option Int)) (e : Engine) :
    Touches T p e (faults T p list e) := by
  unfold faults
  induction list generalizing e with
  | nil => exact .refl _ _ _
  | cons f rest ih => exact (fault_touches T p f.1 f.2 e).trans (ih _)

theorem enterStopping_touches (T : Tables) (p : Pos) (e : Engine) : Touches T p e (enterStopping T p e) := by
  unfold enterStopping
  have h := enter_touches T p (dest := .stopping) e (by simp) (by simp)
  simp only
  split
  · exact h.trans (enter_touches T p _ (by simp) (by simp))
  · split
    · exact h
    · exact h.trans (touches_modify T (by constructor <;> first | rfl | exact Or.inl rfl))

theorem enterHeld_touches (T : Tables) (p : Pos) (causes : Causes) (e : Engine) : Touches T p e (enterHeld T p causes e) := by
  unfold enterHeld
  have h : ∀ t, Touches T p e ((enter T p .held e).modify p fun x => { x with causes := causes, holdT := t }) := fun t =>
    (enter_touches T p (dest := .held) e (by simp) (by simp)).trans (touches_modify T (by constructor <;> first | rfl | exact Or.inl rfl))
  simp only
  generalize (if causes.localPanel = true then Timer.stopped else holdTimer T p (enter T p .held e)) = t
  split
  · exact ((h t).trans (handshake_touches ..)).trans (enterStopping_touches _ _ _)
  · exact h t

theorem enterReady_touches (T : Tables) (p : Pos) (e : Engine) : Touches T p e (enterReady T p e) := by
  unfold enterReady
  have h := enter_touches T p (dest := .ready) e (by simp) (by simp)
  simp only
  split
  · exact h.trans (fault_touches ..)
  · exact h

theorem judgeCauses_touches (T : Tables) (p : Pos) (add remove : Causes) (e : Engine) :
    Touches T p e (judgeCauses T p add remove e) := by
  unfold judgeCauses
  simp only
  split
  · exact touches_put T (by constructor <;> first | rfl | exact Or.inl rfl)
  iterate 3
    split
    · exact .refl _ _ _
    · exact enterHeld_touches ..
  · have h : ∀ c t, Touches T p e (e.put p { e.at p with causes := c, holdT := t }) :=
      fun c t => touches_put T (by constructor <;> first | rfl | exact Or.inl rfl)
    split
    · exact (h _ _).trans (enterReady_touches ..)
    · exact h _ _
  · exact .refl _ _ _

/-! ## The Step Executor -/

theorem chainEnd_touches (T : Tables) (p : Pos) (e : Engine) : Touches T p e (chainEnd T p e) := by
  unfold chainEnd
  simp only
  split
  · exact enterReady_touches ..
  · exact enterHeld_touches ..

theorem endStep_touches (T : Tables) (p : Pos) (r : StepRec) (e : Engine) : Touches T p e (endStep T p r e) := by
  unfold endStep
  exact ((leaveBus_busOnly T p e).touches p).trans (touches_modify T (by constructor <;> first | rfl | exact Or.inl rfl))

theorem enterStep_touches (T : Tables) (p : Pos) (fuel : Nat) (counts : Bool) (idx : Nat) (e : Engine) :
    Touches T p e (enterStep T p fuel counts idx e) := by
  induction fuel generalizing counts idx e with
  | zero => exact faultWith_touches ..
  | succ n ih =>
    unfold enterStep
    simp only
    split
    · exact faultWith_touches ..
    · have h : ∀ c, Touches T p e (handDrive T p (e.put p { e.at p with ctx := c })) := fun c =>
        (touches_put T (by constructor <;> first | rfl | exact Or.inl rfl)).trans (handDrive_touches ..)
      split
      · split
        · exact ((h _).trans (endStep_touches ..)).trans (chainEnd_touches ..)
        · exact ((h _).trans (endStep_touches ..)).trans (ih ..)
      · split
        · exact (h _).trans ((requestBus_busOnly ..).touches p)
        · exact h _

theorem stepSuccess_touches (T : Tables) (p : Pos) (r : StepRec) (e : Engine) : Touches T p e (stepSuccess T p r e) := by
  unfold stepSuccess
  simp only
  split
  · exact (endStep_touches ..).trans (chainEnd_touches ..)
  · exact (endStep_touches ..).trans (enterStep_touches ..)

theorem startOrder_touches (T : Tables) (p : Pos) (e : Engine) : Touches T p e (startOrder T p e) := by
  unfold startOrder
  have h := enter_touches T p (dest := .starting) e (by simp) (by simp)
  split
  · simp only
    split
    · exact h.trans (faultWith_touches ..)
    · split
      · exact h.trans (faultWith_touches ..)
      · exact h.trans (enterStep_touches ..)
  · exact .refl _ _ _

theorem abandonOrder_touches (T : Tables) (p : Pos) (e : Engine) : Touches T p e (abandonOrder T p e) := by
  unfold abandonOrder
  simp only
  split
  · exact enter_touches T p e (by simp) (by simp)
  · exact .refl _ _ _

theorem retryRest_touches (T : Tables) (p : Pos) (r : StepRec) (e : Engine) : Touches T p e (retryRest T p r e) := by
  unfold retryRest
  simp only
  have h : ∀ f : Option StepCtx → Option StepCtx,
      Touches T p e (handDrive T p (e.modify p fun x => { x with ctx := f x.ctx })) := fun f =>
    (touches_modify T (by constructor <;> first | rfl | exact Or.inl rfl)).trans (handDrive_touches ..)
  split
  · split
    · exact h _
    · exact (h _).trans (enterStep_touches ..)
  · exact h _

theorem failStart_touches (T : Tables) (p : Pos) (code : FaultCode) (value : Option Int) (e : Engine) :
    Touches T p e (failStart T p code value e) := by
  unfold failStart
  exact (fault_touches ..).trans (touches_modify T (by constructor <;> first | rfl | exact Or.inl rfl))

theorem retryableFailure_touches (T : Tables) (p : Pos) (r : StepRec) (c : StepCtx) (e : Engine) :
    Touches T p e (retryableFailure T p r c e) := by
  unfold retryableFailure
  simp only
  have h := (leaveBus_busOnly T p e).touches p
  split
  · exact h.trans (retryRest_touches ..)
  · exact h.trans (failStart_touches ..)

theorem stepExpires_touches (T : Tables) (p : Pos) (e : Engine) : Touches T p e (stepExpires T p e) := by
  unfold stepExpires
  split
  · exact .refl _ _ _
  · split
    · exact .refl _ _ _
    · split
      · exact stepSuccess_touches ..
      · exact retryableFailure_touches ..

theorem stepTestSample_touches (T : Tables) (p : Pos) (s : Sample) (e : Engine) :
    Touches T p e (stepTestSample T p s e) := by
  unfold stepTestSample
  split
  · split
    · exact stepSuccess_touches ..
    · exact .refl _ _ _
  · exact .refl _ _ _

theorem armWatch_touches (T : Tables) (p : Pos) (e : Engine) : Touches T p e (armWatch T p e) :=
  touches_modify T (by constructor <;> first | rfl | exact Or.inl rfl)

theorem stepTestSpeed_touches (T : Tables) (p : Pos) (e : Engine) : Touches T p e (stepTestSpeed T p e) := by
  unfold stepTestSpeed
  simp only
  split
  · split
    · exact stepSuccess_touches ..
    · exact .refl _ _ _
  · exact .refl _ _ _

/-! ## The load-phase machine -/

theorem startSpeedPhase_touches (T : Tables) (p : Pos) (ph : Phase) (slot : Target) (e : Engine) :
    Touches T p e (startSpeedPhase T p ph slot e) := by
  unfold startSpeedPhase
  exact (touches_modify T (by constructor <;> first | rfl | exact Or.inl rfl)).trans (handDrive_touches ..)

theorem ramp_duty (c : Channel) (x : SchedEntry) (n target : Nat) : (c.ramp x n target).duty = c.duty := by
  unfold Channel.ramp
  split <;> rfl

theorem startLoadPhase_touches (T : Tables) (p : Pos) (ph : Phase) (slot : Target) (e : Engine) :
    Touches T p e (startLoadPhase T p ph slot e) := by
  unfold startLoadPhase
  split
  · exact .refl _ _ _
  · refine touches_modify T ?_
    constructor
    case duty => exact Or.inl (ramp_duty ..)
    all_goals rfl

theorem choosePhase_touches (T : Tables) (p : Pos) (e : Engine) : Touches T p e (choosePhase T p e) := by
  unfold choosePhase
  simp only
  split
  · split
    · exact startSpeedPhase_touches ..
    · exact startSpeedPhase_touches ..
    · exact startLoadPhase_touches ..
    · exact startLoadPhase_touches ..
    · split
      · exact enterReady_touches ..
      · exact touches_put T (by constructor <;> first | rfl | exact Or.inl rfl)
  · exact .refl _ _ _

theorem endPhase_touches (T : Tables) (p : Pos) (e : Engine) : Touches T p e (endPhase T p e) := by
  unfold endPhase
  refine Touches.trans ?_ (choosePhase_touches ..)
  exact touches_modify T (by constructor <;> first | rfl | exact Or.inl rfl)

theorem completePhase_touches (T : Tables) (p : Pos) (e : Engine) : Touches T p e (completePhase T p e) := by
  unfold completePhase
  refine Touches.trans ?_ (endPhase_touches ..)
  exact touches_modify T (by constructor <;> first | rfl | exact Or.inl rfl)

theorem beforeChoice_duty (x : Position) (f : PhaseEnd) : (x.beforeChoice f).chan.duty = x.chan.duty := by
  unfold Position.beforeChoice
  split <;> rfl

theorem actOnTarget_touches (T : Tables) (p : Pos) (e : Engine) : Touches T p e (actOnTarget T p e) := by
  unfold actOnTarget
  simp only
  split
  · refine Touches.trans (touches_put T ?_) (endPhase_touches ..)
    constructor <;> first | rfl | exact Or.inl (beforeChoice_duty ..)
  · split
    · exact choosePhase_touches ..
    · split
      · exact endPhase_touches ..
      · exact .refl _ _ _
    · split
      · refine Touches.trans ?_ (endPhase_touches ..)
        exact touches_put T (by constructor <;> first | rfl | exact Or.inl rfl)
      · exact .refl _ _ _
    · exact .refl _ _ _

theorem writeSlot_touches (T : Tables) (p : Pos) (e : Engine) : Touches T p e (writeSlot T p e) := by
  unfold writeSlot
  simp only
  split
  · split
    · exact .refl _ _ _
    · exact touches_put T (by constructor <;> first | rfl | exact Or.inl rfl)
  · exact .refl _ _ _

theorem promoteOrder_touches (T : Tables) (p : Pos) (e : Engine) : Touches T p e (promoteOrder T p e) := by
  unfold promoteOrder
  split
  · refine Touches.trans ?_ (choosePhase_touches ..)
    refine Touches.trans (enter_touches T p (dest := .online) e (by simp) (by simp)) ?_
    exact touches_modify T (by constructor <;> first | rfl | exact Or.inl rfl)
  · exact .refl _ _ _

theorem demoteOrder_touches (T : Tables) (p : Pos) (e : Engine) : Touches T p e (demoteOrder T p e) := by
  unfold demoteOrder
  split
  · refine Touches.trans ?_ (actOnTarget_touches ..)
    refine Touches.trans (enter_touches T p (dest := .unloading) e (by simp) (by simp)) ?_
    exact touches_modify T (by constructor <;> first | rfl | exact Or.inl rfl)
  · exact .refl _ _ _

theorem endLoadPhase_touches (T : Tables) (p : Pos) (e : Engine) : Touches T p e (endLoadPhase T p e) := by
  unfold endLoadPhase
  simp only
  split
  · exact completePhase_touches ..
  · exact .refl _ _ _

theorem stopOrder_touches (T : Tables) (p : Pos) (e : Engine) : Touches T p e (stopOrder T p e) := by
  unfold stopOrder
  split
  · exact enterStopping_touches ..
  · exact .refl _ _ _

theorem lingerStart_touches (T : Tables) (p : Pos) (e : Engine) : Touches T p e (lingerStart T p e) := by
  unfold lingerStart
  split
  · exact .refl _ _ _
  · split
    · exact touches_modify T (by constructor <;> first | rfl | exact Or.inl rfl)
    · exact .refl _ _ _

end Sys2Proof.Machine
end

