-- ==== Sys2Proof/Laws/Close.lean ====
section
/-! SUPPORT. What the close of an event leaves as the event made it: modes, pickups, meters and samples everywhere, and the
whole of every position on which the Planner has nothing to order. -/

namespace Sys2Proof.Machine

/-- What the close of an event keeps of every position. -/
structure Carried (x y : Position) : Prop where
  mode : y.mode = x.mode
  pickup : y.pickup = x.pickup
  meter : y.meter = x.meter
  refused : y.resetRefused = x.resetRefused
  late : y.load.settleLate = x.load.settleLate
  linkState : y.link.state = x.link.state
  latest : y.link.latest = x.link.latest
  sampleT : y.link.sampleT = x.link.sampleT
  duty : y.chan.duty = x.chan.duty ∨ y.chan.duty = 0

theorem Carried.refl (x : Position) : Carried x x := ⟨rfl, rfl, rfl, rfl, rfl, rfl, rfl, rfl, Or.inl rfl⟩

theorem Carried.trans {x y z : Position} (a : Carried x y) (b : Carried y z) : Carried x z := by
  refine ⟨b.mode.trans a.mode, b.pickup.trans a.pickup, b.meter.trans a.meter, b.refused.trans a.refused,
    b.late.trans a.late, b.linkState.trans a.linkState, b.latest.trans a.latest, b.sampleT.trans a.sampleT, ?_⟩
  rcases b.duty with h | h
  · rw [h]; exact a.duty
  · exact Or.inr h

theorem Kept.carried {x y : Position} (h : Kept x y) : Carried x y :=
  ⟨h.mode, h.pickup, h.meter, h.refused, h.late, h.linkState, h.latest, h.sampleT, h.duty⟩

/-- The states to which no order of the Planner applies (R42). -/
def PState.fixed : PState → Bool
  | .absent | .unloading | .held | .stopping | .faulted | .isolated => true
  | _ => false

/-- Whether the Resolver lets the Planner start and promote (R23). -/
def Resolver.mayRun (r : Resolver) : Bool := r.runPerm && !r.latch

/-- A position to which no order can be given at this event: its state takes none, or it is OFF and not to be started, or
its start has fired, or it starts in RUN mode while no zero condition can hold (`mayZero` false). -/
def Position.calm (mayZero mayRun : Bool) (x : Position) : Bool :=
  x.st.fixed || (x.st == .off && (x.mode == .out || x.link.setup != .confirmed || !mayRun))
    || (x.st == .starting && (x.ctx.any (·.fired) || (x.mode == .run && !mayZero)))

/-- The items of a step context that a grant leaves. -/
def StepCtx.course (c : StepCtx) : Nat × Nat × Nat × Bool × Bool × Timer :=
  (c.ptr, c.retries, c.visited, c.fired, c.watch, c.restT)

/-- A setup stays as it is, or a handshake begins on a link that is UP. -/
def SetupDrift (l l' : Link) : Prop :=
  l'.state = l.state ∧
  ((l'.setup = l.setup ∧ l'.setupId = l.setupId ∧ l'.attempts = l.attempts ∧ l'.confirmT = l.confirmT) ∨
   (l.setup = .unset ∧ l.state = .up ∧ l'.setup = .sent))

theorem SetupDrift.refl (l : Link) : SetupDrift l l := ⟨rfl, Or.inl ⟨rfl, rfl, rfl, rfl⟩⟩

theorem SetupDrift.trans {a b c : Link} (h₁ : SetupDrift a b) (h₂ : SetupDrift b c) : SetupDrift a c := by
  obtain ⟨s₁, h₁⟩ := h₁
  obtain ⟨s₂, h₂⟩ := h₂
  refine ⟨s₂.trans s₁, ?_⟩
  rcases h₂ with ⟨g₁, g₂, g₃, g₄⟩ | ⟨g, u, g'⟩
  · rcases h₁ with ⟨k₁, k₂, k₃, k₄⟩ | ⟨k, v, k'⟩
    · exact Or.inl ⟨g₁.trans k₁, g₂.trans k₂, g₃.trans k₃, g₄.trans k₄⟩
    · exact Or.inr ⟨k, v, g₁.trans k'⟩
  · rcases h₁ with ⟨k₁, _, _, _⟩ | ⟨_, _, k'⟩
    · exact Or.inr ⟨k₁ ▸ g, s₁ ▸ u, g'⟩
    · rw [g] at k'; cases k'

theorem SetupDrift.cases {l l' : Link} (h : SetupDrift l l') : l'.setup = l.setup ∨ (l.setup = .unset ∧ l'.setup = .sent) := by
  rcases h.2 with h | h
  · exact Or.inl h.1
  · exact Or.inr ⟨h.1, h.2.2⟩

/-- What the close of an event keeps of a calm position. -/
structure Still (x y : Position) : Prop where
  st : y.st = x.st
  causes : y.causes = x.causes
  holdT : y.holdT = x.holdT
  stopT : y.stopT = x.stopT
  fault : y.fault = x.fault
  failedStart : y.failedStart = x.failedStart
  load : y.load = x.load
  phaseEnd : y.phaseEnd = x.phaseEnd
  prot : y.prot = x.prot
  stepEvent : y.stepEvent = x.stepEvent
  duty : y.chan.duty = x.chan.duty
  chanState : y.chan.state = x.chan.state
  setup : SetupDrift x.link y.link
  disagreeT : y.link.disagreeT = x.link.disagreeT
  disagree : y.link.disagree = x.link.disagree
  course : y.ctx.map (·.course) = x.ctx.map (·.course)

theorem Still.refl (x : Position) : Still x x :=
  ⟨rfl, rfl, rfl, rfl, rfl, rfl, rfl, rfl, rfl, rfl, rfl, rfl, .refl _, rfl, rfl, rfl⟩

theorem Still.trans {x y z : Position} (a : Still x y) (b : Still y z) : Still x z := by
  exact ⟨b.st.trans a.st, b.causes.trans a.causes, b.holdT.trans a.holdT, b.stopT.trans a.stopT, b.fault.trans a.fault,
    b.failedStart.trans a.failedStart, b.load.trans a.load, b.phaseEnd.trans a.phaseEnd, b.prot.trans a.prot,
    b.stepEvent.trans a.stepEvent, b.duty.trans a.duty, b.chanState.trans a.chanState, a.setup.trans b.setup, b.disagreeT.trans a.disagreeT, b.disagree.trans a.disagree,
    b.course.trans a.course⟩

theorem fired_of_course {x y : Option StepCtx} (h : y.map (·.course) = x.map (·.course)) :
    y.any (·.fired) = x.any (·.fired) := by
  cases x <;> cases y <;> simp_all [StepCtx.course]

/-- What the close keeps of a position. -/
structure DriftAt (mayZero mayRun : Bool) (x y : Position) : Prop where
  carried : Carried x y
  still : x.calm mayZero mayRun = true → Still x y

theorem DriftAt.refl (z m : Bool) (x : Position) : DriftAt z m x x := ⟨.refl x, fun _ => .refl x⟩

theorem Still.calm {z m : Bool} {x y : Position} (h : Still x y) (c : Carried x y) (hx : x.calm z m = true) :
    y.calm z m = true := by
  simp only [Position.calm, h.st, c.mode, fired_of_course h.course] at hx ⊢
  rcases h.setup.cases with hs | ⟨_, hs⟩
  · rw [hs]; exact hx
  · rw [hs]
    revert hx
    cases x.st.fixed <;> cases x.st == .off <;> simp

theorem DriftAt.trans {k m : Bool} {x y z : Position} (a : DriftAt k m x y) (b : DriftAt k m y z) : DriftAt k m x z :=
  ⟨a.carried.trans b.carried, fun h => (a.still h).trans (b.still ((a.still h).calm a.carried h))⟩

/-- What the close of an event does to the engine record. -/
structure Drift (mayZero : Bool) (a b : Engine) : Prop where
  now : b.now = a.now
  pwm : b.pwm = a.pwm
  res : ResKept a.res b.res
  pos : ∀ p, DriftAt mayZero a.res.mayRun (a.at p) (b.at p)

theorem ResKept.mayRun {a b : Resolver} (h : ResKept a b) : b.mayRun = a.mayRun := by
  simp [Resolver.mayRun, h.runPerm, h.latch]

variable {z : Bool}

theorem Drift.refl (e : Engine) : Drift z e e := ⟨rfl, rfl, .refl _, fun _ => .refl _ _ _⟩

theorem Drift.trans {a b c : Engine} (h₁ : Drift z a b) (h₂ : Drift z b c) : Drift z a c := by
  refine ⟨h₂.now.trans h₁.now, h₂.pwm.trans h₁.pwm, h₁.res.trans h₂.res, fun p => (h₁.pos p).trans ?_⟩
  have := h₂.pos p
  rwa [h₁.res.mayRun] at this

theorem GrantedOnly.drift {T : Tables} {now : Nat} {x y : Position} (m : Bool) (h : GrantedOnly T now x y) :
    DriftAt z m x y := by
  refine ⟨h.kept.carried, fun _ => ?_⟩
  rcases h with rfl | rfl
  · exact .refl _
  · refine ⟨rfl, rfl, rfl, rfl, rfl, rfl, rfl, rfl, rfl, rfl, rfl, rfl, .refl _, rfl, rfl, ?_⟩
    cases x.ctx <;> rfl

theorem Touches.drift {T : Tables} {p : Pos} {a b : Engine} (h : Touches T p a b) (hp : (a.at p).calm z a.res.mayRun = false) :
    Drift z a b := by
  refine ⟨h.now, h.pwm, h.res ▸ .refl _, fun q => ?_⟩
  by_cases hq : q = p
  · subst hq
    exact ⟨h.self.carried, fun hc => by simp [hp] at hc⟩
  · exact (h.others q hq).drift _

/-- A change of one position that keeps what the close keeps. -/
theorem drift_put {e : Engine} {p : Pos} {x : Position} (h : DriftAt z e.res.mayRun (e.at p) x) : Drift z e (e.put p x) := by
  refine ⟨rfl, rfl, .refl _, fun q => ?_⟩
  rw [Engine.at_put]
  split
  · rename_i hq; subst hq; exact h
  · exact .refl _ _ _

theorem drift_modify {e : Engine} {p : Pos} {f : Position → Position} (h : DriftAt z e.res.mayRun (e.at p) (f (e.at p))) :
    Drift z e (e.modify p f) := drift_put h

theorem drift_eachPos {e : Engine} {f : Pos → Engine → Engine} (h : ∀ p e, Drift z e (f p e)) : Drift z e (e.eachPos f) := by
  unfold Engine.eachPos
  exact (((h .A e).trans (h .B _)).trans (h .C _)).trans (h .D _)

/-! ## Handshakes and DRIVE -/

/-- A change of a link that keeps its samples and, at most, begins a handshake. -/
theorem driftAt_link {m : Bool} {x : Position} {l : Link} (h₁ : l.state = x.link.state) (h₂ : l.latest = x.link.latest)
    (h₃ : l.sampleT = x.link.sampleT) (h₄ : SetupDrift x.link l) (h₅ : l.disagreeT = x.link.disagreeT)
    (h₆ : l.disagree = x.link.disagree) : DriftAt z m x { x with link := l } :=
  ⟨⟨rfl, rfl, rfl, rfl, rfl, h₁, h₂, h₃, Or.inl rfl⟩,
    fun _ => ⟨rfl, rfl, rfl, rfl, rfl, rfl, rfl, rfl, rfl, rfl, rfl, rfl, h₄, h₅, h₆, rfl⟩⟩

theorem handshake_drift (T : Tables) (p : Pos) (e : Engine) : Drift z e (handshake T p e) := by
  unfold handshake
  simp only
  split
  · exact .refl _
  · rename_i pr _
    split
    · rename_i h
      obtain ⟨h₁, h₂, h₃, h₄, h₅, h₆⟩ := beginHandshake_kept (e.at p).link pr ((e.at p).engineRunning pr) e.now
      have hg := greets_iff.1 h
      exact drift_put (driftAt_link h₁ h₂ h₃ ⟨h₁, Or.inr ⟨hg.1, hg.2.1, h₄⟩⟩ h₅ h₆)
    · exact .refl _

theorem LinkHanded.setupDrift {l l' : Link} (h : LinkHanded l l') : SetupDrift l l' :=
  ⟨h.state, Or.inl ⟨h.setup, h.setupId, h.attempts, h.confirmT⟩⟩

/-- A change of frames and DRIVE content alone. -/
theorem linkOnly_drift {p : Pos} {e e' : Engine} (h : LinkOnly p e e') : Drift z e e' := by
  obtain ⟨l, rfl, k⟩ := h
  exact drift_put (driftAt_link k.state k.latest k.sampleT k.setupDrift k.disagreeT k.disagree)

theorem refreshDrive_drift (T : Tables) (start : Engine) (p : Pos) (e : Engine) : Drift z e (refreshDrive T start p e) :=
  linkOnly_drift (refreshDrive_linkOnly ..)

/-! ## Orders and targets -/

theorem restep_duty (c : Channel) (x : SchedEntry) (n : Nat) : (c.restep x n).duty = c.duty := by
  unfold Channel.restep
  split <;> rfl
theorem restep_state (c : Channel) (x : SchedEntry) (n : Nat) : (c.restep x n).state = c.state := by
  unfold Channel.restep
  split <;> rfl

theorem restepAll_drift (T : Tables) (e : Engine) : Drift z e (restepAll T e) := by
  unfold restepAll
  split
  · exact .refl _
  · refine drift_eachPos fun p e => drift_modify ?_
    exact ⟨⟨rfl, rfl, rfl, rfl, rfl, rfl, rfl, rfl, Or.inl (restep_duty ..)⟩,
      fun _ => ⟨rfl, rfl, rfl, rfl, rfl, rfl, rfl, rfl, rfl, rfl, restep_duty .., restep_state .., .refl _, rfl, rfl, rfl⟩⟩

theorem linger_drift (p : Pos) (t : Timer) (e : Engine) : Drift z e (e.modify p fun x => { x with lingerT := t }) :=
  drift_modify ⟨⟨rfl, rfl, rfl, rfl, rfl, rfl, rfl, rfl, Or.inl rfl⟩,
    fun _ => ⟨rfl, rfl, rfl, rfl, rfl, rfl, rfl, rfl, rfl, rfl, rfl, rfl, .refl _, rfl, rfl, rfl⟩⟩

theorem stopLinger_drift (linger : Option Pos) (e : Engine) : Drift z e (stopLinger linger e) := by
  unfold stopLinger
  split
  · exact .refl _
  · exact linger_drift _ _ _

theorem not_calm {m : Bool} {x : Position} (h : x.st = .ready ∨ x.st = .online) : x.calm z m = false := by
  unfold Position.calm
  rcases h with h | h <;> simp [h, PState.fixed]

theorem writeSlots_drift (T : Tables) (e : Engine) : Drift z e (writeSlots T e) := by
  refine drift_eachPos fun p e => ?_
  by_cases h : (e.at p).st = .online
  · exact (writeSlot_touches T p e).drift (not_calm (Or.inr h))
  · unfold writeSlot
    simp only [h, if_false]
    exact .refl _

theorem actOnTargets_drift (T : Tables) (list : List Pos) (e : Engine) : Drift z e (actOnTargets T list e) := by
  unfold actOnTargets
  induction list generalizing e with
  | nil => exact .refl _
  | cons p rest ih =>
    refine Drift.trans ?_ (ih _)
    dsimp only
    split
    · rename_i h
      exact (actOnTarget_touches T p e).drift (not_calm (Or.inr h))
    · exact .refl _

theorem Drift.touches {e₀ : Engine} {T : Tables} {p : Pos} {a b : Engine} (h₀ : Drift z e₀ a) (h : Touches T p a b)
    (hp : (e₀.at p).calm z e₀.res.mayRun = false) : Drift z e₀ b := by
  refine ⟨h.now.trans h₀.now, h.pwm.trans h₀.pwm, h.res ▸ h₀.res, fun q => ?_⟩
  by_cases hq : q = p
  · subst hq
    exact ⟨(h₀.pos q).carried.trans h.self.carried, fun hc => by simp [hp] at hc⟩
  · exact (h₀.pos q).trans ((h.others q hq).drift _)

theorem Drift.not_calm {e₀ e : Engine} (h : Drift z e₀ e) {p : Pos} (hp : (e.at p).calm z e.res.mayRun = false) :
    (e₀.at p).calm z e₀.res.mayRun = false := by
  cases hc : (e₀.at p).calm z e₀.res.mayRun
  · rfl
  · have := ((h.pos p).still hc).calm (h.pos p).carried hc
    rw [h.res.mayRun, this] at hp
    cases hp

/-- What the orders of an evaluation leave alone: they start no calm position that is OFF, and abandon no calm start. -/
def Order.sparesCalm (z : Bool) (e₀ : Engine) : Order → Prop
  | .start p => (e₀.at p).calm z e₀.res.mayRun = true → (e₀.at p).st ≠ .off
  | .abandon p => (e₀.at p).calm z e₀.res.mayRun = true → (e₀.at p).st ≠ .starting
  | _ => True

theorem giveOrder_drift (T : Tables) {e₀ e : Engine} (o : Order) (h₀ : Drift z e₀ e) (h : o.sparesCalm z e₀) :
    Drift z e₀ (giveOrder T e o) := by
  unfold giveOrder
  split
  · rename_i p
    by_cases hs : (e.at p).st = .online
    · exact h₀.touches (demoteOrder_touches T p e) (h₀.not_calm (Machine.not_calm (Or.inr hs)))
    · unfold demoteOrder; simp only [hs, if_false]; exact h₀
  · rename_i p
    by_cases hs : (e.at p).st = .ready
    · exact h₀.touches (promoteOrder_touches T p e) (h₀.not_calm (Machine.not_calm (Or.inl hs)))
    · unfold promoteOrder; simp only [hs, if_false]; exact h₀
  · rename_i p
    by_cases hs : (e.at p).st = .off
    · refine h₀.touches (startOrder_touches T p e) ?_
      cases hc : (e₀.at p).calm z e₀.res.mayRun
      · rfl
      · exact absurd (((h₀.pos p).still hc).st.symm.trans hs) (h hc)
    · unfold startOrder; simp only [hs, if_false]; exact h₀
  · rename_i p
    by_cases hs : (e.at p).st = .starting ∧ ¬ (e.at p).ctx.any (·.fired)
    · refine h₀.touches (abandonOrder_touches T p e) ?_
      cases hc : (e₀.at p).calm z e₀.res.mayRun
      · rfl
      · exact absurd (((h₀.pos p).still hc).st.symm.trans hs.1) (h hc)
    · unfold abandonOrder; simp only [hs, if_false]; exact h₀
  · rename_i p
    by_cases hs : (e.at p).st = .ready
    · exact h₀.touches (stopOrder_touches T p e) (h₀.not_calm (Machine.not_calm (Or.inl hs)))
    · unfold stopOrder; simp only [hs, if_false]; exact h₀
  · rename_i p
    unfold lingerStart
    split
    · exact h₀
    · split
      · exact h₀.trans (linger_drift _ _ _)
      · exact h₀
  · exact h₀.trans (linger_drift _ _ _)

theorem zero_of_not_mayRun {T : Tables} {r : Resolver} (h : r.mayRun = false) : zeroCondition T r = true := by
  simp only [Resolver.mayRun, Bool.and_eq_false_iff, Bool.not_eq_false'] at h
  simp only [zeroCondition, Bool.or_eq_true, Bool.not_eq_true']
  rcases h with h | h
  · exact Or.inl (Or.inl h)
  · exact Or.inl (Or.inr h)

theorem underZero_eq_run {zero : Bool} {m : Mode} (h : m.underZero zero = .run) : m = .run ∧ zero = false := by
  unfold Mode.underZero at h
  split at h
  · cases h
  · rename_i hn
    refine ⟨h, ?_⟩
    cases zero
    · rfl
    · exact absurd ⟨rfl, h⟩ hn

/-- The orders of an evaluation spare the positions that are calm when it is made. -/
theorem planned_spares {T : Tables} {linger : Option Pos} {e : Engine} {view : Four PState}
    (hz : zeroCondition T e.res = true → z = true) {o : Order} (ho : o ∈ ((staging T linger e).plan view).orders) :
    o.sparesCalm z e := by
  have h := plan_allowed (staging T linger e) view _ ho
  cases o with
  | start p =>
    simp only [Staging.allows, staging, Four.get_make, beq_iff_eq] at h
    obtain ⟨h₁, h₂, h₃⟩ := h
    intro hc hoff
    simp only [Position.calm, hoff, PState.fixed, beq_self_eq_true, Bool.true_and, Bool.false_or, Bool.or_eq_true,
      beq_iff_eq, bne_iff_ne, ne_eq, h₁, not_true, Bool.not_eq_true', Bool.and_eq_true] at hc
    rcases hc with (hc | hc) | hc
    · rcases hc with hc | hc
      · apply h₂
        simp [Mode.underZero, hc]
      · exact hc
    · have hz := zero_of_not_mayRun (T := T) hc
      have := underZero_eq_run (h₃ hz)
      rw [hz] at this
      cases this.2
    · exact absurd hc.1 (by simp)
  | abandon p =>
    simp only [Staging.allows, staging, Four.get_make] at h
    obtain ⟨h₁, h₂⟩ := h
    intro hc hst
    simp only [Position.calm, hst, PState.fixed, h₁, Bool.false_or, beq_self_eq_true, Bool.true_and, Bool.and_eq_true,
      Bool.or_eq_true, beq_iff_eq, Bool.not_eq_true'] at hc
    rcases hc with hc | hc
    · exact absurd hc.1 (by simp)
    · apply h₂
      have : zeroCondition T e.res = false := by
        cases hzz : zeroCondition T e.res
        · rfl
        · rw [hz hzz] at hc
          cases hc.2
      simp [Mode.underZero, hc.1, this]
  | _ => trivial

theorem giveOrders_drift (T : Tables) {e₀ : Engine} (list : List Order) (h : ∀ o ∈ list, o.sparesCalm z e₀) {e : Engine}
    (he : Drift z e₀ e) : Drift z e₀ (list.foldl (giveOrder T) e) := by
  induction list generalizing e with
  | nil => exact he
  | cons o rest ih =>
    exact ih (fun o ho => h o (List.mem_cons_of_mem _ ho)) (giveOrder_drift T o he (h o (by simp)))

/-! ## Evaluations and rounds -/

theorem report_drift (force result : Bool) (e : Engine) : Drift z e (report force result e) := by
  unfold report
  split
  · exact ⟨rfl, rfl, ⟨rfl, rfl, rfl, rfl, rfl, rfl, rfl⟩, fun _ => .refl _ _ _⟩
  · exact .refl _

theorem evaluate_drift (T : Tables) (linger : Option Pos) (force : Bool) (changed : List Pos) (e : Engine)
    (hz : zeroCondition T e.res = true → z = true) : Drift z e (evaluate T linger force changed e).1 := by
  unfold evaluate
  simp only
  have h₁ := giveOrders_drift (z := z) T ((staging T linger e).plan (.make fun p => (e.at p).st)).orders
    (fun o ho => planned_spares hz ho) (.refl e)
  generalize ((staging T linger e).plan (.make fun p => (e.at p).st)).orders.foldl (giveOrder T) e = e₁ at h₁ ⊢
  have h₂ := h₁.trans (actOnTargets_drift T changed e₁)
  generalize actOnTargets T changed e₁ = e₂ at h₂ ⊢
  have h₃ : ∀ b, Drift z e { e₂ with short := b } := fun b => h₂.trans ⟨rfl, rfl, .refl _, fun _ => .refl _ _ _⟩
  have h₄ := fun b r => (h₃ b).trans (report_drift force r _)
  exact (h₄ _ _).trans ⟨rfl, rfl, rise_kept .., fun _ => .refl _ _ _⟩

/-- What a commit applied at the close of an event can do to the tables and the mark (R178). -/
structure TabDrift (a b : Works) : Prop where
  tab : b.tab = a.tab ∨ (a.commitPending = true ∧ b.tab = { a.tab with t5 := a.tab.t4 })
  pending : b.commitPending = a.commitPending ∨ b.commitPending = false
  kept : a.commitPending = false → b.tab = a.tab ∧ b.commitPending = false

/-- Whether a zero condition (R23) may hold at some evaluation of the close of an event. -/
def Works.mayZero (w : Works) : Bool := zeroCondition w.tab w.eng.res || w.commitPending

/-- What the close of an event does to the engine blocks and the tables. -/
structure Closes (mayZero : Bool) (a b : Works) : Prop extends TabDrift a b where
  eng : Drift mayZero a.eng b.eng

theorem Closes.refl (w : Works) : Closes z w w := ⟨⟨Or.inl rfl, Or.inl rfl, fun h => ⟨rfl, h⟩⟩, .refl _⟩

theorem Closes.trans {a b c : Works} (h₁ : Closes z a b) (h₂ : Closes z b c) : Closes z a c := by
  refine ⟨⟨?_, ?_, fun h => ?_⟩, h₁.eng.trans h₂.eng⟩
  · rcases h₁.tab with h | ⟨hp, h⟩
    · rcases h₂.tab with g | ⟨gp, g⟩
      · exact Or.inl (g.trans h)
      · rcases h₁.pending with k | k
        · exact Or.inr ⟨k ▸ gp, by rw [g, h]⟩
        · rw [k] at gp; cases gp
    · rcases h₂.tab with g | ⟨gp, g⟩
      · exact Or.inr ⟨hp, g.trans h⟩
      · exact Or.inr ⟨hp, by rw [g, h]⟩
  · rcases h₂.pending with g | g
    · rw [g]; exact h₁.pending
    · exact Or.inr g
  · obtain ⟨h₃, h₄⟩ := h₁.kept h
    obtain ⟨h₅, h₆⟩ := h₂.kept h₄
    exact ⟨h₅.trans h₃, h₆⟩

theorem ResKept.zero {a b : Resolver} (h : ResKept a b) (T : Tables) : zeroCondition T b = zeroCondition T a := by
  simp [zeroCondition, h.runPerm, h.latch]

/-- Where no zero condition may hold at the start, none may hold later in the close. -/
theorem Closes.mayZero {a b : Works} (h : Closes z a b) (ha : a.mayZero = true → z = true) : b.mayZero = true → z = true := by
  intro hb
  apply ha
  cases hp : a.commitPending
  · obtain ⟨h₁, h₂⟩ := h.kept hp
    simp only [Works.mayZero, h₁, h₂, h.eng.res.zero, hp] at hb ⊢
    exact hb
  · simp [Works.mayZero, hp]

theorem Closes.ofEngine {w : Works} {e : Engine} (h : Drift z w.eng e) : Closes z w { w with eng := e } :=
  ⟨⟨Or.inl rfl, Or.inl rfl, fun h => ⟨rfl, h⟩⟩, h⟩

theorem afterCommit_kept (r : Resolver) (T : Tables) (now : Nat) (before : Conds) :
    ResKept r (r.afterCommit T now before) := by
  unfold Resolver.afterCommit
  refine ResKept.trans ?_ (rise_kept ..)
  refine ResKept.trans ?_ (settle_kept ..)
  refine ResKept.trans ?_ (rereadDwell_kept ..)
  exact ⟨rfl, rfl, rfl, rfl, rfl, rfl, rfl⟩

theorem applyCommit_closes (w : Works) (h : w.commitPending = true) : Closes z w (applyCommit w) :=
  ⟨⟨Or.inr ⟨h, rfl⟩, Or.inr rfl, fun h' => by simp [h] at h'⟩, rfl, rfl, afterCommit_kept .., fun _ => .refl _ _ _⟩

theorem handshakes_closes (w : Works) : Closes z w (handshakes w) := .ofEngine (drift_eachPos fun _ _ => handshake_drift ..)

theorem commitWhenDue_closes (start : Engine) (w : Works) : Closes z w (commitWhenDue start w) := by
  unfold commitWhenDue
  split
  · rename_i h
    simp only [commitDue, Bool.and_eq_true] at h
    exact applyCommit_closes _ h.1.1
  · exact .refl _

theorem beforeTargets_drift (T : Tables) (linger : Option Pos) (turned : Bool) (e : Engine) :
    Drift z e (beforeTargets T linger turned e) := by
  unfold beforeTargets
  refine Drift.trans ?_ (stopLinger_drift _ _)
  split
  · exact restepAll_drift _ _
  · exact .refl _

theorem closeRounds_closes (start : Engine) (fuel : Nat) (ref : Works) (linger : Option Pos) (commit : Bool) (w : Works)
    (hz : w.mayZero = true → z = true) : Closes z w (closeRounds start fuel ref linger commit w) := by
  induction fuel generalizing ref linger commit w with
  | zero => exact .refl _
  | succ n ih =>
    unfold closeRounds
    simp only
    have h : Closes z w (commitWhenDue start (handshakes w)) := (handshakes_closes w).trans (commitWhenDue_closes start _)
    have hz := h.mayZero hz
    generalize commitWhenDue start (handshakes w) = w' at h hz ⊢
    generalize (if linger.isSome = true then linger else zeroLinger w'.eng) = linger'
    have g : ∀ l t, Drift z w'.eng (writeSlots w'.tab (beforeTargets w'.tab l t w'.eng)) := fun l t =>
      (beforeTargets_drift w'.tab l t w'.eng).trans (writeSlots_drift w'.tab _)
    split
    · have k := fun l t f c => Closes.ofEngine ((g l t).trans (evaluate_drift w'.tab l f c
        (writeSlots w'.tab (beforeTargets w'.tab l t w'.eng)) fun he => hz (by
          rw [(g l t).res.zero] at he
          simp [Works.mayZero, he])))
      exact (h.trans (k _ _ _ _)).trans (ih _ _ _ _ ((k _ _ _ _).mayZero hz))
    · split
      · exact h.trans (.ofEngine (g _ _))
      · have k := fun l t c => Closes.ofEngine ((g l t).trans (actOnTargets_drift w'.tab c _))
        exact (h.trans (k _ _ _)).trans (ih _ _ _ _ ((k _ _ _).mayZero hz))

/-- What the close of an event does (R21, R178). -/
theorem closeEventWith_closes (linger : Option Pos) (commit : Bool) (start w : Works) :
    Closes w.mayZero w (closeEventWith linger commit start w) := by
  unfold closeEventWith
  refine (closeRounds_closes start.eng closeFuel start linger commit w id).trans ?_
  exact .ofEngine (drift_eachPos fun p e => refreshDrive_drift _ _ _ _)

theorem closeEvent_closes (start w : Works) : Closes w.mayZero w (closeEvent start w) := closeEventWith_closes ..

/-! ## The unprompted close -/

theorem Engine.eachPos_id {e : Engine} {f : Pos → Engine → Engine} (h : ∀ p, f p e = e) : e.eachPos f = e := by
  unfold Engine.eachPos
  rw [h, h, h, h]

/-- Where nothing prompts the Planner and no handshake, commit, linger timer of 0 or target waits, the close of an event
brings the DRIVE content up to date and does nothing else. -/
theorem closeEvent_unprompted {start w : Works} (hs : ∀ p, handshake w.tab p w.eng = w.eng)
    (hc : commitDue start.eng w = false) (hp : prompted start w = false) (hl : zeroLinger w.eng = none)
    (ht : ∀ p, slotStale w.tab w.eng p = false) :
    closeEvent start w = { w with eng := w.eng.eachPos (refreshDrive w.tab start.eng) } := by
  have h₁ : handshakes w = w := by
    unfold handshakes
    rw [Engine.eachPos_id hs]
  have h₂ : commitWhenDue start.eng w = w := by simp [commitWhenDue, hc]
  have hr : (start.eng.res.resolved != w.eng.res.resolved) = false := by
    simp only [prompted, Bool.or_eq_false_iff] at hp
    exact hp.1.1.1.1.1
  have hw : ∀ p, writeSlot w.tab p w.eng = w.eng := by
    intro p
    unfold writeSlot
    simp only
    split
    · rename_i hst
      split
      · rfl
      · rename_i t hq
        have := ht p
        simp only [slotStale, hst, beq_self_eq_true, hq, Option.isSome_some, Bool.true_and, bne_eq_false_iff_eq] at this
        rw [← this]
        exact Engine.put_at ..
    · rfl
  have h₃ : writeSlots w.tab w.eng = w.eng := Engine.eachPos_id hw
  unfold closeEvent closeEventWith closeRounds
  simp [closeFuel, h₁, h₂, hc, hl, hr, hp, beforeTargets, stopLinger, h₃, ht]

end Sys2Proof.Machine
end

