-- ==== Sys2Proof/Laws/Mgmt.lean ====
section
/-! SUPPORT. What a management request and a dispatched frame do: one lemma for each way they can go. -/

namespace Sys2Proof.Machine

@[simp] theorem serveUp_address (y : Relay) : y.serveUp.address = y.address := by
  unfold Relay.serveUp
  split
  · split <;> try rfl
    split <;> rfl
  · rfl

@[simp] theorem queueLocal_address (y : Relay) (f : Frame) : (y.queueLocal f).address = y.address :=
  serveUp_address _

@[simp] theorem serveDown_address (y : Relay) : y.serveDown.address = y.address := by
  unfold Relay.serveDown
  split <;> rfl

@[simp] theorem passDown_address (y : Relay) (f : Frame) : (y.passDown f).address = y.address := by
  unfold Relay.passDown
  split
  · rfl
  · split
    · exact serveDown_address _
    · rfl

/-- With carrier on UP what arrives there has its effect. -/
theorem fromUp_heard {b : Block} (h : b.relay.upCarrier = true) (f : Block → Block) : Block.fromUp f b = f b := by
  simp [Block.fromUp, h]

/-- Without carrier on UP nothing arrives there (R155). -/
theorem fromUp_unheard {b : Block} (h : b.relay.upCarrier = false) (f : Block → Block) : Block.fromUp f b = b := by
  simp [Block.fromUp, h]

/-- A request that runs: its effect, and its reply queued before the frame is passed (R158, R170). -/
theorem operation_ran {op : Byte} {r : MgmtReq} {s : State} (h : Ran op r s) (run : Block → Block × Option Reply)
    (hrel : (run s.block).1.relay = s.block.relay) :
    operation op r run s.block = { (run s.block).1 with relay := match (run s.block).2 with
      | none => s.relay.forward op r
      | some rp => s.relay.answered op r rp } := by
  obtain ⟨⟨⟨_, hu⟩, hok, ha⟩, hroom⟩ := h
  simp only [operation, mgmtFrameTaken, fromUp_heard hu, hok, ha, hroom, if_true]
  rcases hr : run s.block with ⟨b, rp⟩
  rw [hr] at hrel
  simp only at hrel
  cases rp <;> by_cases e : r.target.toNat = s.block.relay.address <;>
    simp [queueReply, Block.onRelay, Relay.answered, Relay.forward, State.relay, hrel, e]
  rw [← hrel]

/-- A request that finds no room for its reply is counted and passed on (R170). -/
theorem operation_noRoom {op : Byte} {r : MgmtReq} {s : State} (h : Taken op r s) (hroom : s.relay.hasRoom = false)
    (run : Block → Block × Option Reply) :
    operation op r run s.block = { s.block with
      relay := ({ s.relay with mgmtDrops := saturate s.relay.mgmtDrops }).forward op r } := by
  obtain ⟨⟨_, hu⟩, hok, ha⟩ := h
  simp only [operation, mgmtFrameTaken, fromUp_heard hu, hok, ha, hroom, if_true, Block.onRelay, Relay.forward, State.relay]
  by_cases e : r.target.toNat = s.block.relay.address <;> simp [e]

/-- A request for another unit is passed and not taken (R158). -/
theorem request_passed {op : Byte} {r : MgmtReq} {b : Block} (hu : b.relay.upCarrier = true) (hok : (mgmtFrame op r).ok = true)
    (ha : b.relay.addressed r.target = false) (take : Block → Block) :
    mgmtFrameTaken op r take b = b.onRelay (·.passDown (mgmtFrame op r)) := by
  have hne : r.target.toNat ≠ b.relay.address := fun h => by simp [Relay.addressed, h] at ha
  simp [mgmtFrameTaken, fromUp_heard hu, hok, ha, hne]

/-- A request whose frame fails its checks is counted (R156). -/
theorem request_bad {op : Byte} {r : MgmtReq} {b : Block} (hu : b.relay.upCarrier = true)
    (hok : (mgmtFrame op r).ok = false) (take : Block → Block) :
    mgmtFrameTaken op r take b = b.onRelay (·.countBad .up) := by
  simp [mgmtFrameTaken, fromUp_heard hu, hok]

/-- A frame of the Dispatch Table's kinds that is taken, then passed or not (R160, R161). -/
theorem dispatched_taken {f : Frame} {kind : DispKind} {group : Byte} {mine : Bool} {b : Block}
    (hu : b.relay.upCarrier = true) (hok : f.ok = true) (h : ((dispatch b.works.tab kind group.toNat).acts && mine) = true) (take : Block → Block) :
    dispatched f kind group mine take b =
      (take b).onRelay fun y => y.passIf (dispatch b.works.tab kind group.toNat) f := by
  simp only [dispatched, fromUp_heard hu, hok, h, if_true, Relay.passIf]
  cases (dispatch b.works.tab kind group.toNat).passes <;> rfl

/-- A frame of the Dispatch Table's kinds that is not taken (R160, R161). -/
theorem dispatched_notTaken {f : Frame} {kind : DispKind} {group : Byte} {mine : Bool} {b : Block}
    (hu : b.relay.upCarrier = true) (hok : f.ok = true) (h : ((dispatch b.works.tab kind group.toNat).acts && mine) = false) (take : Block → Block) :
    dispatched f kind group mine take b = b.onRelay fun y => y.passIf (dispatch b.works.tab kind group.toNat) f := by
  simp only [dispatched, fromUp_heard hu, hok, h, if_true, Relay.passIf]
  cases (dispatch b.works.tab kind group.toNat).passes <;> rfl

/-- A frame that fails its checks is counted (R156). -/
theorem dispatched_bad {f : Frame} {kind : DispKind} {group : Byte} {mine : Bool} {b : Block}
    (hu : b.relay.upCarrier = true) (hok : f.ok = false) (take : Block → Block) : dispatched f kind group mine take b = b.onRelay (·.countBad .up) := by
  simp [dispatched, fromUp_heard hu, hok]

/-! ## The meters of one position after another (R64, R65) -/

theorem tickAt_other {p q : Pos} (h : q ≠ p) (b : Block) :
    (tickAt p b).works.eng.at q = b.works.eng.at q ∧ (tickAt p b).nv.meters.get q = b.nv.meters.get q := by
  unfold tickAt rolloverAt
  simp only
  split
  · split
    · split <;> constructor <;> cases p <;> cases q <;> first | rfl | exact absurd rfl h
    · constructor <;> cases p <;> cases q <;> first | rfl | exact absurd rfl h
  · exact ⟨rfl, rfl⟩

theorem applyPendingAt_other {p q : Pos} (h : q ≠ p) (b : Block) :
    (applyPendingAt p b).works.eng.at q = b.works.eng.at q ∧
      (applyPendingAt p b).nv.meters.get q = b.nv.meters.get q := by
  unfold applyPendingAt
  simp only
  split
  · constructor <;> cases p <;> cases q <;> first | rfl | exact absurd rfl h
  · exact ⟨rfl, rfl⟩

end Sys2Proof.Machine
end

