-- ==== Sys2Proof/Laws/Notch.lean ====
section
/-! SUPPORT. The resolved notch through the close of an event. -/

namespace Sys2Proof.Machine

/-- The resolved notch stands at 0 under a holding condition, and never above the demand notch (R10, R12). -/
structure ResOk (T : Tables) (r : Resolver) : Prop where
  held : (holdingConds T r).any = true → r.resolved = 0
  demand : r.resolved ≤ r.demand

/-- A holding condition of the Resolver's own is in force, whatever the tables hold. -/
def Resolver.blocked (r : Resolver) : Bool := r.link == .lost || r.latch || !r.runPerm

/-- The resolved notch rests at 0 with both timers stopped (R10). -/
structure RestsAtIdle (r : Resolver) : Prop where
  resolved : r.resolved = 0
  dwell : r.dwell = .stopped
  achieve : r.achieve = .stopped

theorem blocked_conds {T : Tables} {r : Resolver} (h : r.blocked = true) : (holdingConds T r).any = true := by
  simp only [Resolver.blocked, Bool.or_eq_true] at h
  simp only [Conds.any, holdingConds, Bool.or_eq_true]
  exact Or.inl h

theorem ResKept.blocked {a b : Resolver} (h : ResKept a b) : b.blocked = a.blocked := by
  simp [Resolver.blocked, h.link, h.latch, h.runPerm]

/-- Judging the holding conditions leaves a blocked Resolver at rest. -/
theorem settle_rests {r : Resolver} (T : Tables) (now : Nat) (before : Conds) (hb : r.blocked = true) (h : RestsAtIdle r) :
    RestsAtIdle (r.settle T now before) := by
  have ha := blocked_conds (T := T) hb
  unfold Resolver.settle
  simp only
  split
  · exact ⟨rfl, rfl, rfl⟩
  · split
    · rename_i he
      simp [Conds.ended, ha] at he
    · simpa [ha] using h

/-- The onset of a holding condition brings the Resolver to rest (R10). -/
theorem settle_onset {r : Resolver} (T : Tables) (now : Nat) (before : Conds)
    (h : before.onset (holdingConds T r) = true) : RestsAtIdle (r.settle T now before) := by
  unfold Resolver.settle
  simp only [h, if_true]
  exact ⟨rfl, rfl, rfl⟩

/-- How the close of an event moves the resolved notch. -/
structure NotchMoves (a b : Works) : Prop where
  kept : ResKept a.eng.res b.eng.res
  rises : a.commitPending = false → a.eng.res.resolved ≤ b.eng.res.resolved ∧
    b.eng.res.resolved ≤ max a.eng.res.resolved a.eng.res.demand
  ok : ResOk a.tab a.eng.res → ResOk b.tab b.eng.res
  pending : a.commitPending = false → b.commitPending = false
  rests : a.eng.res.blocked = true → RestsAtIdle a.eng.res → RestsAtIdle b.eng.res

theorem NotchMoves.refl (w : Works) : NotchMoves w w := ⟨.refl _, fun _ => by omega, id, id, fun _ h => h⟩

theorem NotchMoves.trans {a b c : Works} (h₁ : NotchMoves a b) (h₂ : NotchMoves b c) : NotchMoves a c := by
  refine ⟨h₁.kept.trans h₂.kept, fun h => ?_, fun h => h₂.ok (h₁.ok h), fun h => h₂.pending (h₁.pending h),
    fun hb h => h₂.rests (h₁.kept.blocked.trans hb) (h₁.rests hb h)⟩
  have := h₁.rises h
  have := h₂.rises (h₁.pending h)
  have := h₁.kept.demand
  omega

theorem notchMoves_same {w : Works} {e : Engine} (h : e.res = w.eng.res) : NotchMoves w { w with eng := e } := by
  refine ⟨?_, ?_, ?_, id, ?_⟩
  · simp only [h]; exact .refl _
  · intro _; simp only [h]; omega
  · intro k; simp only [h]; exact k
  · intro _ k; simp only [h]; exact k

theorem rise_ok {T : Tables} {r : Resolver} (now : Nat) (h : ResOk T r) : ResOk T (r.rise T now) := by
  have hk := rise_kept r T now
  refine ⟨fun hc => ?_, ?_⟩
  · rw [hk.conds] at hc
    rw [rise_held _ _ _ hc]
    exact h.held hc
  · have := rise_resolved r T now
    have := h.demand
    rw [hk.demand]
    omega

theorem commit_ok {w : Works} (h : ResOk w.tab w.eng.res) : ResOk (applyCommit w).tab (applyCommit w).eng.res := by
  unfold applyCommit Resolver.afterCommit
  simp only
  have hb : (holdingConds w.tab w.eng.res).any = true →
      (({ w.eng.res with achieved := false } : Resolver).rereadDwell { w.tab with t5 := w.tab.t4 } w.eng.now).resolved = 0 := by
    intro hc
    rw [rereadDwell_resolved]
    exact h.held hc
  have hk := settle_kept (({ w.eng.res with achieved := false } : Resolver).rereadDwell { w.tab with t5 := w.tab.t4 } w.eng.now)
    { w.tab with t5 := w.tab.t4 } w.eng.now (holdingConds w.tab w.eng.res)
  refine rise_ok _ ⟨fun hc => ?_, ?_⟩
  · rw [hk.conds] at hc
    exact settle_held _ _ _ _ hb hc
  · have := settle_demand _ { w.tab with t5 := w.tab.t4 } w.eng.now _ hb
    rw [hk.demand]
    exact this

theorem commit_rests {w : Works} (hb : w.eng.res.blocked = true) (h : RestsAtIdle w.eng.res) :
    RestsAtIdle (applyCommit w).eng.res := by
  unfold applyCommit Resolver.afterCommit
  simp only
  have hk := rereadDwell_kept { w.eng.res with achieved := false } { w.tab with t5 := w.tab.t4 } w.eng.now
  rw [rise_held _ _ _ (blocked_conds ((settle_kept ..).blocked.trans (hk.blocked.trans hb)))]
  refine settle_rests _ _ _ (hk.blocked.trans hb) ⟨?_, ?_, ?_⟩
  · rw [rereadDwell_resolved]; exact h.resolved
  · unfold Resolver.rereadDwell
    split <;> simp [h.dwell, Watch.compare]
  · unfold Resolver.rereadDwell
    split <;> simp [h.achieve]

theorem giveOrder_res (T : Tables) (e : Engine) (o : Order) : (giveOrder T e o).res = e.res ∧ (giveOrder T e o).now = e.now := by
  cases o with
  | demote p => exact ⟨(demoteOrder_touches T p e).res, (demoteOrder_touches T p e).now⟩
  | promote p => exact ⟨(promoteOrder_touches T p e).res, (promoteOrder_touches T p e).now⟩
  | start p => exact ⟨(startOrder_touches T p e).res, (startOrder_touches T p e).now⟩
  | abandon p => exact ⟨(abandonOrder_touches T p e).res, (abandonOrder_touches T p e).now⟩
  | stop p => exact ⟨(stopOrder_touches T p e).res, (stopOrder_touches T p e).now⟩
  | lingerStart p => exact ⟨(lingerStart_touches T p e).res, (lingerStart_touches T p e).now⟩
  | lingerStop p => exact ⟨rfl, rfl⟩

theorem giveOrders_res (T : Tables) (list : List Order) (e : Engine) :
    (list.foldl (giveOrder T) e).res = e.res ∧ (list.foldl (giveOrder T) e).now = e.now := by
  induction list generalizing e with
  | nil => exact ⟨rfl, rfl⟩
  | cons o rest ih =>
    have := giveOrder_res T e o
    have h := ih (giveOrder T e o)
    exact ⟨h.1.trans this.1, h.2.trans this.2⟩

theorem actOnTargets_res (T : Tables) (list : List Pos) (e : Engine) :
    (actOnTargets T list e).res = e.res ∧ (actOnTargets T list e).now = e.now := by
  unfold actOnTargets
  induction list generalizing e with
  | nil => exact ⟨rfl, rfl⟩
  | cons p rest ih =>
    have h := ih (if (e.at p).st = .online then actOnTarget T p e else e)
    have h' : (if (e.at p).st = .online then actOnTarget T p e else e).res = e.res ∧
        (if (e.at p).st = .online then actOnTarget T p e else e).now = e.now := by
      split
      · exact ⟨(actOnTarget_touches T p e).res, (actOnTarget_touches T p e).now⟩
      · exact ⟨rfl, rfl⟩
    exact ⟨h.1.trans h'.1, h.2.trans h'.2⟩

theorem report_res (force result : Bool) (e : Engine) :
    (∃ a, (report force result e).res = { e.res with achieved := a }) ∧ (report force result e).now = e.now := by
  unfold report
  split
  · exact ⟨⟨_, rfl⟩, rfl⟩
  · exact ⟨⟨e.res.achieved, rfl⟩, rfl⟩

/-- An evaluation changes the Resolver by its report and one rise. -/
theorem evaluate_res (T : Tables) (linger : Option Pos) (force : Bool) (changed : List Pos) (e : Engine) :
    ∃ a, (evaluate T linger force changed e).1.res = ({ e.res with achieved := a } : Resolver).rise T e.now := by
  unfold evaluate
  simp only
  have h₁ := giveOrders_res T ((staging T linger e).plan (.make fun p => (e.at p).st)).orders e
  generalize ((staging T linger e).plan (.make fun p => (e.at p).st)).orders.foldl (giveOrder T) e = e₁ at h₁ ⊢
  have h₂ := actOnTargets_res T changed e₁
  generalize actOnTargets T changed e₁ = e₂ at h₂ ⊢
  have key : ∀ short r, ∃ a, (report force r { e₂ with short := short }).res.rise T
      (report force r { e₂ with short := short }).now = ({ e.res with achieved := a } : Resolver).rise T e.now := by
    intro short r
    obtain ⟨⟨a, ha⟩, hn⟩ := report_res force r { e₂ with short := short }
    refine ⟨a, ?_⟩
    rw [ha, hn]
    simp only [h₂.1, h₂.2, h₁.1, h₁.2]
  exact key _ _

theorem evaluate_notch (w : Works) (linger : Option Pos) (force : Bool) (changed : List Pos) (e : Engine)
    (h : e.res = w.eng.res) : NotchMoves w { w with eng := (evaluate w.tab linger force changed e).1 } := by
  obtain ⟨a, ha⟩ := evaluate_res w.tab linger force changed e
  rw [h] at ha
  refine ⟨?_, fun _ => ?_, fun hk => ?_, id, fun hb hr => ?_⟩
  · simp only [ha]
    exact ResKept.trans (b := { w.eng.res with achieved := a }) ⟨rfl, rfl, rfl, rfl, rfl, rfl, rfl⟩ (rise_kept ..)
  · simp only [ha]
    exact rise_resolved { w.eng.res with achieved := a } w.tab e.now
  · simp only [ha]
    exact rise_ok (r := { w.eng.res with achieved := a }) _ ⟨hk.held, hk.demand⟩
  · simp only [ha]
    rw [rise_held { w.eng.res with achieved := a } _ _ (blocked_conds hb)]
    exact ⟨hr.resolved, hr.dwell, hr.achieve⟩

theorem eachPos_res {e : Engine} {f : Pos → Engine → Engine} (h : ∀ p e, (f p e).res = e.res) : (e.eachPos f).res = e.res := by
  unfold Engine.eachPos
  rw [h, h, h, h]

theorem handshake_res (T : Tables) (p : Pos) (e : Engine) : (handshake T p e).res = e.res := by
  unfold handshake
  simp only
  split
  · rfl
  · split <;> rfl

theorem refreshDrive_res (T : Tables) (start : Engine) (p : Pos) (e : Engine) : (refreshDrive T start p e).res = e.res := by
  obtain ⟨l, h, _⟩ := refreshDrive_linkOnly T start p e
  rw [h]
  rfl

theorem restepAll_res (T : Tables) (e : Engine) : (restepAll T e).res = e.res := by
  unfold restepAll
  split
  · rfl
  · exact eachPos_res fun _ _ => rfl

theorem beforeTargets_res (T : Tables) (linger : Option Pos) (turned : Bool) (e : Engine) :
    (beforeTargets T linger turned e).res = e.res := by
  unfold beforeTargets
  have h : (if turned = true then restepAll T e else e).res = e.res := by
    split
    · exact restepAll_res ..
    · rfl
  rw [← h]
  unfold stopLinger
  split <;> rfl

theorem writeSlots_res (T : Tables) (e : Engine) : (writeSlots T e).res = e.res :=
  eachPos_res fun p e => (writeSlot_touches T p e).res

theorem closeRounds_notch (start : Engine) (fuel : Nat) (ref : Works) (linger : Option Pos) (commit : Bool) (w : Works) :
    NotchMoves w (closeRounds start fuel ref linger commit w) := by
  induction fuel generalizing ref linger commit w with
  | zero => exact .refl _
  | succ n ih =>
    unfold closeRounds
    simp only
    have h₁ : NotchMoves w (handshakes w) := notchMoves_same (eachPos_res fun p e => handshake_res _ _ _)
    have h₂ : NotchMoves (handshakes w) (commitWhenDue start (handshakes w)) := by
      unfold commitWhenDue
      split
      · rename_i h
        simp only [commitDue, Bool.and_eq_true] at h
        refine ⟨afterCommit_kept .., fun h' => ?_, commit_ok, fun _ => rfl, commit_rests⟩
        rw [h.1.1] at h'
        cases h'
      · exact .refl _
    have h := h₁.trans h₂
    generalize commitWhenDue start (handshakes w) = w' at h ⊢
    generalize (if linger.isSome = true then linger else zeroLinger w'.eng) = linger'
    have g : ∀ l t, (writeSlots w'.tab (beforeTargets w'.tab l t w'.eng)).res = w'.eng.res := fun l t =>
      (writeSlots_res ..).trans (beforeTargets_res ..)
    split
    · exact (h.trans (evaluate_notch w' _ _ _ _ (g _ _))).trans (ih ..)
    · split
      · exact h.trans (notchMoves_same (g _ _))
      · exact (h.trans (notchMoves_same ((actOnTargets_res ..).1.trans (g _ _)))).trans (ih ..)

/-- How the close of an event moves the resolved notch. -/
theorem closeEventWith_notch (linger : Option Pos) (commit : Bool) (start w : Works) :
    NotchMoves w (closeEventWith linger commit start w) := by
  unfold closeEventWith
  refine (closeRounds_notch start.eng closeFuel start linger commit w).trans ?_
  exact notchMoves_same (eachPos_res fun p e => refreshDrive_res _ _ _ _)

theorem closeEvent_notch (start w : Works) : NotchMoves w (closeEvent start w) := closeEventWith_notch ..

end Sys2Proof.Machine
end

