-- ==== Sys2Proof/Laws/Relay.lean ====
section
/-! SUPPORT. Every operation of the Line Relay keeps its queues, address and counters in bounds and leaves nothing waiting
behind an idle transmitter. -/

namespace Sys2Proof.Machine

theorem saturate_le (n : Nat) : saturate n ≤ 65535 := by unfold saturate; omega

/-- In bounds and serving. -/
structure RelayOk (r : Relay) : Prop where
  bounded : r.Bounded
  serving : r.Serving

theorem countBad_bounded {r : Relay} (port : Port) (h : r.Bounded) : (r.countBad port).Bounded := by
  cases port
  · exact ⟨h.down, h.up, h.localQ, h.address, saturate_le _, h.badDown, h.relayDrops, h.replyDrops, h.mgmtDrops⟩
  · exact ⟨h.down, h.up, h.localQ, h.address, h.badUp, saturate_le _, h.relayDrops, h.replyDrops, h.mgmtDrops⟩

theorem countBad_serving {r : Relay} (port : Port) (h : r.Serving) : (r.countBad port).Serving := by
  cases port <;> exact ⟨h.down, h.noDown, h.up, h.noUp⟩

theorem serveDown_bounded {r : Relay} (h : r.Bounded) : r.serveDown.Bounded := by
  unfold Relay.serveDown
  split
  · rename_i hq
    have := h.down
    rw [hq] at this
    exact ⟨Nat.le_of_succ_le this, h.up, h.localQ, h.address, h.badUp, h.badDown, h.relayDrops,
      h.replyDrops, h.mgmtDrops⟩
  · exact h

theorem serveDown_serving {r : Relay} (hn : r.downCarrier = false → r.downTx = none ∧ r.downQ = [])
    (hu : r.upCarrier = true → r.upTx = none → r.upQ = [] ∧ r.localQ = []) (hv : r.upCarrier = false → r.upTx = none) :
    r.serveDown.Serving := by
  unfold Relay.serveDown
  split
  · rename_i hc _ _
    exact ⟨by simp, by simp [hc], hu, hv⟩
  · rename_i h
    refine ⟨fun hc ht => ?_, hn, hu, hv⟩
    cases hq : r.downQ with
    | nil => rfl
    | cons f rest => exact absurd hq (h f rest hc ht)

theorem passDown_bounded {r : Relay} (f : Frame) (h : r.Bounded) : (r.passDown f).Bounded := by
  unfold Relay.passDown
  split
  · exact h
  · split
    · rename_i hl
      exact serveDown_bounded ⟨by simp only [List.length_append, List.length_singleton]; omega, h.up, h.localQ, h.address,
        h.badUp, h.badDown, h.relayDrops, h.replyDrops, h.mgmtDrops⟩
    · exact ⟨h.down, h.up, h.localQ, h.address, h.badUp, h.badDown, saturate_le _, h.replyDrops, h.mgmtDrops⟩

theorem passDown_serving {r : Relay} (f : Frame) (h : r.Serving) : (r.passDown f).Serving := by
  unfold Relay.passDown
  split
  · exact h
  · rename_i hc
    simp only [Bool.not_eq_eq_eq_not] at hc
    split
    · exact serveDown_serving (by simp_all) h.up h.noUp
    · exact ⟨h.down, h.noDown, h.up, h.noUp⟩

theorem serveUp_bounded {r : Relay} (h : r.Bounded) : r.serveUp.Bounded := by
  unfold Relay.serveUp
  split
  · rename_i hc
    have hu := h.up
    have hl := h.localQ
    simp only [Relay.upCount, Relay.localCount, Relay.placeKept, hc.2] at hu hl
    have relay : ∀ f rest, r.upQ = f :: rest → (r.beginRelay f rest).Bounded := fun f rest hq => by
      rw [hq] at hu
      simp only [List.length_cons] at hu
      refine ⟨h.down, ?_, ?_, h.address, h.badUp, h.badDown, h.relayDrops, h.replyDrops, h.mgmtDrops⟩
      · simp only [Relay.upCount, Relay.placeKept, Relay.beginRelay, if_true]; omega
      · simp [Relay.localCount, Relay.placeKept, Relay.beginRelay]; omega
    have loc : ∀ f rest, r.localQ = f :: rest → (r.beginLocal f rest).Bounded := fun f rest hq => by
      rw [hq] at hl
      simp only [List.length_cons] at hl
      refine ⟨h.down, ?_, ?_, h.address, h.badUp, h.badDown, h.relayDrops, h.replyDrops, h.mgmtDrops⟩
      · simp [Relay.upCount, Relay.placeKept, Relay.beginLocal]; omega
      · simp only [Relay.localCount, Relay.placeKept, Relay.beginLocal, if_true]; omega
    split
    · exact h
    · exact relay _ _ (by assumption)
    · exact loc _ _ (by assumption)
    · split
      · exact loc _ _ (by assumption)
      · exact relay _ _ (by assumption)
  · exact h

theorem serveUp_serving {r : Relay} (hd : r.downCarrier = true → r.downTx = none → r.downQ = [])
    (hn : r.downCarrier = false → r.downTx = none ∧ r.downQ = []) (hv : r.upCarrier = false → r.upTx = none) :
    r.serveUp.Serving := by
  unfold Relay.serveUp
  split
  · rename_i hc
    split
    · exact ⟨hd, hn, fun _ _ => ⟨by assumption, by assumption⟩, hv⟩
    · exact ⟨hd, hn, by simp [Relay.beginRelay], by simp [Relay.beginRelay, hc.1]⟩
    · exact ⟨hd, hn, by simp [Relay.beginLocal], by simp [Relay.beginLocal, hc.1]⟩
    · split
      · exact ⟨hd, hn, by simp [Relay.beginLocal], by simp [Relay.beginLocal, hc.1]⟩
      · exact ⟨hd, hn, by simp [Relay.beginRelay], by simp [Relay.beginRelay, hc.1]⟩
  · rename_i hc
    exact ⟨hd, hn, fun a b => absurd ⟨a, b⟩ hc, hv⟩

theorem queueUp_ok {r : Relay} (f : Frame) (h : RelayOk r) : RelayOk (r.queueUp f) := by
  obtain ⟨hb, hs⟩ := h
  unfold Relay.queueUp
  split
  · rename_i hl
    refine ⟨serveUp_bounded ⟨hb.down, ?_, hb.localQ, hb.address, hb.badUp, hb.badDown, hb.relayDrops, hb.replyDrops,
      hb.mgmtDrops⟩, serveUp_serving hs.down hs.noDown hs.noUp⟩
    simp only [Relay.upCount, Relay.placeKept, List.length_append, List.length_singleton] at hl ⊢
    omega
  · exact ⟨⟨hb.down, hb.up, hb.localQ, hb.address, hb.badUp, hb.badDown, saturate_le _, hb.replyDrops, hb.mgmtDrops⟩,
      ⟨hs.down, hs.noDown, hs.up, hs.noUp⟩⟩

theorem queueLocal_ok {r : Relay} (f : Frame) (hr : r.hasRoom = true) (h : RelayOk r) : RelayOk (r.queueLocal f) := by
  obtain ⟨hb, hs⟩ := h
  unfold Relay.queueLocal
  refine ⟨serveUp_bounded ⟨hb.down, hb.up, ?_, hb.address, hb.badUp, hb.badDown, hb.relayDrops, hb.replyDrops,
    hb.mgmtDrops⟩, serveUp_serving hs.down hs.noDown hs.noUp⟩
  simp only [Relay.hasRoom, decide_eq_true_eq] at hr
  simp only [Relay.localCount, Relay.placeKept, List.length_append, List.length_singleton] at hr ⊢
  omega

theorem replyDrop_ok {r : Relay} (h : RelayOk r) : RelayOk { r with replyDrops := saturate r.replyDrops } := by
  obtain ⟨hb, hs⟩ := h
  exact ⟨⟨hb.down, hb.up, hb.localQ, hb.address, hb.badUp, hb.badDown, hb.relayDrops, saturate_le _, hb.mgmtDrops⟩,
    ⟨hs.down, hs.noDown, hs.up, hs.noUp⟩⟩

theorem mgmtDrop_ok {r : Relay} (h : RelayOk r) : RelayOk { r with mgmtDrops := saturate r.mgmtDrops } := by
  obtain ⟨hb, hs⟩ := h
  exact ⟨⟨hb.down, hb.up, hb.localQ, hb.address, hb.badUp, hb.badDown, hb.relayDrops, hb.replyDrops, saturate_le _⟩,
    ⟨hs.down, hs.noDown, hs.up, hs.noUp⟩⟩

theorem queueLate_ok {r : Relay} (f : Frame) (h : RelayOk r) : RelayOk (r.queueLate f) := by
  unfold Relay.queueLate
  split
  · exact queueLocal_ok f (by assumption) h
  · exact replyDrop_ok h

theorem countBad_ok {r : Relay} (port : Port) (h : RelayOk r) : RelayOk (r.countBad port) :=
  ⟨countBad_bounded port h.bounded, countBad_serving port h.serving⟩

theorem passDown_ok {r : Relay} (f : Frame) (h : RelayOk r) : RelayOk (r.passDown f) :=
  ⟨passDown_bounded f h.bounded, passDown_serving f h.serving⟩

theorem downLost_ok {r : Relay} (h : RelayOk r) : RelayOk r.downLost := by
  obtain ⟨hb, hs⟩ := h
  exact ⟨⟨Nat.zero_le _, hb.up, hb.localQ, hb.address, hb.badUp, hb.badDown, hb.relayDrops, hb.replyDrops, hb.mgmtDrops⟩,
    ⟨by simp [Relay.downLost], by simp [Relay.downLost], hs.up, hs.noUp⟩⟩

theorem downGained_ok {r : Relay} (h : RelayOk r) : RelayOk r.downGained := by
  obtain ⟨hb, hs⟩ := h
  unfold Relay.downGained
  exact ⟨serveDown_bounded ⟨hb.down, hb.up, hb.localQ, hb.address, hb.badUp, hb.badDown, hb.relayDrops, hb.replyDrops,
    hb.mgmtDrops⟩, serveDown_serving (by simp) hs.up hs.noUp⟩

theorem downEnd_ok {r : Relay} (h : RelayOk r) : RelayOk r.downEnd := by
  obtain ⟨hb, hs⟩ := h
  unfold Relay.downEnd
  exact ⟨serveDown_bounded ⟨hb.down, hb.up, hb.localQ, hb.address, hb.badUp, hb.badDown, hb.relayDrops, hb.replyDrops,
    hb.mgmtDrops⟩, serveDown_serving (fun hc => ⟨rfl, (hs.noDown hc).2⟩) hs.up hs.noUp⟩

theorem upIdle_bounded {r : Relay} (h : r.Bounded) : ({ r with upTx := none } : Relay).Bounded := by
  refine ⟨h.down, ?_, ?_, h.address, h.badUp, h.badDown, h.relayDrops, h.replyDrops, h.mgmtDrops⟩
  · have := h.up
    simp only [Relay.upCount, Relay.placeKept] at this ⊢
    omega
  · have := h.localQ
    simp only [Relay.localCount, Relay.placeKept] at this ⊢
    omega

theorem upEnd_ok {r : Relay} (h : RelayOk r) : RelayOk r.upEnd := by
  obtain ⟨hb, hs⟩ := h
  unfold Relay.upEnd
  exact ⟨serveUp_bounded (upIdle_bounded hb), serveUp_serving hs.down hs.noDown (fun _ => rfl)⟩

theorem upGained_ok {r : Relay} (h : RelayOk r) : RelayOk r.upGained := by
  obtain ⟨hb, hs⟩ := h
  unfold Relay.upGained
  exact ⟨serveUp_bounded ⟨hb.down, hb.up, hb.localQ, hb.address, hb.badUp, hb.badDown, hb.relayDrops, hb.replyDrops,
    hb.mgmtDrops⟩, serveUp_serving hs.down hs.noDown (by simp)⟩

theorem upLost_ok {r : Relay} (h : RelayOk r) : RelayOk r.upLost := by
  obtain ⟨hb, hs⟩ := h
  have hu := hb.up
  have hl := hb.localQ
  unfold Relay.upLost
  split
  · rename_i ht
    simp only [Relay.upCount, Relay.localCount, Relay.placeKept, ht] at hu hl
    exact ⟨⟨hb.down, by simpa [Relay.upCount, Relay.placeKept, ht] using hu,
      by simpa [Relay.localCount, Relay.placeKept, ht] using hl, hb.address, hb.badUp, hb.badDown, hb.relayDrops,
      hb.replyDrops, hb.mgmtDrops⟩, ⟨hs.down, hs.noDown, by simp, fun _ => ht⟩⟩
  · rename_i f ht
    simp [Relay.upCount, Relay.localCount, Relay.placeKept, ht] at hu hl
    exact ⟨⟨hb.down, by simpa [Relay.upCount, Relay.placeKept] using hu,
      by simpa [Relay.localCount, Relay.placeKept] using hl, hb.address, hb.badUp, hb.badDown, hb.relayDrops,
      hb.replyDrops, hb.mgmtDrops⟩, ⟨hs.down, hs.noDown, by simp, by simp⟩⟩
  · rename_i f ht
    simp [Relay.upCount, Relay.localCount, Relay.placeKept, ht] at hu hl
    exact ⟨⟨hb.down, by simpa [Relay.upCount, Relay.placeKept] using hu,
      by simpa [Relay.localCount, Relay.placeKept] using hl, hb.address, hb.badUp, hb.badDown, hb.relayDrops,
      hb.replyDrops, hb.mgmtDrops⟩, ⟨hs.down, hs.noDown, by simp, by simp⟩⟩

theorem enumerate_ok {r : Relay} (n : Byte) (h : RelayOk r) : RelayOk (r.enumerate n) := by
  obtain ⟨hb, hs⟩ := h
  unfold Relay.enumerate
  split
  · rename_i hw
    simp only [within, Bool.and_eq_true, decide_eq_true_eq] at hw
    exact passDown_ok _ ⟨⟨hb.down, hb.up, hb.localQ, hw.2, hb.badUp, hb.badDown, hb.relayDrops, hb.replyDrops,
      hb.mgmtDrops⟩, ⟨hs.down, hs.noDown, hs.up, hs.noUp⟩⟩
  · exact passDown_ok _ ⟨⟨hb.down, hb.up, hb.localQ, Nat.zero_le _, hb.badUp, hb.badDown, hb.relayDrops, hb.replyDrops,
      hb.mgmtDrops⟩, ⟨hs.down, hs.noDown, hs.up, hs.noUp⟩⟩

theorem reset_ok (up down : Bool) : RelayOk (Relay.reset up down) := by
  constructor <;> constructor <;> simp [Relay.reset, Relay.upCount, Relay.localCount, Relay.placeKept]

theorem restart_ok {r : Relay} (h : RelayOk r) : RelayOk r.restart := by
  have hk := reset_ok r.upCarrier r.downCarrier
  exact ⟨⟨hk.bounded.down, hk.bounded.up, hk.bounded.localQ, h.bounded.address, hk.bounded.badUp, hk.bounded.badDown,
    hk.bounded.relayDrops, hk.bounded.replyDrops, hk.bounded.mgmtDrops⟩,
    ⟨hk.serving.down, hk.serving.noDown, hk.serving.up, hk.serving.noUp⟩⟩

end Sys2Proof.Machine
end

