-- ==== Sys2Proof/Laws/Sound.lean ====
section
/-! SUPPORT. The operations on positions keep every position sound: what belongs to a state is empty outside it. -/

namespace Sys2Proof.Machine

theorem sound_put {e : Engine} {p : Pos} {x : Position} (h : e.Sound) (hx : x.Sound) : (e.put p x).Sound := by
  intro q
  rw [Engine.at_put]
  split
  · exact hx
  · exact h q

theorem sound_modify {e : Engine} {p : Pos} {f : Position → Position} (h : e.Sound) (hx : (f (e.at p)).Sound) :
    (e.modify p f).Sound := sound_put h hx

theorem sound_eachPos {e : Engine} {f : Pos → Engine → Engine} (hf : ∀ p e, e.Sound → (f p e).Sound) (h : e.Sound) :
    (e.eachPos f).Sound := hf _ _ (hf _ _ (hf _ _ (hf _ _ h)))

theorem sound_bus {e : Engine} (b : Bus) (h : e.Sound) : ({ e with bus := b } : Engine).Sound := h

/-! ## Changes of one position that keep its state -/

/-- A change of the step context alone. -/
theorem Position.Sound.ctxOnly {x : Position} (h : x.Sound) (f : StepCtx → StepCtx) (m : Bool) :
    ({ x with ctx := x.ctx.map f, stepEvent := m } : Position).Sound :=
  ⟨h.duty, h.load, h.causes, fun hs => by simp [h.ctx hs], h.fault, h.linger, h.stop, h.prot, h.disagree, h.silent⟩

/-- A change of the load record and channel in a loaded state. -/
theorem Position.Sound.loading {x : Position} (h : x.Sound) (hl : x.st.loaded = true) (l : Load) (c : Channel) :
    ({ x with load := l, chan := c } : Position).Sound :=
  ⟨fun hn => by simp [hl] at hn, fun hn => by simp [hl] at hn, h.causes, h.ctx, h.fault, h.linger, h.stop, h.prot,
    h.disagree, h.silent⟩

/-- A slot is filled in a loaded state alone. -/
theorem Position.Sound.loaded_of_slot {x : Position} (h : x.Sound) {t : Target} (hs : x.load.slot = some t) :
    x.st.loaded = true := by
  cases hl : x.st.loaded
  · have := (h.load hl).2.2.1
    rw [hs] at this
    cases this
  · rfl

theorem Position.Sound.loaded_of_phase {x : Position} (h : x.Sound) {ph : Phase} (hs : x.load.phase = some ph) :
    x.st.loaded = true := by
  cases hl : x.st.loaded
  · have := (h.load hl).1
    rw [hs] at this
    cases this
  · rfl

/-! ## The bus -/

theorem giveBus_sound {T : Tables} {p : Pos} {e : Engine} (h : e.Sound) : (giveBus T p e).Sound := by
  unfold giveBus
  simp only
  exact sound_modify (sound_bus _ h) ((h p).ctxOnly _ _)

theorem grantNext_sound {T : Tables} {e : Engine} (h : e.Sound) : (grantNext T e).Sound := by
  unfold grantNext
  split
  · split
    · exact h
    · exact giveBus_sound h
  · exact h

theorem requestBus_sound {T : Tables} {p : Pos} {e : Engine} (h : e.Sound) : (requestBus T p e).Sound := by
  unfold requestBus
  split
  · exact giveBus_sound h
  · exact h

theorem freeBus_sound {T : Tables} {e : Engine} (h : e.Sound) : (freeBus T e).Sound := by
  unfold freeBus
  split
  · exact h
  · split
    · exact grantNext_sound h
    · exact h

theorem leaveBus_sound {T : Tables} {p : Pos} {e : Engine} (h : e.Sound) : (leaveBus T p e).Sound := by
  unfold leaveBus
  simp only
  split
  · exact freeBus_sound h
  · exact h

/-- The bus operations leave every state. -/
theorem BusOnly.st {T : Tables} {a b : Engine} (h : BusOnly T a b) (p : Pos) : (b.at p).st = (a.at p).st := by
  rcases h.all p with hq | hq <;> rw [hq]

/-! ## Entries -/

theorem enter_position_sound {x : Position} (h : x.Sound) (dest : PState) : ((x.leave dest).arrive dest).Sound := by
  constructor
  · intro hn
    have hn : dest.loaded = false := hn
    by_cases hl : x.st.loaded = true
    · simp [Position.arrive, Position.leave, hl, hn, Channel.cut]
    · have := h.duty (by simpa using hl)
      simpa [Position.arrive, Position.leave, hl] using this
  · intro hn
    have hn : dest.loaded = false := hn
    by_cases hl : x.st.loaded = true
    · simp [Position.arrive, Position.leave, hl, hn, Load.cleared]
    · obtain ⟨h₁, h₂, h₃, h₄, h₅, -⟩ := h.load (by simpa using hl)
      simp [Position.arrive, Position.leave, hl, hn, h₁, h₂, h₃, h₄, h₅]
  · intro hn
    have hn : dest.keepsCauses = false := hn
    simp [Position.arrive, hn]
  · intro hn
    have hn : dest ≠ .starting := hn
    by_cases hs : x.st = .starting
    · simp [Position.arrive, Position.leave, hs, hn]
    · simp [Position.arrive, Position.leave, hs, h.ctx hs]
  · intro _
    by_cases hs : x.st = .faulted
    · simp [Position.arrive, Position.leave, hs]
    · simpa [Position.arrive, Position.leave, hs] using h.fault hs
  · intro _
    by_cases hs : x.st = .ready
    · simp [Position.arrive, Position.leave, hs]
    · simp [Position.arrive, Position.leave, hs, h.linger hs]
  · intro _
    by_cases hs : x.st = .stopping
    · simp [Position.arrive, Position.leave, hs]
    · simp [Position.arrive, Position.leave, hs, h.stop hs]
  · intro hn
    have hn : dest.tested = false := hn
    simp [Position.arrive, hn]
  · intro hn
    have hn : dest.tested = false := hn
    simp [Position.arrive, Link.disagreeOnEntry, hn]
  · intro hn
    have hn : dest = .absent ∨ dest = .isolated := hn
    rcases hn with rfl | rfl <;> simp [Position.arrive, Link.onEntry, Link.silence, Link.disagreeOnEntry]

/-- A change of frames and DRIVE content keeps every position sound. -/
theorem linkOnly_sound {p : Pos} {e e' : Engine} (k : LinkOnly p e e') (h : e.Sound) : e'.Sound := by
  obtain ⟨l, rfl, k⟩ := k
  have g := h p
  refine sound_put h ⟨g.duty, g.load, g.causes, g.ctx, g.fault, g.linger, g.stop, g.prot, fun hn => ?_, fun hn => ?_⟩
  · exact ⟨k.disagreeT.trans (g.disagree hn).1, k.disagree.trans (g.disagree hn).2⟩
  · obtain ⟨h₁, h₂, h₃, h₄, h₅, h₆⟩ := g.silent hn
    exact ⟨k.state.trans h₁, k.latest.trans h₂, k.setup.trans h₃, k.sampleT.trans h₄, k.confirmT.trans h₅,
      (k.refreshT (by simp [h₁])).trans h₆⟩

theorem handDrive_sound {T : Tables} {p : Pos} {e : Engine} (h : e.Sound) : (handDrive T p e).Sound :=
  linkOnly_sound (handDrive_linkOnly T p e) h

theorem enter_sound {T : Tables} {p : Pos} {dest : PState} {e : Engine} (h : e.Sound) : (enter T p dest e).Sound := by
  unfold enter
  simp only
  refine handDrive_sound ?_
  split
  · exact sound_modify (leaveBus_sound h) (enter_position_sound (leaveBus_sound h p) dest)
  · exact sound_modify h (enter_position_sound (h p) dest)

theorem enter_st (T : Tables) (p : Pos) (dest : PState) (e : Engine) : ((enter T p dest e).at p).st = dest := by
  unfold enter
  simp [Position.arrive]

theorem faultWith_sound {T : Tables} {p : Pos} {code : FaultCode} {step : Option Nat} {value : Option Int} {e : Engine}
    (h : e.Sound) : (faultWith T p code step value e).Sound := by
  unfold faultWith
  split
  · rename_i hs
    have k := h p
    exact sound_modify h ⟨k.duty, k.load, k.causes, k.ctx, fun hn => absurd hs hn, k.linger, k.stop, k.prot, k.disagree,
      k.silent⟩
  · have k := enter_sound (T := T) (p := p) (dest := .faulted) h p
    have hs := enter_st T p .faulted e
    exact sound_modify (enter_sound h) ⟨k.duty, k.load, k.causes, k.ctx, fun hn => absurd hs hn, k.linger, k.stop, k.prot,
      k.disagree, k.silent⟩

theorem fault_sound {T : Tables} {p : Pos} {code : FaultCode} {value : Option Int} {e : Engine} (h : e.Sound) :
    (fault T p code value e).Sound := faultWith_sound h

theorem faults_sound {T : Tables} {p : Pos} {list : List (FaultCode × Option Int)} {e : Engine} (h : e.Sound) :
    (faults T p list e).Sound := by
  unfold faults
  induction list generalizing e with
  | nil => exact h
  | cons f rest ih => exact ih (fault_sound h)

theorem enterStopping_sound {T : Tables} {p : Pos} {e : Engine} (h : e.Sound) : (enterStopping T p e).Sound := by
  unfold enterStopping
  simp only
  split
  · exact enter_sound (enter_sound h)
  · split
    · exact enter_sound h
    · have k := enter_sound (T := T) (p := p) (dest := .stopping) h p
      have hs := enter_st T p .stopping e
      exact sound_modify (enter_sound h) ⟨k.duty, k.load, k.causes, k.ctx, k.fault, k.linger, fun hn => absurd hs hn,
        k.prot, k.disagree, k.silent⟩

theorem Position.Sound.linked {x : Position} {l : Link} (h : x.Sound) (h₁ : l.disagreeT = x.link.disagreeT)
    (h₂ : l.disagree = x.link.disagree) (h₃ : x.st ≠ .absent ∧ x.st ≠ .isolated) :
    ({ x with link := l } : Position).Sound :=
  ⟨h.duty, h.load, h.causes, h.ctx, h.fault, h.linger, h.stop, h.prot, fun hn => by
    obtain ⟨a, b⟩ := h.disagree hn
    exact ⟨h₁.trans a, h₂.trans b⟩, fun hn => by rcases hn with hn | hn <;> simp_all⟩

theorem beginHandshake_disagree (l : Link) (pr : Profile) (running : Bool) (now : Nat) :
    (l.beginHandshake pr running now).disagreeT = l.disagreeT ∧ (l.beginHandshake pr running now).disagree = l.disagree := by
  unfold Link.beginHandshake
  have h := fun a : Link => sendSetup_kept a pr now
  have g := produce_kept l .clear
  simp only
  split
  · exact ⟨(h _).disagreeT, (h _).disagree⟩
  · exact ⟨(h _).disagreeT.trans g.disagreeT, (h _).disagree.trans g.disagree⟩

theorem handshake_sound {T : Tables} {p : Pos} {e : Engine} (h : e.Sound) : (handshake T p e).Sound := by
  unfold handshake
  simp only
  split
  · exact h
  · split
    · rename_i hc
      obtain ⟨h₁, h₂⟩ := beginHandshake_disagree (e.at p).link ‹Profile› ((e.at p).engineRunning ‹Profile›) e.now
      refine sound_put h ((h p).linked h₁ h₂ ?_)
      rcases (greets_iff.1 hc).2.2 with hs | hs <;> simp [hs]
    · exact h

/-- A change of the held causes and hold timer in a state that keeps them. -/
theorem Position.Sound.causing {x : Position} (h : x.Sound) (hk : x.st.keepsCauses = true) (c : Causes) (t : Timer) :
    ({ x with causes := c, holdT := t } : Position).Sound :=
  ⟨h.duty, h.load, fun hn => by simp [hk] at hn, h.ctx, h.fault, h.linger, h.stop, h.prot, h.disagree, h.silent⟩

theorem enterHeld_sound {T : Tables} {p : Pos} {causes : Causes} {e : Engine} (h : e.Sound) :
    (enterHeld T p causes e).Sound := by
  unfold enterHeld
  have k : ∀ t, ((enter T p .held e).modify p fun x => { x with causes := causes, holdT := t }).Sound := fun t =>
    sound_modify (enter_sound h) ((enter_sound h p).causing (by simp [enter_st, PState.keepsCauses]) _ _)
  simp only
  generalize (if causes.localPanel = true then Timer.stopped else holdTimer T p (enter T p .held e)) = t
  split
  · exact enterStopping_sound (handshake_sound (k _))
  · exact k _

theorem enterReady_sound {T : Tables} {p : Pos} {e : Engine} (h : e.Sound) : (enterReady T p e).Sound := by
  unfold enterReady
  simp only
  split
  · exact fault_sound (enter_sound h)
  · exact enter_sound h

theorem judgeCauses_sound {T : Tables} {p : Pos} {add remove : Causes} {e : Engine} (h : e.Sound) :
    (judgeCauses T p add remove e).Sound := by
  unfold judgeCauses
  simp only
  split
  · rename_i hs
    exact sound_put h ((h p).causing (by simp [hs, PState.keepsCauses]) _ _)
  iterate 3
    split
    · exact h
    · exact enterHeld_sound h
  · rename_i hs
    have k : ∀ c t, (e.put p { e.at p with causes := c, holdT := t }).Sound := fun c t =>
      sound_put h ((h p).causing (by simp [hs, PState.keepsCauses]) _ _)
    split
    · exact enterReady_sound (k _ _)
    · exact k _ _
  · exact h

theorem emergencyAt_sound {T : Tables} {p : Pos} {e : Engine} (h : e.Sound) : (emergencyAt T p e).Sound := by
  unfold emergencyAt
  split <;> first | exact enterStopping_sound h | exact h

theorem emergencyOrder_sound {T : Tables} {e : Engine} (h : e.Sound) : (emergencyOrder T e).Sound := by
  unfold emergencyOrder
  split
  · refine emergencyAt_sound (sound_eachPos (fun p e he => ?_) h)
    split
    · exact he
    · exact emergencyAt_sound he
  · exact sound_eachPos (fun _ _ he => emergencyAt_sound he) h

theorem resetFaultAt_sound {T : Tables} {p : Pos} {e : Engine} (h : e.Sound) : (resetFaultAt T p e).Sound := by
  unfold resetFaultAt
  simp only
  split
  · split
    · exact enter_sound h
    · have k := h p
      exact sound_put h ⟨k.duty, k.load, k.causes, k.ctx, k.fault, k.linger, k.stop, k.prot, k.disagree, k.silent⟩
  · exact h

/-! ## The Step Executor -/

theorem chainEnd_sound {T : Tables} {p : Pos} {e : Engine} (h : e.Sound) : (chainEnd T p e).Sound := by
  unfold chainEnd
  simp only
  split
  · exact enterReady_sound h
  · exact enterHeld_sound h

theorem endStep_sound {T : Tables} {p : Pos} {r : StepRec} {e : Engine} (h : e.Sound) : (endStep T p r e).Sound := by
  unfold endStep
  exact sound_modify (leaveBus_sound h) ((leaveBus_sound h p).ctxOnly _ _)

theorem endStep_st (T : Tables) (p : Pos) (r : StepRec) (e : Engine) : ((endStep T p r e).at p).st = (e.at p).st := by
  unfold endStep
  simp only [Engine.at_modify_self]
  exact (leaveBus_busOnly T p e).st p

/-- A change of the step context in STARTING. -/
theorem Position.Sound.stepping {x : Position} (h : x.Sound) (hs : x.st = .starting) (c : Option StepCtx) :
    ({ x with ctx := c } : Position).Sound :=
  ⟨h.duty, h.load, h.causes, fun hn => absurd hs hn, h.fault, h.linger, h.stop, h.prot, h.disagree, h.silent⟩

theorem enterStep_sound {T : Tables} {p : Pos} {fuel : Nat} {counts : Bool} {idx : Nat} {e : Engine} (h : e.Sound)
    (hs : (e.at p).st = .starting) : (enterStep T p fuel counts idx e).Sound := by
  induction fuel generalizing counts idx e with
  | zero => exact faultWith_sound h
  | succ n ih =>
    unfold enterStep
    simp only
    split
    · exact faultWith_sound h
    · have k : ∀ c, (handDrive T p (e.put p { e.at p with ctx := c })).Sound := fun c =>
        handDrive_sound (sound_put h ((h p).stepping hs c))
      split
      · split
        · exact chainEnd_sound (endStep_sound (k _))
        · refine ih (endStep_sound (k _)) ?_
          rw [endStep_st, handDrive_st, Engine.at_put_self]
          exact hs
      · split
        · exact requestBus_sound (k _)
        · exact k _

theorem stepSuccess_sound {T : Tables} {p : Pos} {r : StepRec} {e : Engine} (h : e.Sound) (hs : (e.at p).st = .starting) :
    (stepSuccess T p r e).Sound := by
  unfold stepSuccess
  simp only
  split
  · exact chainEnd_sound (endStep_sound h)
  · exact enterStep_sound (endStep_sound h) (by rw [endStep_st]; exact hs)

theorem startOrder_sound {T : Tables} {p : Pos} {e : Engine} (h : e.Sound) : (startOrder T p e).Sound := by
  unfold startOrder
  split
  · simp only
    split
    · exact faultWith_sound (enter_sound h)
    · split
      · exact faultWith_sound (enter_sound h)
      · exact enterStep_sound (enter_sound h) (enter_st ..)
  · exact h

theorem abandonOrder_sound {T : Tables} {p : Pos} {e : Engine} (h : e.Sound) : (abandonOrder T p e).Sound := by
  unfold abandonOrder
  simp only
  split
  · exact enter_sound h
  · exact h

/-- A step context exists in STARTING alone. -/
theorem Position.Sound.starting_of_ctx {x : Position} (h : x.Sound) {c : StepCtx} (hc : x.ctx = some c) :
    x.st = .starting := by
  by_cases hs : x.st = .starting
  · exact hs
  · have := h.ctx hs
    rw [hc] at this
    cases this

theorem retryRest_sound {T : Tables} {p : Pos} {r : StepRec} {e : Engine} (h : e.Sound) : (retryRest T p r e).Sound := by
  unfold retryRest
  have k : ∀ f : StepCtx → StepCtx, (handDrive T p (e.modify p fun x => { x with ctx := x.ctx.map f })).Sound := fun f =>
    handDrive_sound (sound_modify h ((h p).ctxOnly f _))
  simp only
  split
  · split
    · exact k _
    · rename_i c hc
      exact enterStep_sound (k _) ((k _ p).starting_of_ctx hc)
  · exact k _

theorem faultWith_st (T : Tables) (p : Pos) (code : FaultCode) (step : Option Nat) (value : Option Int) (e : Engine) :
    ((faultWith T p code step value e).at p).st = .faulted := by
  unfold faultWith
  split
  · rename_i hs
    simpa using hs
  · simp [enter_st]

theorem failStart_sound {T : Tables} {p : Pos} {code : FaultCode} {value : Option Int} {e : Engine} (h : e.Sound) :
    (failStart T p code value e).Sound := by
  unfold failStart
  have k := fault_sound (T := T) (p := p) (code := code) (value := value) h p
  refine sound_modify (fault_sound h) ⟨k.duty, k.load, k.causes, k.ctx, fun hn => ?_, k.linger, k.stop, k.prot, k.disagree,
    k.silent⟩
  exact absurd (faultWith_st ..) hn

theorem retryableFailure_sound {T : Tables} {p : Pos} {r : StepRec} {c : StepCtx} {e : Engine} (h : e.Sound) :
    (retryableFailure T p r c e).Sound := by
  unfold retryableFailure
  simp only
  split
  · exact retryRest_sound (leaveBus_sound h)
  · exact failStart_sound (leaveBus_sound h)

theorem stepExpires_sound {T : Tables} {p : Pos} {e : Engine} (h : e.Sound) : (stepExpires T p e).Sound := by
  unfold stepExpires
  split
  · exact h
  · rename_i hc
    split
    · exact h
    · split
      · exact stepSuccess_sound h ((h p).starting_of_ctx hc)
      · exact retryableFailure_sound h

theorem starting_of_runningRec {T : Tables} {x : Position} {r : StepRec} (h : x.runningRec T = some r) :
    x.st = .starting := by
  unfold Position.runningRec at h
  split at h
  · assumption
  · cases h

theorem stepTestSample_sound {T : Tables} {p : Pos} {s : Sample} {e : Engine} (h : e.Sound) :
    (stepTestSample T p s e).Sound := by
  unfold stepTestSample
  split
  · rename_i hr _
    split
    · exact stepSuccess_sound h (starting_of_runningRec hr)
    · exact h
  · exact h

theorem armWatch_sound {T : Tables} {p : Pos} {e : Engine} (h : e.Sound) : (armWatch T p e).Sound :=
  sound_modify h ((h p).ctxOnly _ _)

theorem stepTestSpeed_sound {T : Tables} {p : Pos} {e : Engine} (h : e.Sound) : (stepTestSpeed T p e).Sound := by
  unfold stepTestSpeed
  simp only
  split
  · rename_i hr
    split
    · exact stepSuccess_sound h (starting_of_runningRec hr)
    · exact h
  · exact h

/-! ## The load-phase machine -/

theorem startSpeedPhase_sound {T : Tables} {p : Pos} {ph : Phase} {slot : Target} {e : Engine} (h : e.Sound)
    (hl : (e.at p).st.loaded = true) : (startSpeedPhase T p ph slot e).Sound := by
  unfold startSpeedPhase
  exact handDrive_sound (sound_modify h ((h p).loading hl _ _))

theorem startLoadPhase_sound {T : Tables} {p : Pos} {ph : Phase} {slot : Target} {e : Engine} (h : e.Sound)
    (hl : (e.at p).st.loaded = true) : (startLoadPhase T p ph slot e).Sound := by
  unfold startLoadPhase
  split
  · exact h
  · exact sound_modify h ((h p).loading hl _ _)

theorem choosePhase_sound {T : Tables} {p : Pos} {e : Engine} (h : e.Sound) : (choosePhase T p e).Sound := by
  unfold choosePhase
  simp only
  split
  · rename_i hslot _
    have hl := (h p).loaded_of_slot hslot
    split
    · exact startSpeedPhase_sound h hl
    · exact startSpeedPhase_sound h hl
    · exact startLoadPhase_sound h hl
    · exact startLoadPhase_sound h hl
    · split
      · exact enterReady_sound h
      · exact sound_put h ((h p).loading hl _ _)
  · exact h

theorem endPhase_sound {T : Tables} {p : Pos} {e : Engine} (h : e.Sound) : (endPhase T p e).Sound := by
  unfold endPhase
  refine choosePhase_sound (sound_modify h ?_)
  have k := h p
  exact ⟨k.duty, fun hn => ⟨(k.load hn).1, (k.load hn).2.1, (k.load hn).2.2.1, rfl, rfl, (k.load hn).2.2.2.2.2⟩, k.causes, k.ctx, k.fault,
    k.linger, k.stop, k.prot, k.disagree, k.silent⟩

/-- A phase end is recorded in a loaded state alone. -/
theorem completePhase_sound {T : Tables} {p : Pos} {e : Engine} (h : e.Sound) : (completePhase T p e).Sound := by
  unfold completePhase
  have k := h p
  refine endPhase_sound (sound_modify h ⟨k.duty, fun hn => ?_, k.causes, k.ctx, k.fault, k.linger, k.stop, k.prot,
    k.disagree, k.silent⟩)
  obtain ⟨h₁, h₂, h₃, h₄, h₅, -⟩ := k.load hn
  have hn : (e.at p).st.loaded = false := hn
  exact ⟨h₁, h₂, h₃, h₄, h₅, by simp [hn]⟩

theorem Position.Sound.loaded_of_endAt {x : Position} (h : x.Sound) {now : Nat} {f : PhaseEnd} (hf : x.endAt now = some f) :
    x.st.loaded = true := by
  cases hl : x.st.loaded
  · rw [Position.endAt, (h.load hl).2.2.2.2.2] at hf
    cases hf
  · rfl

theorem actOnTarget_sound {T : Tables} {p : Pos} {e : Engine} (h : e.Sound) : (actOnTarget T p e).Sound := by
  unfold actOnTarget
  simp only
  split
  · rename_i hf
    exact endPhase_sound (sound_put h ((h p).loading ((h p).loaded_of_endAt hf) _ _))
  · split
    · exact choosePhase_sound h
    · split
      · exact endPhase_sound h
      · exact h
    · rename_i hp
      split
      · exact endPhase_sound (sound_put h ((h p).loading ((h p).loaded_of_phase hp) _ _))
      · exact h
    · exact h

theorem writeSlot_sound {T : Tables} {p : Pos} {e : Engine} (h : e.Sound) : (writeSlot T p e).Sound := by
  unfold writeSlot
  simp only
  split
  · rename_i hs
    split
    · exact h
    · exact sound_put h ((h p).loading (by simp [hs, PState.loaded]) _ _)
  · exact h

theorem promoteOrder_sound {T : Tables} {p : Pos} {e : Engine} (h : e.Sound) : (promoteOrder T p e).Sound := by
  unfold promoteOrder
  split
  · exact choosePhase_sound (sound_modify (enter_sound h)
      ((enter_sound h p).loading (by simp [enter_st, PState.loaded]) _ _))
  · exact h

theorem demoteOrder_sound {T : Tables} {p : Pos} {e : Engine} (h : e.Sound) : (demoteOrder T p e).Sound := by
  unfold demoteOrder
  split
  · exact actOnTarget_sound (sound_modify (enter_sound h)
      ((enter_sound h p).loading (by simp [enter_st, PState.loaded]) _ _))
  · exact h

theorem endSpeedPhase_sound {T : Tables} {p : Pos} {late : Bool} {e : Engine} (h : e.Sound) :
    (endSpeedPhase T p late e).Sound := by
  unfold endSpeedPhase
  refine completePhase_sound (sound_modify h ?_)
  have k := h p
  exact ⟨k.duty, k.load, k.causes, k.ctx, k.fault, k.linger, k.stop, k.prot, k.disagree, k.silent⟩

theorem endLoadPhase_sound {T : Tables} {p : Pos} {e : Engine} (h : e.Sound) : (endLoadPhase T p e).Sound := by
  unfold endLoadPhase
  simp only
  split
  · exact completePhase_sound h
  · exact h

theorem restepAll_sound {T : Tables} {e : Engine} (h : e.Sound) : (restepAll T e).Sound := by
  unfold restepAll
  split
  · exact h
  · refine sound_eachPos (fun p e he => sound_modify he ?_) h
    have k := he p
    refine ⟨fun hn => ?_, k.load, k.causes, k.ctx, k.fault, k.linger, k.stop, k.prot, k.disagree, k.silent⟩
    have hd := k.duty hn
    simp [Channel.restep, hd]

/-! ## Orders, evaluations and the close of an event -/

theorem lingered_sound {e : Engine} {p : Pos} {t : Timer} (h : e.Sound) (ht : (e.at p).st = .ready ∨ t = .stopped) :
    (e.modify p fun x => { x with lingerT := t }).Sound := by
  refine sound_modify h ?_
  have k := h p
  refine ⟨k.duty, k.load, k.causes, k.ctx, k.fault, fun hn => ?_, k.stop, k.prot, k.disagree, k.silent⟩
  rcases ht with ht | ht
  · exact absurd ht hn
  · exact ht

theorem giveOrder_sound {T : Tables} {e : Engine} {o : Order} (h : e.Sound) : (giveOrder T e o).Sound := by
  cases o with
  | demote p => exact demoteOrder_sound h
  | promote p => exact promoteOrder_sound h
  | start p => exact startOrder_sound h
  | abandon p => exact abandonOrder_sound h
  | stop p =>
    show (stopOrder T p e).Sound
    unfold stopOrder
    split
    · exact enterStopping_sound h
    · exact h
  | lingerStart p =>
    show (lingerStart T p e).Sound
    unfold lingerStart
    split
    · exact h
    · split
      · rename_i hs
        exact lingered_sound h (Or.inl hs)
      · exact h
  | lingerStop p => exact lingered_sound h (Or.inr rfl)

theorem giveOrders_sound {T : Tables} {list : List Order} {e : Engine} (h : e.Sound) :
    (list.foldl (giveOrder T) e).Sound := by
  induction list generalizing e with
  | nil => exact h
  | cons o rest ih => exact ih (giveOrder_sound h)

theorem actOnTargets_sound {T : Tables} {list : List Pos} {e : Engine} (h : e.Sound) : (actOnTargets T list e).Sound := by
  unfold actOnTargets
  induction list generalizing e with
  | nil => exact h
  | cons p rest ih =>
    refine ih ?_
    dsimp only
    split
    · exact actOnTarget_sound h
    · exact h

theorem report_sound {force result : Bool} {e : Engine} (h : e.Sound) : (report force result e).Sound := by
  unfold report
  split <;> exact h

theorem evaluate_sound {T : Tables} {linger : Option Pos} {force : Bool} {changed : List Pos} {e : Engine} (h : e.Sound) :
    (evaluate T linger force changed e).1.Sound := by
  unfold evaluate
  simp only
  have h₁ := giveOrders_sound (T := T) (list := ((staging T linger e).plan (.make fun p => (e.at p).st)).orders) h
  generalize ((staging T linger e).plan (.make fun p => (e.at p).st)).orders.foldl (giveOrder T) e = e₁ at h₁ ⊢
  have h₂ := actOnTargets_sound (T := T) (list := changed) h₁
  generalize actOnTargets T changed e₁ = e₂ at h₂ ⊢
  have h₃ : ∀ b r, (report force r { e₂ with short := b }).Sound := fun b r => report_sound h₂
  exact h₃ _ _

/-- A DRIVE asked for keeps a position sound: nothing is sent on a link that is not UP. -/
theorem driven_sound {x : Position} (h : x.Sound) (now : Nat) (d : Option Drive) :
    ({ x with link := ({ x.link with drive := d }).sendDrive now } : Position).Sound := by
  by_cases hu : x.link.state = .up
  · have k := sendDrive_kept { x.link with drive := d } now
    refine h.linked k.disagreeT k.disagree ⟨fun hs => ?_, fun hs => ?_⟩
    · have := (h.silent (Or.inl hs)).1; rw [hu] at this; cases this
    · have := (h.silent (Or.inr hs)).1; rw [hu] at this; cases this
  · have : ({ x.link with drive := d } : Link).sendDrive now = { x.link with drive := d } := by simp [Link.sendDrive, hu]
    rw [this]
    exact ⟨h.duty, h.load, h.causes, h.ctx, h.fault, h.linger, h.stop, h.prot, h.disagree, h.silent⟩

theorem refreshDrive_sound {T : Tables} {start : Engine} {p : Pos} {e : Engine} (h : e.Sound) :
    (refreshDrive T start p e).Sound := linkOnly_sound (refreshDrive_linkOnly ..) h

theorem beforeTargets_sound {T : Tables} {linger : Option Pos} {turned : Bool} {e : Engine} (h : e.Sound) :
    (beforeTargets T linger turned e).Sound := by
  unfold beforeTargets
  have k : (if turned = true then restepAll T e else e).Sound := by
    split
    · exact restepAll_sound h
    · exact h
  generalize (if turned = true then restepAll T e else e) = e' at k ⊢
  unfold stopLinger
  split
  · exact k
  · exact lingered_sound k (Or.inr rfl)

theorem commitWhenDue_sound {start : Engine} {w : Works} (h : w.eng.Sound) : (commitWhenDue start w).eng.Sound := by
  unfold commitWhenDue
  split
  · exact h
  · exact h

theorem closeRounds_sound {start : Engine} {fuel : Nat} {ref : Works} {linger : Option Pos} {commit : Bool} {w : Works}
    (h : w.eng.Sound) : (closeRounds start fuel ref linger commit w).eng.Sound := by
  induction fuel generalizing ref linger commit w with
  | zero => exact h
  | succ n ih =>
    unfold closeRounds
    simp only
    have h : (commitWhenDue start (handshakes w)).eng.Sound :=
      commitWhenDue_sound (sound_eachPos (fun _ _ he => handshake_sound he) h)
    generalize commitWhenDue start (handshakes w) = w' at h ⊢
    generalize (if linger.isSome = true then linger else zeroLinger w'.eng) = linger'
    have g : ∀ l t, (writeSlots w'.tab (beforeTargets w'.tab l t w'.eng)).Sound := fun l t =>
      sound_eachPos (fun _ _ he => writeSlot_sound he) (beforeTargets_sound h)
    split
    · exact ih (evaluate_sound (g _ _))
    · split
      · exact g _ _
      · exact ih (actOnTargets_sound (g _ _))

/-- The close of an event keeps every position sound. -/
theorem closeEventWith_sound {linger : Option Pos} {commit : Bool} {start w : Works} (h : w.eng.Sound) :
    (closeEventWith linger commit start w).eng.Sound := by
  unfold closeEventWith
  exact sound_eachPos (fun _ _ he => refreshDrive_sound he) (closeRounds_sound h)

theorem event_sound {w : Works} {f : Tables → Engine → Engine} (h : (f w.tab w.eng).Sound) : (w.event f).eng.Sound :=
  closeEventWith_sound h

end Sys2Proof.Machine
end

