-- ==== Sys2Proof/Laws/SoundEvents.lean ====
section
/-! SUPPORT. The events of stations, pickups, protection and tables keep every position sound. -/

namespace Sys2Proof.Machine

/-! ## Protection -/

/-- A change of the protection pairs in a tested state. -/
theorem Position.Sound.protected {x : Position} (h : x.Sound) (ht : x.st.tested = true) (v : Vector Pair 16) :
    ({ x with prot := v } : Position).Sound :=
  ⟨h.duty, h.load, h.causes, h.ctx, h.fault, h.linger, h.stop, fun hn => by simp [ht] at hn, h.disagree, h.silent⟩

theorem persistenceExpires_sound {T : Tables} {p : Pos} {i : Fin 16} {e : Engine} (h : e.Sound)
    (ht : (e.at p).st.tested = true) : (persistenceExpires T p i e).Sound := by
  unfold persistenceExpires
  simp only
  split
  · exact judgeCauses_sound (sound_put h ((h p).protected ht _))
  · exact faults_sound (sound_put h ((h p).protected ht _))

theorem shutdownAfterFailure_sound {T : Tables} {p : Pos} {i : Fin 16} {e : Engine} (h : e.Sound) :
    (shutdownAfterFailure T p i e).Sound := by
  unfold shutdownAfterFailure
  refine fault_sound (sound_modify h ?_)
  have k := h p
  exact ⟨k.duty, k.load, k.causes, k.ctx, fun hn => ⟨(k.fault hn).1, by simp [(k.fault hn).2]⟩, k.linger, k.stop, k.prot,
    k.disagree, k.silent⟩

/-- A tested position meets the SHUTDOWN faults of the pairs its tests activate. -/
theorem shutdownsTested_of_tested {T : Tables} {now : Nat} {before met : Position} (ht : before.st.tested = true) :
    shutdownsTested T now before met = shutdowns T before met := by simp [shutdownsTested, ht]

/-- Outside the tested states a test brings no fault but at the instant at which the start failed. -/
theorem shutdownsTested_of_untested {T : Tables} {now : Nat} {before met : Position} (ht : before.st.tested = false)
    (hf : before.failedAt now = false) : shutdownsTested T now before met = [] := by simp [shutdownsTested, ht, hf]

theorem untested_pair {x : Position} (h : x.Sound) {i : Fin 16} {t : Timer} (hk : x.prot[i].timer = t)
    (ht : t.isRunning = true) : x.st.tested = true := by
  cases hn : x.st.tested
  · have := h.prot hn
    rw [this] at hk
    simp [Pair.reset] at hk
    rw [← hk] at ht
    cases ht
  · rfl

theorem protRewritten_sound {T : Tables} {first count : Nat} {p : Pos} {e : Engine} (h : e.Sound) :
    (protRewritten T first count p e).Sound := by
  unfold protRewritten
  simp only
  refine judgeCauses_sound (sound_put h ?_)
  have k := h p
  refine ⟨k.duty, k.load, k.causes, k.ctx, k.fault, k.linger, k.stop, fun hn => ?_, k.disagree, k.silent⟩
  have := k.prot hn
  simp only at this ⊢
  apply Vector.ext
  intro i hi
  simp [this]

/-! ## Samples -/

theorem disagreeTest_keeps (T : Tables) (p : Pos) (now : Nat) (x : Position) :
    ∃ t b, (disagreeTest T p now x).1 = { x with link := { x.link with disagreeT := t, disagree := b } } ∧
      (x.st.tested = false → t = x.link.disagreeT ∧ b = x.link.disagree) := by
  unfold disagreeTest
  split
  · split
    · rename_i hc
      simp only [Bool.and_eq_true] at hc
      split
      · exact ⟨_, _, rfl, fun hn => by simp [hc.1] at hn⟩
      · split
        · exact ⟨_, _, rfl, fun hn => by simp [hc.1] at hn⟩
        · split
          · exact ⟨_, _, rfl, fun hn => by simp [hc.1] at hn⟩
          · split
            · exact ⟨_, _, rfl, fun _ => ⟨rfl, rfl⟩⟩
            · exact ⟨_, _, rfl, fun hn => by simp [hc.1] at hn⟩
    · exact ⟨_, _, rfl, fun _ => ⟨rfl, rfl⟩⟩
  · exact ⟨_, _, rfl, fun _ => ⟨rfl, rfl⟩⟩

theorem disagreeTest_sound {T : Tables} {p : Pos} {now : Nat} {x : Position} (h : x.Sound) :
    (disagreeTest T p now x).1.Sound := by
  obtain ⟨t, b, he, hk⟩ := disagreeTest_keeps T p now x
  rw [he]
  refine ⟨h.duty, h.load, h.causes, h.ctx, h.fault, h.linger, h.stop, h.prot, fun hn => ?_, h.silent⟩
  obtain ⟨h₁, h₂⟩ := hk hn
  have := h.disagree hn
  exact ⟨h₁.trans this.1, h₂.trans this.2⟩

theorem judgeSetup_disagree (l : Link) (st : PState) (s : Sample) :
    (l.judgeSetup st s).disagreeT = l.disagreeT ∧ (l.judgeSetup st s).disagree = l.disagree := by
  unfold Link.judgeSetup
  split
  · exact ⟨rfl, rfl⟩
  · split <;> exact ⟨rfl, rfl⟩

theorem takeSample_sound {T : Tables} {p : Pos} {s : Sample} {e : Engine} (h : e.Sound)
    (hs : (e.at p).st ≠ .absent ∧ (e.at p).st ≠ .isolated) : (takeSample T p s e).Sound := by
  unfold takeSample
  simp only
  have k : ∀ l : Link, l.disagreeT = (e.at p).link.disagreeT → l.disagree = (e.at p).link.disagree →
      (if (e.at p).st.tested = true then protAtSample T p e.now { e.at p with link := l }
        else { e.at p with link := l } : Position).Sound := by
    intro l h₁ h₂
    split
    · rename_i ht
      exact ((h p).linked h₁ h₂ hs).protected ht _
    · exact (h p).linked h₁ h₂ hs
  have hj := judgeSetup_disagree (e.at p).link (e.at p).st s
  have k := k (((e.at p).link.judgeSetup (e.at p).st s).takeSample (T.profile p) s e.now) hj.1 hj.2
  generalize (if (e.at p).st.tested = true then _ else _ : Position) = x at k
  have kp := sound_put (p := p) h (disagreeTest_sound (T := T) (p := p) (now := e.now) k)
  split
  · split
    · exact sound_put (enterHeld_sound kp) (disagreeTest_sound (enterHeld_sound kp p))
    · split
      · exact endSpeedPhase_sound (writeSlot_sound (stepTestSample_sound (judgeCauses_sound kp)))
      · exact stepTestSample_sound (judgeCauses_sound kp)
  · exact faults_sound kp

theorem sampleArrives_sound {T : Tables} {p : Pos} {raw : List Byte} {e : Engine} (h : e.Sound) :
    (sampleArrives T p raw e).Sound := by
  unfold sampleArrives
  split
  · exact h
  · split
    · exact h
    · rename_i hs
      exact takeSample_sound h ⟨fun a => hs (Or.inl a), fun a => hs (Or.inr a)⟩

theorem lose_disagree (l : Link) : l.lose.disagreeT = .stopped ∧ l.lose.disagree = l.disagree := by
  unfold Link.lose
  simp only
  split <;> exact ⟨rfl, rfl⟩

theorem lost_sound {x : Position} (h : x.Sound) (hs : x.st ≠ .absent ∧ x.st ≠ .isolated) :
    ({ x with link := x.link.lose } : Position).Sound := by
  have k := lose_disagree x.link
  refine ⟨h.duty, h.load, h.causes, h.ctx, h.fault, h.linger, h.stop, h.prot, fun hn => ?_, fun hn => ?_⟩
  · exact ⟨k.1, k.2.trans (h.disagree hn).2⟩
  · rcases hn with hn | hn <;> simp_all

theorem linkLost_sound {T : Tables} {p : Pos} {e : Engine} (h : e.Sound)
    (hs : (e.at p).st ≠ .absent ∧ (e.at p).st ≠ .isolated) : (linkLost T p e).Sound := by
  unfold linkLost
  simp only
  have k := lost_sound (h p) hs
  split
  · exact sound_put h ⟨k.duty, k.load, k.causes, k.ctx, k.fault, k.linger, k.stop, k.prot, k.disagree,
      fun hn => by rcases hn with hn | hn <;> simp_all⟩
  · rename_i hst
    exact fault_sound (sound_put h (k.protected (by simp [hst, PState.tested]) _))
  iterate 4
    rename_i hst
    exact judgeCauses_sound (sound_put h (k.protected (by simp [hst, PState.tested]) _))
  · split
    · exact fault_sound (sound_put h k)
    · exact sound_put h k
  · exact sound_put h k

/-- The sample timer runs outside ABSENT and ISOLATED alone. -/
theorem heard_of_sampleT {x : Position} (h : x.Sound) (ht : x.link.sampleT.isRunning = true) :
    x.st ≠ .absent ∧ x.st ≠ .isolated := by
  constructor
  · intro hs
    rw [(h.silent (Or.inl hs)).2.2.2.1] at ht
    cases ht
  · intro hs
    rw [(h.silent (Or.inr hs)).2.2.2.1] at ht
    cases ht

theorem heard_of_confirmT {x : Position} (h : x.Sound) (ht : x.link.confirmT.isRunning = true) :
    x.st ≠ .absent ∧ x.st ≠ .isolated := by
  constructor
  · intro hs
    rw [(h.silent (Or.inl hs)).2.2.2.2.1] at ht
    cases ht
  · intro hs
    rw [(h.silent (Or.inr hs)).2.2.2.2.1] at ht
    cases ht

theorem confirmExpires_disagree (l : Link) (pr : Profile) (now : Nat) :
    (l.confirmExpires pr now).disagreeT = l.disagreeT ∧ (l.confirmExpires pr now).disagree = l.disagree := by
  unfold Link.confirmExpires
  split
  · have := sendSetup_kept l pr now
    exact ⟨this.disagreeT, this.disagree⟩
  · exact ⟨rfl, rfl⟩

theorem confirmExpires_sound {T : Tables} {p : Pos} {e : Engine} (h : e.Sound)
    (hs : (e.at p).st ≠ .absent ∧ (e.at p).st ≠ .isolated) : (confirmExpires T p e).Sound := by
  unfold confirmExpires
  refine sound_modify h ?_
  split
  · exact (h p).linked rfl rfl hs
  · have k := confirmExpires_disagree (e.at p).link ‹Profile› e.now
    exact (h p).linked k.1 k.2 hs

theorem refreshExpires_sound {p : Pos} {e : Engine} (h : e.Sound) : (refreshExpires p e).Sound := by
  unfold refreshExpires
  refine sound_modify h ?_
  have k : ({ (e.at p) with link := { (e.at p).link with refreshT := .stopped } } : Position).Sound := by
    have k := h p
    exact ⟨k.duty, k.load, k.causes, k.ctx, k.fault, k.linger, k.stop, k.prot, k.disagree,
      fun hn => ⟨(k.silent hn).1, (k.silent hn).2.1, (k.silent hn).2.2.1, (k.silent hn).2.2.2.1, (k.silent hn).2.2.2.2.1,
        rfl⟩⟩
  exact driven_sound k e.now _

theorem stationFrameEnds_sound {p : Pos} {e : Engine} (h : e.Sound) : (stationFrameEnds p e).Sound := by
  unfold stationFrameEnds
  refine sound_modify h ?_
  have k := h p
  have hb := beginNext_kept { (e.at p).link with sending := none }
  refine ⟨k.duty, k.load, k.causes, k.ctx, k.fault, k.linger, k.stop, k.prot, fun hn => ?_, fun hn => ?_⟩
  · exact ⟨hb.disagreeT.trans (k.disagree hn).1, hb.disagree.trans (k.disagree hn).2⟩
  · obtain ⟨h₁, h₂, h₃, h₄, h₅, h₆⟩ := k.silent hn
    refine ⟨hb.state.trans h₁, hb.latest.trans h₂, hb.setup.trans h₃, hb.sampleT.trans h₄, ?_, ?_⟩
    · simp only [beginNext_confirmT]; exact h₅
    · simp only [beginNext_refreshT]; exact h₆

theorem disagreeExpires_sound {T : Tables} {p : Pos} {e : Engine} (h : e.Sound) (ht : (e.at p).st.tested = true) :
    (disagreeExpires T p e).Sound := by
  unfold disagreeExpires
  simp only
  refine judgeCauses_sound (sound_modify h ?_)
  have k := h p
  exact ⟨k.duty, k.load, k.causes, k.ctx, k.fault, k.linger, k.stop, k.prot, fun hn => by simp [ht] at hn, k.silent⟩

theorem tested_of_disagreeT {x : Position} (h : x.Sound) (ht : x.link.disagreeT.isRunning = true) : x.st.tested = true := by
  cases hn : x.st.tested
  · rw [(h.disagree hn).1] at ht
    cases ht
  · rfl

/-! ## Pickups -/

theorem pickup_sound {x : Position} (h : x.Sound) (k : Pickup) : ({ x with pickup := k } : Position).Sound :=
  ⟨h.duty, h.load, h.causes, h.ctx, h.fault, h.linger, h.stop, h.prot, h.disagree, h.silent⟩

theorem pickupUpdate_sound {T : Tables} {p : Pos} {old : Nat} {e : Engine} (h : e.Sound) :
    (pickupUpdate T p old e).Sound := by
  unfold pickupUpdate
  simp only
  have k : (if (e.at p).st.tested = true then protAtPickup T p e.now old (e.at p) else e.at p : Position).Sound := by
    split
    · rename_i ht
      exact (h p).protected ht _
    · exact h p
  generalize (if (e.at p).st.tested = true then _ else _ : Position) = x at k
  have kp := sound_put (p := p) h (disagreeTest_sound (T := T) (p := p) (now := e.now) k)
  split
  · split
    · exact enter_sound kp
    · exact stepTestSpeed_sound (armWatch_sound (judgeCauses_sound kp))
  · exact faults_sound kp

theorem filterExpires_sound {T : Tables} {p : Pos} {e : Engine} (h : e.Sound) : (filterExpires T p e).Sound := by
  unfold filterExpires
  simp only
  split
  · exact sound_put h (pickup_sound (h p) _)
  · split
    · exact pickupUpdate_sound (sound_put h (pickup_sound (h p) _))
    · exact sound_put h (pickup_sound (h p) _)

theorem zeroSpeedExpires_sound {T : Tables} {p : Pos} {e : Engine} (h : e.Sound) : (zeroSpeedExpires T p e).Sound := by
  unfold zeroSpeedExpires
  exact pickupUpdate_sound (sound_put h (pickup_sound (h p) _))

/-! ## Isolation and tables -/

theorem enterOffUnheard_sound {T : Tables} {p : Pos} {e : Engine} (h : e.Sound) : (enterOffUnheard T p e).Sound := by
  unfold enterOffUnheard
  refine sound_modify (enter_sound h) ?_
  have k := enter_sound (T := T) (p := p) (dest := .off) h p
  have hs := enter_st T p .off e
  refine ⟨k.duty, k.load, k.causes, k.ctx, k.fault, k.linger, k.stop, k.prot, k.disagree, fun hn => ?_⟩
  rcases hn with hn | hn <;> (rw [show (Position.unsilence _).st = _ from hs] at hn; cases hn)

theorem restoreAt_sound {T : Tables} {p : Pos} {e : Engine} (h : e.Sound) : (restoreAt T p e).Sound := by
  unfold restoreAt
  split
  · exact enterOffUnheard_sound h
  · exact enter_sound h

theorem rewritten_sound {x : Position} (h : x.Sound) (d : Bool) (k : Pickup) :
    ({ x with link := x.link.rewritten d, pickup := k } : Position).Sound := by
  refine ⟨h.duty, h.load, h.causes, h.ctx, h.fault, h.linger, h.stop, h.prot, fun hn => ?_, fun hn => ?_⟩
  · have := h.disagree hn
    cases d <;> simpa [Link.rewritten, Link.unset] using this
  · obtain ⟨h₁, h₂, h₃, h₄, h₅, h₆⟩ := h.silent hn
    cases d <;> simp_all [Link.rewritten, Link.unset]

theorem positionRewritten_sound {old new : Tables} {p : Pos} {e : Engine} (h : e.Sound) :
    (positionRewritten old new p e).Sound := by
  unfold positionRewritten
  simp only
  have k : ∀ b : Bool, (e.modify p fun x =>
      { x with link := x.link.rewritten (new.profile p).isSome, pickup := if b then x.pickup else x.pickup.clear }).Sound :=
    fun b => sound_modify h (rewritten_sound (h p) _ _)
  have k := k ((old.t2.get p).map (·.profile) == (new.t2.get p).map (·.profile))
  split
  · split
    · exact enterOffUnheard_sound k
    · exact k
  · split
    · exact k
    · exact enter_sound k
  · split
    · exact k
    · exact enter_sound k
  · exact k

theorem profileRewritten_sound {new : Tables} {first count : Nat} {p : Pos} {e : Engine} (h : e.Sound) :
    (profileRewritten new first count p e).Sound := by
  unfold profileRewritten
  split
  · exact sound_modify h (rewritten_sound (h p) _ _)
  · exact h

end Sys2Proof.Machine
end

