-- ==== Sys2Proof/Tests/Slice0.lean ====
section
/-! SUPPORT. The package's own tests: the well-formedness smoke tests, one-step tests, and for every statement with hypotheses a
witness that meets them. -/

set_option Elab.async false

namespace Sys2Proof.Tests

open Sys2Proof Sys2Proof.Machine

/-! ## Well-formedness: each check refuses an ill-formed command -/

def wholeRequest : MgmtReq := ⟨15, 7, 4, 0, 1, []⟩

theorem test_wellFormed_accepts :
    (Instr.notch 1 3 1).wellFormed = true ∧ (Instr.read wholeRequest).wellFormed = true ∧
      (Instr.badFrame .up [0x00]).wellFormed = true ∧ (Instr.unknownKind .down 0x55 [1, 2]).wellFormed = true ∧
      (Instr.unknownOp 10 wholeRequest).wellFormed = true ∧ Instr.supplyDip.wellFormed = true := by decide +kernel

theorem test_frameOk_refuses :
    (Instr.notch 5 3 1).frameOk = false ∧ (Instr.poll 1 0).frameOk = false ∧ (Instr.modeRun 1 1 5).frameOk = false ∧
      (Instr.read { wholeRequest with count := 5 }).frameOk = false ∧
      (Instr.upstreamFrameArrives .status [0]).frameOk = false := by decide

/-- The bytes of a good NOTCH frame are no BAD_FRAME on UP; on DOWN they are (R157). -/
theorem test_badOk_refuses :
    (Instr.badFrame .up (notchFrame 1 3 1).wire).badOk = false ∧
      (Instr.badFrame .down (notchFrame 1 3 1).wire).badOk = true := by decide +kernel

theorem test_kindOk_refuses : (Instr.unknownKind .up 0x10 []).kindOk = false := by decide

theorem test_opOk_refuses : (Instr.unknownOp 9 wholeRequest).opOk = false := by decide

/-! ## Operand forms -/

/-- The check value the spec gives for the nine ASCII digits (R184). -/
theorem test_crc_of_the_digits :
    crc16 [0x31, 0x32, 0x33, 0x34, 0x35, 0x36, 0x37, 0x38, 0x39] = 0x29B1#16 := by decide +kernel

theorem test_ramp_step_rounds_up : rampStep 75 20 = 2 ∧ rampStep 100 20 = 2 ∧ rampStep 101 20 = 3 := by decide

theorem test_speed_of_two_intervals : rpmOf 120 [500, 500] = 1000 := by decide

theorem test_phase_choice :
    choice ⟨1250, 420⟩ 560 1400 = .loadDown ∧ choice ⟨1400, 560⟩ 420 1250 = .speedUp ∧
      choice ⟨1250, 420⟩ 420 1400 = .speedDown ∧ choice ⟨1250, 420⟩ 0 1250 = .loadUp ∧
      choice ⟨1250, 420⟩ 420 1250 = .steady := by decide

/-! ## Small states -/

def unit1 : UnitParams := ⟨2000, 20, 8, 10, 20, 20⟩

def profile1 : Profile :=
  { idleRpm := 700, maxRpm := 1800, overspeedRpm := 2000, runningRpm := 350, teeth := 120, filterUs := 16,
    sampleTimeoutMs := 5000, disagreeTolRpm := 50, settleLimitMs := 3000, lingerS := 30, stopLimitS := 30,
    holdLimitS := 60, droopPermille := 0, govSet := 0 }

def idleEntry : SchedEntry := ⟨0, 0, 700, 0, 100, 200, 2⟩

def crankStep : StepRec := ⟨.crank, 250, 15, .fail, 2, 30, true, 127⟩

/-- A configured unit with position A present: steps 0 PURGE, 1 CRANK, entries 0 SHUTDOWN, 1 UNLOAD, 2 DERATE for D only. -/
def tables : Tables :=
  { Tables.undefinedAll with
    t1 := some unit1
    t2 := ⟨some ⟨true, 0⟩, some ⟨false, 0⟩, none, none⟩
    t3 := (Vector.replicate 4 none).set 0 (some profile1)
    t4 := Vector.replicate 9 (some idleEntry)
    t5 := Vector.replicate 9 (some idleEntry)
    t6 := ((Vector.replicate 64 none).set 0 (some ⟨.purge, 0, 5, .pass, 0, 0, false, 1⟩)).set 1 (some crankStep)
    t8 := (((Vector.replicate 16 none).set 0 (some ⟨true, ⟨false, false, false, true⟩, .oil, .below, 100, 0, 1000, .shutdown, 100⟩)).set 1
      (some ⟨true, ⟨false, false, false, true⟩, .oil, .below, 100, 0, 1000, .unload, 100⟩)).set 2
      (some ⟨true, ⟨false, false, false, true⟩, .coolant, .above, 90, 0, 1000, .derate, 70⟩)
    t9 := (Vector.replicate 16 none).set 0 (some ⟨true, .any, 0, .actAndPass⟩) }

/-- The Resolver at a LIVE link with the run request. -/
def running : Resolver :=
  { Resolver.reset with link := .live, runRequest := true, runPerm := true, notchT := .running 0 2000000 }

/-- A state of the configured unit with a Resolver and a position A. -/
def stateOf (r : Resolver) (x : Position) : State :=
  { State.reset with block := { State.reset.block with works :=
    { tab := tables, commitPending := false,
      eng := { State.reset.block.works.eng with res := r, pos := { State.reset.block.works.eng.pos with a := x } } } } }

/-- Position A in OFF as after a reset. -/
def offA : Position := Position.reset .off (some ⟨700, false, false⟩) .low 0

/-- Position A in a state. -/
def inState (st : PState) : Position := { offA with st := st }

/-- Position A with its link UP. -/
def heard (x : Position) : Position := { x with link := { x.link with state := .up } }

/-- Position A with the DRIVE content of its state. -/
def driven (T : Tables) (x : Position) : Position := { x with link := { x.link with drive := driveContent T .A x } }

/-- An OFF position that can be started, its coolant at 20. -/
def startable (mode : Mode) : Position :=
  { offA with mode := mode, link := { offA.link with
    state := .up, setup := .confirmed, latest := some ⟨0, 0, 20, false, false, false, 0, 0⟩ } }

/-- The same state without supply. -/
def unpowered (s : State) : State := { s with block := { s.block with powered := false } }

/-- The state with another relay. -/
def onRelay (s : State) (r : Relay) : State := { s with block := { s.block with relay := r } }

/-- A running crank bus held by A. -/
def withBus (s : State) (b : Bus) : State :=
  { s with block := { s.block with works := { s.block.works with eng := { s.block.works.eng with bus := b } } } }

/-- The state with a meter of A and a hold. -/
def withMeter (m : Meter) (hold : Hours) : State :=
  let s := stateOf running { inState .ready with pickup := { offA.pickup with speed := 700 }, meter := m }
  { s with block := { s.block with hours := hold } }

/-- The state at another time. -/
def atTime (s : State) (now : Nat) : State :=
  { s with block := { s.block with works := { s.block.works with eng := { s.block.works.eng with now := now } } } }

/-- The state with other tables. -/
def withTables (s : State) (T : Tables) : State :=
  { s with block := { s.block with works := { s.block.works with tab := T } } }

/-- The tables with one schedule entry for every notch. -/
def scheduled (x : SchedEntry) : Tables := { tables with t5 := Vector.replicate 9 (some x) }

/-- The tables with T7[3] selecting a program that begins at a step. -/
def startingAt (entry : Nat) : Tables := { tables with t7 := tables.t7.set 3 (some ⟨100, entry⟩) }

/-- The latch set. -/
def latched : Resolver := { running with latch := true, runPerm := false }

/-- The next state of a command. -/
def after (c : Instr) (s : State) : State :=
  match exec c s with
  | .next t => t
  | _ => s

theorem absent_sound : Position.atReset.Sound := by constructor <;> decide

theorem stateOf_sound {r : Resolver} {x : Position} (h : x.Sound) : (stateOf r x).eng.Sound := by
  intro p
  cases p
  · exact h
  all_goals exact absent_sound

/-! ## One-step tests -/

theorem test_reset_is_unconfigured_and_holds : (holdingConds State.reset.tab State.reset.res).any = true := by decide

theorem test_notch_is_taken :
    (after (.notch 1 9 1) (stateOf .reset offA)).res.demand = 8 ∧
      (after (.notch 1 9 1) (stateOf .reset offA)).res.runPerm = true := by decide +kernel

theorem test_emergency_latches :
    (after (.notch 1 3 3) (stateOf running (inState .ready))).res.latch = true ∧
      ((after (.notch 1 3 3) (stateOf running (inState .ready))).pos .A).st = .off := by decide +kernel

theorem test_notch_is_not_taken_after_power_on : (after (.notch 1 3 1) State.reset).res = State.reset.res := by decide +kernel

theorem test_guard_expiry_faults_the_holder :
    ((after .guardTimerExpires (withBus (stateOf running { inState .starting with
        ctx := some ⟨1, .runningStep, 2, 2, .running 0 15000000, .stopped, false, false⟩ })
        { Bus.reset with state := .taken .A, guardT := .running 0 20000000 })).pos .A).fault.code = some .crankOverrun := by
  decide +kernel

theorem test_first_sample_brings_the_link_up_and_greets :
    ((after (.sample .A (Sample.wire ⟨0, 0, 20, false, false, false, 0, 0⟩)) (stateOf running offA)).pos .A).link.state = .up ∧
      ((after (.sample .A (Sample.wire ⟨0, 0, 20, false, false, false, 0, 0⟩)) (stateOf running offA)).pos .A).link.setup
        = .sent := by decide +kernel

theorem test_tick_rolls_over :
    ((after .runHourTick (withMeter ⟨8124, 359, false⟩ State.reset.hours)).pos .A).meter = ⟨8125, 0, false⟩ := by decide +kernel

theorem test_tick_in_a_hold_is_pending :
    ((after .runHourTick (withMeter ⟨8124, 359, false⟩ { State.reset.hours with hold := true })).pos .A).meter
      = ⟨8124, 0, true⟩ := by decide +kernel

theorem test_enumerate_takes_its_address :
    (after (.enumerate 14) State.reset).relay.address = 14 ∧ (after (.enumerate 14) State.reset).relay.downTx = some ⟨0x12, [15]⟩ ∧
      (after (.enumerate 15) State.reset).relay.address = 0 := by decide +kernel

theorem test_poll_answers_and_passes :
    ((after (.poll 1 15) (stateOf running offA)).relay.upTx.map fun f => f.2.payload.length) = some 71 ∧
      (after (.poll 1 15) (stateOf running offA)).relay.downTx = some ⟨0x13, [1, 15]⟩ := by decide +kernel

theorem test_write_to_the_active_schedule_is_refused :
    ((after (.write ⟨15, 7, 5, 2, 1, []⟩) State.reset).relay.upTx.map fun f => f.2.payload) = some [7, 1, 5, 5, 2, 0] := by
  decide +kernel

theorem test_write_of_the_unit_table :
    (after (.write ⟨15, 7, 1, 0, 1, unit1.bytes⟩) State.reset).tab.t1 = some unit1 := by decide +kernel

theorem test_commit_applies_when_steady :
    (after (.commit ⟨15, 7, 4, 0, 1, []⟩) (stateOf running offA)).tab.t5 = tables.t4 := by decide +kernel

theorem test_isolate_then_restore :
    ((after (.isolate ⟨15, 7, 0, 0, 1, []⟩) (stateOf running offA)).pos .A).st = .isolated ∧
      ((after (.restore ⟨15, 7, 0, 0, 1, []⟩) (after (.isolate ⟨15, 7, 0, 0, 1, []⟩) (stateOf running offA))).pos .A).st
        = .off := by decide +kernel

theorem test_an_expiry_comes_when_due :
    dueCommands { (stateOf running offA).block with works :=
      { (stateOf running offA).block.works with eng := { (stateOf running offA).eng with now := 2000000 } } } =
      [.notchTimerExpires, .periodEnd, .runHourTick] := by decide +kernel

/-! ## States for the witnesses -/

/-- A request for every unit, for position A and table 4. -/
def toAll : MgmtReq := ⟨15, 7, 4, 0, 1, []⟩

/-- The unit with its local queue full behind a frame being sent. -/
def noRoom : State :=
  onRelay (stateOf running offA) { Relay.reset true true with
    upTx := some (.relay, ⟨0x20, []⟩), localQ := List.replicate 4 ⟨0x20, []⟩ }

/-- A starting position in the crank step. -/
def cranking (retries : Nat) : Position :=
  { inState .starting with mode := .run, ctx := some ⟨1, .runningStep, retries, 2, .running 0 15000000, .stopped, false, false⟩ }

/-- A starting position at rest before a further try of the crank step. -/
def resting : Position :=
  { inState .starting with mode := .run, ctx := some ⟨1, .retryRest, 1, 2, .stopped, .running 0 30000000, false, false⟩ }

/-- The PURGE step, which passes at its limit to the crank step. -/
def purgeStep : StepRec := ⟨.purge, 0, 5, .pass, 0, 0, false, 1⟩

/-- A starting position in the PURGE step. -/
def purging (visited : Nat) : Position :=
  { inState .starting with mode := .run, ctx := some ⟨0, .runningStep, 0, visited, .running 0 5000000, .stopped, false, false⟩ }

/-- The position whose start failed at the crank guard at 20 s, its sample timer due at that instant. -/
def overrun : Position :=
  { inState .faulted with
    fault := ⟨some .crankOverrun, some 1, some 0, false⟩, failedStart := some ⟨20000000, [], false⟩
    link := { offA.link with state := .up, sampleT := .running 15000000 5000000 } }

/-- A position with a rising edge about to be accepted. -/
def rising (st : PState) (lastEdge : Option Nat) : Position :=
  { inState st with pickup := { offA.pickup with
    input := .high, filterT := .running 0 16, lastEdge := lastEdge, speed := 700 } }

/-- A SHUTDOWN entry for position A that acts at its test. -/
def tripAtOnce : ProtEntry := ⟨true, ⟨true, false, false, false⟩, .oil, .below, 100, 0, 0, .shutdown, 100⟩

/-- A sample with the oil pressure at 50 kPa. -/
def lowOil : Sample := ⟨0, 50, 20, false, false, false, 0, 0⟩

/-- A turning position whose zero-speed timer runs. -/
def slowed (x : Position) : Position := { x with pickup := { offA.pickup with speed := 300, zeroT := .running 0 500000 } }

/-- An ONLINE position in STEADY under load. -/
def loadedA : Position :=
  { inState .online with load := ⟨some .steady, some 1250, some ⟨1250, 420⟩, none, .stopped, false⟩,
                         chan := ⟨420, 420, 420, some 2, .holding⟩, pickup := { offA.pickup with speed := 1250 } }

/-- An UNLOADING position whose speed phase still runs. -/
def slowing : Position :=
  { loadedA with st := .unloading, load := ⟨some .speedDown, some 700, some ⟨700, 0⟩, none, .running 0 3000000, false⟩ }

/-- The position with a protection timer running at an entry. -/
def timing (x : Position) (i : Fin 16) : Position := { x with prot := x.prot.set i ⟨.running 0 1000000, false⟩ }

/-- An ONLINE position in a phase at a duty, the timer of the DERATE entry running. -/
def derating (phase : Phase) (duty : Nat) : Position :=
  timing (driven (scheduled ⟨1, 1, 1250, 420, 100, 200, 2⟩) { loadedA with
    load := ⟨some phase, some 1250, some ⟨1250, 420⟩, none, .stopped, false⟩
    chan := { loadedA.chan with duty := duty } }) 2

/-- The bytes of a valid sample. -/
def sampleBytes (localPanel : Bool) : List Byte := Sample.wire ⟨1250, 300, 50, true, false, localPanel, 0, 0⟩

/-- The state with its commit pending. -/
def committing (s : State) : State :=
  { s with block := { s.block with works := { s.block.works with commitPending := true } } }

/-- The state with a save in flight. -/
def savingState (s : State) : State :=
  { s with block := { s.block with saving := some ⟨1, 0, tables.image⟩, nv := { s.nv with image := none } } }

/-- Tables with every entry defined. -/
def allDefined : Tables :=
  { tables with
    t2 := ⟨some ⟨true, 0⟩, some ⟨false, 0⟩, some ⟨false, 0⟩, some ⟨false, 0⟩⟩
    t3 := Vector.replicate 4 (some profile1)
    t6 := Vector.replicate 64 (some crankStep)
    t7 := Vector.replicate 4 (some ⟨100, 0⟩)
    t8 := Vector.replicate 16 (some ⟨false, ⟨false, false, false, false⟩, .oil, .below, 100, 0, 1000, .shutdown, 100⟩)
    t9 := Vector.replicate 16 (some ⟨true, .any, 0, .actAndPass⟩) }

theorem sound_loadedA : loadedA.Sound := by constructor <;> decide
theorem sound_inState {st : PState} (h : st ∈ [PState.off, .starting, .ready, .held, .stopping, .faulted]) : (inState st).Sound := by
  simp only [List.mem_cons, List.not_mem_nil, or_false] at h
  rcases h with h | h | h | h | h | h <;> subst h <;> constructor <;> decide

/-! ## One-step tests: events that meet at one instant, and what follows them -/

/-- A T1 write that ends UNCONFIGURED, the last zero condition, prompts the Planner with the link LOST (R37). -/
theorem test_defining_T1_starts_the_RUN_position :
    ((after (.write ⟨15, 7, 1, 0, 1, unit1.bytes⟩) (withTables
      (stateOf { running with link := .lost, notchT := .stopped } (startable .run)) { startingAt 0 with t1 := none })).pos .A).st
      = .starting := by decide +kernel

/-- With the latch set, the resynchronisation begins its handshake and goes on to STOPPING (R115). -/
theorem test_latched_resync_greets_and_stops :
    let t := after (.sample .A (sampleBytes false)) (stateOf latched { offA with pickup := { offA.pickup with speed := 700 } });
    (t.pos .A).st = .stopping ∧ (t.pos .A).link.setupId = 1 := by decide +kernel

/-- A link lost at the instant of the crank guard's expiry, taken after it, sets the further-fault mark (R101). -/
theorem test_link_lost_with_the_guard_marks_a_further_fault :
    (after (.sampleTimerExpires .A) (atTime (stateOf running overrun) 20000000)).pos .A |>.fault.further := by decide +kernel

/-- The crank guard expires, and a sample of that instant brings the oil pressure under a SHUTDOWN entry without persistence: the
record of the guard stands, with the further-fault mark (R101, log 34). A sample of a later instant brings no mark (R143, R150). -/
theorem test_a_shutdown_at_a_test_with_the_guard_marks_a_further_fault :
    let T := { tables with t8 := tables.t8.set 5 (some tripAtOnce) };
    let s := withBus (withTables (stateOf running (cranking 2)) T)
      { Bus.reset with state := .taken .A, guardT := .running 0 20000000 };
    let t := after .guardTimerExpires s;
    ((after (.sample .A lowOil.wire) t).pos .A).fault = ⟨some .crankOverrun, some 1, some 0, true⟩ ∧
      ((after (.sample .A lowOil.wire) (atTime t 20000001)).pos .A).fault = ⟨some .crankOverrun, some 1, some 0, false⟩ := by
  decide +kernel

/-- A NOTCH at a unit whose UP has no carrier is not received (R155). -/
theorem test_no_carrier_no_notch :
    after (.notch 1 3 3) (onRelay (stateOf running offA) (Relay.reset false true))
      = onRelay (stateOf running offA) (Relay.reset false true) := by decide +kernel

/-- A derate entry for position A that acts at once. -/
def hotDerate : ProtEntry := ⟨true, ⟨true, false, false, false⟩, .coolant, .above, 90, 0, 0, .derate, 70⟩

/-- One sample that settles SPEED_UP and lowers the ceiling: the choice reads the slot after both (R129, R148). -/
theorem test_settling_under_a_lower_ceiling_unloads :
    let T := { scheduled ⟨1, 1, 1250, 560, 100, 200, 2⟩ with t8 := tables.t8.set 0 (some hotDerate) };
    let x := { loadedA with
      load := ⟨some .speedUp, some 1250, some ⟨1250, 560⟩, none, .running 0 3000000, false⟩
      link := { loadedA.link with state := .up, setup := .confirmed } };
    let t := after (.sample .A (Sample.wire ⟨1250, 300, 98, true, false, false, 0, 0⟩))
      (atTime (withTables (stateOf running (driven T x)) T) 1000000);
    (t.pos .A).load.phase = some .loadDown ∧ (t.pos .A).load.phaseTarget = some 392 := by decide +kernel

/-- A ramp completion ends LOAD_DOWN with SPEED_DOWN; a notch fall of the same instant has the choice made anew (R129, log 39). -/
theorem test_a_phase_end_and_a_notch_fall_meet :
    let low : SchedEntry := ⟨1, 1, 1250, 100, 100, 200, 2⟩;
    let T := { tables with t5 := (Vector.replicate 9 (some ⟨1, 1, 1000, 294, 100, 200, 2⟩)).set 1 (some low) };
    let x := { loadedA with
      load := ⟨some .loadDown, some 1250, some ⟨1000, 294⟩, some 294, .stopped, false⟩
      chan := ⟨296, 294, 294, some 4, .ramping⟩ };
    let s := withTables (stateOf { running with requested := 2, demand := 2, resolved := 2 } (driven T x)) T;
    let t := after .periodEnd s;
    let u := after (.notch 1 1 1) t;
    (t.pos .A).load.phase = some .speedDown ∧ (t.pos .A).load.speed = some 1000 ∧
      u.res.resolved = 1 ∧ (u.pos .A).load.phase = some .loadDown ∧ (u.pos .A).load.speed = some 1250 ∧
      (u.pos .A).load.phaseTarget = some 100 ∧ (u.pos .A).chan.duty = 294 ∧ (u.pos .A).load.settleT = .stopped := by
  decide +kernel

/-- A commit that writes a lower load at the notch in force and by its dwell_s raises the notch: the position acts on the target
of the notch reached (R13, R124, log 30). -/
theorem test_a_commit_that_raises_the_notch_acts_on_the_notch_reached :
    let low : SchedEntry := ⟨1, 1, 1250, 100, 100, 200, 1⟩;
    let T := { scheduled ⟨1, 1, 1250, 420, 100, 200, 2⟩ with
      t4 := (Vector.replicate 9 (some { low with loadPermille := 420 })).set 0 (some low) };
    let r := { running with requested := 1, demand := 1, dwell := .running 0, achieve := .expired 0 };
    let t := after (.commit toAll) (atTime (withTables (stateOf r (driven T loadedA)) T) 1000000);
    t.tab.t5 = T.t4 ∧ t.res.resolved = 1 ∧ (t.pos .A).load.slot = some ⟨1250, 420⟩ ∧
      (t.pos .A).load.phase = some .steady ∧ (t.pos .A).chan = loadedA.chan := by decide +kernel

/-- A T2 write at an OFF position in SENT makes its setup UNSET and, the link UP, SENT again: the setup changed, and the Planner is
prompted (R21, R111, R113). -/
theorem test_a_write_that_greets_anew_prompts_the_planner :
    let x := { offA with mode := .out, link := { offA.link with state := .up, setup := .sent } };
    let s := stateOf running (driven tables x);
    let s := { s with block := { s.block with works := { s.block.works with eng := { s.eng with short := true } } } };
    let t := after (.write ⟨15, 7, 2, 0, 1, PosEntry.bytes ⟨true, 0⟩⟩) s;
    (t.pos .A).link.setup = .sent ∧ (t.pos .A).link.setupId = 1 ∧ t.eng.short = false ∧
      (after (.write ⟨15, 7, 9, 0, 1, DispEntry.bytes ⟨true, .any, 0, .actAndPass⟩⟩) s).eng.short = true := by decide +kernel

/-- A retry with no rest turns the fuel off and on: a DRIVE for each change (R73, R80, R109). -/
theorem test_a_retry_without_rest_sends_both_contents :
    let T := { tables with t6 := tables.t6.set 1 (some { crankStep with retryRestS := 0 }) };
    let x := driven T { cranking 1 with link := { offA.link with state := .up, setup := .confirmed } };
    let t := after (.stepTimerExpires .A) (withTables (stateOf running x) T);
    (t.pos .A).link.sending = some (.drive ⟨700, false, false⟩) ∧ (t.pos .A).link.waiting = [.drive] ∧
      (t.pos .A).link.drive = some ⟨700, true, false⟩ := by decide +kernel

/-! ## Witnesses: the hypotheses of each statement, met together -/

theorem witness_StepRunsTheFrontCommand :
    ({ State.reset with pending := [.periodEnd] } : State).pending = Instr.periodEnd :: [] := rfl

theorem witness_EmptyQueueLetsTimePass :
    ((unpowered State.reset).pending = [] ∧ (unpowered State.reset).block.powered = false) ∧
    (let s := { State.reset with block := { State.reset.block with hours := ⟨true, .running 0 0, .running 0 1000000⟩ } };
      s.pending = [] ∧ s.block.powered = true ∧ dueCommands s.block = [.hourHoldTimerExpires]) ∧
    (State.reset.pending = [] ∧ State.reset.block.powered = true ∧ dueCommands State.reset.block = []) := by decide +kernel

theorem witness_WithoutSupplyACommandDoesNothing :
    (unpowered State.reset).block.powered = false ∧ Instr.periodEnd ≠ .supplyDip ∧
      ∀ up down levels, Instr.periodEnd ≠ .powerOnReset up down levels := by
  refine ⟨rfl, by decide, fun _ _ _ h => nomatch h⟩

theorem witness_BothResetsGiveTheResolverItsValues :
    (∃ t, exec .periodEnd State.reset = .next t) ∧ (∀ group value flags, Instr.periodEnd ≠ .notch group value flags) ∧
    State.reset.res.link = .lost ∧ State.reset.res.resolved = 0 ∧ State.reset.res.dwell = .stopped ∧
    State.reset.res.achieve = .stopped ∧ Taken 9 toAll (stateOf running offA) :=
  ⟨⟨_, rfl⟩, (fun _ _ _ h => nomatch h), rfl, rfl, rfl, rfl, by decide +kernel⟩

theorem witness_PowerOnLoadsTheImage :
    ({ NonVol.virgin with image := some tables.image } : NonVol).image = some tables.image ∧ State.reset.nv.image = none := ⟨rfl, rfl⟩

theorem witness_RestartKeepsTablesAddressAndMeters :
    Taken 9 toAll (stateOf running offA) ∧ (stateOf running offA).relay.address ≤ 14 ∧
    (let s := onRelay State.reset { Relay.reset true false with address := 14 };
      Taken 9 { toAll with target := 14 } s ∧ s.relay.address ≤ 14) := by decide +kernel

theorem witness_NotchFrameSetsTheDemand :
    ((stateOf running offA).hears ∧ (dispatch tables .notch 1).acts = true ∧ (dispatch tables .notch 4).acts = true ∧
      (1#8).toNat = 1 ∧ (4#8).toNat = 4 ∧ State.reset.hears ∧ (dispatch State.reset.tab .notch 4).acts = false) ∧
    (stateOf running offA).res.Sound tables := by
  refine ⟨by decide +kernel, ?_⟩
  constructor <;> decide +kernel

theorem witness_LatchFollowsItsTable :
    ((stateOf running offA).hears ∧ (dispatch (stateOf running offA).tab .notch (4#8).toNat).acts = true ∧
      (2#8).getLsbD 1 = true ∧ (1#8).getLsbD 1 = false ∧ (stateOf running offA).res.latch = false ∧
      (∀ st ∈ [PState.held, .unloading],
        (stateOf latched (inState st)).hears ∧ (stateOf latched (inState st)).res.latch = true ∧
          ((stateOf latched (inState st)).pos .A).st = st)) ∧
    (let s := onRelay (stateOf latched offA) (Relay.reset false true);
      (∃ t, exec (.notch 1 3 1) s = .next t) ∧ ¬ s.hears) ∧
    ((∃ t, exec (.notch 1 3 1) State.reset = .next t) ∧ (dispatch State.reset.tab .notch 1).acts = false) ∧
    Taken 9 toAll (stateOf latched offA) ∧
    ((∃ t, exec (.restart { toAll with target := 1 }) (stateOf latched offA) = .next t) ∧
      ¬ Taken 9 { toAll with target := 1 } (stateOf latched offA)) ∧
    ((∃ t, exec .periodEnd (stateOf latched offA) = .next t) ∧
      (∀ group value flags, Instr.periodEnd ≠ .notch group value flags) ∧
      (∀ up down levels, Instr.periodEnd ≠ .powerOnReset up down levels) ∧ ∀ r, Instr.periodEnd ≠ .restart r) ∧
    (stateOf latched offA).eng.res.latch = true ∧
    (let s := stateOf latched (inState .ready);
      exec .periodEnd s = .next (after .periodEnd s) ∧ s.eng.Sound ∧ s.res.latch = true ∧
        (after .periodEnd s).res.latch = true ∧ ((after .periodEnd s).pos .A).st = .ready) := by
  refine ⟨by decide +kernel, ⟨⟨_, rfl⟩, by decide +kernel⟩, ⟨⟨_, rfl⟩, by decide +kernel⟩, by decide +kernel,
    ⟨⟨_, rfl⟩, by decide +kernel⟩, ⟨⟨_, rfl⟩, fun _ _ _ h => (nomatch h), fun _ _ _ h => (nomatch h), fun _ h => (nomatch h)⟩,
    rfl, rfl, stateOf_sound (sound_inState (by decide)), rfl, by decide +kernel, by decide +kernel⟩

theorem witness_NotchTimerExpiryLosesTheLink :
    (stateOf running offA).block.powered = true ∧ (stateOf running offA).res.notchT = .running 0 2000000 ∧
      (stateOf running offA).res.link = .live := by decide +kernel

theorem witness_EmergencyStopsEveryRunningEngine :
    (stateOf running (inState .ready)).hears ∧ (dispatch tables .notch 1).acts = true ∧ (2#8).getLsbD 1 = true ∧
    (stateOf running (inState .ready)).res.latch = false ∧ ((stateOf running (inState .ready)).pos .A).st = .ready ∧
    ((stateOf running (inState .ready)).pos .B).st = .absent ∧ (stateOf running (inState .ready)).eng.Sound :=
  ⟨by decide +kernel, by decide +kernel, by decide, rfl, rfl, rfl, stateOf_sound (sound_inState (by decide))⟩

theorem witness_DwellAndAchieveExpiriesRaiseTheNotch :
    (let s := stateOf { running with requested := 3, demand := 3, dwell := .running 0, achieved := true } offA;
      s.block.powered = true ∧ s.res.dwell = .running 0 ∧ s.tab.dwellLimit s.res.resolved = some 2000000 ∧
      s.block.works.commitPending = false ∧ (holdingConds s.tab s.res).any = false ∧ s.res.resolved < s.res.demand) ∧
    (let s := stateOf { running with requested := 3, demand := 3, dwell := .expired 0, achieve := .running 0 } offA;
      s.block.powered = true ∧ s.res.achieve = .running 0 ∧ s.tab.achieveLimit = some 20000000 ∧
      s.block.works.commitPending = false ∧ (holdingConds s.tab s.res).any = false ∧ s.res.dwell.isExpired = true) := by
  decide +kernel

theorem witness_LingerExpiryStopsTheEngine :
    ∀ x ∈ [(running, Mode.out), ({ running with runRequest := false, runPerm := false }, Mode.run)],
    let s := stateOf x.1 { inState .ready with mode := x.2, lingerT := .running 0 30000000 };
    s.block.powered = true ∧ (s.pos .A).lingerT = .running 0 30000000 ∧ (s.pos .A).st = .ready ∧
      ((s.pos .A).mode = .out ∨ s.res.runPerm = false) := by decide +kernel

theorem witness_ModeRequestsSetTheModes :
    (∀ m ∈ [Mode.auto, .run, .out], RequestTaken (modeByte m) 4 15 4 (stateOf running offA)) ∧
    ((stateOf running offA).hears ∧ (engineReqFrame 1 1 0 (modeByte .run)).ok = true ∧
      ((dispatch tables .engineReq 1).acts && (stateOf running offA).relay.addressed 1) = false) ∧
    (∀ T ∈ [tables, startingAt 5, startingAt 0],
      let s := withTables (stateOf running (startable .out)) T;
      RequestTaken 1 1 15 0 s ∧ Pos.A ∈ positionsNamed 0 ∧ (s.pos .A).st = .off ∧ (s.pos .A).mode ≠ .run ∧
        (s.pos .A).link.setup = .confirmed ∧ (s.pos .A).link.localSet = false ∧ (s.tab.profile .A).isSome = true ∧ s.staged) ∧
    chooseProgram tables (some 20) = none ∧ chooseProgram (startingAt 5) (some 20) = some ⟨100, 5⟩ ∧
    (startingAt 5).stepRec 5 = none ∧ chooseProgram (startingAt 0) (some 20) = some ⟨100, 0⟩ ∧
    ((checkEntry (startingAt 0) 1 0).map fun r => entryMeets (startingAt 0) .A (startable .out) r) = some false ∧
    ((startingAt 0).t7[3] = some ⟨100, 0⟩ ∧ (100 : Int) ≤ 100 ∧
      ∀ (j : Fin 4) (y : SelectEntry), j < 3 → (startingAt 0).t7[j] = some y → y.upperC < 100) ∧
    (∀ (j : Fin 4) (y : SelectEntry), (startingAt 0).t7[j] = some y → y.upperC < 101) ∧
    ∀ T, (withTables (stateOf running (startable .out)) T).eng.Sound := by
  refine ⟨by decide +kernel, by decide +kernel, by decide +kernel, by decide +kernel, by decide +kernel, by decide +kernel,
    by decide +kernel, by decide +kernel, ⟨by decide, by decide, ?_⟩, ?_, fun T => stateOf_sound (by constructor <;> decide)⟩
  · intro j y h e
    have : j = 0 ∨ j = 1 ∨ j = 2 := by omega
    rcases this with rfl | rfl | rfl <;> cases e
  · intro j y e
    have : j = 0 ∨ j = 1 ∨ j = 2 ∨ j = 3 := by omega
    rcases this with rfl | rfl | rfl | rfl <;> cases e <;> decide

theorem witness_FaultResetClearsOrIsRefused :
    (let s := stateOf running (inState .faulted);
      RequestTaken 3 1 15 4 s ∧ Pos.A ∈ positionsNamed 4 ∧ (s.pos .A).st = .faulted ∧ (s.pos .A).pickup.speed = 0 ∧
        (s.pos .A).unstartable s.res) ∧
    (let s := stateOf running { inState .faulted with pickup := { offA.pickup with speed := 1 } };
      RequestTaken 3 1 15 0 s ∧ Pos.A ∈ positionsNamed 0 ∧ (s.pos .A).st = .faulted ∧ (s.pos .A).pickup.speed ≠ 0) := by
  decide +kernel

theorem witness_HoldAndStopLimitsFaultThePosition :
    (let s := stateOf running { inState .held with holdT := .running 0 60000000 };
      s.block.powered = true ∧ (s.pos .A).st = .held ∧ (s.pos .A).holdT = .running 0 60000000) ∧
    (let s := stateOf running { inState .stopping with stopT := .running 0 30000000 };
      s.block.powered = true ∧ (s.pos .A).st = .stopping ∧ (s.pos .A).stopT = .running 0 30000000) := by decide +kernel

theorem witness_StepLimitFailsOrRests :
    (∀ retries ∈ [0, 1],
      let s := stateOf running (cranking retries);
      s.block.powered = true ∧ (s.pos .A).st = .starting ∧
        (s.pos .A).ctx = some ⟨1, .runningStep, retries, 2, .running 0 15000000, .stopped, false, false⟩ ∧
        s.tab.stepRec 1 = some crankStep ∧ crankStep.onLimit = .fail ∧ 0 < crankStep.retryRestS ∧ (s.pos .A).mode = .run ∧
        s.staged) ∧
    (∀ visited ∈ [1, 31],
      let s := stateOf running (purging visited);
      s.block.powered = true ∧ (s.pos .A).st = .starting ∧
        (s.pos .A).ctx = some ⟨0, .runningStep, 0, visited, .running 0 5000000, .stopped, false, false⟩ ∧
        s.tab.stepRec 0 = some purgeStep ∧ purgeStep.onLimit = .pass ∧ purgeStep.next ≠ 127 ∧
        checkEntry s.tab (visited + 1) purgeStep.next = some crankStep ∧
        entryMeets s.tab .A (s.pos .A) crankStep = false ∧ (s.pos .A).mode = .run ∧ s.staged) ∧
    (let s := withTables (stateOf running { purging 1 with causes := ⟨false, false, true, false, false⟩ })
        { tables with t6 := tables.t6.set 0 (some { purgeStep with next := 127 }) };
      s.block.powered = true ∧ s.tab.stepRec 0 = some { purgeStep with next := 127 } ∧
        (s.pos .A).causes.isEmpty = false ∧ s.res.latch = false) := by decide +kernel

theorem witness_RetryRestEndsInTheSameStep :
    let s := stateOf running resting;
    s.block.powered = true ∧ (s.pos .A).st = .starting ∧
      (s.pos .A).ctx = some ⟨1, .retryRest, 1, 2, .stopped, .running 0 30000000, false, false⟩ ∧
      checkEntry s.tab 2 1 = some crankStep ∧ entryMeets s.tab .A (s.pos .A) crankStep = false ∧ (s.pos .A).mode = .run ∧
      s.staged := by decide +kernel

theorem witness_RestEndsInAGrantOrFree :
    ∀ waits ∈ [false, true],
    let s := withBus (stateOf running (heard { cranking 2 with
      link := { offA.link with state := .lost, drive := some ⟨700, true, false⟩ } }))
      { Bus.reset with state := .rest, restT := .running 0 10000000, requesters := ⟨waits, false, false, false⟩ };
    s.block.powered = true ∧ s.block.works.quiet = true ∧ s.eng.bus.state = .rest ∧
      s.eng.bus.restT = .running 0 10000000 ∧
      firstRequester s.eng.bus.requesters s.eng.bus.pointer = (if waits then some .A else none) ∧
      s.tab.t1 = some unit1 ∧ s.tab.stepRec 1 = some crankStep := by decide +kernel

theorem witness_GuardExpiryFailsTheHolder :
    (let s := withBus (stateOf running (cranking 2)) { Bus.reset with state := .taken .A, guardT := .running 0 20000000 };
      s.block.powered = true ∧ s.eng.bus.state = .taken .A ∧ s.eng.bus.guardT = .running 0 20000000 ∧
        (s.pos .A).st = .starting ∧ (s.pos .A).ctx.isSome = true) ∧
    (let s := atTime (stateOf running overrun) 20000000;
      s.block.powered = true ∧ (s.pos .A).failedAt s.eng.now = true ∧
        (s.pos .A).link.sampleT = .running 15000000 5000000 ∧ 15000000 + 5000000 ≤ s.eng.now) ∧
    (∀ en ∈ [{ tripAtOnce with minRpm := 300 }, tripAtOnce],
      let T := { tables with t8 := tables.t8.set 5 (some en) };
      let x := { overrun with pickup := { overrun.pickup with speed := 300, zeroT := .running 19500000 500000 } };
      let s := atTime (withTables (stateOf running x) T) 20000000;
      s.block.powered = true ∧ (s.pos .A).failedAt s.eng.now = true ∧ (s.pos .A).prot[(5 : Fin 16)] = ⟨.stopped, false⟩ ∧
        sampleOfRaw lowOil.wire = some lowOil ∧ s.tab.inForce .A 5 = some en ∧ en.minRpm ≤ (s.pos .A).pickup.speed ∧
        en.holdsOn (lowOil.quantity en.quantity) = true ∧ (s.pos .A).pickup.zeroT = .running 19500000 500000 ∧
        s.tab.profile .A = some profile1) ∧
    ({ tripAtOnce with quantity := .pickupSpeed } : ProtEntry).holdsOn 0 = true ∧ tripAtOnce.action = .shutdown ∧
    tripAtOnce.persistMs = 0 ∧ tripAtOnce.quantity.ofStation = true ∧
    ({ overrun with failedStart := some ⟨20000000, [], true⟩ } : Position).failedStart.any (·.watch) = true := by
  decide +kernel

theorem witness_AtMostOneCrankLineIsClosed :
    (withBus (stateOf running (cranking 2)) { Bus.reset with state := .taken .A }).block.crankClosed .A = true := by decide +kernel

theorem witness_LinesFollowTheState :
    ((stateOf running loadedA).block.powered = true ∧ (stateOf running loadedA).block.works.eng.Sound ∧
      (stateOf running loadedA).tab.profile .C = none) ∧
    (let b := (withBus (stateOf running (cranking 2)) { Bus.reset with state := .taken .A }).block;
      b.crankClosed .A = true ∧ b.crankClosed .B = false ∧ (b.works.tab.stepRec 1).map (·.kind) = some .crank) ∧
    (∀ elapsed ∈ [0, 8399, 8400, 19999],
      let b := (atTime (stateOf running loadedA) elapsed).block;
      b.powered = true ∧ b.works.eng.pwm.timer = .running 0 20000 ∧ b.works.eng.now = 0 + elapsed ∧ elapsed < 20000 ∧
        (elapsed * 1000 < (b.works.eng.at .A).chan.duty * 20000 ↔ elapsed < 8400)) ∧
    ((∃ t, step (stateOf running offA) = .next t) ∧
      ∀ p ∈ Pos.all, ((stateOf running offA).pos p).link.drive =
        driveContent (stateOf running offA).tab p ((stateOf running offA).pos p)) ∧
    (∀ x ∈ [offA, Position.reset .isolated none .low 0, inState .stopping, inState .faulted, inState .ready, inState .held,
        loadedA, { loadedA with st := .unloading }, resting, cranking 1, purging 1],
      let s := stateOf running (driven tables x);
      (s.pos .A).link.drive = driveContent s.tab .A (s.pos .A) ∧ s.tab.profile .A = some profile1 ∧ (s.pos .A).st = x.st ∧
        ((s.pos .A).ctx.bind fun c => s.tab.stepRec c.ptr).isSome = (x.st == .starting) ∧
        (s.pos .A).load.speed.isSome = x.st.loaded) ∧
    ((stateOf running offA).pos .C).link.drive = driveContent tables .C ((stateOf running offA).pos .C) ∧
    tables.profile .C = none := by
  exact ⟨⟨rfl, stateOf_sound sound_loadedA, by decide⟩, by decide +kernel, by decide +kernel, ⟨⟨_, rfl⟩, by decide +kernel⟩,
    by decide +kernel, by decide +kernel, by decide +kernel⟩

theorem witness_ValidSampleIsTaken :
    ((stateOf running offA).block.powered = true ∧ (sampleOfRaw (sampleBytes false)).isSome = true ∧
      ((stateOf running offA).pos .A).st ≠ .absent ∧ ((stateOf running offA).pos .A).st ≠ .isolated) ∧
    (∀ speed ∈ [0, 349, 350],
      let s := stateOf running { offA with pickup := { offA.pickup with speed := speed } };
      (s.pos .A).st = .off ∧ (s.pos .A).link.state ≠ .up ∧ (s.pos .A).link.setup = .unset ∧
        s.tab.profile .A = some profile1 ∧ (s.pos .A).link.drive = some ⟨profile1.idleRpm, false, false⟩ ∧
        (s.pos .A).link.sending = none ∧ (s.pos .A).link.waiting = [] ∧ s.res.latch = false ∧
        ((s.pos .A).pickup.speed < profile1.runningRpm ↔ speed < 350)) ∧
    ((sampleOfRaw (Sample.wire ⟨349, 0, 20, false, false, false, 0, 0⟩)).map (·.speedRpm)) = some 349 ∧
    ((sampleOfRaw (sampleBytes true)).map (·.speedRpm)) = some 1250 ∧
    (stateOf running offA).eng.Sound :=
  ⟨by decide +kernel, by decide +kernel, by decide +kernel, by decide +kernel, stateOf_sound (sound_inState (st := .off) (by decide))⟩

theorem witness_OtherSamplesAreIgnored :
    (stateOf running offA).block.powered = true ∧ (stateOf running offA).block.works.quiet = true ∧ sampleOfRaw [] = none ∧
      ((stateOf running offA).pos .D).st = .absent ∧
      (let s := stateOf running (Position.reset .isolated none .low 0);
        s.block.works.quiet = true ∧ (s.pos .A).st = .isolated) := by decide +kernel

theorem witness_LocalFlagHoldsTheEngine :
    (stateOf running loadedA).block.powered = true ∧ ((sampleOfRaw (sampleBytes true)).map (·.localPanel)) = some true ∧
    (stateOf running loadedA).res.latch = false ∧ (∀ i, (stateOf running loadedA).tab.inForce .A i = none) ∧
    ((stateOf running loadedA).pos .A).st = .online ∧ (stateOf running loadedA).eng.Sound :=
  ⟨rfl, by decide +kernel, rfl, by decide +kernel, rfl, stateOf_sound sound_loadedA⟩

/-- A position in a state with its sample timer running. -/
def supervised (x : Position) : Position := { x with link := { x.link with state := .up, sampleT := .running 0 5000000 } }

theorem witness_SampleTimerExpiryLosesTheStation :
    (∀ x ∈ [offA, cranking 2, inState .ready, inState .held],
      let s := stateOf running (supervised x);
      s.block.powered = true ∧ (s.pos .A).link.sampleT = .running 0 5000000 ∧ (s.pos .A).st ≠ .absent ∧
        (s.pos .A).st ≠ .isolated ∧ s.res.latch = false) ∧
    ∀ x ∈ [offA, cranking 2, inState .ready, inState .held], (stateOf running (supervised x)).eng.Sound := by
  refine ⟨by decide +kernel, fun x hx => stateOf_sound ?_⟩
  simp only [List.mem_cons, List.not_mem_nil, or_false] at hx
  rcases hx with h | h | h | h <;> subst h <;> constructor <;> decide

theorem witness_ConfirmExpiryRepeatsOrFails :
    ∀ attempts ∈ [2, 3], ∀ frames ∈ [(none, []), (some StationFrame.clear, [StationWait.drive])],
    ∀ x ∈ [offA, { inState .held with causes := ⟨false, true, false, false, false⟩ }],
    let s := stateOf running (driven tables { x with link := { offA.link with
      state := .up, setup := .sent, attempts := attempts, confirmT := .running 0 1000000, sending := frames.1,
      waiting := frames.2 } });
    s.block.powered = true ∧ s.tab.profile .A = some profile1 ∧ (s.pos .A).link.confirmT = .running 0 1000000 ∧
      (s.pos .A).link.setup = .sent ∧ (s.pos .A).link.attempts = attempts ∧ (s.pos .A).st = x.st ∧
      s.block.works.quiet = true ∧ (s.pos .A).link.state = .up ∧ (s.pos .A).link.drive.isSome = true ∧
      (s.pos .A).link.sending = frames.1 ∧ (s.pos .A).link.waiting = frames.2 := by decide +kernel

theorem witness_RefreshSendsDrive :
    ∀ sending ∈ [none, some StationFrame.clear],
    let s := stateOf running { offA with link := { offA.link with
      state := .up, setup := .confirmed, refreshT := .running 0 200000, sending := sending } };
    s.block.powered = true ∧ s.block.works.quiet = true ∧ (s.pos .A).link.refreshT = .running 0 200000 ∧
      (s.pos .A).link.state = .up ∧ (s.pos .A).link.drive = some ⟨700, false, false⟩ ∧ (s.pos .A).link.sending = sending ∧
      (s.pos .A).link.waiting = [] := by decide +kernel

theorem witness_StationFramesFollowInOrder :
    ∀ waiting ∈ [[], [StationWait.drive], [StationWait.clear]],
    let s := stateOf running { offA with link := { offA.link with sending := some .clear, waiting := waiting } };
    s.block.powered = true ∧ s.block.works.quiet = true ∧ (s.pos .A).link.waiting = waiting := by decide +kernel

theorem witness_DisagreementHoldsTheEngine :
    (∀ st ∈ [PState.ready, .held],
      let s := stateOf running { inState st with link := { offA.link with disagreeT := .running 0 3000000 } };
      s.block.powered = true ∧ (s.pos .A).link.disagreeT = .running 0 3000000 ∧ (s.pos .A).st = st ∧ s.res.latch = false) ∧
    ∀ st ∈ [PState.ready, .held],
      (stateOf running { inState st with link := { offA.link with disagreeT := .running 0 3000000 } }).eng.Sound := by
  refine ⟨by decide +kernel, fun st h => stateOf_sound ?_⟩
  simp only [List.mem_cons, List.not_mem_nil, or_false] at h
  rcases h with h | h <;> subst h <;> constructor <;> decide

theorem witness_LevelChangeStartsTheFilter :
    (stateOf running offA).block.powered = true ∧ Level.low = ((stateOf running offA).pos .A).pickup.input ∧
    (let s := stateOf running { offA with pickup := { offA.pickup with input := .high, filterT := .running 0 16 } };
      Level.low ≠ (s.pos .A).pickup.input ∧ Level.low = (s.pos .A).pickup.accepted) ∧
    (let s := stateOf running offA;
      Level.high ≠ (s.pos .A).pickup.input ∧ Level.high ≠ (s.pos .A).pickup.accepted ∧ s.tab.profile .A = some profile1 ∧
        (s.pos .A).st ≠ .absent) := by decide +kernel

theorem witness_FilterExpiryAcceptsTheLevel :
    (∀ level ∈ [Level.high, .low],
      let s := stateOf running { offA with pickup := { offA.pickup with
        input := level, accepted := (if level = .high then .low else .high), filterT := .running 0 16 } };
      s.block.powered = true ∧ s.tab.profile .A = some profile1 ∧ (s.pos .A).st ≠ .absent ∧
        (s.pos .A).pickup.filterT = .running 0 16 ∧ (s.pos .A).pickup.input = level ∧
        (level = .high → (s.pos .A).pickup.accepted = .low)) ∧
    (∀ st ∈ [PState.ready, .faulted],
      let s := atTime (stateOf running (rising st (some 16))) 250;
      (s.pos .A).st = st ∧ profile1.overspeedRpm ≤ ((after (.filterTimerExpires .A) s).pos .A).pickup.speed) ∧
    (∀ st ∈ [PState.ready, .online, .unloading],
      let s := stateOf running (rising st none);
      (s.pos .A).st = st ∧ ((after (.filterTimerExpires .A) s).pos .A).pickup.speed < profile1.overspeedRpm ∧
        ((after (.filterTimerExpires .A) s).pos .A).pickup.speed < profile1.runningRpm) := by decide +kernel

theorem witness_PickupSpeedAveragesTheHistory :
    ∀ history ∈ [[1], List.replicate 16 500], 0 < 120 ∧ 1 ≤ history.length ∧ history.length ≤ 16 ∧ 0 < history.sum := by decide

theorem witness_ZeroSpeedClearsThePickup :
    (∀ st ∈ [PState.stopping, .held, .ready, .online, .unloading],
      let s := stateOf running (slowed (inState st));
      s.block.powered = true ∧ (s.pos .A).pickup.zeroT = .running 0 500000 ∧ s.tab.profile .A = some profile1 ∧
        0 < profile1.overspeedRpm ∧ 0 < profile1.runningRpm ∧ (s.pos .A).st = st ∧ (s.pos .A).pickup.speed ≠ 0 ∧
        (s.pos .A).unstartable s.res ∧ (s.pos .A).causes.localPanel = false) ∧
    (let s := stateOf running (slowed { inState .held with causes := ⟨false, false, true, false, false⟩ });
      (s.pos .A).causes.localPanel = true ∧ (∀ i, s.tab.inForce .A i = none) ∧ (s.pos .A).unstartable s.res) ∧
    (let c : StepCtx := ⟨1, .runningStep, 0, 2, .running 0 15000000, .stopped, false, true⟩;
      let s := stateOf running (slowed { cranking 0 with ctx := some c });
      (s.pos .A).st = .starting ∧ (s.pos .A).ctx = some c ∧ c.watch = true ∧ c.sub ≠ .retryRest) ∧
    (stateOf running (slowed (inState .stopping))).eng.Sound := by
  refine ⟨by decide +kernel, by decide +kernel, by decide +kernel, stateOf_sound ?_⟩
  constructor <;> decide

theorem witness_SettleExpiryEndsThePhaseLate :
    (let s := stateOf running slowing;
      s.block.powered = true ∧ (s.pos .A).load.settleT = .running 0 3000000 ∧ (s.pos .A).st = .unloading ∧
        (s.pos .A).load.slot = some ⟨700, 0⟩ ∧ (s.pos .A).load.speed = some 700 ∧ 0 < (s.pos .A).chan.duty ∧
        s.tab.active s.res.resolved = some idleEntry) ∧
    (∀ v ∈ [(Phase.speedDown, 420, 700), (.speedUp, 0, 1000), (.speedDown, 300, 1000), (.speedDown, 0, 700), (.speedDown, 299, 700)],
      let entry : SchedEntry := { idleEntry with loadPermille := 300 };
      let s := withTables (stateOf running (driven (scheduled entry) { loadedA with
        load := ⟨some v.1, some v.2.2, some ⟨700, 300⟩, none, .running 0 3000000, false⟩
        chan := { loadedA.chan with duty := v.2.1 } })) (scheduled entry);
      s.block.powered = true ∧ (s.pos .A).load.settleT = .running 0 3000000 ∧ (s.pos .A).st = .online ∧
        s.block.works.quiet = true ∧ (s.pos .A).load.phase = some v.1 ∧ (s.pos .A).load.slot = some ⟨700, 300⟩ ∧
        (s.pos .A).load.speed = some v.2.2 ∧ s.tab.profile .A = some profile1 ∧
        s.tab.active s.res.resolved = some entry ∧ (300 ≠ v.2.1 ∨ 700 ≠ v.2.2)) ∧
    (∀ st ∈ [PState.online, .unloading],
      let s := stateOf running { loadedA with st := st };
      (s.eng.at .A).load.slot = some ⟨1250, 420⟩ ∧ (s.eng.at .A).load.speed = some 1250 ∧ (s.eng.at .A).chan.duty = 420 ∧
        (s.eng.at .A).st = st ∧ belowRunning s.tab .A (s.eng.at .A).pickup.speed = false) := by decide +kernel

/-- A ramping ONLINE position. -/
def rampingA : Position :=
  { loadedA with load := { loadedA.load with phase := some .loadUp, slot := some ⟨1250, 460⟩, phaseTarget := some 460 },
                 chan := ⟨420, 422, 460, some 2, .ramping⟩ }

theorem witness_PeriodEndMovesTheDuties :
    (let s := stateOf running rampingA;
      s.block.powered = true ∧ s.eng.pwm.timer = .running 0 20000 ∧ s.tab.pwmPeriod = s.eng.pwm.periodMs ∧
        (∀ p ∈ Pos.all, (s.pos p).chan.completes = false) ∧ (s.pos .A).st ≠ .unloading) ∧
    (let s := withTables (stateOf running rampingA) { tables with t1 := some { unit1 with pwmPeriodMs := 10 } };
      s.eng.pwm.timer = .running 0 20000 ∧ s.tab.pwmPeriod ≠ s.eng.pwm.periodMs ∧ s.tab.active s.res.resolved = some idleEntry ∧
        (s.pos .A).st = .online ∧ (s.pos .A).chan.state = .ramping) ∧
    (stateOf running rampingA).eng.Sound := by
  refine ⟨by decide +kernel, by decide +kernel, stateOf_sound ?_⟩
  constructor <;> decide

theorem witness_RampReachesItsTargetInSteps :
    Channel.reset.duty < 1 ∧ 0 < loadedA.chan.duty ∧ 420 = loadedA.chan.duty := by decide

theorem witness_PromotionChoosesThePhase :
    ∀ x ∈ [(⟨0, 0, 700, 0, 100, 200, 2⟩ : SchedEntry), ⟨1, 1, 700, 300, 100, 200, 2⟩, ⟨1, 1, 1000, 300, 100, 200, 2⟩],
    let s := withTables (stateOf running (inState .ready)) { tables with t5 := Vector.replicate 9 (some x) };
    (s.eng.at .A).st = .ready ∧ (s.eng.at .A).chan.duty = 0 ∧ s.tab.profile .A = some profile1 ∧
      s.tab.active s.eng.res.resolved = some x := by decide +kernel

theorem witness_PersistenceExpiryActs :
    (∀ i ∈ [(0 : Fin 16), 1, 2], ∀ st ∈ [PState.ready, .held],
      let s := stateOf running (timing { inState st with causes := if st = .held then ⟨false, true, false, false, false⟩ else .none } i);
      s.block.powered = true ∧ (s.pos .A).prot[i].timer = .running 0 1000000 ∧ (s.pos .A).prot[i].active = false ∧
        (s.tab.t8[i]).isSome = true ∧ (s.pos .A).unload s.tab = false ∧ s.res.latch = false ∧ (s.pos .A).st ≠ .faulted ∧
        (st = .held → (s.pos .A).causes.isEmpty = false)) ∧
    (stateOf running (timing (inState .ready) 1)).eng.Sound ∧
    (∀ v ∈ [(Phase.speedUp, 420), (.loadUp, 295), (.loadUp, 294), (.speedDown, 420), (.loadDown, 420)],
      let s := withTables (stateOf running (derating v.1 v.2)) (scheduled ⟨1, 1, 1250, 420, 100, 200, 2⟩);
      s.block.powered = true ∧ (s.pos .A).prot[(2 : Fin 16)].timer = .running 0 1000000 ∧
        ((s.tab.t8[(2 : Fin 16)]).map (·.action)) = some .derate ∧ (s.pos .A).st = .online ∧ s.block.works.quiet = true ∧
        (s.pos .A).load.phase = some v.1 ∧ v.1 ≠ .steady ∧ s.tab.profile .A = some profile1 ∧
        (s.tab.active s.res.resolved).isSome = true ∧ (s.pos .A).load.speed ≠ none ∧ (s.pos .A).deratePct s.tab = none ∧
        min 420 (420 * 70 / 100) = 294 ∧ (s.pos .A).load.slot ≠ some ⟨max 700 (min 1250 1800), 294⟩ ∧
        (s.pos .A).endAt (after (.persistenceTimerExpires .A 2) s).eng.now = none) ∧
    (∀ v ∈ [(420, .loadDown, 1000), (294, .speedUp, 1000), (294, .speedDown, 1300), (293, .loadUp, 1250)],
      let T := scheduled ⟨1, 1, 1250, 420, 100, 200, 2⟩;
      let s := withTables (stateOf running { derating .loadDown v.1 with phaseEnd := some ⟨1000000, some v.2.2⟩ }) T;
      s.block.works.quiet = true ∧ (s.pos .A).endAt (after (.persistenceTimerExpires .A 2) s).eng.now =
          some ⟨1000000, some v.2.2⟩ ∧
        choice ⟨max 700 (min 1250 1800), 294⟩ v.1 v.2.2 = v.2.1 ∧ v.2.1 ≠ .steady) ∧
    (let e := (stateOf running { loadedA with phaseEnd := some ⟨0, some 1250⟩ }).eng;
      (e.at .A).st = .online ∧ (e.at .A).endAt e.now = some ⟨0, some 1250⟩ ∧ (e.at .A).load.slot = some ⟨1250, 420⟩ ∧
        choice ⟨1250, 420⟩ (e.at .A).chan.duty 1250 = .steady) ∧
    (stateOf running { derating .loadDown 420 with phaseEnd := some ⟨1000000, some 1000⟩ }).eng.Sound ∧
    ∀ v ∈ [(Phase.speedUp, 420), (.loadDown, 420)],
      (withTables (stateOf running (derating v.1 v.2)) (scheduled ⟨1, 1, 1250, 420, 100, 200, 2⟩)).eng.Sound := by
  refine ⟨by decide +kernel, stateOf_sound ?_, by decide +kernel, by decide +kernel, by decide +kernel, stateOf_sound ?_,
    fun v hv => ?_⟩
  · constructor <;> decide
  · constructor <;> decide
  · simp only [List.mem_cons, List.not_mem_nil, or_false] at hv
    rcases hv with h | h <;> subst h <;> refine stateOf_sound (r := running) ?_ <;> constructor <;> decide

theorem witness_RunHoursAccumulate :
    (∀ acc ∈ [0, 358, 359],
      let s := withMeter ⟨8124, acc, false⟩ State.reset.hours;
      s.block.powered = true ∧ s.hours.tickT = .running 0 1000000 ∧ counts s.tab .A (s.pos .A) = true ∧
        counts s.tab .B (s.pos .B) = false ∧ s.hours.hold = false) ∧
    (let s := withMeter ⟨999999, 359, true⟩ ⟨true, .running 0 10000000, .running 0 1000000⟩;
      counts s.tab .A (s.pos .A) = true ∧ s.hours.hold = true) := by decide +kernel

theorem witness_HourHoldBeginsAndEnds :
    Ran 5 toAll State.reset ∧ Ran 6 toAll State.reset ∧ State.reset.hours.hold = false ∧
    (let s := withMeter ⟨999999, 359, true⟩ ⟨true, .running 0 10000000, .running 0 1000000⟩;
      Ran 6 toAll s ∧ s.hours.hold = true ∧ s.hours.holdT = .running 0 10000000 ∧ (s.pos .A).meter.pendingInc = true ∧
        (s.pos .B).meter.pendingInc = false) := by decide +kernel

theorem witness_DiscardedFramesAreCounted :
    State.reset.block.powered = true ∧ State.reset.relay.upCarrier = true ∧
    discarded .up [] = true ∧ discarded .up (notchFrame 1 3 1).wire = false ∧
    (Instr.notch 0 3 1).frame = some (notchFrame 0 3 1) ∧ (notchFrame 0 3 1).ok = false ∧ (notchFrame 5 3 1).ok = false ∧
    (Instr.notch 0 3 1).kindOk = true ∧ (Instr.notch 0 3 1).opOk = true ∧ arrivalPort (.notch 0 3 1) = .up ∧
    (let s := onRelay State.reset (Relay.reset false true);
      s.block.powered = true ∧ s.relay.upCarrier = false ∧
      ∀ c ∈ [Instr.notch 1 3 1, .enumerate 3, .poll 1 15, .badFrame .up [], .unknownKind .up 0x55 []],
        arrives c = true ∧ arrivalPort c = .up) := by decide +kernel

theorem witness_UpstreamAndUnknownFramesAreQueued :
    State.reset.block.powered = true ∧ State.reset.relay.upCarrier = true ∧ (List.replicate 120 0#8).length ≤ 120 ∧
      knownKind 0x55 = false ∧ knownKind 0x10 = true ∧
      (⟨upKindByte .status, List.replicate 71 0⟩ : Frame).ok = true ∧
      (⟨upKindByte .mgmtReply, List.replicate 6 0⟩ : Frame).ok = true := by decide +kernel

theorem witness_QueuesHoldTheirFrames :
    (Relay.reset true true).Serving ∧ (Relay.reset false false).Serving ∧
    ({ Relay.reset true true with downTx := some ⟨0x55, []⟩, downQ := List.replicate 4 ⟨0x55, []⟩,
                                  upTx := some (.relay, ⟨0x55, []⟩), upQ := List.replicate 7 ⟨0x55, []⟩ } : Relay).Serving ∧
    ({ Relay.reset true true with downTx := some ⟨0x55, []⟩, downQ := List.replicate 3 ⟨0x55, []⟩,
                                  upTx := some (.relay, ⟨0x55, []⟩), upQ := List.replicate 6 ⟨0x55, []⟩ } : Relay).Serving := by
  refine ⟨?_, ?_, ?_, ?_⟩ <;> constructor <;> decide

theorem witness_EnumerateSetsTheAddress : State.reset.hears := by decide

theorem witness_PollQueuesAStatus :
    (pollFrame 1 1).ok = true ∧ (pollFrame 4 15).ok = true ∧ Pos.ofNat? 0 = some .A ∧ Pos.ofNat? 3 = some .D ∧
    (let s := stateOf running offA;
      s.hears ∧ ((dispatch s.tab .poll 4).acts && s.relay.addressed 15) = true ∧ s.relay.hasRoom = true ∧
        ((dispatch s.tab .poll 1).acts && s.relay.addressed 1) = false) ∧
    (noRoom.hears ∧ ((dispatch noRoom.tab .poll 4).acts && noRoom.relay.addressed 15) = true ∧
      noRoom.relay.hasRoom = false) := by decide +kernel

theorem witness_PortEventsServeTheQueues : State.reset.block.powered = true := rfl

/-- A WRITE of one entry. -/
def writeOne (table first : Byte) (entries : List Byte) : MgmtReq := ⟨15, 7, table, first, 1, entries⟩

theorem witness_RefusedWritesChangeNothing :
    let s := stateOf running (cranking 2)
    (∀ r ∈ [writeOne 0 0 [], writeOne 11 0 [], writeOne 1 1 [], { writeOne 4 8 [] with count := 2 }, writeOne 5 8 [],
        writeOne 10 3 [], writeOne 6 63 [], writeOne 7 3 [], writeOne 2 0 [], writeOne 4 8 [], writeOne 8 15 [], writeOne 9 15 []],
      Ran 1 r s ∧ (checkWrite s.block r matches .error _)) ∧
    tableSize 11 = none ∧ tableSize 1 = some 1 ∧ tableSize 4 = some 9 ∧ tableSize 10 = some 4 ∧ s.hours.hold = false ∧
    (s.pos .A).st = .starting ∧ Pos.ofNat? 0 = some .A ∧ s.block.saving = none ∧
    Ran 1 (writeOne 4 8 []) (savingState s) ∧ (savingState s).block.saving ≠ none := by decide +kernel

/-- An UNLOAD entry for position A. -/
def unloadEntry : ProtEntry := ⟨true, ⟨true, false, false, false⟩, .oil, .below, 100, 0, 1000, .unload, 0⟩

/-- A HELD position under SETUP and the PROTECT of T8[15] alone. -/
def protected15 : State :=
  withTables (stateOf running { inState .held with
      causes := ⟨false, true, false, false, true⟩, prot := offA.prot.set 15 ⟨.stopped, true⟩ })
    { tables with t8 := tables.t8.set 15 (some unloadEntry) }

theorem witness_AcceptedWritesOfProtectionEntries :
    let r := writeOne 8 15 (ProtEntry.bytes { unloadEntry with enabled := false })
    Ran 1 r protected15 ∧ (checkWrite protected15.block r matches .ok _) ∧ (protected15.pos .A).st = .held ∧
      (protected15.pos .A).unload protected15.tab = true ∧
      (∀ i : Fin 16, i.val < r.first.toNat ∨ r.first.toNat + r.count.toNat ≤ i.val →
        (protected15.pos .A).activeWith protected15.tab .unload i = false) ∧
      ({ (protected15.pos .A).causes with protect := false } : Causes).isEmpty = false := by decide +kernel

theorem witness_AcceptedWritesStoreTheEntries :
    let s := stateOf running offA
    (∀ r ∈ [writeOne 1 0 unit1.bytes, writeOne 4 8 idleEntry.bytes, writeOne 6 63 crankStep.bytes,
        writeOne 7 3 (SelectEntry.bytes ⟨100, 0⟩), writeOne 9 15 (DispEntry.bytes ⟨true, .any, 0, .actOnly⟩)],
      Ran 1 r s ∧ (checkWrite s.block r matches .ok _)) ∧
    s.block.works.commitPending = false ∧
    (∀ present ∈ [(0 : Byte), 1], ∀ x ∈ [(offA, (0 : Byte)), (Position.reset .isolated none .low 0, 0), (offA, 3)],
      let w := stateOf running x.1;
      Ran 1 (writeOne 2 x.2 [present, 0]) w ∧
        checkWrite w.block (writeOne 2 x.2 [present, 0]) matches .ok [.t2 _] ∧ (w.pos .D).st = .absent ∧
        (w.pos .A).st = x.1.st) ∧
    Pos.ofNat? 0 = some .A ∧ Pos.ofNat? 3 = some .D ∧
    (Ran 1 (writeOne 3 0 profile1.bytes) s ∧ (checkWrite s.block (writeOne 3 0 profile1.bytes) matches .ok [.t3 _]) ∧
      s.tab.t2.get .A = some ⟨true, 0⟩) ∧
    (let h := withMeter ⟨8124, 0, true⟩ ⟨true, .running 0 10000000, .running 0 1000000⟩;
      Ran 1 (writeOne 10 0 [0, 15, 66, 63]) h ∧ checkWrite h.block (writeOne 10 0 [0, 15, 66, 63]) matches .ok [.t10 999999]) := by
  decide +kernel

theorem witness_ReadReturnsTheEntries :
    let s := stateOf running offA
    (∀ r ∈ [writeOne 0 0 [], writeOne 4 9 [], writeOne 4 8 [], { writeOne 10 0 [] with count := 4 }], Ran 2 r s) ∧
    tableSize 0 = none ∧ tableSize 4 = some 9 ∧ tableSize 10 = some 4 ∧ s.tab.t4[8]? = some (some idleEntry) ∧
    State.reset.tab.t4[8]? = some none ∧ Ran 2 (writeOne 4 8 []) State.reset := by decide +kernel

/-- The other tables of the same statement, at the last entry of each. -/
theorem witness_ReadReturnsTheEntries_tables :
    let s := stateOf running offA
    (∀ r ∈ [writeOne 1 0 [], writeOne 2 3 [], writeOne 3 3 []], Ran 2 r s) ∧
    (∀ r ∈ [writeOne 5 8 [], writeOne 6 63 []], Ran 2 r s) ∧
    (∀ r ∈ [writeOne 7 3 [], writeOne 8 15 [], writeOne 9 15 []], Ran 2 r s) ∧
    s.tab.t5[8]? = some (some idleEntry) ∧ s.tab.t3[3]? = some none ∧ s.tab.t7[3]? = some none :=
  ⟨by decide +kernel, by decide +kernel, by decide +kernel, by decide +kernel, by decide +kernel, by decide +kernel⟩

theorem witness_ReadReturnsTheEntries_sizes :
    [1, 2, 3, 5, 6, 7, 8, 9].map tableSize = [some 1, some 4, some 4, some 9, some 64, some 4, some 16, some 16] ∧
      Pos.ofNat? 3 = some .D := ⟨by decide, rfl⟩

theorem witness_CommitIsDecidedInOrder :
    let s := stateOf running offA
    Ran 3 { toAll with table := 3 } s ∧ Ran 3 toAll s ∧ Ran 3 toAll (savingState s) ∧ Ran 3 toAll (committing s) ∧
    (committing s).block.saving = none ∧ (committing s).block.works.commitPending = true ∧ s.block.works.commitPending = false ∧
    Ran 3 toAll State.reset ∧ State.reset.tab.t4[0]? = some none ∧ (∀ i : Fin 9, s.tab.t4[i.val]? ≠ some none) ∧
    steady s.eng = true ∧ steady (stateOf running slowing).eng = false ∧ Ran 3 toAll (stateOf running slowing) ∧
    steady (committing s).eng = true := by decide +kernel

theorem witness_SaveFixesAndWritesTheImage :
    let s := stateOf running offA
    Ran 4 toAll s ∧ s.block.saving = none ∧
    (undefinedTables s.tab).find? (fun x => x.2.isSome) = some (2, some 2) ∧ Ran 4 toAll (savingState s) ∧
    (savingState s).block.saving = some ⟨1, 0, tables.image⟩ ∧ Ran 4 toAll (withTables s allDefined) ∧
    (∀ x ∈ undefinedTables allDefined, x.2 = none) ∧ (savingState noRoom).relay.hasRoom = false := by decide +kernel

theorem witness_IsolateAndRestoreMoveThePosition :
    let s := stateOf running offA
    (∀ r ∈ [{ toAll with first := 4 }, { toAll with count := 2 }, toAll], Ran 7 r s ∧ Ran 8 r s) ∧
    Pos.ofNat? 0 = some .A ∧ (s.pos .A).st = .off ∧ (s.pos .A).pickup.speed = 0 ∧
    (Ran 7 toAll (stateOf running loadedA) ∧ ((stateOf running loadedA).pos .A).st = .online) ∧
    (let i := stateOf running (Position.reset .isolated none .low 0);
      Ran 8 toAll i ∧ (i.pos .A).st = .isolated ∧ i.tab.present .A = true) ∧
    (let i := withTables (stateOf running (Position.reset .isolated none .low 0)) .undefinedAll;
      Ran 8 toAll i ∧ (i.pos .A).st = .isolated ∧ i.tab.present .A = false) := by decide +kernel

theorem witness_RequestsNotExecuted :
    Ran 0 toAll State.reset ∧ Ran 10 toAll State.reset ∧
    (Instr.read toAll).frame = some (mgmtFrame 2 toAll) ∧ (Instr.read toAll).opByte = some 2 ∧ (Instr.read toAll).opOk = true ∧
    Taken 2 toAll noRoom ∧ noRoom.relay.hasRoom = false ∧ State.reset.hears ∧
    (Instr.read { toAll with target := 1 }).frame = some (mgmtFrame 2 { toAll with target := 1 }) ∧
    (mgmtFrame 2 { toAll with target := 1 }).ok = true ∧ State.reset.relay.addressed 1 = false := by decide +kernel

theorem witness_CommandsKeepTheOtherBlocks :
    onLine .downTransmissionEnd = true ∧ onEngines .periodEnd = true ∧ onOrders (.notch 1 3 1) = true ∧
    (∃ t, exec .downTransmissionEnd State.reset = .next t) ∧ (∃ t, exec .periodEnd State.reset = .next t) ∧
    (∃ t, exec (.notch 1 3 1) State.reset = .next t) := ⟨rfl, rfl, rfl, ⟨_, rfl⟩, ⟨_, rfl⟩, ⟨_, rfl⟩⟩

theorem witness_EveryStepKeepsTheRelayBounded :
    (∃ t, step State.reset = .next t) ∧ State.reset.relay.Bounded ∧ State.reset.relay.Serving := by
  refine ⟨⟨_, rfl⟩, ?_, ?_⟩ <;> constructor <;> decide

theorem witness_EveryStepKeepsTheResolverSound :
    (∃ t, step (stateOf running offA) = .next t) ∧ (stateOf running offA).res.Sound (stateOf running offA).tab := by
  refine ⟨⟨_, rfl⟩, ?_⟩
  constructor <;> decide +kernel

theorem witness_EveryStepKeepsThePositionsSound :
    (∃ t, step (stateOf running loadedA) = .next t) ∧ (stateOf running loadedA).eng.Sound :=
  ⟨⟨_, rfl⟩, stateOf_sound sound_loadedA⟩

end Sys2Proof.Tests
end

section
/-! SUPPORT. What every command but a NOTCH and a reset keeps of the Demand Resolver and of the emergency order: the latch, a LOST
link at IDLE, and, while the latch is set, no position brought into a state the order forbids (R1, R4, R6). -/

namespace Sys2Proof.Machine

/-! ## The emergency order that stands -/

/-- The states of the order of R6 are the tested ones. -/
theorem tested_iff (st : PState) : st.tested = true ↔
    st = .starting ∨ st = .ready ∨ st = .online ∨ st = .unloading ∨ st = .held := by
  cases st <;> simp [PState.tested]

/-- The link LOST and the resolved notch at rest at IDLE (R1, R10). -/
structure LostAtIdle (r : Resolver) : Prop extends RestsAtIdle r where
  link : r.link = .lost

/-- What a command other than NOTCH and the resets does: the latch stays, a LOST link at IDLE stays so, and while the latch is set
no position comes into a tested state from another (R4, R6). `S` is what the last may rest on. -/
structure Stands (S : Prop) (a b : Engine) : Prop where
  latch : b.res.latch = a.res.latch
  idle : LostAtIdle a.res → LostAtIdle b.res
  order : S → a.res.latch = true → ∀ p, (a.at p).st.tested = false → (b.at p).st.tested = false

variable {S : Prop} {T : Tables} {p : Pos} {e : Engine}

theorem Stands.refl (S : Prop) (e : Engine) : Stands S e e := ⟨rfl, id, fun _ _ _ h => h⟩

theorem Stands.trans {a b c : Engine} (h₁ : Stands S a b) (h₂ : Stands S b c) : Stands S a c :=
  ⟨h₂.latch.trans h₁.latch, fun h => h₂.idle (h₁.idle h),
    fun hs hl q hq => h₂.order hs (h₁.latch.trans hl) q (h₁.order hs hl q hq)⟩

/-- The Resolver and every state left alone. -/
theorem stands_same {a b : Engine} (hr : b.res = a.res) (hst : ∀ q, (b.at q).st = (a.at q).st) : Stands S a b :=
  ⟨by rw [hr], by rw [hr]; exact id, fun _ _ q hq => by rw [hst q]; exact hq⟩

/-- A position replaced by one that is in a tested state only where it was. -/
theorem put_stands {x : Position} (h : (e.at p).st.tested = false → x.st.tested = false) : Stands S e (e.put p x) := by
  refine ⟨rfl, id, fun _ _ q hq => ?_⟩
  rw [Engine.at_put]
  split
  · rename_i hqp
    subst hqp
    exact h hq
  · exact hq

theorem put_stands_st {x : Position} (h : x.st = (e.at p).st) : Stands S e (e.put p x) :=
  put_stands fun hq => by rw [h]; exact hq

/-- What follows a change of one position that leaves its state. -/
theorem Stands.afterPut {x : Position} {b : Engine} (h : Stands S (e.put p x) b) (hx : x.st = (e.at p).st) : Stands S e b :=
  (put_stands_st hx).trans h

theorem modify_stands {f : Position → Position} (h : (f (e.at p)).st = (e.at p).st) : Stands S e (e.modify p f) :=
  put_stands_st h

theorem Stands.afterModify {f : Position → Position} {b : Engine} (h : Stands S (e.modify p f) b)
    (hf : (f (e.at p)).st = (e.at p).st) : Stands S e b := (modify_stands hf).trans h

theorem eachPos_stands {f : Pos → Engine → Engine} (h : ∀ q a, Stands S a (f q a)) : Stands S e (e.eachPos f) :=
  (((h .A e).trans (h .B _)).trans (h .C _)).trans (h .D _)

theorem foldl_stands {α : Type} {f : Engine → α → Engine} (h : ∀ a x, Stands S a (f a x)) (list : List α) :
    Stands S e (list.foldl f e) := by
  induction list generalizing e with
  | nil => exact .refl _ _
  | cons x rest ih => exact (h e x).trans ih

theorem BusOnly.stands {a b : Engine} (h : BusOnly T a b) : Stands S a b := stands_same h.res h.st

theorem LinkOnly.stands {a b : Engine} (h : LinkOnly p a b) : Stands S a b := by
  obtain ⟨l, rfl, -⟩ := h
  exact put_stands_st rfl

theorem GrantedOnly.st {now : Nat} {x y : Position} (h : GrantedOnly T now x y) : y.st = x.st := by
  rcases h with rfl | rfl <;> rfl

/-- An operation on one position is judged at that position. -/
theorem Touches.stands {a b : Engine} (h : Touches T p a b)
    (hp : S → a.res.latch = true → (a.at p).st.tested = false → (b.at p).st.tested = false) : Stands S a b := by
  refine ⟨by rw [h.res], by rw [h.res]; exact id, fun hs hl q hq => ?_⟩
  by_cases hqp : q = p
  · subst hqp
    exact hp hs hl hq
  · rw [(h.others q hqp).st]
    exact hq

/-- From a tested state a position may go anywhere. -/
theorem Touches.stands_of_tested {a b : Engine} (h : Touches T p a b) (hp : (a.at p).st.tested = true) : Stands S a b :=
  h.stands fun _ _ hq => by rw [hp] at hq; cases hq

/-! ## The Position Controller -/

theorem enter_stands {dest : PState} (h : (e.at p).st.tested = false → dest.tested = false) :
    Stands S e (enter T p dest e) := by
  unfold enter
  simp only
  refine Stands.trans ?_ (handDrive_linkOnly T p _).stands
  split
  · refine (leaveBus_busOnly T p e).stands.trans (put_stands fun hq => ?_)
    rw [(leaveBus_busOnly T p e).st p] at hq
    exact h hq
  · exact put_stands h

theorem faultWith_stands {code : FaultCode} {step : Option Nat} {value : Option Int} :
    Stands S e (faultWith T p code step value e) := by
  unfold faultWith
  split
  · exact modify_stands rfl
  · exact (enter_stands fun _ => rfl).trans (modify_stands rfl)

theorem fault_stands {code : FaultCode} {value : Option Int} : Stands S e (fault T p code value e) := faultWith_stands

theorem faults_stands {list : List (FaultCode × Option Int)} : Stands S e (faults T p list e) :=
  foldl_stands (fun _ _ => fault_stands) list

/-- Entry to STOPPING goes on to OFF at speed 0 (R51). -/
theorem enterStopping_st (T : Tables) (p : Pos) (e : Engine) :
    ((enterStopping T p e).at p).st = if (e.at p).pickup.speed = 0 then .off else .stopping := by
  have hk := (enter_touches T p (dest := .stopping) e (by simp) (by simp)).self.pickup
  unfold enterStopping
  simp only [hk]
  split
  · exact enter_st ..
  · split
    · exact enter_st ..
    · rw [Engine.at_modify_self]
      exact enter_st ..

/-- Entry to HELD under the latch goes on to STOPPING, and to OFF at speed 0 (R6, R115). -/
theorem enterHeld_st_latched (T : Tables) (p : Pos) (causes : Causes) {e : Engine} (h : e.res.latch = true) :
    ((enterHeld T p causes e).at p).st = if (e.at p).pickup.speed = 0 then .off else .stopping := by
  have he := enter_touches T p (dest := .held) e (by simp) (by simp)
  unfold enterHeld
  simp only [Engine.modify_res, he.res, h, if_true]
  rw [enterStopping_st, (handshake_touches ..).self.pickup, Engine.at_modify_self]
  simp only [he.self.pickup]

theorem enterHeld_stands {causes : Causes} : Stands S e (enterHeld T p causes e) := by
  refine (enterHeld_touches T p causes e).stands fun _ hl _ => ?_
  rw [enterHeld_st_latched T p causes hl]
  split <;> rfl

/-- Held causes concern the tested states alone. -/
theorem judgeCauses_untested {add remove : Causes} (h : (e.at p).st.tested = false) : judgeCauses T p add remove e = e := by
  unfold judgeCauses
  cases hs : (e.at p).st <;> simp_all [PState.tested]

theorem judgeCauses_stands {add remove : Causes} : Stands S e (judgeCauses T p add remove e) :=
  (judgeCauses_touches T p add remove e).stands fun _ _ h => by rw [judgeCauses_untested h]; exact h

theorem resetFaultAt_stands : Stands S e (resetFaultAt T p e) := by
  unfold resetFaultAt
  simp only
  split
  · split
    · exact enter_stands fun _ => rfl
    · exact put_stands_st rfl
  · exact .refl _ _

theorem holdExpires_stands : Stands S e (holdExpires p T e) := fault_stands.afterModify rfl

theorem stopExpires_stands : Stands S e (stopExpires p T e) := fault_stands.afterModify rfl

/-! ## The Step Executor and the crank bus -/

/-- A sound position outside the tested states has no step context. -/
theorem Position.Sound.ctx_of_untested {x : Position} (h : x.Sound) (hx : x.st.tested = false) : x.ctx = none :=
  h.ctx fun hs => by simp [hs, PState.tested] at hx

/-- A current step is tested in STARTING alone. -/
theorem runningRec_untested {x : Position} (h : x.st.tested = false) : x.runningRec T = none := by
  unfold Position.runningRec
  split
  · rename_i hs
    simp [hs, PState.tested] at h
  · rfl

theorem stepExpires_stands (hS : S → e.Sound) : Stands S e (stepExpires T p e) :=
  (stepExpires_touches T p e).stands fun hs _ h => by
    unfold stepExpires
    rw [(hS hs p).ctx_of_untested h]
    exact h

theorem retryRestExpires_touches (T : Tables) (p : Pos) (e : Engine) : Touches T p e (retryRestExpires p T e) := by
  unfold retryRestExpires
  split
  · exact .refl _ _ _
  · exact enterStep_touches ..

theorem retryRestExpires_stands (hS : S → e.Sound) : Stands S e (retryRestExpires p T e) :=
  (retryRestExpires_touches T p e).stands fun hs _ h => by
    unfold retryRestExpires
    rw [(hS hs p).ctx_of_untested h]
    exact h

theorem stepTestSample_stands {s : Sample} : Stands S e (stepTestSample T p s e) :=
  (stepTestSample_touches T p s e).stands fun _ _ h => by
    unfold stepTestSample
    rw [runningRec_untested h]
    exact h

theorem armWatch_stands : Stands S e (armWatch T p e) := modify_stands rfl

theorem stepTestSpeed_stands : Stands S e (stepTestSpeed T p e) :=
  (stepTestSpeed_touches T p e).stands fun _ _ h => by
    unfold stepTestSpeed
    simp only [runningRec_untested h]
    exact h

theorem busRestExpires_stands : Stands S e (busRestExpires T e) :=
  ((busOnly_bus T e _).trans (grantNext_busOnly T _)).stands

theorem failStart_stands {code : FaultCode} {value : Option Int} : Stands S e (failStart T p code value e) := by
  unfold failStart
  exact fault_stands.trans (modify_stands rfl)

theorem guardExpires_stands : Stands S e (guardExpires T e) := by
  unfold guardExpires
  split
  · exact (freeBus_busOnly T e).stands.trans failStart_stands
  · exact (busOnly_bus T e _).stands

/-! ## The load-phase machine -/

theorem startSpeedPhase_stands {ph : Phase} {slot : Target} : Stands S e (startSpeedPhase T p ph slot e) :=
  (modify_stands rfl).trans (handDrive_linkOnly T p _).stands

theorem startLoadPhase_stands {ph : Phase} {slot : Target} : Stands S e (startLoadPhase T p ph slot e) := by
  unfold startLoadPhase
  split
  · exact .refl _ _
  · exact modify_stands rfl

theorem choosePhase_stands : Stands S e (choosePhase T p e) := by
  unfold choosePhase
  simp only
  split
  · split
    · exact startSpeedPhase_stands
    · exact startSpeedPhase_stands
    · exact startLoadPhase_stands
    · exact startLoadPhase_stands
    · split
      · rename_i hs
        exact (enterReady_touches T p e).stands_of_tested (by simp [hs, PState.tested])
      · exact put_stands_st rfl
  · exact .refl _ _

theorem completePhase_stands : Stands S e (completePhase T p e) :=
  (choosePhase_stands.afterModify rfl).afterModify rfl

theorem endSpeedPhase_stands {late : Bool} : Stands S e (endSpeedPhase T p late e) :=
  completePhase_stands.afterModify rfl

theorem endLoadPhase_stands : Stands S e (endLoadPhase T p e) := by
  unfold endLoadPhase
  simp only
  split
  · exact completePhase_stands
  · exact .refl _ _

theorem writeSlot_stands : Stands S e (writeSlot T p e) := by
  unfold writeSlot
  simp only
  split
  · split
    · exact .refl _ _
    · exact put_stands_st rfl
  · exact .refl _ _

theorem restepAll_stands : Stands S e (restepAll T e) := by
  unfold restepAll
  split
  · exact .refl _ _
  · refine eachPos_stands fun _ _ => ?_
    exact modify_stands rfl

theorem takePeriod_stands : Stands S e (takePeriod T e) := by
  unfold takePeriod
  split
  · exact .refl _ _
  · have h : Stands S e { e with pwm := { e.pwm with periodMs := T.pwmPeriod } } := stands_same rfl fun _ => rfl
    exact h.trans restepAll_stands

theorem channelsEnd_stands : Stands S e (channelsEnd e) :=
  (eachPos_stands (f := fun p e => e.modify p fun x => { x with chan := x.chan.periodEnd }) fun _ _ => modify_stands rfl).trans
    (stands_same rfl fun _ => rfl)

/-! ## Protection, stations and pickups -/

theorem persistenceExpires_stands {i : Fin 16} : Stands S e (persistenceExpires T p i e) := by
  unfold persistenceExpires
  simp only
  split
  · exact judgeCauses_stands.afterPut rfl
  · exact faults_stands.afterPut rfl

theorem shutdownAfterFailure_stands {i : Fin 16} : Stands S e (shutdownAfterFailure T p i e) :=
  fault_stands.afterModify rfl

theorem protRewritten_stands {first count : Nat} : Stands S e (protRewritten T first count p e) := by
  unfold protRewritten
  exact judgeCauses_stands.afterPut rfl

theorem disagreeTest_st (T : Tables) (p : Pos) (now : Nat) (x : Position) : (disagreeTest T p now x).1.st = x.st := by
  obtain ⟨t, b, h, -⟩ := disagreeTest_keeps T p now x
  rw [h]

theorem takeSample_stands {s : Sample} : Stands S e (takeSample T p s e) := by
  unfold takeSample
  simp only
  have hx : ∀ l : Link, (if (e.at p).st.tested = true then protAtSample T p e.now { e.at p with link := l }
      else { e.at p with link := l } : Position).st = (e.at p).st := fun l => by split <;> rfl
  have hx := hx (((e.at p).link.judgeSetup (e.at p).st s).takeSample (T.profile p) s e.now)
  generalize (if (e.at p).st.tested = true then _ else _ : Position) = x at hx
  have h : Stands S e (e.put p (disagreeTest T p e.now x).1) := put_stands_st ((disagreeTest_st ..).trans hx)
  generalize e.put p (disagreeTest T p e.now x).1 = e' at h
  split
  · split
    · exact (h.trans enterHeld_stands).trans (put_stands_st (disagreeTest_st ..))
    · split
      · exact ((h.trans judgeCauses_stands).trans stepTestSample_stands).trans
          (writeSlot_stands.trans endSpeedPhase_stands)
      · exact (h.trans judgeCauses_stands).trans stepTestSample_stands
  · exact h.trans faults_stands

theorem sampleArrives_stands {raw : List Byte} : Stands S e (sampleArrives T p raw e) := by
  unfold sampleArrives
  split
  · exact .refl _ _
  · split
    · exact .refl _ _
    · exact takeSample_stands

theorem linkLost_stands : Stands S e (linkLost T p e) := by
  unfold linkLost
  simp only
  split
  · exact put_stands_st rfl
  · exact fault_stands.afterPut rfl
  iterate 4 exact judgeCauses_stands.afterPut rfl
  · split
    · exact fault_stands.afterPut rfl
    · exact put_stands_st rfl
  · exact put_stands_st rfl

theorem confirmExpires_stands : Stands S e (confirmExpires T p e) :=
  modify_stands (by split <;> rfl)

theorem disagreeExpires_stands : Stands S e (disagreeExpires T p e) := judgeCauses_stands.afterModify rfl

theorem pickupUpdate_stands {old : Nat} : Stands S e (pickupUpdate T p old e) := by
  unfold pickupUpdate
  simp only
  have hx : (if (e.at p).st.tested = true then protAtPickup T p e.now old (e.at p) else e.at p).st = (e.at p).st := by
    split <;> rfl
  generalize (if (e.at p).st.tested = true then _ else _ : Position) = x at hx
  have h : Stands S e (e.put p (disagreeTest T p e.now x).1) := put_stands_st ((disagreeTest_st ..).trans hx)
  generalize e.put p (disagreeTest T p e.now x).1 = e' at h
  split
  · split
    · exact h.trans (enter_stands fun _ => rfl)
    · exact (h.trans judgeCauses_stands).trans (armWatch_stands.trans stepTestSpeed_stands)
  · exact h.trans faults_stands

theorem filterExpires_stands : Stands S e (filterExpires T p e) := by
  unfold filterExpires
  simp only
  split
  · exact put_stands_st rfl
  · split
    · exact pickupUpdate_stands.afterPut rfl
    · exact put_stands_st rfl

theorem zeroSpeedExpires_stands : Stands S e (zeroSpeedExpires T p e) := pickupUpdate_stands.afterPut rfl

/-! ## Isolation, modes and tables -/

theorem enterOffUnheard_stands : Stands S e (enterOffUnheard T p e) :=
  (enter_stands fun _ => rfl).trans (modify_stands rfl)

theorem restoreAt_stands : Stands S e (restoreAt T p e) := by
  unfold restoreAt
  split
  · exact enterOffUnheard_stands
  · exact enter_stands fun _ => rfl

theorem setModeAt_stands {m : Mode} : Stands S e (setModeAt m e p) :=
  modify_stands (by split <;> rfl)

theorem positionRewritten_stands {old new : Tables} : Stands S e (positionRewritten old new p e) := by
  unfold positionRewritten
  simp only
  have h : ∀ same : Bool, Stands S e (e.modify p fun x =>
      { x with link := x.link.rewritten (new.profile p).isSome, pickup := if same then x.pickup else x.pickup.clear }) :=
    fun _ => modify_stands rfl
  have h := h ((old.t2.get p).map (·.profile) == (new.t2.get p).map (·.profile))
  generalize e.modify p _ = e' at h ⊢
  split
  · split
    · exact h.trans enterOffUnheard_stands
    · exact h
  iterate 2
    split
    · exact h
    · exact h.trans (enter_stands fun _ => rfl)
  · exact h

theorem profileRewritten_stands {new : Tables} {first count : Nat} : Stands S e (profileRewritten new first count p e) := by
  unfold profileRewritten
  split
  · exact modify_stands rfl
  · exact .refl _ _

/-! ## The Resolver -/

theorem LostAtIdle.blocked {r : Resolver} (h : LostAtIdle r) : r.blocked = true := by simp [Resolver.blocked, h.link]

/-- A change of the Resolver alone. -/
theorem res_stands {r : Resolver} (hl : r.latch = e.res.latch) (hi : LostAtIdle e.res → LostAtIdle r) :
    Stands S e { e with res := r } := ⟨hl, hi, fun _ _ _ h => h⟩

theorem notchExpires_stands : Stands S e { e with res := e.res.notchExpires T e.now } := by
  have hk := settle_kept { e.res with link := .lost, requested := 0, demand := 0, notchT := .stopped } T e.now
    (holdingConds T e.res)
  exact res_stands hk.latch fun h => ⟨settle_rests T e.now _ rfl ⟨h.resolved, h.dwell, h.achieve⟩, hk.link⟩

theorem dwellExpires_stands : Stands S e { e with res := e.res.dwellExpires T e.now } := by
  unfold Resolver.dwellExpires
  split
  · exact res_stands (rise_kept ..).latch fun h => by simp_all [h.dwell]
  · exact .refl _ _

theorem achieveExpires_stands : Stands S e { e with res := e.res.achieveExpires T e.now } := by
  unfold Resolver.achieveExpires
  split
  · exact res_stands (rise_kept ..).latch fun h => by simp_all [h.achieve]
  · exact .refl _ _

theorem rereadAchieve_rests {r : Resolver} (T : Tables) (now : Nat) (h : RestsAtIdle r) :
    RestsAtIdle (r.rereadAchieve T now) := by
  unfold Resolver.rereadAchieve
  split
  · exact h
  · exact ⟨h.resolved, h.dwell, by simp [h.achieve, Watch.compare]⟩

theorem afterT1_stands {before : Conds} : Stands S e { e with res := e.res.afterT1 T e.now before } := by
  have hr := rereadAchieve_kept { e.res with demand := T.cap e.res.requested } T e.now
  have hs := hr.trans (settle_kept _ T e.now before)
  have hk := hs.trans (rise_kept _ T e.now)
  refine res_stands hk.latch fun h => ⟨?_, hk.link.trans h.link⟩
  unfold Resolver.afterT1
  simp only
  rw [rise_held _ _ _ (blocked_conds (hs.blocked.trans h.blocked))]
  exact settle_rests T e.now before (hr.blocked.trans h.blocked)
    (rereadAchieve_rests T e.now ⟨h.resolved, h.dwell, h.achieve⟩)

theorem applyCommit_stands {w : Works} : Stands S w.eng (applyCommit w).eng := by
  have hk := afterCommit_kept w.eng.res { w.tab with t5 := w.tab.t4 } w.eng.now (holdingConds w.tab w.eng.res)
  exact res_stands hk.latch fun h => ⟨commit_rests h.blocked h.toRestsAtIdle, hk.link.trans h.link⟩

/-! ## The close of an event -/

/-- Without permission to run no order of the Planner applies to a position outside the tested states. -/
theorem calm_of_untested {z : Bool} {x : Position} (h : x.st.tested = false) : x.calm z false = true := by
  unfold Position.calm
  cases hs : x.st <;> simp_all [PState.tested, PState.fixed]

theorem closeEventWith_stands {linger : Option Pos} {commit : Bool} {start w : Works} :
    Stands S w.eng (closeEventWith linger commit start w).eng := by
  have hn := closeEventWith_notch linger commit start w
  refine ⟨hn.kept.latch, fun h => ⟨hn.rests h.blocked h.toRestsAtIdle, hn.kept.link.trans h.link⟩, fun _ hl q hq => ?_⟩
  have hm : w.eng.res.mayRun = false := by simp [Resolver.mayRun, hl]
  have hd := (closeEventWith_closes linger commit start w).eng.pos q
  rw [hm] at hd
  rw [(hd.still (calm_of_untested hq)).st]
  exact hq

theorem closeEvent_stands {start w : Works} : Stands S w.eng (closeEvent start w).eng := closeEventWith_stands

/-- An event that began by changing the record is closed. -/
theorem Stands.closed {e : Engine} {start w : Works} (h : Stands S e w.eng) : Stands S e (closeEvent start w).eng :=
  h.trans closeEvent_stands

theorem event_stands {w : Works} {f : Tables → Engine → Engine} (h : Stands S w.eng (f w.tab w.eng)) :
    Stands S w.eng (w.event f).eng :=
  Stands.closed (w := { w with eng := f w.tab w.eng }) h

/-- The ramp completions of a period end, each an event of its own (R136). -/
theorem endLoadPhases_stands {w : Works} (list : List Pos) :
    Stands S w.eng (list.foldl (fun w p => w.event fun T e => endLoadPhase T p e) w).eng := by
  induction list generalizing w with
  | nil => exact .refl _ _
  | cons p rest ih => exact (event_stands endLoadPhase_stands).trans ih

theorem periodEnds_stands {w : Works} : Stands S w.eng (periodEnds w).eng := by
  have h : Stands S w.eng (channelsEnd (takePeriod w.tab w.eng)) := takePeriod_stands.trans channelsEnd_stands
  exact h.trans (endLoadPhases_stands (w := { w with eng := channelsEnd (takePeriod w.tab w.eng) }) _)

theorem commitNow_stands {w : Works} : Stands S w.eng (commitNow w).eng := applyCommit_stands.trans closeEventWith_stands

theorem commitApplies_stands {w : Works} : Stands S w.eng (commitApplies w).eng := by
  unfold commitApplies
  split
  · exact commitNow_stands
  · exact .refl _ _

end Sys2Proof.Machine
end

section
/-! SUPPORT. The same for every command: its effect on the block, and the frames taken or not. -/

namespace Sys2Proof.Machine

variable {S : Prop} {b : Block}

/-! ## The arrival of frames, the expiry of timers -/

theorem answer_stands {f : Block → Block} {s t : State} (h : answer f s = .next t)
    (hf : Stands S s.eng (f s.block).works.eng) : Stands S s.eng t.eng := by
  unfold answer at h
  split at h <;> cases h
  · exact hf
  · exact .refl _ _

/-- The clock moves no position. -/
theorem reach_stands (b : Block) (now : Nat) : Stands S b.works.eng (b.reach now).works.eng := stands_same rfl fun _ => rfl

theorem onWorks_stands {g : Works → Works} (h : Stands S b.works.eng (g b.works).eng) :
    Stands S b.works.eng (b.onWorks g).works.eng := by
  rw [Block.onWorks_works]
  exact h

theorem fromUp_stands {f : Block → Block} (h : Stands S b.works.eng (f b).works.eng) :
    Stands S b.works.eng (Block.fromUp f b).works.eng := by
  unfold Block.fromUp
  split
  · exact h
  · exact .refl _ _

theorem dispatched_stands {f : Frame} {kind : DispKind} {group : Byte} {mine : Bool} {take : Block → Block}
    (h : Stands S b.works.eng (take b).works.eng) : Stands S b.works.eng (dispatched f kind group mine take b).works.eng := by
  unfold dispatched
  refine fromUp_stands ?_
  have k : Stands S b.works.eng
      (if (dispatch b.works.tab kind group.toNat).acts && mine then take b else b).works.eng := by
    split
    · exact h
    · exact .refl _ _
  split
  · simp only
    split <;> exact k
  · exact .refl _ _

theorem mgmtFrameTaken_stands {op : Byte} {r : MgmtReq} {take : Block → Block}
    (h : Stands S b.works.eng (take b).works.eng) : Stands S b.works.eng (mgmtFrameTaken op r take b).works.eng := by
  unfold mgmtFrameTaken
  refine fromUp_stands ?_
  have k : Stands S b.works.eng (if b.relay.addressed r.target then take b else b).works.eng := by
    split
    · exact h
    · exact .refl _ _
  simp only
  generalize (if b.relay.addressed r.target then take b else b) = b' at k ⊢
  split
  · split <;> exact k
  · exact .refl _ _

theorem queueReply_works (op tag : Byte) (rp : Option Reply) (b : Block) : (queueReply op tag rp b).works = b.works := by
  cases rp <;> rfl

theorem operation_stands {op : Byte} {r : MgmtReq} {run : Block → Block × Option Reply}
    (h : Stands S b.works.eng (run b).1.works.eng) : Stands S b.works.eng (operation op r run b).works.eng := by
  refine mgmtFrameTaken_stands ?_
  split
  · rw [queueReply_works]
    exact h
  · exact .refl _ _

theorem expiry_stands {t : Timer} {f : Block → Block}
    (h : ∀ now, Stands S (b.reach now).works.eng (f (b.reach now)).works.eng) :
    Stands S b.works.eng (b.expiry t f).works.eng := by
  unfold Block.expiry
  split
  · exact (reach_stands b _).trans (h _)
  · exact .refl _ _

theorem expiryEvent_stands {t : Timer} {f : Tables → Engine → Engine}
    (h : ∀ now, Stands S (b.reach now).works.eng (f (b.reach now).works.tab (b.reach now).works.eng)) :
    Stands S b.works.eng (b.expiryEvent t f).works.eng :=
  expiry_stands fun now => onWorks_stands (event_stands (h now))

theorem engineRequest_stands {request group target position : Byte} {f : Tables → Engine → Pos → Engine}
    (h : ∀ T e p, Stands S e (f T e p)) :
    Stands S b.works.eng (engineRequest request group target position f b).works.eng :=
  dispatched_stands (onWorks_stands (event_stands (foldl_stands (h _) _)))

/-! ## The Resolver's timers -/

theorem dwellExpires_block_stands : Stands S b.works.eng (dwellExpires b).works.eng := by
  unfold dwellExpires
  simp only
  split
  · exact (reach_stands b _).trans (onWorks_stands (event_stands dwellExpires_stands))
  · exact .refl _ _

theorem achieveExpires_block_stands : Stands S b.works.eng (achieveExpires b).works.eng := by
  unfold achieveExpires
  split
  · exact (reach_stands b _).trans (onWorks_stands (event_stands achieveExpires_stands))
  · exact .refl _ _

/-! ## Meters and markers -/

theorem block_eachPos_stands {f : Pos → Block → Block} (h : ∀ p b, Stands S b.works.eng (f p b).works.eng) :
    Stands S b.works.eng (b.eachPos f).works.eng := (((h .A b).trans (h .B _)).trans (h .C _)).trans (h .D _)

theorem setMeter_stands {p : Pos} {m : Meter} : Stands S b.works.eng (b.setMeter p m).works.eng := by
  unfold Block.setMeter
  exact modify_stands (f := fun x => { x with meter := m }) rfl

theorem writeMeter_stands {p : Pos} {m : Meter} : Stands S b.works.eng (b.writeMeter p m).works.eng := by
  unfold Block.writeMeter
  exact setMeter_stands

theorem rolloverAt_stands {p : Pos} : Stands S b.works.eng (rolloverAt p b).works.eng := by
  unfold rolloverAt
  simp only
  split
  · exact setMeter_stands
  · exact writeMeter_stands

theorem tickAt_stands {p : Pos} : Stands S b.works.eng (tickAt p b).works.eng := by
  unfold tickAt
  simp only
  split
  · split
    · exact rolloverAt_stands
    · exact setMeter_stands
  · exact .refl _ _

theorem applyPendingAt_stands {p : Pos} : Stands S b.works.eng (applyPendingAt p b).works.eng := by
  unfold applyPendingAt
  simp only
  split
  · exact writeMeter_stands
  · exact .refl _ _

theorem endHold_stands : Stands S b.works.eng (endHold b).works.eng := block_eachPos_stands fun _ _ => applyPendingAt_stands

theorem releaseHold_stands : Stands S b.works.eng (releaseHold b).works.eng := by
  unfold releaseHold
  split
  · exact endHold_stands
  · exact .refl _ _

theorem meterIncrement_stands {p : Pos} : Stands S b.works.eng (meterIncrement p b).works.eng := by
  unfold meterIncrement
  split
  · exact rolloverAt_stands
  · exact .refl _ _

theorem answerPoll_stands : Stands S b.works.eng (answerPoll b).works.eng := by
  unfold answerPoll
  split
  · exact eachPos_stands (f := fun p e => e.modify p (·.clearMarkers)) fun _ _ => modify_stands rfl
  · exact .refl _ _

theorem supplyDip_stands : Stands S b.works.eng (supplyDip b).works.eng := by
  unfold supplyDip
  exact eachPos_stands (f := fun p e => e.modify p fun x => { x with link := { x.link with sending := none } })
    fun _ _ => modify_stands rfl

theorem persistenceTimer_stands {p : Pos} {i : Fin 16} : Stands S b.works.eng (persistenceTimer p i b).works.eng := by
  unfold persistenceTimer
  split
  · exact onWorks_stands (event_stands shutdownAfterFailure_stands)
  · exact expiryEvent_stands fun _ => persistenceExpires_stands

/-! ## Management requests -/

theorem writeT10_stands {i : Nat} {list : List Entry} : Stands S b.works.eng (writeT10 b i list).works.eng := by
  induction list generalizing b i with
  | nil => exact .refl _ _
  | cons x rest ih =>
    cases x
    case t10 value =>
      refine Stands.trans ?_ (ih (b := writeT10At i value b))
      unfold writeT10At
      split
      · exact .refl _ _
      · exact writeMeter_stands
    all_goals exact ih

theorem writeAccepted_stands {table first count : Nat} {list : List Entry} :
    Stands S b.works.eng (writeAccepted b table first count list).works.eng := by
  unfold writeAccepted
  simp only
  split
  · exact Stands.closed afterT1_stands
  · unfold writeT2
    exact Stands.closed (foldl_stands (fun _ _ => positionRewritten_stands) _)
  · refine Stands.closed ?_
    exact eachPos_stands (f := profileRewritten (b.works.tab.storeAll first list) first count) fun _ _ => profileRewritten_stands
  · exact .refl _ _
  · refine Stands.closed ?_
    exact eachPos_stands (f := protRewritten b.works.tab first count) fun _ _ => protRewritten_stands
  · exact writeT10_stands
  · exact .refl _ _

theorem runWrite_stands {r : MgmtReq} : Stands S b.works.eng (runWrite r b).1.works.eng := by
  unfold runWrite
  split
  · exact .refl _ _
  · exact writeAccepted_stands

theorem runRead_stands {r : MgmtReq} : Stands S b.works.eng (runRead r b).1.works.eng := by
  unfold runRead
  simp only
  split
  · exact .refl _ _
  · split <;> exact .refl _ _

theorem runCommit_stands {r : MgmtReq} : Stands S b.works.eng (runCommit r b).1.works.eng := by
  unfold runCommit
  iterate 3
    split
    · exact .refl _ _
  split
  · exact .refl _ _
  · split
    · exact onWorks_stands commitNow_stands
    · exact .refl _ _

theorem runSave_stands {r : MgmtReq} : Stands S b.works.eng (runSave r b).1.works.eng := by
  unfold runSave
  split
  · exact .refl _ _
  · split <;> exact .refl _ _

theorem completeSave_stands {passes : Bool} : Stands S b.works.eng (completeSave passes b).works.eng := by
  unfold completeSave
  split <;> exact .refl _ _

theorem writeIsolation_works (b : Block) (p : Pos) (mark : Bool) : (b.writeIsolation p mark).works = b.works := rfl

theorem runIsolate_stands {r : MgmtReq} : Stands S b.works.eng (runIsolate r b).1.works.eng := by
  unfold runIsolate
  split
  · exact .refl _ _
  · split
    · simp only [writeIsolation_works]
      exact onWorks_stands (event_stands (enter_stands fun _ => rfl))
    · exact .refl _ _

theorem runRestore_stands {r : MgmtReq} : Stands S b.works.eng (runRestore r b).1.works.eng := by
  unfold runRestore
  split
  · exact .refl _ _
  · split
    · simp only [writeIsolation_works]
      exact onWorks_stands (event_stands restoreAt_stands)
    · exact .refl _ _

/-! ## The commands of the line -/

theorem badBytes_works (port : Port) (raw : List Byte) (b : Block) : (badBytes port raw b).works = b.works := by
  unfold badBytes
  split <;> rfl

theorem unknownFrame_works (port : Port) (f : Frame) (b : Block) : (unknownFrame port f b).works = b.works := by
  unfold unknownFrame
  split
  · rfl
  · split
    · cases port <;> rfl
    · rfl

theorem upstreamArrives_works (f : Frame) (b : Block) : (upstreamArrives f b).works = b.works := by
  unfold upstreamArrives
  split <;> rfl

theorem fromPort_stands {port : Port} {f : Block → Block} (h : (f b).works = b.works) :
    Stands S b.works.eng (Block.fromPort port f b).works.eng := by
  have hf : Stands S b.works.eng (f b).works.eng := by rw [h]; exact .refl _ _
  cases port
  · exact fromUp_stands hf
  · exact hf

/-! ## Every command -/

/-- Every command but a NOTCH and the resets keeps the latch, a LOST link at IDLE and, at sound positions, the order of R6. -/
theorem exec_stands {c : Instr} {s t : State} (h : exec c s = .next t) (hn : ∀ group value flags, c ≠ .notch group value flags)
    (hp : ∀ up down levels, c ≠ .powerOnReset up down levels) (hr : ∀ r, c ≠ .restart r) :
    Stands s.eng.Sound s.eng t.eng := by
  unfold exec at h
  cases c with
  | powerOnReset up down levels => exact absurd rfl (hp up down levels)
  | notch group value flags => exact absurd rfl (hn group value flags)
  | restart r => exact absurd rfl (hr r)
  | notchTimerExpires => exact answer_stands h (expiryEvent_stands fun _ => notchExpires_stands)
  | dwellTimerExpires => exact answer_stands h dwellExpires_block_stands
  | achieveTimerExpires => exact answer_stands h achieveExpires_block_stands
  | lingerTimerExpires p =>
    exact answer_stands h (expiry_stands fun _ => onWorks_stands closeEventWith_stands)
  | modeAuto group target position => exact answer_stands h (engineRequest_stands fun _ _ _ => setModeAt_stands)
  | modeRun group target position => exact answer_stands h (engineRequest_stands fun _ _ _ => setModeAt_stands)
  | modeOut group target position => exact answer_stands h (engineRequest_stands fun _ _ _ => setModeAt_stands)
  | resetFault group target position => exact answer_stands h (engineRequest_stands fun _ _ _ => resetFaultAt_stands)
  | holdTimerExpires p => exact answer_stands h (expiryEvent_stands fun _ => holdExpires_stands)
  | stopTimerExpires p => exact answer_stands h (expiryEvent_stands fun _ => stopExpires_stands)
  | stepTimerExpires p =>
    refine answer_stands h (expiryEvent_stands fun _ => Stands.afterModify (stepExpires_stands fun hs => ?_) rfl)
    exact sound_modify hs ((hs p).ctxOnly _ _)
  | retryRestExpires p => exact answer_stands h (expiryEvent_stands fun _ => retryRestExpires_stands fun hs => hs)
  | restTimerExpires => exact answer_stands h (expiryEvent_stands fun _ => busRestExpires_stands)
  | guardTimerExpires => exact answer_stands h (expiryEvent_stands fun _ => guardExpires_stands)
  | sample p raw => exact answer_stands h (onWorks_stands (event_stands sampleArrives_stands))
  | sampleTimerExpires p => exact answer_stands h (expiryEvent_stands fun _ => linkLost_stands)
  | confirmTimerExpires p => exact answer_stands h (expiryEvent_stands fun _ => confirmExpires_stands)
  | refreshTimerExpires p => exact answer_stands h (expiryEvent_stands fun _ => modify_stands rfl)
  | stationFrameSent p => exact answer_stands h (onWorks_stands (event_stands (modify_stands rfl)))
  | disagreeTimerExpires p => exact answer_stands h (expiryEvent_stands fun _ => disagreeExpires_stands)
  | pickupLevelChange p level => exact answer_stands h (onWorks_stands (event_stands (modify_stands rfl)))
  | filterTimerExpires p => exact answer_stands h (expiryEvent_stands fun _ => filterExpires_stands)
  | zeroSpeedTimerExpires p => exact answer_stands h (expiryEvent_stands fun _ => zeroSpeedExpires_stands)
  | settleTimerExpires p => exact answer_stands h (expiryEvent_stands fun _ => endSpeedPhase_stands)
  | periodEnd =>
    exact answer_stands h (expiry_stands fun _ => onWorks_stands periodEnds_stands)
  | persistenceTimerExpires p entry => exact answer_stands h persistenceTimer_stands
  | runHourTick =>
    exact answer_stands h (expiry_stands fun _ => block_eachPos_stands fun _ _ => tickAt_stands)
  | meterIncrement p => exact answer_stands h meterIncrement_stands
  | hourHoldTimerExpires =>
    exact answer_stands h (expiry_stands fun _ => endHold_stands)
  | badFrame port raw => exact answer_stands h (fromPort_stands (badBytes_works ..))
  | unknownKind port kind payload => exact answer_stands h (fromPort_stands (unknownFrame_works ..))
  | enumerate nextAddr => exact answer_stands h (fromUp_stands (.refl _ _))
  | poll group target => exact answer_stands h (dispatched_stands answerPoll_stands)
  | upstreamFrameArrives kind payload =>
    exact answer_stands h (stands_same (by rw [upstreamArrives_works]) fun _ => by rw [upstreamArrives_works])
  | downTransmissionEnd => exact answer_stands h (.refl _ _)
  | upTransmissionEnd => exact answer_stands h (.refl _ _)
  | downLosesCarrier => exact answer_stands h (.refl _ _)
  | downGainsCarrier => exact answer_stands h (.refl _ _)
  | upLosesCarrier => exact answer_stands h (.refl _ _)
  | upGainsCarrier => exact answer_stands h (.refl _ _)
  | write r => exact answer_stands h (operation_stands runWrite_stands)
  | read r => exact answer_stands h (operation_stands runRead_stands)
  | commit r => exact answer_stands h (operation_stands runCommit_stands)
  | commitApplication => exact answer_stands h (onWorks_stands commitApplies_stands)
  | save r => exact answer_stands h (operation_stands runSave_stands)
  | saveCompletion passes => exact answer_stands h completeSave_stands
  | holdHours r => exact answer_stands h (operation_stands (.refl _ _))
  | releaseHours r => exact answer_stands h (operation_stands releaseHold_stands)
  | isolate r => exact answer_stands h (operation_stands runIsolate_stands)
  | restore r => exact answer_stands h (operation_stands runRestore_stands)
  | unknownOp op r =>
    refine answer_stands h ?_
    split
    · exact .refl _ _
    · exact operation_stands (.refl _ _)
  | supplyDip =>
    cases h
    exact supplyDip_stands

end Sys2Proof.Machine
end

section
/-! SUPPORT. NOTCH and the two resets, taken or not, and the statements of chapter 1 on the resets and the emergency latch. -/

namespace Sys2Proof.Machine

/-! ## NOTCH -/

/-- A NOTCH of a legal group is let through (R156). -/
theorem notchFrame_ok {group value flags : Byte} (h₁ : 1 ≤ group.toNat) (h₄ : group.toNat ≤ 4) :
    (notchFrame group value flags).ok = true := by
  simp [Frame.ok, layoutOk, notchFrame, within, h₁, h₄]

/-- A taken NOTCH does its event, then passes or not (R160). -/
theorem exec_notch_taken {s : State} {group value flags : Byte} (hs : s.hears)
    (hok : (notchFrame group value flags).ok = true) (ha : (dispatch s.tab .notch group.toNat).acts = true) :
    ∃ t, exec (.notch group value flags) s = .next t ∧
      t.block.works = s.block.works.event (notchTaken value.toNat (flags.getLsbD 0) (flags.getLsbD 1)) := by
  refine ⟨_, rfl, ?_⟩
  rw [if_pos hs.1, dispatched_taken hs.2 hok (by simpa using ha)]
  rfl

/-- A NOTCH that is not taken does nothing to the engine blocks (R156, R160). -/
theorem exec_notch_notTaken {s t : State} {group value flags : Byte} (h : exec (.notch group value flags) s = .next t)
    (hn : ¬ (s.hears ∧ (notchFrame group value flags).ok = true ∧ (dispatch s.tab .notch group.toNat).acts = true)) :
    t.block.works = s.block.works := by
  cases h
  by_cases hp : s.block.powered = true
  · rw [if_pos hp]
    cases hu : s.block.relay.upCarrier
    · rw [show dispatched _ _ _ _ _ s.block = s.block from fromUp_unheard hu _]
    · cases hok : (notchFrame group value flags).ok
      · rw [dispatched_bad hu hok]
        rfl
      · have ha : (dispatch s.tab .notch group.toNat).acts = false := by
          cases ha : (dispatch s.tab .notch group.toNat).acts
          · rfl
          · exact absurd ⟨⟨hp, hu⟩, hok, ha⟩ hn
        rw [dispatched_notTaken hu hok (by simpa using ha)]
        rfl
  · rw [if_neg hp]

theorem emergencyAt_res (T : Tables) (p : Pos) (e : Engine) : (emergencyAt T p e).res = e.res := by
  unfold emergencyAt
  split
  iterate 5 exact (enterStopping_touches T p e).res
  rfl

theorem emergencyOrder_res (T : Tables) (e : Engine) : (emergencyOrder T e).res = e.res := by
  unfold emergencyOrder
  split
  · rw [emergencyAt_res]
    refine eachPos_res fun p e => ?_
    split
    · rfl
    · exact emergencyAt_res T p e
  · exact eachPos_res (emergencyAt_res T)

/-- The latch after a taken frame (R4). -/
theorem notchTaken_latch (value : Nat) (run emergency : Bool) (T : Tables) (e : Engine) :
    (notchTaken value run emergency T e).res.latch = latchAfter e.res.latch emergency run := by
  have hl := (take_settled e.res T e.now value run emergency).2.2.2.1
  unfold notchTaken
  simp only
  split
  · rw [emergencyOrder_res]
    exact hl
  · exact hl

/-- With the latch set a taken frame gives no emergency order (R4, R6). -/
theorem notchTaken_latched (value : Nat) (run emergency : Bool) (T : Tables) {e : Engine} (h : e.res.latch = true) :
    notchTaken value run emergency T e = { e with res := e.res.take T e.now value run emergency } := by
  simp [notchTaken, h]

/-- The latch after a taken NOTCH (R4). -/
theorem notch_event_latch (w : Works) (value : Nat) (run emergency : Bool) :
    (w.event (notchTaken value run emergency)).eng.res.latch = latchAfter w.eng.res.latch emergency run :=
  (closeEvent_notch ..).kept.latch.trans (notchTaken_latch ..)

theorem notchTaken_at_latched (value : Nat) (run emergency : Bool) (T : Tables) {e : Engine} (h : e.res.latch = true)
    (p : Pos) : (notchTaken value run emergency T e).at p = e.at p := by
  rw [notchTaken_latched _ _ _ _ h]
  rfl

theorem fixed_of_held_or_unloading {st : PState} (h : st = .held ∨ st = .unloading) : st.fixed = true := by
  rcases h with rfl | rfl <;> rfl

/-- A NOTCH taken under the latch moves no position out of a state to which no order of the Planner applies. -/
theorem notch_event_fixed {w : Works} {value : Nat} {run emergency : Bool} (h : w.eng.res.latch = true) {p : Pos}
    (hf : (w.eng.at p).st.fixed = true) :
    ((w.event (notchTaken value run emergency)).eng.at p).st = (w.eng.at p).st := by
  have hd := (closeEvent_closes w { w with eng := notchTaken value run emergency w.tab w.eng }).eng.pos p
  simp only [notchTaken_at_latched _ _ _ _ h] at hd
  exact (hd.still (by simp [Position.calm, hf])).st

/-- A NOTCH taken under the latch, and leaving it set, brings no position into a tested state (R6). -/
theorem notch_event_order {w : Works} {value : Nat} {run emergency : Bool} (h : w.eng.res.latch = true)
    (h' : (w.event (notchTaken value run emergency)).eng.res.latch = true) {p : Pos}
    (hp : (w.eng.at p).st.tested = false) :
    ((w.event (notchTaken value run emergency)).eng.at p).st.tested = false := by
  have hs : Stands True (notchTaken value run emergency w.tab w.eng) (w.event (notchTaken value run emergency)).eng :=
    closeEvent_stands (w := { w with eng := notchTaken value run emergency w.tab w.eng })
  refine hs.order trivial (hs.latch.symm.trans h') p ?_
  rw [notchTaken_at_latched _ _ _ _ h]
  exact hp

/-! ## The resets -/

/-- A taken RESTART resets the engine blocks on the tables it finds (R182). -/
theorem exec_restart_taken {s : State} {r : MgmtReq} (h : Taken 9 r s) :
    ∃ t, exec (.restart r) s = .next t ∧ t.block.works = (restartAll s.block).works := by
  obtain ⟨hs, hok, ha⟩ := h
  have hb : (mgmtFrameTaken opRestart r restartAll s.block).works = (restartAll s.block).works := by
    rw [mgmtFrameTaken, fromUp_heard hs.2]
    simp only [show (mgmtFrame opRestart r).ok = true from hok, show s.block.relay.addressed r.target = true from ha, if_true]
    split <;> rfl
  refine ⟨_, rfl, ?_⟩
  rw [if_pos hs.1]
  exact hb

/-- A RESTART that is not taken does nothing to the engine blocks (R156, R158). -/
theorem exec_restart_notTaken {s t : State} {r : MgmtReq} (h : exec (.restart r) s = .next t) (hn : ¬ Taken 9 r s) :
    t.block.works = s.block.works := by
  cases h
  by_cases hp : s.block.powered = true
  · rw [if_pos hp]
    cases hu : s.block.relay.upCarrier
    · rw [show mgmtFrameTaken opRestart r restartAll s.block = s.block from fromUp_unheard hu _]
    · cases hok : (mgmtFrame opRestart r).ok
      · rw [request_bad hu hok]
        rfl
      · have ha : s.block.relay.addressed r.target = false := by
          cases ha : s.block.relay.addressed r.target
          · rfl
          · exact absurd ⟨⟨hp, hu⟩, hok, ha⟩ hn
        rw [request_passed hu hok ha]
        rfl
  · rw [if_neg hp]

theorem lostAtIdle_reset : LostAtIdle Resolver.reset := ⟨⟨rfl, rfl, rfl⟩, rfl⟩

/-- A RESTART resets the engine blocks or does nothing to them. -/
theorem exec_restart_works {s t : State} {r : MgmtReq} (h : exec (.restart r) s = .next t) :
    t.block.works = (restartAll s.block).works ∨ t.block.works = s.block.works := by
  by_cases ht : Taken 9 r s
  · obtain ⟨t', h', hw⟩ := exec_restart_taken ht
    rw [h] at h'
    cases h'
    exact Or.inl hw
  · exact Or.inr (exec_restart_notTaken h ht)

/-! ## All commands -/

/-- The commands apart that do more to the latch and the notch than `exec_stands` says. -/
theorem command_cases (c : Instr) :
    (∃ group value flags, c = .notch group value flags) ∨ (∃ up down levels, c = .powerOnReset up down levels) ∨
    (∃ r, c = .restart r) ∨
    ((∀ group value flags, c ≠ .notch group value flags) ∧ (∀ up down levels, c ≠ .powerOnReset up down levels) ∧
      ∀ r, c ≠ .restart r) := by
  cases c <;> simp

/-- Every command but a NOTCH keeps a LOST link at IDLE (R1). -/
theorem exec_keeps_lostAtIdle {c : Instr} {s t : State} (h : exec c s = .next t)
    (hn : ∀ group value flags, c ≠ .notch group value flags) (hi : LostAtIdle s.res) : LostAtIdle t.res := by
  rcases command_cases c with ⟨group, value, flags, rfl⟩ | ⟨up, down, levels, rfl⟩ | ⟨r, rfl⟩ | ⟨-, hp, hr⟩
  · exact absurd rfl (hn group value flags)
  · cases h
    exact lostAtIdle_reset
  · rcases exec_restart_works h with hw | hw
    · rw [State.res, State.eng, hw]
      exact lostAtIdle_reset
    · rw [State.res, State.eng, hw]
      exact hi
  · exact (exec_stands h hn hp hr).idle hi

/-- While the latch is set a NOTCH brings no position into a tested state. -/
theorem exec_notch_keeps_order {s t : State} {group value flags : Byte} (h : exec (.notch group value flags) s = .next t)
    (hl : s.res.latch = true) (hl' : t.res.latch = true) {p : Pos} (hp : (s.pos p).st.tested = false) :
    (t.pos p).st.tested = false := by
  by_cases ht : s.hears ∧ (notchFrame group value flags).ok = true ∧ (dispatch s.tab .notch group.toNat).acts = true
  · obtain ⟨hh, hok, ha⟩ := ht
    obtain ⟨t', h', hw⟩ := exec_notch_taken hh hok ha
    rw [h] at h'
    cases h'
    rw [State.res, State.eng, hw] at hl'
    rw [State.pos, State.eng, hw]
    exact notch_event_order hl hl' hp
  · rw [State.pos, State.eng, exec_notch_notTaken h ht]
    exact hp

/-- While the latch is set no command brings a sound position into a tested state (R6). -/
theorem exec_keeps_order {c : Instr} {s t : State} (h : exec c s = .next t) (hs : s.eng.Sound) (hl : s.res.latch = true)
    (hl' : t.res.latch = true) {p : Pos} (hp : (s.pos p).st.tested = false) : (t.pos p).st.tested = false := by
  rcases command_cases c with ⟨group, value, flags, rfl⟩ | ⟨up, down, levels, rfl⟩ | ⟨r, rfl⟩ | ⟨hn, hpo, hr⟩
  · exact exec_notch_keeps_order h hl hl' hp
  · cases h
    cases hl'
  · rcases exec_restart_works h with hw | hw
    · rw [State.res, State.eng, hw] at hl'
      cases hl'
    · rw [State.pos, State.eng, hw]
      exact hp
  · exact (exec_stands h hn hpo hr).order hs hl p hp

/-! ## The statements -/

/-- Settles O5, from what every command but a NOTCH keeps of a LOST link at IDLE. -/
theorem bothResetsGiveTheResolverItsValues : Obligations.BothResetsGiveTheResolverItsValues := by
  refine ⟨fun c s t h hn hlink hres hdwell hach => ?_, fun s => ⟨fun up down levels => ⟨_, rfl, rfl⟩, fun r hr => ?_⟩⟩
  · have hi := exec_keeps_lostAtIdle h hn ⟨⟨hres, hdwell, hach⟩, hlink⟩
    exact ⟨hi.link, hi.resolved, hi.dwell, hi.achieve⟩
  · obtain ⟨t, h, hw⟩ := exec_restart_taken hr
    exact ⟨t, h, by rw [State.res, State.eng, hw]; rfl⟩

/-- Settles O10: the table at a taken frame, the commands that leave the latch, and the standing order of R6. -/
theorem latchFollowsItsTable : Obligations.LatchFollowsItsTable := by
  refine ⟨fun s group value flags hs h₁ h₄ ha => ?_, fun s t group value flags h hn => ?_, fun s => ⟨_, rfl, ?_⟩,
    fun s up down levels => ⟨_, rfl, rfl⟩, fun s r hr => ?_, fun s t r h hn => ?_,
    fun c s t h hn hp hr => (exec_stands h hn hp hr).latch, fun T e value run emergency hl => ?_,
    fun c s t p h hs hl hl' hp => ?_, fun T p causes e hl => enterHeld_st_latched T p causes hl⟩
  · obtain ⟨t, h, hw⟩ := exec_notch_taken (value := value) (flags := flags) hs (notchFrame_ok h₁ h₄) ha
    have hlatch : t.res.latch = latchAfter s.res.latch (flags.getLsbD 1) (flags.getLsbD 0) := by
      rw [State.res, State.eng, hw]
      exact notch_event_latch ..
    refine ⟨t, h, fun he => ?_, fun he hl => ?_, fun he hl => ?_, fun _ hl p hp => ?_⟩
    · rw [hlatch, he]
      rfl
    · rw [hlatch, he, hl]
      rfl
    · rw [hlatch, he, hl]
      rfl
    · rw [State.pos, State.eng, hw]
      exact notch_event_fixed hl (fixed_of_held_or_unloading hp)
  · rw [State.res, State.eng, exec_notch_notTaken h hn]
  · exact (exec_stands (c := .notchTimerExpires) (s := s) rfl nofun nofun nofun).latch
  · obtain ⟨t, h, hw⟩ := exec_restart_taken hr
    exact ⟨t, h, by rw [State.res, State.eng, hw]; rfl⟩
  · rw [State.res, State.eng, exec_restart_notTaken h hn]
  · rw [notchTaken_latched _ _ _ _ hl]
    exact ⟨rfl, rfl⟩
  · rw [← tested_iff] at hp ⊢
    cases hq : (s.pos p).st.tested
    · rw [exec_keeps_order h hs hl hl' hq] at hp
      cases hp
    · rfl

end Sys2Proof.Machine
end

section

/-! SUPPORT. What a closed CRANK line says of the bus and of its position (R95). -/

namespace Sys2Proof.Machine

theorem Engine.holds_iff {e : Engine} {p : Pos} : e.holds p = true ↔ e.bus.state = .taken p := beq_iff_eq

/-- The bus state names its holder, so there is one at most (R91, R95). -/
theorem Engine.holder_unique {e : Engine} {p q : Pos} (hp : e.holds p = true) (hq : e.holds q = true) : q = p :=
  BusState.taken.inj ((Engine.holds_iff.mp hq).symm.trans (Engine.holds_iff.mp hp))

/-- A position claims the bus in a PURGE or CRANK step of its start and nowhere else (R69, R95). -/
theorem Position.inBusStep_iff {T : Tables} {x : Position} :
    x.inBusStep T = true ↔ x.st = .starting ∧
      ∃ c r, x.ctx = some c ∧ T.stepRec c.ptr = some r ∧ (r.kind = .purge ∨ r.kind = .crank) := by
  cases hc : x.ctx <;> simp [Position.inBusStep, hc, Option.any_eq_true]

theorem Block.crankClosed_iff {b : Block} {p : Pos} :
    b.crankClosed p = true ↔
      b.powered = true ∧ b.works.eng.holds p = true ∧ (b.works.eng.at p).inBusStep b.works.tab = true := by
  simp only [Block.crankClosed, Bool.and_eq_true, and_assoc]

/-! ## The statement -/

/-- Settles O22: the line is closed for the holder in a bus step, and the bus has one holder. -/
theorem atMostOneCrankLineIsClosed : Obligations.AtMostOneCrankLineIsClosed := by
  intro b p h
  obtain ⟨-, hold, hstep⟩ := Block.crankClosed_iff.mp h
  obtain ⟨hst, hrec⟩ := Position.inBusStep_iff.mp hstep
  refine ⟨Engine.holds_iff.mp hold, hst, hrec, fun q hq => ?_⟩
  obtain ⟨-, hold', -⟩ := Block.crankClosed_iff.mp hq
  exact Engine.holder_unique hold hold'

end Sys2Proof.Machine
end

section

/-! SUPPORT. The speed a pickup's history gives (R120). -/

namespace Sys2Proof.Machine

/-- The quotient of R120 as the model computes it: a time above 0 shuts out the free value of a sum of 0 µs (log 17). -/
theorem rpmOf_eq_min {teeth : Nat} {history : List Nat} (hteeth : 0 < teeth) (hsum : 0 < history.sum) :
    rpmOf teeth history = min 65535 (60000000 * history.length / (teeth * history.sum)) := by
  have htime : teeth * history.sum ≠ 0 := Nat.ne_of_gt (Nat.mul_pos hteeth hsum)
  cases history with
  | nil => cases hsum
  | cons interval older => simp only [rpmOf, if_neg htime]

/-! ## The statement -/

/-- Settles O34: the model's minimum with 65535, split at whether the quotient is larger. -/
theorem pickupSpeedAveragesTheHistory : Obligations.PickupSpeedAveragesTheHistory := by
  intro teeth history hteeth _ _ hsum
  rw [rpmOf_eq_min hteeth hsum]
  split
  next larger => exact Nat.min_eq_left (Nat.le_of_lt larger)
  next notLarger => exact Nat.min_eq_right (Nat.le_of_not_lt notLarger)

end Sys2Proof.Machine
end

section
/-! SUPPORT. What a command can do to the engine blocks and the tables, said once: the inversion of `exec` on the works. Every
statement about all commands is read off it. -/

namespace Sys2Proof.Machine

/-! ## What a command changes before its event is closed -/

/-- The works at another instant. -/
def Works.atTime (w : Works) (n : Nat) : Works := { w with eng := { w.eng with now := n } }

/-- The engine record that a command makes of `e` before the close of its event; a timer of a position that acts runs. -/
inductive EngineMove (T : Tables) (e : Engine) : Instr → Engine → Prop
  | notch (group value flags : Byte) :
    EngineMove T e (.notch group value flags) (notchTaken value.toNat (flags.getLsbD 0) (flags.getLsbD 1) T e)
  | notchTimer : EngineMove T e .notchTimerExpires { e with res := e.res.notchExpires T e.now }
  | dwell : EngineMove T e .dwellTimerExpires { e with res := e.res.dwellExpires T e.now }
  | achieve : EngineMove T e .achieveTimerExpires { e with res := e.res.achieveExpires T e.now }
  | mode (m : Mode) (group target position : Byte) :
    EngineMove T e (modeCommand m group target position) ((positionsNamed position).foldl (setModeAt m) e)
  | resetFault (group target position : Byte) :
    EngineMove T e (.resetFault group target position) ((positionsNamed position).foldl (fun e p => resetFaultAt T p e) e)
  | hold (p : Pos) : EngineMove T e (.holdTimerExpires p) (holdExpires p T e)
  | stop (p : Pos) : EngineMove T e (.stopTimerExpires p) (stopExpires p T e)
  | stepLimit (p : Pos) :
    EngineMove T e (.stepTimerExpires p)
      (stepExpires T p (e.modify p fun x => { x with ctx := x.ctx.map fun c => { c with stepT := .stopped } }))
  | retryRest (p : Pos) : EngineMove T e (.retryRestExpires p) (retryRestExpires p T e)
  | busRest : EngineMove T e .restTimerExpires (busRestExpires T e)
  | guard : EngineMove T e .guardTimerExpires (guardExpires T e)
  | sample (p : Pos) (raw : List Byte) : EngineMove T e (.sample p raw) (sampleArrives T p raw e)
  | sampleTimer (p : Pos) (h : (e.at p).link.sampleT.isRunning = true) :
    EngineMove T e (.sampleTimerExpires p) (linkLost T p e)
  | confirm (p : Pos) (h : (e.at p).link.confirmT.isRunning = true) :
    EngineMove T e (.confirmTimerExpires p) (confirmExpires T p e)
  | refresh (p : Pos) : EngineMove T e (.refreshTimerExpires p) (refreshExpires p e)
  | frameSent (p : Pos) : EngineMove T e (.stationFrameSent p) (stationFrameEnds p e)
  | disagree (p : Pos) (h : (e.at p).link.disagreeT.isRunning = true) :
    EngineMove T e (.disagreeTimerExpires p) (disagreeExpires T p e)
  | level (p : Pos) (level : Level) : EngineMove T e (.pickupLevelChange p level) (levelChanges p level T e)
  | filter (p : Pos) : EngineMove T e (.filterTimerExpires p) (filterExpires T p e)
  | zeroSpeed (p : Pos) : EngineMove T e (.zeroSpeedTimerExpires p) (zeroSpeedExpires T p e)
  | settle (p : Pos) : EngineMove T e (.settleTimerExpires p) (settleExpires p T e)
  | persistenceFailed (p : Pos) (i : Fin 16) :
    EngineMove T e (.persistenceTimerExpires p i) (shutdownAfterFailure T p i e)
  | persistence (p : Pos) (i : Fin 16) (h : (e.at p).prot[i].timer.isRunning = true) :
    EngineMove T e (.persistenceTimerExpires p i) (persistenceExpires T p i e)
  | isolate (p : Pos) (r : MgmtReq) : EngineMove T e (.isolate r) (enter T p .isolated e)
  | restore (p : Pos) (r : MgmtReq) : EngineMove T e (.restore r) (restoreAt T p e)

/-- A position changed at most in its meter, its markers and the frame it sends. -/
def Position.PartsOnly (x y : Position) : Prop :=
  ∃ m a b f, y = { x with meter := m, stepEvent := a, resetRefused := b, link := { x.link with sending := f } }

/-- Works changed at most in the clock and in the meters, markers and frames sent of the positions. -/
structure Works.PartsOnly (w w' : Works) : Prop where
  eq : ∃ n pos, w' = { w with eng := { w.eng with now := n, pos := pos } }
  pos : ∀ p, (w.eng.at p).PartsOnly (w'.eng.at p)

/-- What a command makes of the works of a block. -/
inductive WorksMove (b : Block) : Instr → Works → Prop
  | kept (c : Instr) : WorksMove b c b.works
  | event {c : Instr} (n : Nat) {e : Engine} (h : EngineMove b.works.tab (b.works.atTime n).eng c e) :
    WorksMove b c (closeEvent (b.works.atTime n) { b.works with eng := e })
  | linger (p : Pos) (n : Nat) :
    WorksMove b (.lingerTimerExpires p) (closeEventWith (some p) false (b.works.atTime n) (b.works.atTime n))
  | period (n : Nat) : WorksMove b .periodEnd (periodEnds (b.works.atTime n))
  | application (h : b.works.commitPending = true) : WorksMove b .commitApplication (commitNow b.works)
  | commit (r : MgmtReq) : WorksMove b (.commit r) (commitNow b.works)
  | commitMark (r : MgmtReq) : WorksMove b (.commit r) { b.works with commitPending := true }
  | write (r : MgmtReq) (list : List Entry) (h : checkWrite b r = .ok list) :
    WorksMove b (.write r) (writeAccepted b r.table.toNat r.first.toNat r.count.toNat list).works
  | parts {c : Instr} {w : Works} (hc : onEngines c = false ∧ onOrders c = false) (h : b.works.PartsOnly w) : WorksMove b c w
  | restart (r : MgmtReq) : WorksMove b (.restart r) (restartAll b).works
  | powerOn (up down : Bool) (levels : Four Level) :
    WorksMove b (.powerOnReset up down levels) (powerOn up down levels b).works

/-! ## Parts of positions -/

theorem Position.PartsOnly.refl (x : Position) : x.PartsOnly x := ⟨_, _, _, _, rfl⟩

theorem Position.PartsOnly.trans {x y z : Position} (h₁ : x.PartsOnly y) (h₂ : y.PartsOnly z) : x.PartsOnly z := by
  obtain ⟨m, a, b, f, rfl⟩ := h₁
  obtain ⟨m', a', b', f', rfl⟩ := h₂
  exact ⟨m', a', b', f', rfl⟩

theorem Works.PartsOnly.refl (w : Works) : w.PartsOnly w := ⟨⟨_, _, rfl⟩, fun _ => .refl _⟩

theorem Works.PartsOnly.trans {u v w : Works} (h₁ : u.PartsOnly v) (h₂ : v.PartsOnly w) : u.PartsOnly w := by
  refine ⟨?_, fun p => (h₁.pos p).trans (h₂.pos p)⟩
  obtain ⟨n, pos, rfl⟩ := h₁.eq
  obtain ⟨n', pos', rfl⟩ := h₂.eq
  exact ⟨n', pos', rfl⟩

/-- A change of parts of one position. -/
theorem partsOnly_modify {w : Works} {p : Pos} {f : Position → Position} (h : (w.eng.at p).PartsOnly (f (w.eng.at p))) :
    w.PartsOnly { w with eng := w.eng.modify p f } := by
  refine ⟨⟨_, _, rfl⟩, fun q => ?_⟩
  simp only [Engine.at_modify]
  split
  next hq => subst hq; exact h
  next => exact .refl _

/-- The same done for every position. -/
theorem partsOnly_eachPos {w : Works} {f : Position → Position} (h : ∀ x : Position, x.PartsOnly (f x)) :
    w.PartsOnly { w with eng := w.eng.eachPos fun p e => e.modify p f } := by
  have one : ∀ (e : Engine) (p : Pos),
      Works.PartsOnly { w with eng := e } { w with eng := e.modify p f } := fun e p =>
    partsOnly_modify (w := { w with eng := e }) (h _)
  exact (((one w.eng .A).trans (one _ .B)).trans (one _ .C)).trans (one _ .D)

/-! ## Blocks changed in such parts -/

theorem atTime_partsOnly (w : Works) (n : Nat) : w.PartsOnly (w.atTime n) := ⟨⟨n, _, rfl⟩, fun _ => .refl _⟩

/-- An instant is reached first. -/
theorem reach_partsOnly {b : Block} {n : Nat} {w : Works} (h : (b.reach n).works.PartsOnly w) : b.works.PartsOnly w :=
  (atTime_partsOnly b.works _).trans h

theorem setMeter_partsOnly (b : Block) (p : Pos) (m : Meter) : b.works.PartsOnly (b.setMeter p m).works :=
  partsOnly_modify ⟨m, _, _, _, rfl⟩

theorem writeMeter_partsOnly (b : Block) (p : Pos) (m : Meter) : b.works.PartsOnly (b.writeMeter p m).works :=
  setMeter_partsOnly b p m

theorem rolloverAt_partsOnly (p : Pos) (b : Block) : b.works.PartsOnly (rolloverAt p b).works := by
  unfold rolloverAt
  simp only
  split
  · exact setMeter_partsOnly ..
  · exact writeMeter_partsOnly ..

theorem tickAt_partsOnly (p : Pos) (b : Block) : b.works.PartsOnly (tickAt p b).works := by
  unfold tickAt
  simp only
  split
  · split
    · exact rolloverAt_partsOnly ..
    · exact setMeter_partsOnly ..
  · exact .refl _

theorem applyPendingAt_partsOnly (p : Pos) (b : Block) : b.works.PartsOnly (applyPendingAt p b).works := by
  unfold applyPendingAt
  simp only
  split
  · exact writeMeter_partsOnly ..
  · exact .refl _

theorem block_eachPos_partsOnly {f : Pos → Block → Block} (h : ∀ (p : Pos) (b : Block), b.works.PartsOnly (f p b).works)
    (b : Block) :
    b.works.PartsOnly (b.eachPos f).works := by
  have hA := h .A b
  have hB := hA.trans (h .B (f .A b))
  have hC := hB.trans (h .C (f .B (f .A b)))
  exact hC.trans (h .D (f .C (f .B (f .A b))))

theorem hourTick_works (b : Block) : (hourTick b).works = (b.eachPos tickAt).works := by
  simp only [hourTick]

theorem endHold_works (b : Block) : (endHold b).works = (b.eachPos applyPendingAt).works := rfl

theorem hourTick_partsOnly (b : Block) : b.works.PartsOnly (hourTick b).works := by
  rw [hourTick_works]
  exact block_eachPos_partsOnly tickAt_partsOnly b

theorem endHold_partsOnly (b : Block) : b.works.PartsOnly (endHold b).works := by
  rw [endHold_works]
  exact block_eachPos_partsOnly applyPendingAt_partsOnly b

theorem releaseHold_partsOnly (b : Block) : b.works.PartsOnly (releaseHold b).works := by
  unfold releaseHold
  split
  · exact endHold_partsOnly b
  · exact .refl _

theorem meterIncrement_partsOnly (p : Pos) (b : Block) : b.works.PartsOnly (meterIncrement p b).works := by
  unfold meterIncrement
  split
  · exact rolloverAt_partsOnly p b
  · exact .refl _

theorem answerPoll_partsOnly (b : Block) : b.works.PartsOnly (answerPoll b).works := by
  unfold answerPoll
  split
  · exact partsOnly_eachPos fun _ => ⟨_, _, _, _, rfl⟩
  · exact .refl _

theorem supplyDip_partsOnly (b : Block) : b.works.PartsOnly (supplyDip b).works :=
  partsOnly_eachPos fun _ => ⟨_, _, _, none, rfl⟩

/-! ## The arrival of frames, the expiry of timers -/

/-- Without supply a command leaves the block, else it has its effect. -/
theorem answer_block {f : Block → Block} {s t : State} (h : answer f s = .next t) :
    t.block = f s.block ∧ s.block.powered = true ∨ t.block = s.block := by
  unfold answer at h
  split at h <;> cases h
  next hp => exact Or.inl ⟨rfl, hp⟩
  next => exact Or.inr rfl

theorem fromUp_cases (f : Block → Block) (b : Block) : Block.fromUp f b = f b ∨ Block.fromUp f b = b := by
  unfold Block.fromUp
  split
  · exact Or.inl rfl
  · exact Or.inr rfl

/-- A dispatched frame touches the works by being taken alone (R160). -/
theorem dispatched_works (f : Frame) (kind : DispKind) (group : Byte) (mine : Bool) (take : Block → Block) (b : Block) :
    (dispatched f kind group mine take b).works = (take b).works ∨ (dispatched f kind group mine take b).works = b.works := by
  unfold dispatched
  rcases fromUp_cases _ b with h | h <;> rw [h]
  · have hb : ∀ x : Block, (if (dispatch b.works.tab kind group.toNat).passes then x.onRelay (·.passDown f) else x).works =
        x.works := fun _ => by split <;> rfl
    split
    · simp only [hb]
      split
      · exact Or.inl rfl
      · exact Or.inr rfl
    · exact Or.inr rfl
  · exact Or.inr rfl

/-- A management frame touches the works by being taken alone (R158). -/
theorem mgmtFrameTaken_works (op : Byte) (r : MgmtReq) (take : Block → Block) (b : Block) :
    (mgmtFrameTaken op r take b).works = (take b).works ∨ (mgmtFrameTaken op r take b).works = b.works := by
  unfold mgmtFrameTaken
  rcases fromUp_cases _ b with h | h <;> rw [h]
  · have hb : ∀ (c : Bool) (x : Block), (if c then x.onRelay (·.passDown (mgmtFrame op r)) else x).works = x.works :=
      fun c _ => by cases c <;> rfl
    simp only
    split
    · simp only [hb]
      split
      · exact Or.inl rfl
      · exact Or.inr rfl
    · exact Or.inr rfl
  · exact Or.inr rfl

/-- A request touches the works by being run alone (R170). -/
theorem operation_works (op : Byte) (r : MgmtReq) (run : Block → Block × Option Reply) (b : Block) :
    (operation op r run b).works = (run b).1.works ∨ (operation op r run b).works = b.works := by
  unfold operation
  rcases mgmtFrameTaken_works op r _ b with h | h <;> rw [h]
  · split
    · exact Or.inl (queueReply_works ..)
    · exact Or.inr rfl
  · exact Or.inr rfl

variable {b : Block} {c : Instr}

theorem answer_moves {f : Block → Block} {s t : State} (h : answer f s = .next t)
    (hf : WorksMove s.block c (f s.block).works) : WorksMove s.block c t.block.works := by
  rcases answer_block h with ⟨h, -⟩ | h <;> rw [h]
  · exact hf
  · exact .kept c

theorem moves_of_works {b' : Block} (h : b'.works = b.works) : WorksMove b c b'.works := h ▸ .kept c

theorem dispatched_moves {f : Frame} {kind : DispKind} {group : Byte} {mine : Bool} {take : Block → Block}
    (h : WorksMove b c (take b).works) : WorksMove b c (dispatched f kind group mine take b).works := by
  rcases dispatched_works f kind group mine take b with hw | hw <;> rw [hw]
  · exact h
  · exact .kept c

theorem operation_moves {op : Byte} {r : MgmtReq} {run : Block → Block × Option Reply}
    (h : WorksMove b c (run b).1.works) : WorksMove b c (operation op r run b).works := by
  rcases operation_works op r run b with hw | hw <;> rw [hw]
  · exact h
  · exact .kept c

/-- An expiry acts on a running timer, at an instant of its own (log 2). -/
theorem expiry_moves {t : Timer} {f : Block → Block}
    (h : t.isRunning = true → WorksMove b c (f (b.reach (t.expiryTime b.works.eng.now))).works) :
    WorksMove b c (b.expiry t f).works := by
  unfold Block.expiry
  split
  next hr => exact h hr
  next => exact .kept c

theorem expiryEvent_moves {t : Timer} {f : Tables → Engine → Engine}
    (h : ∀ n, t.isRunning = true →
      EngineMove b.works.tab (b.works.atTime n).eng c (f b.works.tab (b.works.atTime n).eng)) :
    WorksMove b c (b.expiryEvent t f).works :=
  expiry_moves fun hr => .event _ (h _ hr)

theorem event_moves {f : Tables → Engine → Engine} (h : EngineMove b.works.tab b.works.eng c (f b.works.tab b.works.eng)) :
    WorksMove b c (b.onWorks (·.event f)).works :=
  .event b.works.eng.now h

theorem engineRequest_moves {request group target position : Byte} {f : Tables → Engine → Pos → Engine}
    (h : EngineMove b.works.tab b.works.eng c ((positionsNamed position).foldl (f b.works.tab) b.works.eng)) :
    WorksMove b c (engineRequest request group target position f b).works :=
  dispatched_moves (event_moves (f := fun T e => (positionsNamed position).foldl (f T) e) h)

/-! ## The commands that end otherwise than in an event -/

theorem dwellExpires_moves : WorksMove b .dwellTimerExpires (dwellExpires b).works := by
  unfold dwellExpires
  simp only
  split
  · exact .event _ .dwell
  · exact .kept _

theorem achieveExpires_moves : WorksMove b .achieveTimerExpires (achieveExpires b).works := by
  unfold achieveExpires
  split
  · exact .event _ .achieve
  · exact .kept _

theorem persistenceTimer_moves (p : Pos) (i : Fin 16) :
    WorksMove b (.persistenceTimerExpires p i) (persistenceTimer p i b).works := by
  unfold persistenceTimer
  split
  · exact event_moves (.persistenceFailed p i)
  · exact expiryEvent_moves fun _ hr => .persistence p i hr

theorem runCommit_moves (r : MgmtReq) : WorksMove b (.commit r) (runCommit r b).1.works := by
  unfold runCommit
  iterate 3
    split
    · exact .kept _
  split
  · exact .kept _
  · split
    · exact .commit r
    · exact .commitMark r

theorem commitApplies_moves : WorksMove b .commitApplication (commitApplies b.works) := by
  unfold commitApplies
  split
  next h =>
    simp only [Bool.and_eq_true] at h
    exact .application h.1
  next => exact .kept _

theorem runWrite_moves (r : MgmtReq) : WorksMove b (.write r) (runWrite r b).1.works := by
  unfold runWrite
  split
  · exact .kept _
  next list h => exact .write r list h

theorem runRead_works (r : MgmtReq) (b : Block) : (runRead r b).1 = b := by
  unfold runRead
  simp only
  split
  · rfl
  · split <;> rfl

theorem runSave_works (r : MgmtReq) (b : Block) : (runSave r b).1.works = b.works := by
  unfold runSave
  split
  · rfl
  · split <;> rfl

theorem completeSave_works (passes : Bool) (b : Block) : (completeSave passes b).works = b.works := by
  unfold completeSave
  split <;> rfl

theorem runIsolate_moves (r : MgmtReq) : WorksMove b (.isolate r) (runIsolate r b).1.works := by
  unfold runIsolate
  split
  · exact .kept _
  next p _ =>
    split
    · exact event_moves (f := fun T e => enter T p .isolated e) (.isolate p r)
    · exact .kept _

theorem runRestore_moves (r : MgmtReq) : WorksMove b (.restore r) (runRestore r b).1.works := by
  unfold runRestore
  split
  · exact .kept _
  next p _ =>
    split
    · exact event_moves (f := fun T e => restoreAt T p e) (.restore p r)
    · exact .kept _

theorem fromPort_works {port : Port} {f : Block → Block} (h : (f b).works = b.works) :
    (Block.fromPort port f b).works = b.works := by
  cases port
  · rcases fromUp_cases f b with hb | hb <;> simp only [Block.fromPort, hb, h]
  · exact h

/-! ## Every command -/

/-- What a command can do to the works: the one case analysis of `exec` that the statements on all commands rest on. -/
theorem exec_moves {s t : State} (h : exec c s = .next t) : WorksMove s.block c t.block.works := by
  unfold exec at h
  cases c with
  | powerOnReset up down levels => cases h; exact .powerOn up down levels
  | supplyDip => cases h; exact .parts ⟨rfl, rfl⟩ (supplyDip_partsOnly _)
  | notch group value flags => exact answer_moves h (dispatched_moves (event_moves (.notch group value flags)))
  | notchTimerExpires => exact answer_moves h (expiryEvent_moves fun _ _ => .notchTimer)
  | dwellTimerExpires => exact answer_moves h dwellExpires_moves
  | achieveTimerExpires => exact answer_moves h achieveExpires_moves
  | lingerTimerExpires p => exact answer_moves h (expiry_moves fun _ => .linger p _)
  | modeAuto group target position => exact answer_moves h (engineRequest_moves (.mode .auto group target position))
  | modeRun group target position => exact answer_moves h (engineRequest_moves (.mode .run group target position))
  | modeOut group target position => exact answer_moves h (engineRequest_moves (.mode .out group target position))
  | resetFault group target position => exact answer_moves h (engineRequest_moves (.resetFault group target position))
  | holdTimerExpires p => exact answer_moves h (expiryEvent_moves fun _ _ => .hold p)
  | stopTimerExpires p => exact answer_moves h (expiryEvent_moves fun _ _ => .stop p)
  | stepTimerExpires p => exact answer_moves h (expiryEvent_moves fun _ _ => .stepLimit p)
  | retryRestExpires p => exact answer_moves h (expiryEvent_moves fun _ _ => .retryRest p)
  | restTimerExpires => exact answer_moves h (expiryEvent_moves fun _ _ => .busRest)
  | guardTimerExpires => exact answer_moves h (expiryEvent_moves fun _ _ => .guard)
  | sample p raw => exact answer_moves h (event_moves (.sample p raw))
  | sampleTimerExpires p => exact answer_moves h (expiryEvent_moves fun _ hr => .sampleTimer p hr)
  | confirmTimerExpires p => exact answer_moves h (expiryEvent_moves fun _ hr => .confirm p hr)
  | refreshTimerExpires p => exact answer_moves h (expiryEvent_moves fun _ _ => .refresh p)
  | stationFrameSent p => exact answer_moves h (event_moves (.frameSent p))
  | disagreeTimerExpires p => exact answer_moves h (expiryEvent_moves fun _ hr => .disagree p hr)
  | pickupLevelChange p level => exact answer_moves h (event_moves (.level p level))
  | filterTimerExpires p => exact answer_moves h (expiryEvent_moves fun _ _ => .filter p)
  | zeroSpeedTimerExpires p => exact answer_moves h (expiryEvent_moves fun _ _ => .zeroSpeed p)
  | settleTimerExpires p => exact answer_moves h (expiryEvent_moves fun _ _ => .settle p)
  | periodEnd => exact answer_moves h (expiry_moves fun _ => .period _)
  | persistenceTimerExpires p entry => exact answer_moves h (persistenceTimer_moves p entry)
  | runHourTick =>
    exact answer_moves h (expiry_moves fun _ => .parts ⟨rfl, rfl⟩ (reach_partsOnly (hourTick_partsOnly _)))
  | meterIncrement p => exact answer_moves h (.parts ⟨rfl, rfl⟩ (meterIncrement_partsOnly p _))
  | hourHoldTimerExpires =>
    exact answer_moves h (expiry_moves fun _ => .parts ⟨rfl, rfl⟩ (reach_partsOnly (endHold_partsOnly _)))
  | badFrame port raw => exact answer_moves h (moves_of_works (fromPort_works (badBytes_works ..)))
  | unknownKind port kind payload => exact answer_moves h (moves_of_works (fromPort_works (unknownFrame_works ..)))
  | enumerate nextAddr =>
    refine answer_moves h (moves_of_works ?_)
    rcases fromUp_cases (fun b => b.onRelay (·.enumerate nextAddr)) s.block with hb | hb <;> rw [hb]
    rfl
  | poll group target => exact answer_moves h (dispatched_moves (.parts ⟨rfl, rfl⟩ (answerPoll_partsOnly _)))
  | upstreamFrameArrives kind payload => exact answer_moves h (moves_of_works (upstreamArrives_works ..))
  | downTransmissionEnd => exact answer_moves h (.kept _)
  | upTransmissionEnd => exact answer_moves h (.kept _)
  | downLosesCarrier => exact answer_moves h (.kept _)
  | downGainsCarrier => exact answer_moves h (.kept _)
  | upLosesCarrier => exact answer_moves h (.kept _)
  | upGainsCarrier => exact answer_moves h (.kept _)
  | write r => exact answer_moves h (operation_moves (runWrite_moves r))
  | read r => exact answer_moves h (operation_moves (moves_of_works (by rw [runRead_works])))
  | commit r => exact answer_moves h (operation_moves (runCommit_moves r))
  | commitApplication => exact answer_moves h commitApplies_moves
  | save r => exact answer_moves h (operation_moves (moves_of_works (runSave_works ..)))
  | saveCompletion passes => exact answer_moves h (moves_of_works (completeSave_works ..))
  | holdHours r => exact answer_moves h (operation_moves (.kept _))
  | releaseHours r => exact answer_moves h (operation_moves (.parts ⟨rfl, rfl⟩ (releaseHold_partsOnly _)))
  | isolate r => exact answer_moves h (operation_moves (runIsolate_moves r))
  | restore r => exact answer_moves h (operation_moves (runRestore_moves r))
  | restart r =>
    refine answer_moves h ?_
    rcases mgmtFrameTaken_works opRestart r restartAll s.block with hw | hw <;> rw [hw]
    · exact .restart r
    · exact .kept _
  | unknownOp op r =>
    refine answer_moves h ?_
    split
    · exact .kept _
    · exact operation_moves (.kept _)

end Sys2Proof.Machine
end

section
/-! SUPPORT. What a command leaves of the parts of the block beside the works, and that it keeps the relay in bounds. -/

namespace Sys2Proof.Machine

/-! ## The answer -/

theorem answer_powered {f : Block → Block} {s : State} (h : s.block.powered = true) :
    answer f s = .next { s with block := f s.block } := by
  simp [answer, h]

theorem answer_unpowered {f : Block → Block} {s : State} (h : s.block.powered = false) : answer f s = .next s := by
  simp [answer, h]

/-- Every command answers with a next state of the same queue. -/
theorem exec_answers (c : Instr) (s : State) : ∃ t, exec c s = .next t ∧ t.pending = s.pending := by
  have powered : ∀ f, ∃ t, answer f s = .next t ∧ t.pending = s.pending := fun f => by
    refine ⟨_, rfl, ?_⟩
    split <;> rfl
  unfold exec
  cases c with
  | powerOnReset up down levels => exact ⟨_, rfl, rfl⟩
  | supplyDip => exact ⟨_, rfl, rfl⟩
  | _ => exact powered _

/-- Without supply a command other than the two of the supply does nothing (R188). -/
theorem exec_unpowered {c : Instr} {s : State} (h : s.block.powered = false) (hd : c ≠ .supplyDip)
    (hp : ∀ up down levels, c ≠ .powerOnReset up down levels) : exec c s = .next s := by
  unfold exec
  cases c with
  | powerOnReset up down levels => exact absurd rfl (hp up down levels)
  | supplyDip => exact absurd rfl hd
  | _ => exact answer_unpowered h

/-! ## Blocks changed in their works or their relay alone -/

/-- Of the block the works alone changed. -/
def Block.WorksOnly (b b' : Block) : Prop := b' = { b with works := b'.works }

/-- Of the block the works and the relay alone changed. -/
def Block.LineOnly (b b' : Block) : Prop := b' = { b with works := b'.works, relay := b'.relay }

/-- Of the block the relay alone changed. -/
def Block.RelayOnly (b b' : Block) : Prop := b' = { b with relay := b'.relay }

theorem onWorks_worksOnly (b : Block) (f : Works → Works) : b.WorksOnly (b.onWorks f) := rfl

theorem onRelay_relayOnly (b : Block) (f : Relay → Relay) : b.RelayOnly (b.onRelay f) := rfl

theorem expiry_worksOnly {b : Block} {t : Timer} {f : Block → Block} (h : ∀ b : Block, b.WorksOnly (f b)) :
    b.WorksOnly (b.expiry t f) := by
  unfold Block.expiry
  split
  · have hf := h (b.reach (t.expiryTime b.works.eng.now))
    unfold Block.WorksOnly at hf ⊢
    rw [hf]
    rfl
  · rfl

theorem expiryEvent_worksOnly {b : Block} {t : Timer} {f : Tables → Engine → Engine} : b.WorksOnly (b.expiryEvent t f) :=
  expiry_worksOnly fun b => onWorks_worksOnly b _

theorem dwellExpires_worksOnly (b : Block) : b.WorksOnly (dwellExpires b) := by
  unfold dwellExpires
  simp only
  split <;> rfl

theorem achieveExpires_worksOnly (b : Block) : b.WorksOnly (achieveExpires b) := by
  unfold achieveExpires
  split <;> rfl

theorem persistenceTimer_worksOnly (p : Pos) (i : Fin 16) (b : Block) : b.WorksOnly (persistenceTimer p i b) := by
  unfold persistenceTimer
  split
  · rfl
  · exact expiryEvent_worksOnly

theorem answer_worksOnly {f : Block → Block} {s t : State} (h : answer f s = .next t) (hf : s.block.WorksOnly (f s.block)) :
    s.block.WorksOnly t.block := by
  rcases answer_block h with ⟨h, -⟩ | h <;> rw [h]
  · exact hf
  · rfl

theorem answer_relayOnly {f : Block → Block} {s t : State} (h : answer f s = .next t) (hf : s.block.RelayOnly (f s.block)) :
    s.block.RelayOnly t.block := by
  rcases answer_block h with ⟨h, -⟩ | h <;> rw [h]
  · exact hf
  · rfl

/-- The events of engines, stations, loading and protection change the works alone. -/
theorem exec_onEngines {c : Instr} {s t : State} (h : exec c s = .next t) (hc : onEngines c = true) :
    s.block.WorksOnly t.block := by
  unfold exec at h
  cases c with
  | notchTimerExpires => exact answer_worksOnly h expiryEvent_worksOnly
  | dwellTimerExpires => exact answer_worksOnly h (dwellExpires_worksOnly _)
  | achieveTimerExpires => exact answer_worksOnly h (achieveExpires_worksOnly _)
  | lingerTimerExpires p => exact answer_worksOnly h (expiry_worksOnly fun b => onWorks_worksOnly b _)
  | holdTimerExpires p => exact answer_worksOnly h expiryEvent_worksOnly
  | stopTimerExpires p => exact answer_worksOnly h expiryEvent_worksOnly
  | stepTimerExpires p => exact answer_worksOnly h expiryEvent_worksOnly
  | retryRestExpires p => exact answer_worksOnly h expiryEvent_worksOnly
  | restTimerExpires => exact answer_worksOnly h expiryEvent_worksOnly
  | guardTimerExpires => exact answer_worksOnly h expiryEvent_worksOnly
  | sample p raw => exact answer_worksOnly h (onWorks_worksOnly _ _)
  | sampleTimerExpires p => exact answer_worksOnly h expiryEvent_worksOnly
  | confirmTimerExpires p => exact answer_worksOnly h expiryEvent_worksOnly
  | refreshTimerExpires p => exact answer_worksOnly h expiryEvent_worksOnly
  | stationFrameSent p => exact answer_worksOnly h (onWorks_worksOnly _ _)
  | disagreeTimerExpires p => exact answer_worksOnly h expiryEvent_worksOnly
  | pickupLevelChange p level => exact answer_worksOnly h (onWorks_worksOnly _ _)
  | filterTimerExpires p => exact answer_worksOnly h expiryEvent_worksOnly
  | zeroSpeedTimerExpires p => exact answer_worksOnly h expiryEvent_worksOnly
  | settleTimerExpires p => exact answer_worksOnly h expiryEvent_worksOnly
  | periodEnd => exact answer_worksOnly h (expiry_worksOnly fun b => onWorks_worksOnly b _)
  | persistenceTimerExpires p entry => exact answer_worksOnly h (persistenceTimer_worksOnly ..)
  | commitApplication => exact answer_worksOnly h (onWorks_worksOnly _ _)
  | _ => cases hc

theorem fromPort_relayOnly {port : Port} {f : Block → Block} {b : Block} (h : b.RelayOnly (f b)) :
    b.RelayOnly (Block.fromPort port f b) := by
  cases port
  · rcases fromUp_cases f b with hb | hb <;> simp only [Block.fromPort, hb]
    · exact h
    · rfl
  · exact h

theorem badBytes_relayOnly (port : Port) (raw : List Byte) (b : Block) : b.RelayOnly (badBytes port raw b) := by
  unfold badBytes
  split <;> rfl

theorem unknownFrame_relayOnly (port : Port) (f : Frame) (b : Block) : b.RelayOnly (unknownFrame port f b) := by
  unfold unknownFrame
  split
  · rfl
  · split
    · cases port <;> rfl
    · rfl

theorem upstreamArrives_relayOnly (f : Frame) (b : Block) : b.RelayOnly (upstreamArrives f b) := by
  unfold upstreamArrives
  split <;> rfl

/-- The commands of the line change the relay alone. -/
theorem exec_onLine {c : Instr} {s t : State} (h : exec c s = .next t) (hc : onLine c = true) :
    s.block.RelayOnly t.block := by
  unfold exec at h
  cases c with
  | badFrame port raw => exact answer_relayOnly h (fromPort_relayOnly (badBytes_relayOnly ..))
  | unknownKind port kind payload => exact answer_relayOnly h (fromPort_relayOnly (unknownFrame_relayOnly ..))
  | enumerate nextAddr =>
    refine answer_relayOnly h ?_
    exact fromPort_relayOnly (port := .up) (f := (·.onRelay (·.enumerate nextAddr))) rfl
  | upstreamFrameArrives kind payload => exact answer_relayOnly h (upstreamArrives_relayOnly ..)
  | downTransmissionEnd => exact answer_relayOnly h (onRelay_relayOnly ..)
  | upTransmissionEnd => exact answer_relayOnly h (onRelay_relayOnly ..)
  | downLosesCarrier => exact answer_relayOnly h (onRelay_relayOnly ..)
  | downGainsCarrier => exact answer_relayOnly h (onRelay_relayOnly ..)
  | upLosesCarrier => exact answer_relayOnly h (onRelay_relayOnly ..)
  | upGainsCarrier => exact answer_relayOnly h (onRelay_relayOnly ..)
  | _ => cases hc

/-- A dispatched frame whose taking changes the works alone changes works and relay alone. -/
theorem dispatched_lineOnly {f : Frame} {kind : DispKind} {group : Byte} {mine : Bool} {take : Block → Block} {b : Block}
    (h : b.WorksOnly (take b)) : b.LineOnly (dispatched f kind group mine take b) := by
  unfold dispatched
  rcases fromUp_cases _ b with hu | hu <;> rw [hu]
  · have passed : ∀ x : Block, b.WorksOnly x →
        b.LineOnly (if (dispatch b.works.tab kind group.toNat).passes then x.onRelay (·.passDown f) else x) := by
      intro x hx
      unfold Block.WorksOnly at hx
      rw [hx]
      split <;> rfl
    split
    · refine passed _ ?_
      split
      · exact h
      · rfl
    · rfl
  · rfl

theorem answer_lineOnly {f : Block → Block} {s t : State} (h : answer f s = .next t) (hf : s.block.LineOnly (f s.block)) :
    s.block.LineOnly t.block := by
  rcases answer_block h with ⟨h, -⟩ | h <;> rw [h]
  · exact hf
  · rfl

/-- The frames of the Resolver, the Planner and the positions change works and relay alone. -/
theorem exec_onOrders {c : Instr} {s t : State} (h : exec c s = .next t) (hc : onOrders c = true) :
    s.block.LineOnly t.block := by
  unfold exec at h
  cases c with
  | notch group value flags => exact answer_lineOnly h (dispatched_lineOnly (onWorks_worksOnly _ _))
  | modeAuto group target position => exact answer_lineOnly h (dispatched_lineOnly (onWorks_worksOnly _ _))
  | modeRun group target position => exact answer_lineOnly h (dispatched_lineOnly (onWorks_worksOnly _ _))
  | modeOut group target position => exact answer_lineOnly h (dispatched_lineOnly (onWorks_worksOnly _ _))
  | resetFault group target position => exact answer_lineOnly h (dispatched_lineOnly (onWorks_worksOnly _ _))
  | _ => cases hc

/-! ## The relay -/

/-- A change of the block that keeps the relay in bounds and serving. -/
def Block.RelaySafe (b b' : Block) : Prop := RelayOk b.relay → RelayOk b'.relay

theorem relaySafe_same {b b' : Block} (h : b'.relay = b.relay) : b.RelaySafe b' := fun hb => h ▸ hb

theorem Block.RelaySafe.trans {a b c : Block} (h₁ : a.RelaySafe b) (h₂ : b.RelaySafe c) : a.RelaySafe c := fun h => h₂ (h₁ h)

theorem Block.WorksOnly.relay {b b' : Block} (h : b.WorksOnly b') : b'.relay = b.relay := by rw [h]

theorem fromUp_safe {f : Block → Block} {b : Block} (h : b.RelaySafe (f b)) : b.RelaySafe (Block.fromUp f b) := by
  rcases fromUp_cases f b with hu | hu <;> rw [hu]
  · exact h
  · exact relaySafe_same rfl

theorem fromPort_safe {port : Port} {f : Block → Block} {b : Block} (h : b.RelaySafe (f b)) :
    b.RelaySafe (Block.fromPort port f b) := by
  cases port
  · exact fromUp_safe h
  · exact h

theorem dispatched_safe {f : Frame} {kind : DispKind} {group : Byte} {mine : Bool} {take : Block → Block} {b : Block}
    (h : b.RelaySafe (take b)) : b.RelaySafe (dispatched f kind group mine take b) := by
  refine fromUp_safe ?_
  split
  · have taken : b.RelaySafe (if ((dispatch b.works.tab kind group.toNat).acts && mine) = true then take b else b) := by
      split
      · exact h
      · exact relaySafe_same rfl
    dsimp only
    split
    · exact fun hb => passDown_ok _ (taken hb)
    · exact taken
  · exact fun hb => countBad_ok .up hb

theorem mgmtFrameTaken_safe {op : Byte} {r : MgmtReq} {take : Block → Block} {b : Block} (h : b.RelaySafe (take b)) :
    b.RelaySafe (mgmtFrameTaken op r take b) := by
  refine fromUp_safe ?_
  dsimp only
  split
  · have taken : b.RelaySafe (if b.relay.addressed r.target = true then take b else b) := by
      split
      · exact h
      · exact relaySafe_same rfl
    split
    · exact fun hb => passDown_ok _ (taken hb)
    · exact taken
  · exact fun hb => countBad_ok .up hb

theorem operation_safe {op : Byte} {r : MgmtReq} {run : Block → Block × Option Reply} {b : Block}
    (h : (run b).1.relay = b.relay) : b.RelaySafe (operation op r run b) := by
  refine mgmtFrameTaken_safe ?_
  split
  next room =>
    rcases hrun : run b with ⟨b', rp⟩
    rw [hrun] at h
    intro hb
    cases rp with
    | none => exact h ▸ hb
    | some rp => exact queueLocal_ok _ (by rw [h]; exact room) (by rw [h]; exact hb)
  next => exact fun hb => mgmtDrop_ok hb

theorem answerPoll_safe (b : Block) : b.RelaySafe (answerPoll b) := by
  unfold answerPoll
  split
  next room => exact fun hb => queueLocal_ok _ room hb
  next => exact fun hb => replyDrop_ok hb

theorem badBytes_safe (port : Port) (raw : List Byte) (b : Block) : b.RelaySafe (badBytes port raw b) := by
  unfold badBytes
  split
  · exact fun hb => countBad_ok port hb
  · exact relaySafe_same rfl

theorem unknownFrame_safe (port : Port) (f : Frame) (b : Block) : b.RelaySafe (unknownFrame port f b) := by
  unfold unknownFrame
  split
  · exact relaySafe_same rfl
  · split
    · cases port
      · exact fun hb => passDown_ok _ hb
      · exact fun hb => queueUp_ok _ hb
    · exact fun hb => countBad_ok port hb

theorem upstreamArrives_safe (f : Frame) (b : Block) : b.RelaySafe (upstreamArrives f b) := by
  unfold upstreamArrives
  split
  · exact fun hb => queueUp_ok _ hb
  · exact fun hb => countBad_ok .down hb

/-! ### The parts that leave the relay -/

theorem tickAt_relay (p : Pos) (b : Block) : (tickAt p b).relay = b.relay := by
  unfold tickAt rolloverAt
  simp only
  split
  · split
    · split <;> rfl
    · rfl
  · rfl

theorem applyPendingAt_relay (p : Pos) (b : Block) : (applyPendingAt p b).relay = b.relay := by
  unfold applyPendingAt
  simp only
  split <;> rfl

theorem hourTick_relay (b : Block) : (hourTick b).relay = b.relay := by
  simp only [hourTick, Block.eachPos, tickAt_relay]

theorem endHold_relay (b : Block) : (endHold b).relay = b.relay := by
  simp only [endHold, Block.eachPos, applyPendingAt_relay]

theorem releaseHold_relay (b : Block) : (releaseHold b).relay = b.relay := by
  unfold releaseHold
  split
  · exact endHold_relay b
  · rfl

theorem meterIncrement_relay (p : Pos) (b : Block) : (meterIncrement p b).relay = b.relay := by
  unfold meterIncrement rolloverAt
  simp only
  split
  · split <;> rfl
  · rfl

theorem expiry_relay {b : Block} {t : Timer} {f : Block → Block} (h : ∀ b : Block, (f b).relay = b.relay) :
    (b.expiry t f).relay = b.relay := by
  unfold Block.expiry
  split
  · exact h _
  · rfl

theorem writeT10_relay (list : List Entry) (b : Block) (i : Nat) : (writeT10 b i list).relay = b.relay := by
  induction list generalizing b i with
  | nil => rfl
  | cons x rest ih =>
    cases x with
    | t10 value =>
      rw [writeT10, ih]
      unfold writeT10At
      split <;> rfl
    | _ => exact ih ..

theorem writeAccepted_relay (b : Block) (table first count : Nat) (list : List Entry) :
    (writeAccepted b table first count list).relay = b.relay := by
  unfold writeAccepted
  split
  case h_6 => exact writeT10_relay ..
  all_goals rfl

theorem runWrite_relay (r : MgmtReq) (b : Block) : (runWrite r b).1.relay = b.relay := by
  unfold runWrite
  split
  · rfl
  · exact writeAccepted_relay ..

theorem runCommit_relay (r : MgmtReq) (b : Block) : (runCommit r b).1.relay = b.relay := by
  unfold runCommit
  iterate 3
    split
    · rfl
  split
  · rfl
  · split <;> rfl

theorem runSave_relay (r : MgmtReq) (b : Block) : (runSave r b).1.relay = b.relay := by
  unfold runSave
  split
  · rfl
  · split <;> rfl

theorem runIsolate_relay (r : MgmtReq) (b : Block) : (runIsolate r b).1.relay = b.relay := by
  unfold runIsolate
  split
  · rfl
  · split <;> rfl

theorem runRestore_relay (r : MgmtReq) (b : Block) : (runRestore r b).1.relay = b.relay := by
  unfold runRestore
  split
  · rfl
  · split <;> rfl

theorem completeSave_safe (passes : Bool) (b : Block) : b.RelaySafe (completeSave passes b) := by
  unfold completeSave
  split
  · exact relaySafe_same rfl
  · exact fun hb => queueLate_ok _ hb

/-! ### Every command -/

theorem answer_safe {f : Block → Block} {s t : State} (h : answer f s = .next t) (hf : s.block.RelaySafe (f s.block)) :
    s.block.RelaySafe t.block := by
  rcases answer_block h with ⟨h, -⟩ | h <;> rw [h]
  · exact hf
  · exact relaySafe_same rfl

/-- Every command but the loss of supply keeps the relay in bounds and serving. -/
theorem exec_safe {c : Instr} {s t : State} (h : exec c s = .next t) (hd : c ≠ .supplyDip) : s.block.RelaySafe t.block := by
  cases hc : onEngines c
  case true => exact relaySafe_same (exec_onEngines h hc).relay
  unfold exec at h
  cases c with
  | supplyDip => exact absurd rfl hd
  | powerOnReset up down levels => cases h; exact fun _ => reset_ok up down
  | notch group value flags => exact answer_safe h (dispatched_safe (relaySafe_same rfl))
  | modeAuto group target position => exact answer_safe h (dispatched_safe (relaySafe_same rfl))
  | modeRun group target position => exact answer_safe h (dispatched_safe (relaySafe_same rfl))
  | modeOut group target position => exact answer_safe h (dispatched_safe (relaySafe_same rfl))
  | resetFault group target position => exact answer_safe h (dispatched_safe (relaySafe_same rfl))
  | runHourTick => exact answer_safe h (relaySafe_same (expiry_relay hourTick_relay))
  | meterIncrement p => exact answer_safe h (relaySafe_same (meterIncrement_relay p _))
  | hourHoldTimerExpires => exact answer_safe h (relaySafe_same (expiry_relay endHold_relay))
  | badFrame port raw => exact answer_safe h (fromPort_safe (badBytes_safe _ _ _))
  | unknownKind port kind payload => exact answer_safe h (fromPort_safe (unknownFrame_safe _ _ _))
  | enumerate nextAddr => exact answer_safe h (fromUp_safe fun hb => enumerate_ok _ hb)
  | poll group target => exact answer_safe h (dispatched_safe (answerPoll_safe _))
  | upstreamFrameArrives kind payload => exact answer_safe h (upstreamArrives_safe _ _)
  | downTransmissionEnd => exact answer_safe h fun hb => downEnd_ok hb
  | upTransmissionEnd => exact answer_safe h fun hb => upEnd_ok hb
  | downLosesCarrier => exact answer_safe h fun hb => downLost_ok hb
  | downGainsCarrier => exact answer_safe h fun hb => downGained_ok hb
  | upLosesCarrier => exact answer_safe h fun hb => upLost_ok hb
  | upGainsCarrier => exact answer_safe h fun hb => upGained_ok hb
  | write r => exact answer_safe h (operation_safe (runWrite_relay ..))
  | read r => exact answer_safe h (operation_safe (by rw [runRead_works]))
  | commit r => exact answer_safe h (operation_safe (runCommit_relay ..))
  | save r => exact answer_safe h (operation_safe (runSave_relay ..))
  | saveCompletion passes => exact answer_safe h (completeSave_safe _ _)
  | holdHours r => exact answer_safe h (operation_safe rfl)
  | releaseHours r => exact answer_safe h (operation_safe (releaseHold_relay _))
  | isolate r => exact answer_safe h (operation_safe (runIsolate_relay ..))
  | restore r => exact answer_safe h (operation_safe (runRestore_relay ..))
  | restart r => exact answer_safe h (mgmtFrameTaken_safe fun hb => restart_ok hb)
  | unknownOp op r =>
    refine answer_safe h ?_
    split
    · exact relaySafe_same rfl
    · exact operation_safe rfl
  | _ => cases hc

/-- The loss of supply keeps the queues, and with them the bounds. -/
theorem supplyDip_bounded {b : Block} (h : b.relay.Bounded) : (supplyDip b).relay.Bounded := by
  obtain ⟨down, up, localQ, address, badUp, badDown, relayDrops, replyDrops, mgmtDrops⟩ := upIdle_bounded h
  exact ⟨down, up, localQ, address, badUp, badDown, relayDrops, replyDrops, mgmtDrops⟩

/-- A command keeps the relay in bounds and, on a powered unit, serving. -/
theorem exec_relay {c : Instr} {s t : State} (h : exec c s = .next t) (hb : s.relay.Bounded)
    (hs : s.block.powered = true → s.relay.Serving) : t.relay.Bounded ∧ (t.block.powered = true → t.relay.Serving) := by
  by_cases hd : c = .supplyDip
  · subst hd
    cases h
    exact ⟨supplyDip_bounded hb, fun hp => by cases hp⟩
  cases hp : s.block.powered
  case true =>
    have ht := exec_safe h hd ⟨hb, hs hp⟩
    exact ⟨ht.bounded, fun _ => ht.serving⟩
  case false =>
    by_cases hr : ∃ up down levels, c = .powerOnReset up down levels
    · obtain ⟨up, down, levels, rfl⟩ := hr
      cases h
      exact ⟨(reset_ok up down).bounded, fun _ => (reset_ok up down).serving⟩
    · simp only [not_exists] at hr
      rw [exec_unpowered hp hd hr] at h
      cases h
      exact ⟨hb, hs⟩

/-! ## An empty queue -/

theorem idle_unpowered {s : State} (h : s.block.powered = false) : idle s = s := by
  simp [idle, h]

theorem idle_due {s : State} {c : Instr} {rest : List Instr} (h : s.block.powered = true)
    (hd : dueCommands s.block = c :: rest) : idle s = { s with pending := [c] } := by
  simp [idle, h, hd]

theorem idle_passes {s : State} (h : s.block.powered = true) (hd : dueCommands s.block = []) :
    idle s = { s with block := s.block.passTime } := by
  simp [idle, h, hd]

/-- An empty queue changes the clock and the queue alone. -/
theorem idle_block (s : State) : (idle s).block = s.block ∨ (idle s).block = s.block.passTime := by
  unfold idle
  split
  · split
    · exact Or.inr rfl
    · exact Or.inl rfl
  · exact Or.inl rfl

/-- A step is a command, run on a state with the same block, or lets time pass. -/
theorem step_cases {s t : State} (h : step s = .next t) :
    (t.block = s.block ∨ t.block = s.block.passTime) ∨
      ∃ c u, u.block = s.block ∧ exec c u = .next t := by
  unfold step at h
  split at h
  next =>
    cases h
    exact Or.inl (idle_block s)
  next c rest _ => exact Or.inr ⟨c, { s with pending := rest }, rfl, h⟩

/-! ## The statements -/

/-- Settles O57: each command by the lemma on its operation of the relay. -/
theorem everyStepKeepsTheRelayBounded : Obligations.EveryStepKeepsTheRelayBounded := by
  intro s t h hb hs
  rcases step_cases h with (ht | ht) | ⟨c, u, hu, hc⟩
  · rw [State.relay, ht]
    exact ⟨hb, hs⟩
  · rw [State.relay, ht]
    exact ⟨hb, hs⟩
  · exact exec_relay hc (by rw [State.relay, hu]; exact hb) (by rw [State.relay, hu]; exact hs)

/-- Settles O1. -/
theorem stepRunsTheFrontCommand : Obligations.StepRunsTheFrontCommand := by
  intro s c rest h
  simp only [step, h]

/-- Settles O2. -/
theorem emptyQueueLetsTimePass : Obligations.EmptyQueueLetsTimePass := by
  intro s h
  simp only [step, h]
  refine ⟨fun hp => ?_, fun hp c rest hd => ?_, fun hp hd => ?_⟩
  · rw [idle_unpowered hp]
  · rw [idle_due hp hd]
  · rw [idle_passes hp hd, h]
    rfl

/-- Settles O3. -/
theorem everyCommandAnswersAndLeavesTheQueue : Obligations.EveryCommandAnswersAndLeavesTheQueue := exec_answers

/-- Settles O4. -/
theorem withoutSupplyACommandDoesNothing : Obligations.WithoutSupplyACommandDoesNothing :=
  fun _ _ hp hd hr => exec_unpowered hp hd hr

end Sys2Proof.Machine
end

section
/-! SUPPORT. What an event of one position leaves: the Resolver and the clocks, the other positions but for a grant of the bus, and
the mode, the meter and, unless it is an event of the pickup, the pickup of its own position. -/

namespace Sys2Proof.Machine

/-- An event at one position; `edge` tells whether it may change the pickup. -/
structure ActsAt (edge : Bool) (T : Tables) (p : Pos) (a b : Engine) : Prop where
  now : b.now = a.now
  res : b.res = a.res
  pwm : b.pwm = a.pwm
  others : ∀ q, q ≠ p → GrantedOnly T a.now (a.at q) (b.at q)
  mode : (b.at p).mode = (a.at p).mode
  meter : (b.at p).meter = (a.at p).meter
  pickup : edge = false → (b.at p).pickup = (a.at p).pickup

variable {k : Bool} {T : Tables} {p : Pos} {e : Engine}

theorem ActsAt.refl (k : Bool) (T : Tables) (p : Pos) (e : Engine) : ActsAt k T p e e :=
  ⟨rfl, rfl, rfl, fun _ _ => .refl _ _ _, rfl, rfl, fun _ => rfl⟩

theorem ActsAt.trans {a b c : Engine} (h₁ : ActsAt k T p a b) (h₂ : ActsAt k T p b c) : ActsAt k T p a c := by
  refine ⟨h₂.now.trans h₁.now, h₂.res.trans h₁.res, h₂.pwm.trans h₁.pwm, fun q hq => ?_, h₂.mode.trans h₁.mode,
    h₂.meter.trans h₁.meter, fun hk => (h₂.pickup hk).trans (h₁.pickup hk)⟩
  have h := h₂.others q hq
  rw [h₁.now] at h
  exact (h₁.others q hq).trans h

theorem Touches.acts {a b : Engine} (h : Touches T p a b) : ActsAt k T p a b :=
  ⟨h.now, h.res, h.pwm, h.others, h.self.mode, h.self.meter, fun _ => h.self.pickup⟩

theorem put_acts {x : Position} (hm : x.mode = (e.at p).mode) (ht : x.meter = (e.at p).meter)
    (hk : k = false → x.pickup = (e.at p).pickup) : ActsAt k T p e (e.put p x) := by
  refine ⟨rfl, rfl, rfl, fun q hq => ?_, by simpa using hm, by simpa using ht, fun h => by simpa using hk h⟩
  rw [Engine.at_put_other _ _ hq]
  exact .refl _ _ _

theorem modify_acts {f : Position → Position} (hm : (f (e.at p)).mode = (e.at p).mode)
    (ht : (f (e.at p)).meter = (e.at p).meter) (hk : k = false → (f (e.at p)).pickup = (e.at p).pickup) :
    ActsAt k T p e (e.modify p f) := put_acts hm ht hk

/-- What follows a change of the position's record that leaves mode, meter and pickup. -/
theorem Touches.afterPut {x : Position} {b : Engine} (h : Touches T p (e.put p x) b) (hm : x.mode = (e.at p).mode)
    (ht : x.meter = (e.at p).meter) (hk : k = false → x.pickup = (e.at p).pickup) : ActsAt k T p e b :=
  (put_acts hm ht hk).trans h.acts

/-- What follows such a change by a function of the record. -/
theorem Touches.afterModify {f : Position → Position} {b : Engine} (h : Touches T p (e.modify p f) b)
    (hm : (f (e.at p)).mode = (e.at p).mode) (ht : (f (e.at p)).meter = (e.at p).meter)
    (hk : k = false → (f (e.at p)).pickup = (e.at p).pickup) : ActsAt k T p e b :=
  (modify_acts hm ht hk).trans h.acts

theorem endSpeedPhase_acts {late : Bool} : ActsAt k T p e (endSpeedPhase T p late e) :=
  (completePhase_touches T p _).afterModify rfl rfl fun _ => rfl

/-! ## The events of positions -/

theorem holdExpires_acts : ActsAt k T p e (holdExpires p T e) :=
  (fault_touches T p .heldTimeout none _).afterModify rfl rfl fun _ => rfl

theorem stopExpires_acts : ActsAt k T p e (stopExpires p T e) :=
  (fault_touches T p .failToStop _ _).afterModify rfl rfl fun _ => rfl

theorem stepLimit_acts : ActsAt k T p e
    (stepExpires T p (e.modify p fun x => { x with ctx := x.ctx.map fun c => { c with stepT := .stopped } })) :=
  (stepExpires_touches T p _).afterModify rfl rfl fun _ => rfl

theorem busRestExpires_busOnly : BusOnly T e (busRestExpires T e) :=
  (busOnly_bus T e _).trans (grantNext_busOnly T _)

/-- The guard's expiry acts at the holder of the bus, or on the bus alone. -/
theorem guardExpires_touches : (∃ p, e.bus.state = .taken p ∧ Touches T p e (guardExpires T e)) ∨ BusOnly T e (guardExpires T e) := by
  unfold guardExpires
  split
  next p hp => exact Or.inl ⟨p, hp, ((freeBus_busOnly T e).touches p).trans (failStart_touches ..)⟩
  next => exact Or.inr (busOnly_bus ..)

theorem disagreeTest_parts (now : Nat) (x : Position) : (disagreeTest T p now x).1.mode = x.mode ∧
    (disagreeTest T p now x).1.meter = x.meter ∧ (disagreeTest T p now x).1.pickup = x.pickup := by
  obtain ⟨t, b, h, -⟩ := disagreeTest_keeps T p now x
  rw [h]
  exact ⟨rfl, rfl, rfl⟩

/-! ### A valid sample, branch by branch -/

/-- A position with the link as a valid sample leaves it. -/
def Position.heard (T : Tables) (p : Pos) (s : Sample) (now : Nat) (x : Position) : Position :=
  { x with link := (x.link.judgeSetup x.st s).takeSample (T.profile p) s now }

/-- That position with its pairs tested on the sample where it is tested. -/
def Position.sampled (T : Tables) (p : Pos) (s : Sample) (now : Nat) (x : Position) : Position :=
  if x.st.tested then protAtSample T p now (x.heard T p s now) else x.heard T p s now

/-- That position after the disagree test. -/
def Position.judged (T : Tables) (p : Pos) (s : Sample) (now : Nat) (x : Position) : Position :=
  (disagreeTest T p now (x.sampled T p s now)).1

/-- Whether the disagree test of a sample agrees. -/
def Position.agrees (T : Tables) (p : Pos) (s : Sample) (now : Nat) (x : Position) : Bool :=
  (disagreeTest T p now (x.sampled T p s now)).2

/-- The faults that a sample brings. -/
def sampleFaults (T : Tables) (p : Pos) (s : Sample) (now : Nat) (x : Position) : List (FaultCode × Option Int) :=
  (if losesStart x s now then [(FaultCode.stationLost, none)] else [])
    ++ shutdownsTested T now x (protAtSample T p now (x.heard T p s now))

/-- A sample that brings faults. -/
theorem takeSample_faults {s : Sample} (h : sampleFaults T p s e.now (e.at p) ≠ []) :
    takeSample T p s e = faults T p (sampleFaults T p s e.now (e.at p)) (e.put p ((e.at p).judged T p s e.now)) := by
  unfold takeSample
  dsimp only
  split
  next he => exact absurd he h
  next => rfl

/-- A sample that finds the engine of an OFF position running (R115). -/
theorem takeSample_resync {s : Sample} (h : sampleFaults T p s e.now (e.at p) = [])
    (hr : resyncs T p (e.at p) ((e.at p).judged T p s e.now) = true) :
    takeSample T p s e =
      (enterHeld T p (resyncCauses s) (e.put p ((e.at p).judged T p s e.now))).put p
        (disagreeTest T p (enterHeld T p (resyncCauses s) (e.put p ((e.at p).judged T p s e.now))).now
          ((enterHeld T p (resyncCauses s) (e.put p ((e.at p).judged T p s e.now))).at p)).1 := by
  unfold takeSample
  dsimp only
  split
  next => exact if_pos hr
  next hn => exact absurd h hn

/-- The record after the causes and the step test of a sample. -/
def sampleJudged (T : Tables) (p : Pos) (s : Sample) (e : Engine) : Engine :=
  stepTestSample T p s (judgeCauses T p (causesAdded T (e.at p) ((e.at p).judged T p s e.now) s)
    (causesRemoved T (e.at p) ((e.at p).judged T p s e.now) s ((e.at p).agrees T p s e.now))
    (e.put p ((e.at p).judged T p s e.now)))

/-- Every other sample: the causes, the step test and the speed phase it settles. -/
theorem takeSample_judged {s : Sample} (h : sampleFaults T p s e.now (e.at p) = [])
    (hr : resyncs T p (e.at p) ((e.at p).judged T p s e.now) = false) :
    takeSample T p s e =
      if settles T p (sampleJudged T p s e).now ((sampleJudged T p s e).at p) s then
        endSpeedPhase T p false (writeSlot T p (sampleJudged T p s e))
      else sampleJudged T p s e := by
  unfold takeSample
  dsimp only
  split
  next => exact if_neg (Bool.eq_false_iff.1 hr)
  next hn => exact absurd h hn

theorem sampled_parts (s : Sample) (now : Nat) (x : Position) : (x.sampled T p s now).mode = x.mode ∧
    (x.sampled T p s now).meter = x.meter ∧ (x.sampled T p s now).pickup = x.pickup := by
  unfold Position.sampled
  split <;> exact ⟨rfl, rfl, rfl⟩

theorem judged_acts (s : Sample) : ActsAt k T p e (e.put p ((e.at p).judged T p s e.now)) := by
  obtain ⟨hm, ht, hp⟩ := disagreeTest_parts (T := T) (p := p) e.now ((e.at p).sampled T p s e.now)
  obtain ⟨gm, gt, gp⟩ := sampled_parts (T := T) (p := p) s e.now (e.at p)
  exact put_acts (hm.trans gm) (ht.trans gt) fun _ => hp.trans gp

theorem disagreeTested_acts : ActsAt k T p e (e.put p (disagreeTest T p e.now (e.at p)).1) := by
  obtain ⟨hm, ht, hp⟩ := disagreeTest_parts (T := T) (p := p) e.now (e.at p)
  exact put_acts hm ht fun _ => hp

theorem sampleJudged_acts (s : Sample) : ActsAt k T p e (sampleJudged T p s e) :=
  ((judged_acts s).trans (judgeCauses_touches ..).acts).trans (stepTestSample_touches ..).acts

theorem takeSample_acts (s : Sample) : ActsAt k T p e (takeSample T p s e) := by
  by_cases h : sampleFaults T p s e.now (e.at p) = []
  · cases hr : resyncs T p (e.at p) ((e.at p).judged T p s e.now)
    · rw [takeSample_judged h hr]
      split
      · exact ((sampleJudged_acts s).trans (writeSlot_touches ..).acts).trans endSpeedPhase_acts
      · exact sampleJudged_acts s
    · rw [takeSample_resync h hr]
      exact ((judged_acts s).trans (enterHeld_touches ..).acts).trans disagreeTested_acts
  · rw [takeSample_faults h]
    exact (judged_acts s).trans (faults_touches ..).acts

theorem sampleArrives_acts (raw : List Byte) : ActsAt k T p e (sampleArrives T p raw e) := by
  unfold sampleArrives
  split
  · exact .refl ..
  · split
    · exact .refl ..
    · exact takeSample_acts _

theorem linkLost_acts : ActsAt k T p e (linkLost T p e) := by
  unfold linkLost
  simp only
  split
  · exact put_acts rfl rfl fun _ => rfl
  · exact (fault_touches ..).afterPut rfl rfl fun _ => rfl
  iterate 4 exact (judgeCauses_touches ..).afterPut rfl rfl fun _ => rfl
  · split
    · exact (fault_touches ..).afterPut rfl rfl fun _ => rfl
    · exact put_acts rfl rfl fun _ => rfl
  · exact put_acts rfl rfl fun _ => rfl

theorem confirmExpires_acts : ActsAt k T p e (confirmExpires T p e) := by
  unfold confirmExpires
  refine modify_acts ?_ ?_ ?_ <;> split <;> intros <;> rfl

theorem refreshExpires_acts : ActsAt k T p e (refreshExpires p e) := modify_acts rfl rfl fun _ => rfl

theorem stationFrameEnds_acts : ActsAt k T p e (stationFrameEnds p e) := modify_acts rfl rfl fun _ => rfl

theorem disagreeExpires_acts : ActsAt k T p e (disagreeExpires T p e) :=
  (judgeCauses_touches ..).afterModify rfl rfl fun _ => rfl

theorem levelChanges_acts (level : Level) : ActsAt true T p e (levelChanges p level T e) :=
  modify_acts rfl rfl fun h => by cases h

/-! ### A pickup update, branch by branch -/

/-- A position with its pairs tested at a pickup update where it is tested. -/
def Position.paced (T : Tables) (p : Pos) (now old : Nat) (x : Position) : Position :=
  if x.st.tested then protAtPickup T p now old x else x

/-- That position after the disagree test. -/
def Position.clocked (T : Tables) (p : Pos) (now old : Nat) (x : Position) : Position :=
  (disagreeTest T p now (x.paced T p now old)).1

/-- Whether the disagree test of a pickup update agrees. -/
def Position.clockAgrees (T : Tables) (p : Pos) (now old : Nat) (x : Position) : Bool :=
  (disagreeTest T p now (x.paced T p now old)).2

/-- Whether a pickup update finds the engine come to a standstill. -/
def stoppedBy (old speed : Nat) : Bool := decide (old ≠ 0) && decide (speed = 0)

/-- The faults that a pickup update brings. -/
def updateFaults (T : Tables) (p : Pos) (now old : Nat) (x : Position) : List (FaultCode × Option Int) :=
  pickupFaults T p now (stoppedBy old (x.clocked T p now old).pickup.speed) x (protAtPickup T p now old x)
    (x.clocked T p now old)

/-- A pickup update that brings faults. -/
theorem pickupUpdate_faults {old : Nat} (h : updateFaults T p e.now old (e.at p) ≠ []) :
    pickupUpdate T p old e = faults T p (updateFaults T p e.now old (e.at p)) (e.put p ((e.at p).clocked T p e.now old)) := by
  unfold pickupUpdate
  dsimp only
  split
  next he => exact absurd he h
  next => rfl

/-- The standstill of HELD{LOCAL} and of STOPPING (R50, R51). -/
theorem pickupUpdate_stopped {old : Nat} (h : updateFaults T p e.now old (e.at p) = [])
    (hs : stoppedBy old ((e.at p).clocked T p e.now old).pickup.speed = true)
    (hst : ((e.at p).clocked T p e.now old).st = .held ∨ ((e.at p).clocked T p e.now old).st = .stopping) :
    pickupUpdate T p old e = enter T p .off (e.put p ((e.at p).clocked T p e.now old)) := by
  unfold pickupUpdate
  dsimp only
  split
  next => exact if_pos ⟨hs, hst⟩
  next hn => exact absurd h hn

/-- Every other pickup update: the causes, the stall watch and the CRANK test. -/
theorem pickupUpdate_judged {old : Nat} (h : updateFaults T p e.now old (e.at p) = [])
    (hs : ¬ (stoppedBy old ((e.at p).clocked T p e.now old).pickup.speed = true ∧
      (((e.at p).clocked T p e.now old).st = .held ∨ ((e.at p).clocked T p e.now old).st = .stopping))) :
    pickupUpdate T p old e =
      stepTestSpeed T p (armWatch T p (judgeCauses T p (protectAdded T (e.at p) ((e.at p).clocked T p e.now old))
        ((protectRemoved T (e.at p) ((e.at p).clocked T p e.now old)).union
          (if (e.at p).clockAgrees T p e.now old then .disagreeOnly else .none))
        (e.put p ((e.at p).clocked T p e.now old)))) := by
  unfold pickupUpdate
  dsimp only
  split
  next => exact if_neg hs
  next hn => exact absurd h hn

theorem paced_parts (now old : Nat) (x : Position) : (x.paced T p now old).mode = x.mode ∧
    (x.paced T p now old).meter = x.meter ∧ (x.paced T p now old).pickup = x.pickup := by
  unfold Position.paced
  split <;> exact ⟨rfl, rfl, rfl⟩

theorem clocked_acts (old : Nat) : ActsAt k T p e (e.put p ((e.at p).clocked T p e.now old)) := by
  obtain ⟨hm, ht, hp⟩ := disagreeTest_parts (T := T) (p := p) e.now ((e.at p).paced T p e.now old)
  obtain ⟨gm, gt, gp⟩ := paced_parts (T := T) (p := p) e.now old (e.at p)
  exact put_acts (hm.trans gm) (ht.trans gt) fun _ => hp.trans gp

theorem pickupUpdate_acts (old : Nat) : ActsAt k T p e (pickupUpdate T p old e) := by
  by_cases h : updateFaults T p e.now old (e.at p) = []
  · by_cases hs : stoppedBy old ((e.at p).clocked T p e.now old).pickup.speed = true ∧
        (((e.at p).clocked T p e.now old).st = .held ∨ ((e.at p).clocked T p e.now old).st = .stopping)
    · rw [pickupUpdate_stopped h hs.1 hs.2]
      exact (clocked_acts old).trans (enter_touches T p _ (by simp) (by simp)).acts
    · rw [pickupUpdate_judged h hs]
      exact (((clocked_acts old).trans (judgeCauses_touches ..).acts).trans (armWatch_touches ..).acts).trans
        (stepTestSpeed_touches ..).acts
  · rw [pickupUpdate_faults h]
    exact (clocked_acts old).trans (faults_touches ..).acts

theorem pickup_acts (y : Pickup) : ActsAt true T p e (e.put p { e.at p with pickup := y }) :=
  put_acts rfl rfl fun h => by cases h

/-- An update after a change of the pickup. -/
theorem pickupUpdated_acts (y : Pickup) (old : Nat) :
    ActsAt true T p e (pickupUpdate T p old (e.put p { e.at p with pickup := y })) :=
  (pickup_acts y).trans (pickupUpdate_acts old)

theorem filterExpires_acts : ActsAt true T p e (filterExpires T p e) := by
  unfold filterExpires
  dsimp only
  split
  · exact pickup_acts _
  · split
    · exact pickupUpdated_acts _ _
    · exact pickup_acts _

theorem zeroSpeedExpires_acts : ActsAt true T p e (zeroSpeedExpires T p e) := by
  unfold zeroSpeedExpires
  exact pickupUpdated_acts _ _

theorem shutdownAfterFailure_acts (i : Fin 16) : ActsAt k T p e (shutdownAfterFailure T p i e) :=
  (fault_touches ..).afterModify rfl rfl fun _ => rfl

theorem persistenceExpires_acts (i : Fin 16) : ActsAt k T p e (persistenceExpires T p i e) := by
  unfold persistenceExpires
  simp only
  split
  · exact (judgeCauses_touches ..).afterPut rfl rfl fun _ => rfl
  · exact (faults_touches ..).afterPut rfl rfl fun _ => rfl

theorem setModeAt_parts (m : Mode) (q : Pos) : ((setModeAt m e p).at q).meter = (e.at q).meter ∧
    ((setModeAt m e p).at q).pickup = (e.at q).pickup := by
  simp only [setModeAt, Engine.at_modify]
  split
  next hq => subst hq; split <;> exact ⟨rfl, rfl⟩
  next => exact ⟨rfl, rfl⟩

theorem setModes_parts (m : Mode) (q : Pos) (list : List Pos) : ((list.foldl (setModeAt m) e).at q).meter = (e.at q).meter ∧
    ((list.foldl (setModeAt m) e).at q).pickup = (e.at q).pickup := by
  induction list generalizing e with
  | nil => exact ⟨rfl, rfl⟩
  | cons p rest ih =>
    obtain ⟨hm, hp⟩ := ih (e := setModeAt m e p)
    obtain ⟨gm, gp⟩ := setModeAt_parts (e := e) (p := p) m q
    exact ⟨hm.trans gm, hp.trans gp⟩

theorem resetFaultAt_acts : ActsAt k T p e (resetFaultAt T p e) := by
  unfold resetFaultAt
  simp only
  split
  · split
    · exact (enter_touches T p e (by simp) (by simp)).acts
    · exact put_acts rfl rfl fun _ => rfl
  · exact .refl ..

theorem emergencyAt_touches : Touches T p e (emergencyAt T p e) := by
  unfold emergencyAt
  split <;> first | exact enterStopping_touches .. | exact .refl ..

/-! ## What the events leave of every position -/

/-- Modes, meters and pickups, the pickup of `edge` aside. -/
structure PartsKept (edge : Option Pos) (a b : Engine) : Prop where
  mode : ∀ q, (b.at q).mode = (a.at q).mode
  meter : ∀ q, (b.at q).meter = (a.at q).meter
  pickup : ∀ q, edge ≠ some q → (b.at q).pickup = (a.at q).pickup

variable {edge : Option Pos}

theorem PartsKept.refl (edge : Option Pos) (e : Engine) : PartsKept edge e e := ⟨fun _ => rfl, fun _ => rfl, fun _ _ => rfl⟩

theorem PartsKept.trans {a b c : Engine} (h₁ : PartsKept edge a b) (h₂ : PartsKept edge b c) : PartsKept edge a c :=
  ⟨fun q => (h₂.mode q).trans (h₁.mode q), fun q => (h₂.meter q).trans (h₁.meter q),
    fun q hq => (h₂.pickup q hq).trans (h₁.pickup q hq)⟩

theorem ActsAt.parts {a b : Engine} (h : ActsAt k T p a b) (hk : edge ≠ some p → k = false) : PartsKept edge a b := by
  have other : ∀ q, q ≠ p → (b.at q).mode = (a.at q).mode ∧ (b.at q).meter = (a.at q).meter ∧
      (b.at q).pickup = (a.at q).pickup := by
    intro q hq
    rcases h.others q hq with hb | hb <;> rw [hb] <;> exact ⟨rfl, rfl, rfl⟩
  refine ⟨fun q => ?_, fun q => ?_, fun q he => ?_⟩ <;> by_cases hq : q = p
  · subst hq; exact h.mode
  · exact (other q hq).1
  · subst hq; exact h.meter
  · exact (other q hq).2.1
  · subst hq; exact h.pickup (hk he)
  · exact (other q hq).2.2

theorem Drift.parts {z : Bool} {a b : Engine} (h : Drift z a b) : PartsKept edge a b :=
  ⟨fun q => (h.pos q).carried.mode, fun q => (h.pos q).carried.meter, fun q _ => (h.pos q).carried.pickup⟩

theorem BusOnly.parts {a b : Engine} (h : BusOnly T a b) : PartsKept edge a b := by
  refine ⟨fun q => ?_, fun q => ?_, fun q _ => ?_⟩ <;> rcases h.all q with hb | hb <;> rw [hb]

theorem emergencyOrder_parts : PartsKept edge e (emergencyOrder T e) := by
  have at_ : ∀ (p : Pos) (e : Engine), PartsKept edge e (emergencyAt T p e) := fun p e =>
    (emergencyAt_touches.acts (k := false)).parts fun _ => rfl
  have each : ∀ f : Pos → Engine → Engine, (∀ p e, PartsKept edge e (f p e)) → PartsKept edge e (e.eachPos f) := fun f h =>
    (((h .A e).trans (h .B _)).trans (h .C _)).trans (h .D _)
  unfold emergencyOrder
  split
  · refine (each _ fun p e => ?_).trans (at_ _ _)
    split
    · exact .refl ..
    · exact at_ ..
  · exact each _ at_

theorem notchTaken_parts (value : Nat) (run emergency : Bool) : PartsKept edge e (notchTaken value run emergency T e) := by
  have taken : ∀ r, PartsKept edge e { e with res := r } := fun _ => ⟨fun _ => rfl, fun _ => rfl, fun _ _ => rfl⟩
  unfold notchTaken
  simp only
  split
  · exact (taken _).trans emergencyOrder_parts
  · exact taken _

theorem resetFaults_parts (list : List Pos) : PartsKept edge e (list.foldl (fun e p => resetFaultAt T p e) e) := by
  induction list generalizing e with
  | nil => exact .refl ..
  | cons p rest ih => exact (resetFaultAt_acts.parts (k := false) fun _ => rfl).trans ih

/-- An event of the engines or an order keeps the meters, the pickups it does not touch and, an order of mode aside, the modes. -/
theorem EngineMove.parts {c : Instr} {e' : Engine} (h : EngineMove T e c e') (hc : onEngines c = true ∨ onOrders c = true)
    (q : Pos) : (e'.at q).meter = (e.at q).meter ∧ (touchesPickup c ≠ some q → (e'.at q).pickup = (e.at q).pickup) ∧
      (onEngines c = true → (e'.at q).mode = (e.at q).mode) := by
  have kept : PartsKept (touchesPickup c) e e' → (e'.at q).meter = (e.at q).meter ∧
      (touchesPickup c ≠ some q → (e'.at q).pickup = (e.at q).pickup) ∧
      (onEngines c = true → (e'.at q).mode = (e.at q).mode) := fun h => ⟨h.meter q, h.pickup q, fun _ => h.mode q⟩
  have acts : ∀ p, ActsAt false T p e e' → _ := fun p h => kept (h.parts fun _ => rfl)
  have edge : ∀ p, touchesPickup c = some p → ActsAt true T p e e' → _ := fun p hp h =>
    kept (h.parts fun hn => absurd hp hn)
  cases h with
  | notch group value flags => exact kept (notchTaken_parts ..)
  | notchTimer => exact kept ⟨fun _ => rfl, fun _ => rfl, fun _ _ => rfl⟩
  | dwell => exact kept ⟨fun _ => rfl, fun _ => rfl, fun _ _ => rfl⟩
  | achieve => exact kept ⟨fun _ => rfl, fun _ => rfl, fun _ _ => rfl⟩
  | mode m group target position =>
    obtain ⟨hmeter, hpickup⟩ := setModes_parts m q (positionsNamed position) (e := e)
    refine ⟨hmeter, fun _ => hpickup, fun h => ?_⟩
    cases m <;> cases h
  | resetFault group target position => exact kept (resetFaults_parts _)
  | hold p => exact acts p holdExpires_acts
  | stop p => exact acts p stopExpires_acts
  | stepLimit p => exact acts p stepLimit_acts
  | retryRest p => exact acts p (retryRestExpires_touches ..).acts
  | busRest => exact kept busRestExpires_busOnly.parts
  | guard =>
    rcases guardExpires_touches (T := T) (e := e) with ⟨p, -, h⟩ | h
    · exact acts p h.acts
    · exact kept h.parts
  | sample p raw => exact acts p (sampleArrives_acts raw)
  | sampleTimer p => exact acts p linkLost_acts
  | confirm p => exact acts p confirmExpires_acts
  | refresh p => exact acts p refreshExpires_acts
  | frameSent p => exact acts p stationFrameEnds_acts
  | disagree p => exact acts p disagreeExpires_acts
  | level p level => exact edge p rfl (levelChanges_acts level)
  | filter p => exact edge p rfl filterExpires_acts
  | zeroSpeed p => exact edge p rfl zeroSpeedExpires_acts
  | settle p => exact acts p endSpeedPhase_acts
  | persistenceFailed p i => exact acts p (shutdownAfterFailure_acts i)
  | persistence p i => exact acts p (persistenceExpires_acts i)
  | isolate p r => rcases hc with h | h <;> cases h
  | restore p r => rcases hc with h | h <;> cases h

end Sys2Proof.Machine
end

section
/-! SUPPORT. What every command keeps of the tables and of the parts of the positions it does not concern; the statement on the
blocks a command leaves. -/

namespace Sys2Proof.Machine

/-- What an event, closed, keeps of the tables and of every position. -/
structure FrameKept (edge : Option Pos) (a b : Works) : Prop where
  tab : TabDrift a b
  parts : PartsKept edge a.eng b.eng

variable {edge : Option Pos}

theorem TabDrift.refl (w : Works) : TabDrift w w := (Closes.refl (z := true) w).toTabDrift

/-- A change of the tables read as that of a close of engines at rest. -/
theorem TabDrift.closes {a b : Works} (h : TabDrift a b) (e : Engine) :
    Closes true { a with eng := e } { b with eng := e } := ⟨⟨h.tab, h.pending, h.kept⟩, .refl e⟩

theorem TabDrift.trans {a b c : Works} (h₁ : TabDrift a b) (h₂ : TabDrift b c) : TabDrift a c := by
  have h := ((h₁.closes a.eng).trans (h₂.closes a.eng)).toTabDrift
  exact ⟨h.tab, h.pending, h.kept⟩

/-- A commit changes no entry but those of T5. -/
theorem TabDrift.t1 {a b : Works} (h : TabDrift a b) : b.tab.t1 = a.tab.t1 := by
  rcases h.tab with h | ⟨-, h⟩ <;> rw [h]

theorem FrameKept.refl (edge : Option Pos) (w : Works) : FrameKept edge w w := ⟨.refl w, .refl edge w.eng⟩

theorem FrameKept.trans {a b c : Works} (h₁ : FrameKept edge a b) (h₂ : FrameKept edge b c) : FrameKept edge a c :=
  ⟨h₁.tab.trans h₂.tab, h₁.parts.trans h₂.parts⟩

/-- A change of the engine record alone. -/
theorem PartsKept.frame {w : Works} {e : Engine} (h : PartsKept edge w.eng e) : FrameKept edge w { w with eng := e } :=
  ⟨⟨Or.inl rfl, Or.inl rfl, fun hp => ⟨rfl, hp⟩⟩, h⟩

theorem Closes.frame {z : Bool} {a b : Works} (h : Closes z a b) : FrameKept edge a b := ⟨h.toTabDrift, h.eng.parts⟩

theorem closeEventWith_frame (linger : Option Pos) (commit : Bool) (start w : Works) :
    FrameKept edge w (closeEventWith linger commit start w) := (closeEventWith_closes linger commit start w).frame

theorem atTime_frame (w : Works) (n : Nat) : FrameKept edge w (w.atTime n) :=
  PartsKept.frame ⟨fun _ => rfl, fun _ => rfl, fun _ _ => rfl⟩

theorem event_frame {w : Works} {f : Tables → Engine → Engine} (h : PartsKept edge w.eng (f w.tab w.eng)) :
    FrameKept edge w (w.event f) := h.frame.trans (closeEventWith_frame ..)

/-! ## The period end -/

theorem eachPos_parts {e : Engine} {f : Pos → Engine → Engine} (h : ∀ (p : Pos) (e : Engine), PartsKept edge e (f p e)) :
    PartsKept edge e (e.eachPos f) :=
  (((h .A e).trans (h .B _)).trans (h .C _)).trans (h .D _)

theorem modify_parts {e : Engine} {p : Pos} {f : Position → Position} (hm : (f (e.at p)).mode = (e.at p).mode)
    (ht : (f (e.at p)).meter = (e.at p).meter) (hk : (f (e.at p)).pickup = (e.at p).pickup) : PartsKept edge e (e.modify p f) :=
  (modify_acts (k := false) (T := .undefinedAll) hm ht fun _ => hk).parts fun _ => rfl

theorem channelsEnd_parts (e : Engine) : PartsKept edge e (channelsEnd e) := by
  have h : PartsKept edge e (e.eachPos fun p e => e.modify p fun x => { x with chan := x.chan.periodEnd }) :=
    eachPos_parts fun p e => modify_parts rfl rfl rfl
  exact ⟨h.mode, h.meter, h.pickup⟩

theorem takePeriod_parts (T : Tables) (e : Engine) : PartsKept edge e (takePeriod T e) := by
  unfold takePeriod
  split
  · exact .refl ..
  · have h := (restepAll_drift (z := true) T { e with pwm := { e.pwm with periodMs := T.pwmPeriod } }).parts (edge := edge)
    exact ⟨h.mode, h.meter, h.pickup⟩

theorem completions_frame (list : List Pos) (w : Works) :
    FrameKept edge w (list.foldl (fun w p => w.event fun T e => endLoadPhase T p e) w) := by
  induction list generalizing w with
  | nil => exact .refl ..
  | cons p rest ih =>
    exact (event_frame (((endLoadPhase_touches w.tab p w.eng).acts (k := false)).parts fun _ => rfl)).trans (ih _)

theorem periodEnds_frame (w : Works) : FrameKept edge w (periodEnds w) :=
  (((takePeriod_parts w.tab w.eng).trans (channelsEnd_parts _)).frame).trans (completions_frame ..)

/-! ## Every command of the engines and the orders -/

/-- What O56 says of the tables and of one position. -/
theorem WorksMove.kept_of_engines {b : Block} {c : Instr} {w : Works} (h : WorksMove b c w)
    (hc : onEngines c = true ∨ onOrders c = true) : TabDrift b.works w ∧
    ∀ q, (w.eng.at q).meter = (b.works.eng.at q).meter ∧
      (touchesPickup c ≠ some q → (w.eng.at q).pickup = (b.works.eng.at q).pickup) ∧
      (onEngines c = true → (w.eng.at q).mode = (b.works.eng.at q).mode) := by
  have frame : FrameKept none b.works w → TabDrift b.works w ∧
      ∀ q, (w.eng.at q).meter = (b.works.eng.at q).meter ∧
        (touchesPickup c ≠ some q → (w.eng.at q).pickup = (b.works.eng.at q).pickup) ∧
        (onEngines c = true → (w.eng.at q).mode = (b.works.eng.at q).mode) := fun h =>
    ⟨h.tab, fun q => ⟨h.parts.meter q, fun _ => h.parts.pickup q nofun, fun _ => h.parts.mode q⟩⟩
  have neither : ¬ (onEngines c = false ∧ onOrders c = false) := fun hn => by
    rw [hn.1, hn.2] at hc
    exact absurd hc (by simp)
  cases h with
  | kept => exact frame (.refl ..)
  | @event _ n e he =>
    have hk := closeEventWith_frame (edge := none) none false (b.works.atTime n) { b.works with eng := e }
    refine ⟨⟨hk.tab.tab, hk.tab.pending, hk.tab.kept⟩, fun q => ?_⟩
    obtain ⟨hm, hp, hd⟩ := he.parts hc q
    exact ⟨(hk.parts.meter q).trans hm, fun ht => (hk.parts.pickup q nofun).trans (hp ht),
      fun ho => (hk.parts.mode q).trans (hd ho)⟩
  | linger p n => exact frame ((atTime_frame _ n).trans (closeEventWith_frame ..))
  | period n => exact frame ((atTime_frame _ n).trans (periodEnds_frame _))
  | application hp => exact frame ((applyCommit_closes (z := true) _ hp).frame.trans (closeEventWith_frame ..))
  | commit r => exact absurd ⟨rfl, rfl⟩ neither
  | commitMark r => exact absurd ⟨rfl, rfl⟩ neither
  | write r list hw => exact absurd ⟨rfl, rfl⟩ neither
  | parts hn hw => exact absurd hn neither
  | restart r => exact absurd ⟨rfl, rfl⟩ neither
  | powerOn up down levels => exact absurd ⟨rfl, rfl⟩ neither

theorem Block.WorksOnly.lineOnly {b b' : Block} (h : b.WorksOnly b') : b.LineOnly b' := by
  unfold Block.WorksOnly at h
  rw [h]
  rfl

/-- Settles O56. -/
theorem commandsKeepTheOtherBlocks : Obligations.CommandsKeepTheOtherBlocks := by
  intro c s t h
  refine ⟨fun hl => exec_onLine h hl, fun he => (exec_onEngines h he).relay, fun hc => ?_⟩
  have block : s.block.LineOnly t.block := by
    rcases hc with he | ho
    · exact (exec_onEngines h he).lineOnly
    · exact exec_onOrders h ho
  obtain ⟨tab, parts⟩ := (exec_moves h).kept_of_engines hc
  refine ⟨by rw [State.hours, block], by rw [State.nv, block], by rw [block], by rw [block], ?_, tab.kept, parts⟩
  rcases tab.tab with ht | ⟨-, ht⟩
  · exact Or.inl ht
  · exact Or.inr ht

end Sys2Proof.Machine
end

section
/-! SUPPORT. What an accepted WRITE has passed, and what the entries of a table leave of the others. -/

namespace Sys2Proof.Machine

/-- The table an entry of a burst belongs to. -/
def Entry.table : Entry → Nat
  | .t1 _ => 1
  | .t2 _ => 2
  | .t3 _ => 3
  | .t4 _ => 4
  | .t6 _ => 6
  | .t7 _ => 7
  | .t8 _ => 8
  | .t9 _ => 9
  | .t10 _ => 10

/-- An entry read for a table is an entry of that table. -/
theorem readEntry_table {table i : Nat} {bytes : List Byte} {x : Entry} (h : readEntry table i bytes = some x) :
    x.table = table := by
  unfold readEntry at h
  split at h
  case h_10 => cases h
  all_goals
    obtain ⟨y, -, rfl⟩ := Option.map_eq_some_iff.1 h
    rfl

/-- The entries of a burst that reads well: one for each piece, each of the table. -/
theorem readBurst_ok {table : Nat} : ∀ {i : Nat} {pieces : List (List Byte)} {list : List Entry},
    readBurst table i pieces = .ok list → list.length = pieces.length ∧ ∀ x ∈ list, x.table = table
  | _, [], list, h => by
    cases h
    exact ⟨rfl, by simp⟩
  | i, bytes :: rest, list, h => by
    unfold readBurst at h
    split at h
    next => cases h
    next x hx =>
      split at h
      next => cases h
      next tail ht =>
        cases h
        obtain ⟨hlen, hmem⟩ := readBurst_ok ht
        exact ⟨by simp [hlen], List.forall_mem_cons.2 ⟨readEntry_table hx, hmem⟩⟩

theorem pieces_length (size count : Nat) (bytes : List Byte) : (pieces size count bytes).length = count := by
  induction count generalizing bytes with
  | zero => rfl
  | succ n ih => simp [pieces, ih]

/-- What a WRITE that is accepted has passed (R173). -/
structure AcceptedWrite (b : Block) (r : MgmtReq) (list : List Entry) : Prop where
  size : ∃ n, tableSize r.table.toNat = some n ∧ r.first.toNat + r.count.toNat ≤ n
  writable : r.table.toNat ≠ 5
  idle : b.saving = none
  locks : ∀ i, r.first.toNat ≤ i → i < r.first.toNat + r.count.toNat → lockAllows b r.table.toNat r.entries i = true
  length : list.length = r.count.toNat
  table : ∀ x ∈ list, x.table = r.table.toNat

theorem mem_burst {first count i : Nat} : i ∈ burst first count ↔ first ≤ i ∧ i < first + count := by
  simp only [burst, List.mem_map, List.mem_range]
  constructor
  · rintro ⟨k, hk, rfl⟩
    omega
  · rintro ⟨h₁, h₂⟩
    exact ⟨i - first, by omega, by omega⟩

theorem indexOutside_none {size first count : Nat} (hc : indexOutside size first count = none) : first + count ≤ size := by
  unfold indexOutside at hc
  split at hc
  · cases hc
  · split at hc
    · cases hc
    · omega

theorem checkWrite_ok {b : Block} {r : MgmtReq} {list : List Entry} (h : checkWrite b r = .ok list) :
    AcceptedWrite b r list := by
  unfold checkWrite at h
  dsimp only at h
  split at h
  next => cases h
  next size hsize =>
    split at h
    next => cases h
    next hindex =>
      split at h
      next => cases h
      next h5 =>
        split at h
        next => cases h
        next hsaving =>
          split at h
          next => cases h
          next hlock =>
            split at h
            next => cases h
            next =>
              split at h
              next => cases h
              next entries hburst =>
                cases h
                obtain ⟨hlen, htab⟩ := readBurst_ok hburst
                refine ⟨⟨size, hsize, indexOutside_none hindex⟩, h5, by simpa using hsaving, fun i h₁ h₂ => ?_,
                  hlen.trans (pieces_length ..), htab⟩
                simpa using List.find?_eq_none.1 hlock i (mem_burst.2 ⟨h₁, h₂⟩)

/-! ## The tables a burst leaves -/

theorem store_t1 {T : Tables} {i : Nat} {x : Entry} (h : x.table ≠ 1) : (T.store i x).t1 = T.t1 := by
  cases x with
  | t1 x => exact absurd rfl h
  | t2 x => simp only [Tables.store]; split <;> rfl
  | _ => rfl

theorem store_t5 (T : Tables) (i : Nat) (x : Entry) : (T.store i x).t5 = T.t5 := by
  cases x with
  | t2 x => simp only [Tables.store]; split <;> rfl
  | _ => rfl

/-- A part of the tables that no entry of a burst writes. -/
theorem storeAll_keeps {α : Type} {f : Tables → α} {list : List Entry}
    (h : ∀ x ∈ list, ∀ (T : Tables) (i : Nat), f (T.store i x) = f T) (T : Tables) (i : Nat) :
    f (T.storeAll i list) = f T := by
  induction list generalizing T i with
  | nil => rfl
  | cons x rest ih =>
    obtain ⟨hx, hrest⟩ := List.forall_mem_cons.1 h
    exact (ih hrest _ _).trans (hx T i)

theorem storeAll_t1 {list : List Entry} (h : ∀ x ∈ list, x.table ≠ 1) (T : Tables) (i : Nat) :
    (T.storeAll i list).t1 = T.t1 :=
  storeAll_keeps (f := Tables.t1) (fun x hx _ _ => store_t1 (h x hx)) T i

theorem storeAll_t5 (list : List Entry) (T : Tables) (i : Nat) : (T.storeAll i list).t5 = T.t5 :=
  storeAll_keeps (f := Tables.t5) (fun x _ T i => store_t5 T i x) T i

end Sys2Proof.Machine
end

section
/-! SUPPORT. Every command keeps the Demand Resolver sound. -/

namespace Sys2Proof.Machine

variable {T : Tables} {r : Resolver}

theorem Resolver.Sound.ok (h : r.Sound T) : ResOk T r := ⟨h.held, h.reached⟩

theorem cap_of_t1 {T T' : Tables} (h : T'.t1 = T.t1) (n : Nat) : T'.cap n = T.cap n := by
  unfold Tables.cap
  rw [h]

theorem conds_of_tables {T T' : Tables} (h₁ : T'.t1 = T.t1) (h₅ : T'.t5 = T.t5) (r : Resolver) :
    holdingConds T' r = holdingConds T r := by
  simp [holdingConds, Tables.configured, h₁, h₅]

/-- What keeps the frame's items of the Resolver, and the notch within them, keeps it sound. -/
theorem Resolver.Sound.kept {T' : Tables} {r' : Resolver} (h : r.Sound T) (k : ResKept r r') (ht : T'.t1 = T.t1)
    (ok : ResOk T' r') : r'.Sound T' := by
  refine ⟨ok.held, ok.demand, ?_, ?_, ?_, ?_⟩
  · rw [k.demand, k.requested, cap_of_t1 ht]
    exact h.demand
  · rw [k.requested]
    exact h.requested
  · rw [k.runPerm, k.runRequest, k.latch]
    exact h.runPerm
  · rw [k.link, k.requested]
    exact h.lost

/-- The tables changed, but neither T1 nor T5. -/
theorem Resolver.Sound.ofTables {T' : Tables} (h : r.Sound T) (h₁ : T'.t1 = T.t1) (h₅ : T'.t5 = T.t5) : r.Sound T' :=
  h.kept (.refl r) h₁ ⟨by rw [conds_of_tables h₁ h₅]; exact h.held, h.reached⟩

theorem cap_zero (T : Tables) : T.cap 0 = 0 := by
  unfold Tables.cap
  split
  · rfl
  · exact Nat.zero_min _

/-- The holding conditions judged and the rise examined keep the notch within its bounds. -/
theorem settled_rise_ok (T : Tables) (now : Nat) (before : Conds) (hb : before.any = true → r.resolved = 0) :
    ResOk T ((r.settle T now before).rise T now) := by
  refine rise_ok now ⟨fun hc => ?_, ?_⟩
  · rw [(settle_kept ..).conds] at hc
    exact settle_held _ _ _ _ hb hc
  · rw [(settle_kept ..).demand]
    exact settle_demand _ _ _ _ hb

/-- A taken NOTCH keeps the Resolver sound. -/
theorem take_sound (h : r.Sound T) (now value : Nat) (run emergency : Bool) : (r.take T now value run emergency).Sound T := by
  obtain ⟨requested, demand, request, latch, perm, -, link⟩ := take_settled r T now value run emergency
  have ok : ResOk T (r.take T now value run emergency) := settled_rise_ok T now _ h.held
  refine ⟨ok.held, ok.demand, ?_, ?_, ?_, fun hl => ?_⟩
  · rw [demand, requested]
  · rw [requested]
    exact Nat.min_le_right ..
  · rw [perm, request, latch]
  · rw [link] at hl
    cases hl

/-- The expiry of the NOTCH timer keeps the Resolver sound. -/
theorem notchExpires_sound (h : r.Sound T) (now : Nat) : (r.notchExpires T now).Sound T := by
  have k := settle_kept { r with link := .lost, requested := 0, demand := 0, notchT := .stopped } T now (holdingConds T r)
  refine ⟨fun hc => ?_, ?_, ?_, ?_, ?_, fun _ => k.requested⟩
  · rw [Resolver.notchExpires, k.conds] at hc
    exact settle_held _ _ _ _ h.held hc
  · rw [Resolver.notchExpires, k.demand]
    exact settle_demand _ _ _ _ h.held
  · rw [Resolver.notchExpires, k.demand, k.requested, cap_zero]
  · rw [Resolver.notchExpires, k.requested]
    exact Nat.zero_le _
  · rw [Resolver.notchExpires, k.runPerm, k.runRequest, k.latch]
    exact h.runPerm

/-- A rise after a change of the timers alone. -/
theorem rise_sound {r' : Resolver} (h : r.Sound T) (k : ResKept r r') (hr : r'.resolved = r.resolved) (now : Nat) :
    (r'.rise T now).Sound T := by
  refine h.kept (k.trans (rise_kept ..)) rfl (rise_ok now ⟨fun hc => ?_, ?_⟩)
  · rw [k.conds] at hc
    exact hr.trans (h.held hc)
  · rw [hr, k.demand]
    exact h.reached

theorem dwellExpires_sound (h : r.Sound T) (now : Nat) : (r.dwellExpires T now).Sound T := by
  unfold Resolver.dwellExpires
  split
  next since _ =>
    exact rise_sound (r' := { r with dwell := .expired since }) h ⟨rfl, rfl, rfl, rfl, rfl, rfl, rfl⟩ rfl now
  next => exact h

theorem achieveExpires_sound (h : r.Sound T) (now : Nat) : (r.achieveExpires T now).Sound T := by
  unfold Resolver.achieveExpires
  split
  next since _ =>
    exact rise_sound (r' := { r with achieve := .expired since }) h ⟨rfl, rfl, rfl, rfl, rfl, rfl, rfl⟩ rfl now
  next => exact h

/-- A T1 write keeps the Resolver sound under the new tables. -/
theorem afterT1_sound (h : r.Sound T) (T' : Tables) (now : Nat) : (r.afterT1 T' now (holdingConds T r)).Sound T' := by
  have reread := rereadAchieve_kept { r with demand := T'.cap r.requested } T' now
  have ok : ResOk T' (r.afterT1 T' now (holdingConds T r)) := by
    refine settled_rise_ok T' now _ fun hc => ?_
    rw [rereadAchieve_resolved]
    exact h.held hc
  have k : ResKept { r with demand := T'.cap r.requested } (r.afterT1 T' now (holdingConds T r)) :=
    (reread.trans (settle_kept ..)).trans (rise_kept ..)
  refine ⟨ok.held, ok.demand, ?_, ?_, ?_, ?_⟩
  · rw [k.demand, k.requested]
  · rw [k.requested]
    exact h.requested
  · rw [k.runPerm, k.runRequest, k.latch]
    exact h.runPerm
  · rw [k.link, k.requested]
    exact h.lost

theorem reset_resolver_sound (T : Tables) : Resolver.reset.Sound T :=
  ⟨fun _ => rfl, Nat.le_refl 0, (cap_zero T).symm, Nat.zero_le 8, rfl, fun _ => rfl⟩

/-! ## Events and their close -/

/-- The close of an event keeps a sound Resolver sound. -/
theorem closeEventWith_resolver {linger : Option Pos} {commit : Bool} {start w : Works} (h : w.eng.res.Sound w.tab) :
    (closeEventWith linger commit start w).eng.res.Sound (closeEventWith linger commit start w).tab := by
  have hn := closeEventWith_notch linger commit start w
  exact h.kept hn.kept (closeEventWith_closes linger commit start w).toTabDrift.t1 (hn.ok h.ok)

theorem enter_res (T : Tables) (p : Pos) (dest : PState) (e : Engine) : (enter T p dest e).res = e.res := by
  unfold enter
  dsimp only
  rw [(handDrive_touches T p _).res]
  split
  · exact (leaveBus_busOnly T p e).res
  · rfl

theorem restoreAt_res (T : Tables) (p : Pos) (e : Engine) : (restoreAt T p e).res = e.res := by
  unfold restoreAt enterOffUnheard
  split <;> exact enter_res ..

theorem foldl_res {α : Type} {f : Engine → α → Engine} (h : ∀ e x, (f e x).res = e.res) (list : List α) (e : Engine) :
    (list.foldl f e).res = e.res := by
  induction list generalizing e with
  | nil => rfl
  | cons x rest ih => exact (ih _).trans (h e x)

theorem notchTaken_res (value : Nat) (run emergency : Bool) (T : Tables) (e : Engine) :
    (notchTaken value run emergency T e).res = e.res.take T e.now value run emergency := by
  unfold notchTaken
  dsimp only
  split
  · rw [emergencyOrder_res]
  · rfl

/-- Every event leaves the Resolver sound. -/
theorem EngineMove.resolver {e e' : Engine} {c : Instr} (h : EngineMove T e c e') (hs : e.res.Sound T) : e'.res.Sound T := by
  have same : e'.res = e.res → e'.res.Sound T := fun h => h ▸ hs
  have acts : ∀ {p : Pos}, ActsAt true T p e e' → e'.res.Sound T := fun h => same h.res
  cases h with
  | notch group value flags =>
    rw [notchTaken_res]
    exact take_sound hs ..
  | notchTimer => exact notchExpires_sound hs _
  | dwell => exact dwellExpires_sound hs _
  | achieve => exact achieveExpires_sound hs _
  | mode m group target position => exact same (foldl_res (f := setModeAt m) (fun _ _ => rfl) _ _)
  | resetFault group target position =>
    exact same (foldl_res (fun e p => (resetFaultAt_acts (k := true) (T := T) (p := p) (e := e)).res) _ _)
  | hold p => exact acts holdExpires_acts
  | stop p => exact acts stopExpires_acts
  | stepLimit p => exact acts stepLimit_acts
  | retryRest p => exact acts (retryRestExpires_touches ..).acts
  | busRest => exact same busRestExpires_busOnly.res
  | guard =>
    rcases guardExpires_touches (T := T) (e := e) with ⟨p, -, h⟩ | h
    · exact same h.res
    · exact same h.res
  | sample p raw => exact acts (sampleArrives_acts raw)
  | sampleTimer p => exact acts linkLost_acts
  | confirm p => exact acts confirmExpires_acts
  | refresh p => exact same rfl
  | frameSent p => exact same rfl
  | disagree p => exact acts disagreeExpires_acts
  | level p level => exact acts (levelChanges_acts level)
  | filter p => exact acts filterExpires_acts
  | zeroSpeed p => exact acts zeroSpeedExpires_acts
  | settle p => exact acts endSpeedPhase_acts
  | persistenceFailed p i => exact acts (shutdownAfterFailure_acts i)
  | persistence p i => exact acts (persistenceExpires_acts i)
  | isolate p r => exact same (enter_res ..)
  | restore p r => exact same (restoreAt_res ..)

/-! ## The period end, commits and writes -/

theorem channelsEnd_res (e : Engine) : (channelsEnd e).res = e.res :=
  eachPos_res (f := fun p e => e.modify p fun x => { x with chan := x.chan.periodEnd }) fun _ _ => rfl

theorem takePeriod_res (T : Tables) (e : Engine) : (takePeriod T e).res = e.res := by
  unfold takePeriod
  split
  · rfl
  · exact restepAll_res ..

theorem periodEnds_resolver {w : Works} (h : w.eng.res.Sound w.tab) : (periodEnds w).eng.res.Sound (periodEnds w).tab := by
  have fold : ∀ (list : List Pos) (w : Works), w.eng.res.Sound w.tab →
      (list.foldl (fun w p => w.event fun T e => endLoadPhase T p e) w).eng.res.Sound
        (list.foldl (fun w p => w.event fun T e => endLoadPhase T p e) w).tab := by
    intro list
    induction list with
    | nil => exact fun _ h => h
    | cons p rest ih =>
      refine fun w h => ih _ (closeEventWith_resolver ?_)
      rw [show ({ w with eng := endLoadPhase w.tab p w.eng } : Works).eng.res = w.eng.res from (endLoadPhase_touches ..).res]
      exact h
  refine fold _ _ ?_
  rw [show ({ w with eng := channelsEnd (takePeriod w.tab w.eng) } : Works).eng.res = w.eng.res from
    (channelsEnd_res _).trans (takePeriod_res ..)]
  exact h

theorem commitNow_resolver {w : Works} (h : w.eng.res.Sound w.tab) : (commitNow w).eng.res.Sound (commitNow w).tab :=
  closeEventWith_resolver (h.kept (afterCommit_kept ..) rfl (commit_ok h.ok))

theorem positionRewritten_res (old new : Tables) (p : Pos) (e : Engine) : (positionRewritten old new p e).res = e.res := by
  unfold positionRewritten
  dsimp only
  split
  · split
    · exact enter_res ..
    · rfl
  iterate 2
    · split
      · rfl
      · exact enter_res ..
  · rfl

theorem profileRewritten_res (new : Tables) (first count : Nat) (p : Pos) (e : Engine) :
    (profileRewritten new first count p e).res = e.res := by
  unfold profileRewritten
  split <;> rfl

theorem protRewritten_res (T : Tables) (first count : Nat) (p : Pos) (e : Engine) :
    (protRewritten T first count p e).res = e.res := (judgeCauses_touches ..).res

theorem writeT10_resolver (list : List Entry) (b : Block) (i : Nat) : (writeT10 b i list).works.tab = b.works.tab ∧
    (writeT10 b i list).works.eng.res = b.works.eng.res := by
  induction list generalizing b i with
  | nil => exact ⟨rfl, rfl⟩
  | cons x rest ih =>
    cases x with
    | t10 value =>
      have one : (writeT10At i value b).works.tab = b.works.tab ∧ (writeT10At i value b).works.eng.res = b.works.eng.res := by
        unfold writeT10At
        split <;> exact ⟨rfl, rfl⟩
      exact ⟨(ih _ _).1.trans one.1, (ih _ _).2.trans one.2⟩
    | _ => exact ih ..

/-- An accepted write keeps the Resolver sound: that of T1 by the Resolver's own part in it, the others as they change neither T1
nor T5. -/
theorem writeAccepted_resolver {b : Block} {r : MgmtReq} {list : List Entry} (h : AcceptedWrite b r list)
    (hs : b.works.eng.res.Sound b.works.tab) :
    (writeAccepted b r.table.toNat r.first.toNat r.count.toNat list).works.eng.res.Sound
      (writeAccepted b r.table.toNat r.first.toNat r.count.toNat list).works.tab := by
  have stored : r.table.toNat ≠ 1 → b.works.eng.res.Sound (b.works.tab.storeAll r.first.toNat list) := fun hne =>
    hs.ofTables (storeAll_t1 (fun x hx => by rw [h.table x hx]; exact hne) _ _) (storeAll_t5 ..)
  have closed : ∀ e : Engine, e.res = b.works.eng.res → r.table.toNat ≠ 1 →
      ({ b.works with tab := b.works.tab.storeAll r.first.toNat list, eng := e } : Works).eng.res.Sound
        (b.works.tab.storeAll r.first.toNat list) := fun e he hne => by
    rw [show ({ b.works with tab := b.works.tab.storeAll r.first.toNat list, eng := e } : Works).eng.res = _ from he]
    exact stored hne
  unfold writeAccepted
  dsimp only
  split
  next => exact closeEventWith_resolver (afterT1_sound hs ..)
  next h2 => exact closeEventWith_resolver (closed _ (foldl_res (fun e p => positionRewritten_res ..) _ _) (by omega))
  next h3 => exact closeEventWith_resolver (closed _ (eachPos_res fun p e => profileRewritten_res ..) (by omega))
  next h4 => exact stored (by omega)
  next h8 => exact closeEventWith_resolver (closed _ (eachPos_res fun p e => protRewritten_res ..) (by omega))
  next h10 =>
    obtain ⟨ht, hr⟩ := writeT10_resolver list b r.first.toNat
    rw [ht, hr]
    exact hs
  next h1 _ _ _ _ _ => exact stored h1

/-! ## Every command -/

/-- Every command keeps the Resolver sound. -/
theorem WorksMove.resolver {b : Block} {c : Instr} {w : Works} (h : WorksMove b c w)
    (hs : b.works.eng.res.Sound b.works.tab) : w.eng.res.Sound w.tab := by
  cases h with
  | kept => exact hs
  | event n he => exact closeEventWith_resolver (he.resolver hs)
  | linger p n => exact closeEventWith_resolver (w := b.works.atTime n) hs
  | period n => exact periodEnds_resolver (w := b.works.atTime n) hs
  | application => exact commitNow_resolver hs
  | commit r => exact commitNow_resolver hs
  | commitMark r => exact hs
  | write r list hw => exact writeAccepted_resolver (checkWrite_ok hw) hs
  | parts hc hw =>
    obtain ⟨n, pos, rfl⟩ := hw.eq
    exact hs
  | restart r => exact reset_resolver_sound _
  | powerOn up down levels => exact reset_resolver_sound _

/-- Settles O58: each command by the lemma on its operation of the Resolver. -/
theorem everyStepKeepsTheResolverSound : Obligations.EveryStepKeepsTheResolverSound := by
  intro s t h hs
  rcases step_cases h with (ht | ht) | ⟨c, u, hu, hc⟩
  · rw [State.res, State.eng, State.tab, ht]
    exact hs
  · rw [State.res, State.eng, State.tab, ht]
    exact hs
  · exact (exec_moves hc).resolver (by rw [hu]; exact hs)

end Sys2Proof.Machine
end

section
/-! SUPPORT. Every command keeps the positions sound. -/

namespace Sys2Proof.Machine

variable {T : Tables} {p : Pos} {e : Engine}

/-! ## Events -/

theorem notchTaken_sound (value : Nat) (run emergency : Bool) (h : e.Sound) : (notchTaken value run emergency T e).Sound := by
  unfold notchTaken
  dsimp only
  split
  · exact emergencyOrder_sound h
  · exact h

theorem foldl_sound {α : Type} {f : Engine → α → Engine} (hf : ∀ e x, e.Sound → (f e x).Sound) (list : List α)
    (h : e.Sound) : (list.foldl f e).Sound := by
  induction list generalizing e with
  | nil => exact h
  | cons x rest ih => exact ih (hf e x h)

theorem setModeAt_sound (m : Mode) (h : e.Sound) : (setModeAt m e p).Sound := by
  refine sound_modify h ?_
  split
  · exact h p
  · have k := h p
    exact ⟨k.duty, k.load, k.causes, k.ctx, k.fault, fun _ => rfl, k.stop, k.prot, k.disagree, k.silent⟩

theorem holdExpires_sound (h : e.Sound) : (holdExpires p T e).Sound := by
  refine fault_sound (sound_modify h ?_)
  have k := h p
  exact ⟨k.duty, k.load, fun hn => ⟨(k.causes hn).1, rfl⟩, k.ctx, k.fault, k.linger, k.stop, k.prot, k.disagree, k.silent⟩

theorem stopExpires_sound (h : e.Sound) : (stopExpires p T e).Sound := by
  refine fault_sound (sound_modify h ?_)
  have k := h p
  exact ⟨k.duty, k.load, k.causes, k.ctx, k.fault, k.linger, fun _ => rfl, k.prot, k.disagree, k.silent⟩

theorem stepLimit_sound (h : e.Sound) : (stepExpires T p
    (e.modify p fun x => { x with ctx := x.ctx.map fun c => { c with stepT := .stopped } })).Sound :=
  stepExpires_sound (sound_modify h ((h p).ctxOnly _ _))

theorem retryRestExpires_sound (h : e.Sound) : (retryRestExpires p T e).Sound := by
  unfold retryRestExpires
  split
  next => exact h
  next c hc => exact enterStep_sound h ((h p).starting_of_ctx hc)

theorem guardExpires_sound (h : e.Sound) : (guardExpires T e).Sound := by
  unfold guardExpires
  split
  · exact failStart_sound (freeBus_sound h)
  · exact h

theorem levelChanges_sound (level : Level) (h : e.Sound) : (levelChanges p level T e).Sound :=
  sound_modify h (pickup_sound (h p) _)

/-- Every event keeps the positions sound. -/
theorem EngineMove.positions {e' : Engine} {c : Instr} (h : EngineMove T e c e') (hs : e.Sound) : e'.Sound := by
  cases h with
  | notch group value flags => exact notchTaken_sound _ _ _ hs
  | notchTimer => exact hs
  | dwell => exact hs
  | achieve => exact hs
  | mode m group target position => exact foldl_sound (fun _ _ => setModeAt_sound m) _ hs
  | resetFault group target position => exact foldl_sound (fun _ _ => resetFaultAt_sound) _ hs
  | hold p => exact holdExpires_sound hs
  | stop p => exact stopExpires_sound hs
  | stepLimit p => exact stepLimit_sound hs
  | retryRest p => exact retryRestExpires_sound hs
  | busRest => exact grantNext_sound (sound_bus _ hs)
  | guard => exact guardExpires_sound hs
  | sample p raw => exact sampleArrives_sound hs
  | sampleTimer p hr => exact linkLost_sound hs (heard_of_sampleT (hs p) hr)
  | confirm p hr => exact confirmExpires_sound hs (heard_of_confirmT (hs p) hr)
  | refresh p => exact refreshExpires_sound hs
  | frameSent p => exact stationFrameEnds_sound hs
  | disagree p hr => exact disagreeExpires_sound hs (tested_of_disagreeT (hs p) hr)
  | level p level => exact levelChanges_sound level hs
  | filter p => exact filterExpires_sound hs
  | zeroSpeed p => exact zeroSpeedExpires_sound hs
  | settle p => exact endSpeedPhase_sound hs
  | persistenceFailed p i => exact shutdownAfterFailure_sound hs
  | persistence p i hr => exact persistenceExpires_sound hs (untested_pair (hs p) rfl hr)
  | isolate p r => exact enter_sound hs
  | restore p r => exact restoreAt_sound hs

/-! ## The period end, writes, resets -/

/-- A channel at rest passes a period end unchanged. -/
theorem periodEnd_idle {c : Channel} (hs : c.state = .idle) (hp : c.pending = c.duty) : c.periodEnd = c := by
  obtain ⟨duty, pending, target, step, state⟩ := c
  cases hs
  cases hp
  rfl

theorem channelsEnd_sound (h : e.Sound) : (channelsEnd e).Sound := by
  refine sound_eachPos (f := fun p e => e.modify p fun x => { x with chan := x.chan.periodEnd })
    (fun p e he => sound_modify he ?_) h
  have k := he p
  refine ⟨fun hn => ?_, k.load, k.causes, k.ctx, k.fault, k.linger, k.stop, k.prot, k.disagree, k.silent⟩
  have hd := k.duty hn
  obtain ⟨duty, pending, _, idle⟩ := k.duty hn
  rw [show ({ e.at p with chan := (e.at p).chan.periodEnd } : Position).chan = (e.at p).chan from
    periodEnd_idle idle (pending.trans duty.symm)]
  exact hd

theorem takePeriod_sound (h : e.Sound) : (takePeriod T e).Sound := by
  unfold takePeriod
  split
  · exact h
  · exact restepAll_sound h

theorem periodEnds_sound {w : Works} (h : w.eng.Sound) : (periodEnds w).eng.Sound := by
  have fold : ∀ (list : List Pos) (w : Works), w.eng.Sound →
      (list.foldl (fun w p => w.event fun T e => endLoadPhase T p e) w).eng.Sound := by
    intro list
    induction list with
    | nil => exact fun _ h => h
    | cons p rest ih => exact fun w h => ih _ (event_sound (endLoadPhase_sound h))
  exact fold _ _ (channelsEnd_sound (takePeriod_sound h))

theorem Position.PartsOnly.sound {x y : Position} (h : x.PartsOnly y) (k : x.Sound) : y.Sound := by
  obtain ⟨m, a, b, f, rfl⟩ := h
  exact ⟨k.duty, k.load, k.causes, k.ctx, k.fault, k.linger, k.stop, k.prot, k.disagree, k.silent⟩

theorem meter_sound {b : Block} (p : Pos) (m : Meter) (h : b.works.eng.Sound) : (b.writeMeter p m).works.eng.Sound :=
  fun q => ((writeMeter_partsOnly b p m).pos q).sound (h q)

theorem writeT10_sound (list : List Entry) (b : Block) (i : Nat) (h : b.works.eng.Sound) :
    (writeT10 b i list).works.eng.Sound := by
  induction list generalizing b i with
  | nil => exact h
  | cons x rest ih =>
    cases x with
    | t10 value =>
      refine ih _ _ ?_
      unfold writeT10At
      split
      · exact h
      · exact meter_sound _ _ h
    | _ => exact ih _ _ h

theorem writeAccepted_sound {b : Block} (table first count : Nat) (list : List Entry) (h : b.works.eng.Sound) :
    (writeAccepted b table first count list).works.eng.Sound := by
  unfold writeAccepted
  dsimp only
  split
  next => exact closeEventWith_sound h
  next => exact closeEventWith_sound (foldl_sound (fun _ _ => positionRewritten_sound) _ h)
  next => exact closeEventWith_sound (sound_eachPos (fun _ _ => profileRewritten_sound) h)
  next => exact h
  next => exact closeEventWith_sound (sound_eachPos (fun _ _ => protRewritten_sound) h)
  next => exact writeT10_sound _ _ _ h
  next => exact h

/-- A position comes out of a reset OFF, ISOLATED or ABSENT, with nothing of any other state. -/
theorem positionAtReset_sound (T : Tables) (cells : Four (Option Bool)) (levels : Four Level) (meters : Four Nat) (p : Pos) :
    (positionAtReset T cells levels meters p).Sound :=
  ⟨fun _ => ⟨rfl, rfl, rfl, rfl⟩, fun _ => ⟨rfl, rfl, rfl, rfl, rfl, rfl⟩, fun _ => ⟨rfl, rfl⟩, fun _ => rfl,
    fun _ => ⟨rfl, rfl⟩, fun _ => rfl, fun _ => rfl, fun _ => rfl, fun _ => ⟨rfl, rfl⟩,
    fun _ => ⟨rfl, rfl, rfl, rfl, rfl, rfl⟩⟩

theorem engineAtReset_at (T : Tables) (cells : Four (Option Bool)) (levels : Four Level) (meters : Four Nat) (now : Nat) (p : Pos) :
    (engineAtReset T cells levels meters now).at p = positionAtReset T cells levels meters p := by
  cases p <;> rfl

theorem engineAtReset_sound (T : Tables) (cells : Four (Option Bool)) (levels : Four Level) (meters : Four Nat) (now : Nat) :
    (engineAtReset T cells levels meters now).Sound := fun p => by
  rw [engineAtReset_at]
  exact positionAtReset_sound ..

/-- Every command keeps the positions sound. -/
theorem WorksMove.positions {b : Block} {c : Instr} {w : Works} (h : WorksMove b c w) (hs : b.works.eng.Sound) : w.eng.Sound := by
  cases h with
  | kept => exact hs
  | event n he => exact closeEventWith_sound (he.positions hs)
  | linger p n => exact closeEventWith_sound (w := b.works.atTime n) hs
  | period n => exact periodEnds_sound (w := b.works.atTime n) hs
  | application => exact closeEventWith_sound (w := applyCommit b.works) hs
  | commit r => exact closeEventWith_sound (w := applyCommit b.works) hs
  | commitMark r => exact hs
  | write r list hw => exact writeAccepted_sound _ _ _ _ hs
  | parts hc hw => exact fun p => (hw.pos p).sound (hs p)
  | restart r => exact engineAtReset_sound _ _ _ _ _
  | powerOn up down levels => exact engineAtReset_sound _ _ _ _ _

/-- Settles O59: each command by the lemma on its operation of the positions. -/
theorem everyStepKeepsThePositionsSound : Obligations.EveryStepKeepsThePositionsSound := by
  intro s t h hs
  rcases step_cases h with (ht | ht) | ⟨c, u, hu, hc⟩
  · rw [State.eng, ht]
    exact hs
  · rw [State.eng, ht]
    exact hs
  · exact (exec_moves hc).positions (by rw [hu]; exact hs)

end Sys2Proof.Machine
end

section
/-! SUPPORT. The expiry of a running timer, a closed event at a position without orders, and what entering a state leaves of it. -/

namespace Sys2Proof.Machine

variable {T : Tables} {p : Pos} {e : Engine}

/-! ## Expiries -/

theorem reach_expiry (b : Block) (since period : Nat) :
    b.reach ((Timer.running since period).expiryTime b.works.eng.now) =
      { b with works := b.works.atTime (max b.works.eng.now (since + period)) } := by
  have reached : max b.works.eng.now (max b.works.eng.now (since + period)) = max b.works.eng.now (since + period) :=
    Nat.max_eq_right (Nat.le_max_left ..)
  exact congrArg (fun n => { b with works := b.works.atTime n }) reached

theorem expiry_running {b : Block} {t : Timer} {since period : Nat} (h : t = .running since period) (f : Block → Block) :
    b.expiry t f = f { b with works := b.works.atTime (max b.works.eng.now (since + period)) } := by
  subst h
  rw [← reach_expiry]
  rfl

/-- The expiry of a running timer is an event at its limit (log 2). -/
theorem expiryEvent_running {b : Block} {t : Timer} {since period : Nat} (h : t = .running since period)
    (f : Tables → Engine → Engine) : b.expiryEvent t f =
      { b with works := (b.works.atTime (max b.works.eng.now (since + period))).event f } :=
  expiry_running h _

/-- A state whose clock reached a limit and whose engines took an event there. -/
def State.expired (s : State) (limit : Nat) (f : Tables → Engine → Engine) : State :=
  { s with block := { s.block with works := (s.block.works.atTime (max s.eng.now limit)).event f } }

/-- A state whose engines took an event now. -/
def State.acted (s : State) (f : Tables → Engine → Engine) : State :=
  { s with block := { s.block with works := s.block.works.event f } }

/-- The answer of a powered unit to an event that no timer brings. -/
theorem answer_acted {s : State} {g : Block → Block} {f : Tables → Engine → Engine} (hp : s.block.powered = true)
    (hg : g s.block = s.block.onWorks (·.event f)) : answer g s = .next (s.acted f) := by
  rw [answer_powered hp, hg]
  rfl

/-- The answer of a powered unit to the expiry of a running timer. -/
theorem answer_expired {s : State} {t : Timer} {since period : Nat} {g : Block → Block} {f : Tables → Engine → Engine}
    (hp : s.block.powered = true) (hg : g s.block = s.block.expiryEvent t f) (ht : t = .running since period) :
    answer g s = .next (s.expired (since + period) f) := by
  rw [answer_powered hp, hg, expiryEvent_running ht]
  rfl

section
variable {s : State} {since period : Nat}

theorem exec_notchTimer (hp : s.block.powered = true) (ht : s.res.notchT = .running since period) :
    exec .notchTimerExpires s = .next (s.expired (since + period) (fun T e => { e with res := e.res.notchExpires T e.now })) :=
  answer_expired hp rfl ht

theorem exec_holdTimer (hp : s.block.powered = true) (ht : (s.pos p).holdT = .running since period) :
    exec (.holdTimerExpires p) s = .next (s.expired (since + period) (holdExpires p)) :=
  answer_expired hp rfl ht

theorem exec_stopTimer (hp : s.block.powered = true) (ht : (s.pos p).stopT = .running since period) :
    exec (.stopTimerExpires p) s = .next (s.expired (since + period) (stopExpires p)) :=
  answer_expired hp rfl ht

theorem exec_restTimer (hp : s.block.powered = true) (ht : s.eng.bus.restT = .running since period) :
    exec .restTimerExpires s = .next (s.expired (since + period) busRestExpires) :=
  answer_expired hp rfl ht

theorem exec_guardTimer (hp : s.block.powered = true) (ht : s.eng.bus.guardT = .running since period) :
    exec .guardTimerExpires s = .next (s.expired (since + period) guardExpires) :=
  answer_expired hp rfl ht

theorem exec_sampleTimer (hp : s.block.powered = true) (ht : (s.pos p).link.sampleT = .running since period) :
    exec (.sampleTimerExpires p) s = .next (s.expired (since + period) (fun T e => linkLost T p e)) :=
  answer_expired hp rfl ht

theorem exec_confirmTimer (hp : s.block.powered = true) (ht : (s.pos p).link.confirmT = .running since period) :
    exec (.confirmTimerExpires p) s = .next (s.expired (since + period) (fun T e => confirmExpires T p e)) :=
  answer_expired hp rfl ht

theorem exec_refreshTimer (hp : s.block.powered = true) (ht : (s.pos p).link.refreshT = .running since period) :
    exec (.refreshTimerExpires p) s = .next (s.expired (since + period) (fun _ e => refreshExpires p e)) :=
  answer_expired hp rfl ht

theorem exec_disagreeTimer (hp : s.block.powered = true) (ht : (s.pos p).link.disagreeT = .running since period) :
    exec (.disagreeTimerExpires p) s = .next (s.expired (since + period) (fun T e => disagreeExpires T p e)) :=
  answer_expired hp rfl ht

theorem exec_filterTimer (hp : s.block.powered = true) (ht : (s.pos p).pickup.filterT = .running since period) :
    exec (.filterTimerExpires p) s = .next (s.expired (since + period) (fun T e => filterExpires T p e)) :=
  answer_expired hp rfl ht

theorem exec_zeroSpeedTimer (hp : s.block.powered = true) (ht : (s.pos p).pickup.zeroT = .running since period) :
    exec (.zeroSpeedTimerExpires p) s = .next (s.expired (since + period) (fun T e => zeroSpeedExpires T p e)) :=
  answer_expired hp rfl ht

theorem exec_settleTimer (hp : s.block.powered = true) (ht : (s.pos p).load.settleT = .running since period) :
    exec (.settleTimerExpires p) s = .next (s.expired (since + period) (settleExpires p)) :=
  answer_expired hp rfl ht

theorem exec_sample (raw : List Byte) (hp : s.block.powered = true) :
    exec (.sample p raw) s = .next (s.acted fun T e => sampleArrives T p raw e) := by
  unfold exec execSample
  exact answer_acted hp rfl

theorem exec_stationFrame (hp : s.block.powered = true) :
    exec (.stationFrameSent p) s = .next (s.acted fun _ e => stationFrameEnds p e) := by
  unfold exec execStationFrameSent
  exact answer_acted hp rfl

theorem exec_levelChange (level : Level) (hp : s.block.powered = true) :
    exec (.pickupLevelChange p level) s = .next (s.acted (levelChanges p level)) := by
  unfold exec execPickupLevelChange
  exact answer_acted hp rfl

end

/-! ## Closed events -/

/-- The close of an event carries every position. -/
theorem event_carried (w : Works) (f : Tables → Engine → Engine) (p : Pos) :
    Carried ((f w.tab w.eng).at p) ((w.event f).eng.at p) :=
  ((closeEvent_closes w { w with eng := f w.tab w.eng }).eng.pos p).carried

/-- The close of an event leaves a position to which no order applies. -/
theorem event_still {w : Works} {f : Tables → Engine → Engine} {p : Pos} (h : ((f w.tab w.eng).at p).st.fixed = true) :
    Still ((f w.tab w.eng).at p) ((w.event f).eng.at p) :=
  ((closeEvent_closes w { w with eng := f w.tab w.eng }).eng.pos p).still (by simp [Position.calm, h])

theorem event_now (w : Works) (f : Tables → Engine → Engine) : (w.event f).eng.now = (f w.tab w.eng).now :=
  (closeEvent_closes w { w with eng := f w.tab w.eng }).eng.now

theorem event_resKept (w : Works) (f : Tables → Engine → Engine) : ResKept (f w.tab w.eng).res (w.event f).eng.res :=
  (closeEvent_closes w { w with eng := f w.tab w.eng }).eng.res

/-! ## Entry to a state -/

/-- A position that enters a state: the record of leaving the old one and arriving, but for the frames to the station. -/
theorem enter_at (T : Tables) (p : Pos) (dest : PState) (e : Engine) :
    ∃ l, (enter T p dest e).at p = { ((e.at p).leave dest).arrive dest with link := l } ∧
      LinkHanded (((e.at p).leave dest).arrive dest).link l := by
  have left : ((if (e.at p).st = .starting ∧ dest ≠ .starting then leaveBus T p e else e).at p).leave dest =
      (e.at p).leave dest := by
    split
    next h =>
      rcases (leaveBus_busOnly T p e).all p with hb | hb <;> rw [hb]
      simp [Position.leave, h.1, h.2]
    next => rfl
  unfold enter
  dsimp only
  obtain ⟨l, hl, hk⟩ := handDrive_linkOnly T p ((if (e.at p).st = .starting ∧ dest ≠ .starting then leaveBus T p e else e).modify p
    fun x => (x.leave dest).arrive dest)
  simp only [Engine.at_modify_self, left] at hl hk
  exact ⟨l, by rw [hl, Engine.at_put_self], hk⟩

/-- A position that was not FAULTED after a fault: the record written, and what entry to FAULTED leaves. -/
theorem faultWith_at {code : FaultCode} {step : Option Nat} {value : Option Int} (h : (e.at p).st ≠ .faulted) :
    ∃ l, (faultWith T p code step value e).at p =
        { ((e.at p).leave .faulted).arrive .faulted with link := l, fault := ⟨some code, step, value, false⟩ } ∧
      LinkHanded (((e.at p).leave .faulted).arrive .faulted).link l := by
  obtain ⟨l, hl, hk⟩ := enter_at T p .faulted e
  refine ⟨l, ?_, hk⟩
  rw [faultWith, if_neg h, Engine.at_modify_self, hl]

/-- A fault of a position that is FAULTED already. -/
theorem faultWith_again {code : FaultCode} {step : Option Nat} {value : Option Int} (h : (e.at p).st = .faulted) :
    faultWith T p code step value e = e.modify p fun x => { x with fault := { x.fault with further := true } } := by
  rw [faultWith, if_pos h]

/-- What a fault of a position that was not FAULTED leaves of it. -/
structure Failed (code : FaultCode) (step : Option Nat) (value : Option Int) (x : Position) : Prop where
  st : x.st = .faulted
  fault : x.fault = ⟨some code, step, value, false⟩
  causes : x.causes = .none
  holdT : x.holdT = .stopped

variable {code : FaultCode} {step : Option Nat} {value : Option Int}

theorem faultWith_failed (h : (e.at p).st ≠ .faulted) : Failed code step value ((faultWith T p code step value e).at p) := by
  obtain ⟨l, hl, -⟩ := faultWith_at (T := T) (code := code) (step := step) (value := value) h
  rw [hl]
  exact ⟨rfl, rfl, rfl, rfl⟩

/-- A start that fails leaves no step context (R52). -/
theorem faultWith_ctx (h : (e.at p).st = .starting) : ((faultWith T p code step value e).at p).ctx = none := by
  obtain ⟨l, hl, -⟩ := faultWith_at (T := T) (code := code) (step := step) (value := value) (p := p) (e := e) (by simp [h])
  rw [hl]
  simp [Position.arrive, Position.leave, h]

/-- STOPPING is left with its timer stopped (R52). -/
theorem faultWith_stopT (h : (e.at p).st = .stopping) : ((faultWith T p code step value e).at p).stopT = .stopped := by
  obtain ⟨l, hl, -⟩ := faultWith_at (T := T) (code := code) (step := step) (value := value) (p := p) (e := e) (by simp [h])
  rw [hl]
  simp [Position.arrive, Position.leave, h]

theorem Failed.fixed {x : Position} (h : Failed code step value x) : x.st.fixed = true := by rw [h.st]; rfl

/-- The close of an event leaves a failed position so. -/
theorem Still.failed {x y : Position} (hs : Still x y) (h : Failed code step value x) : Failed code step value y :=
  ⟨hs.st.trans h.st, hs.fault.trans h.fault, hs.causes.trans h.causes, hs.holdT.trans h.holdT⟩

theorem Still.ctx_none {x y : Position} (hs : Still x y) (h : x.ctx = none) : y.ctx = none := by
  have hc := hs.course
  rw [h] at hc
  exact Option.map_eq_none_iff.1 hc

end Sys2Proof.Machine
end

section
/-! SUPPORT. The statements on single timers, pins, queues and carriers. -/

namespace Sys2Proof.Machine

/-- Settles O60. -/
theorem resetIsSound : Obligations.ResetIsSound := by
  refine ⟨?_, ?_, ⟨fun _ => rfl, Nat.le_refl 0, rfl, Nat.zero_le 8, rfl, fun _ => rfl⟩, fun p => ?_⟩
  · constructor <;> decide
  · constructor <;> decide
  · have absent : Position.atReset.Sound := by constructor <;> decide
    cases p <;> exact absent

/-- Settles O8. -/
theorem supplyDipReleasesEveryPin : Obligations.SupplyDipReleasesEveryPin := by
  intro s
  refine ⟨_, rfl, rfl, rfl, rfl, rfl, rfl, fun p => ⟨?_, rfl, rfl, ?_, ?_⟩⟩
  · cases p <;> rfl
  · simp [Block.excitation, supplyDip]
  · unfold Block.excitationActive
    split
    · rfl
    · simp [Block.excitation, supplyDip]

/-- The Resolver after a lost link comes to rest at IDLE (R7, R10). -/
theorem notchExpires_rests {r : Resolver} (T : Tables) (now : Nat) (h : r.link = .live) : RestsAtIdle (r.notchExpires T now) :=
  settle_onset _ _ _ (by simp [Conds.onset, holdingConds, h])

theorem notchExpires_kept (r : Resolver) (T : Tables) (now : Nat) :
    ResKept { r with link := .lost, requested := 0, demand := 0, notchT := .stopped } (r.notchExpires T now) := settle_kept ..

/-- The event of the NOTCH timer, closed. -/
theorem notchExpires_event {w : Works} (h : w.eng.res.link = .live) :
    let t := (w.event fun T e => { e with res := e.res.notchExpires T e.now }).eng
    ResKept { w.eng.res with link := .lost, requested := 0, demand := 0, notchT := .stopped } t.res ∧ RestsAtIdle t.res ∧
      t.now = w.eng.now := by
  have kept := notchExpires_kept w.eng.res w.tab w.eng.now
  refine ⟨kept.trans (event_resKept w fun T e => { e with res := e.res.notchExpires T e.now }), (closeEvent_notch ..).rests (kept.blocked.trans rfl) ?_,
    event_now w fun T e => { e with res := e.res.notchExpires T e.now }⟩
  exact notchExpires_rests w.tab w.eng.now h

/-- Settles O11. -/
theorem notchTimerExpiryLosesTheLink : Obligations.NotchTimerExpiryLosesTheLink := by
  intro s since period hp ht hl
  obtain ⟨kept, rests, now⟩ := notchExpires_event (w := s.block.works.atTime (max s.eng.now (since + period))) hl
  exact ⟨_, exec_notchTimer hp ht, kept.link, kept.requested, kept.demand, rests.resolved, rests.dwell, rests.achieve,
    kept.notchT, kept.runRequest, kept.runPerm, kept.latch, now⟩

theorem holdExpires_failed {T : Tables} {p : Pos} {e : Engine} (h : (e.at p).st = .held) :
    Failed .heldTimeout none none ((holdExpires p T e).at p) := by
  have hf := faultWith_failed (T := T) (p := p) (e := e.modify p fun x => { x with holdT := .stopped })
    (code := .heldTimeout) (step := none) (value := none) (by simp [h])
  simpa [holdExpires, fault, Position.faultStep, h] using hf

theorem stopExpires_failed {T : Tables} {p : Pos} {e : Engine} (h : (e.at p).st = .stopping) :
    Failed .failToStop none (some ((e.at p).pickup.speed : Int)) ((stopExpires p T e).at p) ∧
      ((stopExpires p T e).at p).stopT = .stopped := by
  have eq : stopExpires p T e = faultWith T p .failToStop none (e.at p).rpmValue
      (e.modify p fun x => { x with stopT := .stopped }) := by
    simp [stopExpires, fault, Position.faultStep, h]
  rw [eq]
  exact ⟨faultWith_failed (by simp [h]), faultWith_stopT (by simpa using h)⟩

/-- Settles O17. -/
theorem holdAndStopLimitsFaultThePosition : Obligations.HoldAndStopLimitsFaultThePosition := by
  intro s p since period hp
  constructor
  · intro hst ht
    have failed := holdExpires_failed (T := s.tab) (p := p)
      (e := (s.block.works.atTime (max s.eng.now (since + period))).eng) hst
    have h := (event_still (f := holdExpires p) failed.fixed).failed failed
    exact ⟨_, exec_holdTimer hp ht, h.st, h.fault, h.causes, h.holdT⟩
  · intro hst ht
    obtain ⟨failed, stopped⟩ := stopExpires_failed (T := s.tab) (p := p)
      (e := (s.block.works.atTime (max s.eng.now (since + period))).eng) hst
    have still := event_still (f := stopExpires p) failed.fixed
    have h := still.failed failed
    exact ⟨_, exec_stopTimer hp ht, h.st, h.fault, still.stopT.trans stopped⟩

end Sys2Proof.Machine
end

section
/-! SUPPORT. The close of an event in a quiet block: where no state, mode, setup or phase moves, it does nothing but bring the DRIVE
content up to date. -/

namespace Sys2Proof.Machine

/-! ## The quiet block, position by position -/

theorem quiet_iff {w : Works} : w.quiet = true ↔ zeroLinger w.eng = none ∧ ∀ p,
    ((w.eng.at p).greets = false ∨ w.tab.profile p = none) ∧ slotStale w.tab w.eng p = false ∧
      driveContent w.tab p (w.eng.at p) = (w.eng.at p).link.drive := by
  have each : ∀ p, ((decide ((w.eng.at p).link.setup ≠ .unset) || decide ((w.eng.at p).link.state ≠ .up) ||
      ((w.eng.at p).st != .off && (w.eng.at p).st != .held) || (w.tab.profile p).isNone) = true) ↔
      ((w.eng.at p).greets = false ∨ w.tab.profile p = none) := by
    intro p
    have hg := greets_iff (x := w.eng.at p)
    cases hb : (w.eng.at p).greets
    · rw [hb] at hg
      simp only [Bool.false_eq_true, false_iff, Classical.not_and_iff_not_or_not, not_or] at hg
      simp only [ne_eq, decide_not, Bool.or_eq_true, Bool.not_eq_true', decide_eq_false_iff_not, Bool.and_eq_true, bne_iff_ne,
        true_or, iff_true]
      rcases hg with h | h | h
      · exact Or.inl (Or.inl (Or.inl h))
      · exact Or.inl (Or.inl (Or.inr h))
      · exact Or.inl (Or.inr h)
    · obtain ⟨h₁, h₂, h₃⟩ := hg.1 hb
      rcases h₃ with h₃ | h₃ <;> simp [h₁, h₂, h₃]
  unfold Works.quiet
  simp only [Bool.and_eq_true, Option.isNone_iff_eq_none, List.all_eq_true, each]
  constructor
  · rintro ⟨hl, h⟩
    refine ⟨hl, fun p => ?_⟩
    obtain ⟨⟨h₁, h₂⟩, h₃⟩ := h p (Pos.mem_all p)
    exact ⟨h₁, by simpa using h₂, by simpa using h₃⟩
  · rintro ⟨hl, h⟩
    refine ⟨hl, fun p _ => ?_⟩
    obtain ⟨h₁, h₂, h₃⟩ := h p
    exact ⟨⟨h₁, by simpa using h₂⟩, by simpa using h₃⟩

/-- Quiet is a matter of positions and tables, not of the clock. -/
theorem quiet_atTime {w : Works} {n : Nat} (h : w.quiet = true) : (w.atTime n).quiet = true := h

/-- Nothing moved by which the close of an event is prompted: the Resolver, and of each position state, mode, setup, link state, the
latest sample, the linger timer and whether it is ONLINE and STEADY. -/
structure Unmoved (a b : Engine) : Prop where
  res : b.res = a.res
  st : ∀ p, (b.at p).st = (a.at p).st
  mode : ∀ p, (b.at p).mode = (a.at p).mode
  setup : ∀ p, (b.at p).link.setup = (a.at p).link.setup
  linkState : ∀ p, (b.at p).link.state = (a.at p).link.state
  latest : ∀ p, (b.at p).link.latest = (a.at p).link.latest
  lingerT : ∀ p, (b.at p).lingerT = (a.at p).lingerT
  steady : ∀ p, (b.at p).onlineSteady = (a.at p).onlineSteady

theorem Unmoved.refl (e : Engine) : Unmoved e e :=
  ⟨rfl, fun _ => rfl, fun _ => rfl, fun _ => rfl, fun _ => rfl, fun _ => rfl, fun _ => rfl, fun _ => rfl⟩

theorem Conds.onset_self (c : Conds) : c.onset c = false := by
  rcases c with ⟨a, b, c, d⟩
  cases a <;> cases b <;> cases c <;> cases d <;> rfl

theorem Conds.ended_self (c : Conds) : c.ended c = false := by
  unfold Conds.ended
  cases c.any <;> rfl

/-- Where nothing moved the Planner is not prompted (R21). -/
theorem Unmoved.prompted {a b : Works} (h : Unmoved a.eng b.eng) (ht : b.tab = a.tab) : prompted a b = false := by
  have at_ : ∀ p, promptedAt (a.eng.at p) (b.eng.at p) = false := by
    intro p
    simp [promptedAt, h.st, h.mode, h.setup, h.steady, Link.localSet, h.latest]
  simp [Machine.prompted, condsTurned, h.res, ht, Conds.onset_self, Conds.ended_self, at_]

/-- Nor is a commit due where no phase of an ONLINE position changed (R178). -/
theorem Unmoved.moved {a b : Engine} (h : Unmoved a b)
    (hp : ∀ p, (b.at p).st = .online → (b.at p).load.phase = (a.at p).load.phase) : movedBetween a b = false := by
  unfold movedBetween
  simp only [List.any_eq_false, Bool.or_eq_true, Bool.and_eq_true, bne_iff_ne, ne_eq, beq_iff_eq, not_or, not_and, Classical.not_not]
  exact fun p _ => ⟨(h.st p).symm, fun hst => (hp p hst).symm⟩

theorem zeroLinger_congr {a b : Engine} (h : ∀ p, (b.at p).lingerT = (a.at p).lingerT) : zeroLinger b = zeroLinger a := by
  unfold zeroLinger
  simp only [h]

/-- The close of an event of a quiet block at which nothing moved. -/
theorem quiet_close {start w : Works} (hq : start.quiet = true) (ht : w.tab = start.tab) (hu : Unmoved start.eng w.eng)
    (hc : commitDue start.eng w = false) (hs : ∀ p, slotStale w.tab w.eng p = false) :
    closeEvent start w = { w with eng := w.eng.eachPos (refreshDrive w.tab start.eng) } := by
  obtain ⟨hl, h⟩ := quiet_iff.1 hq
  refine closeEvent_unprompted (fun p => ?_) hc (hu.prompted ht) ((zeroLinger_congr hu.lingerT).trans hl) hs
  have greets : (w.eng.at p).greets = (start.eng.at p).greets := by
    simp [Position.greets, hu.setup, hu.linkState, hu.st]
  unfold handshake
  dsimp only
  split
  next => rfl
  next pr hpr =>
    rcases (h p).1 with hg | hg
    · rw [greets, hg]
      rfl
    · rw [ht, hg] at hpr
      cases hpr

/-- A DRIVE content that is in force on a link that did not come UP is left alone. -/
theorem refreshDrive_same {T : Tables} {before : Engine} {p : Pos} {e : Engine}
    (hd : driveContent T p (e.at p) = (e.at p).link.drive)
    (hu : (e.at p).link.state = .up → (before.at p).link.state = .up) : refreshDrive T before p e = e := by
  have handed : handDrive T p e = e := by simp [handDrive, hd]
  unfold refreshDrive
  rw [handed, driveAtUp]
  split
  next h => exact absurd (hu h.1) h.2.1
  next => rfl

/-- Of a quiet block that nothing moved, with the DRIVE contents in force, the close of an event leaves all. -/
theorem quiet_close_same {start w : Works} (hq : start.quiet = true) (ht : w.tab = start.tab) (hu : Unmoved start.eng w.eng)
    (hc : commitDue start.eng w = false) (hs : ∀ p, slotStale w.tab w.eng p = false)
    (hd : ∀ p, driveContent w.tab p (w.eng.at p) = (w.eng.at p).link.drive) : closeEvent start w = w := by
  rw [quiet_close hq ht hu hc hs, Engine.eachPos_id fun p => refreshDrive_same (hd p) fun h => (hu.linkState p).symm.trans h]

/-! ## An event of frames alone -/

/-- Of one position's link the frames and their timer alone changed. -/
structure FramesOnly (l l' : Link) : Prop where
  state : l'.state = l.state
  latest : l'.latest = l.latest
  setup : l'.setup = l.setup
  drive : l'.drive = l.drive

theorem LinkKept.frames {l l' : Link} (h : LinkKept l l') : FramesOnly l l' := ⟨h.state, h.latest, h.setup, h.drive⟩

/-- An event of a quiet block that changes the frames of one link is left by the close as it is. -/
theorem quiet_frames {w : Works} {p : Pos} {l : Link} (hq : w.quiet = true) (h : FramesOnly (w.eng.at p).link l) :
    closeEvent w { w with eng := w.eng.put p { w.eng.at p with link := l } } =
      { w with eng := w.eng.put p { w.eng.at p with link := l } } := by
  obtain ⟨-, hw⟩ := quiet_iff.1 hq
  have only : ∀ q, ∃ l', (w.eng.put p { w.eng.at p with link := l }).at q = { w.eng.at q with link := l' } ∧
      FramesOnly (w.eng.at q).link l' := by
    intro q
    rw [Engine.at_put]
    split
    next hqp => subst hqp; exact ⟨l, rfl, h⟩
    next => exact ⟨_, rfl, rfl, rfl, rfl, rfl⟩
  have unmoved : Unmoved w.eng (w.eng.put p { w.eng.at p with link := l }) := by
    refine ⟨rfl, fun q => ?_, fun q => ?_, fun q => ?_, fun q => ?_, fun q => ?_, fun q => ?_, fun q => ?_⟩ <;>
      obtain ⟨l', hl, hk⟩ := only q <;> rw [hl]
    · exact hk.setup
    · exact hk.state
    · exact hk.latest
    · rfl
  refine quiet_close_same hq rfl unmoved ?_ (fun q => ?_) fun q => ?_
  · have moved := unmoved.moved fun q _ => by
      obtain ⟨l', hl, -⟩ := only q
      rw [hl]
    simp [commitDue, moved]
  · obtain ⟨l', hl, -⟩ := only q
    rw [← (hw q).2.1]
    simp [slotStale, scheduleTarget, hl, Position.deratePct, Position.activeWith]
  · obtain ⟨l', hl, hk⟩ := only q
    rw [hl]
    exact (hw q).2.2.trans hk.drive.symm

end Sys2Proof.Machine
end

section
/-! SUPPORT. The statements on the quiet block and on the input of a pickup. -/

namespace Sys2Proof.Machine

theorem quiet_event_same {w : Works} (hq : w.quiet = true) : closeEvent w w = w := by
  obtain ⟨-, hw⟩ := quiet_iff.1 hq
  have moved := (Unmoved.refl w.eng).moved fun _ _ => rfl
  exact quiet_close_same hq rfl (.refl _) (by simp [commitDue, moved]) (fun p => (hw p).2.1) fun p => (hw p).2.2

/-- Settles O25. -/
theorem otherSamplesAreIgnored : Obligations.OtherSamplesAreIgnored := by
  intro s p raw hp hq h
  have ignored : sampleArrives s.tab p raw s.eng = s.eng := by
    unfold sampleArrives
    split
    next => rfl
    next x hx =>
      refine if_pos ?_
      rcases h with h | h
      · rw [hx] at h
        cases h
      · exact h
  have hw : (s.block.works.event fun T e => sampleArrives T p raw e) = s.block.works := by
    rw [Works.event, ignored]
    exact quiet_event_same hq
  rw [exec_sample raw hp, State.acted, hw]

/-- The event of a frame sent, in a quiet block. -/
theorem stationFrameEnds_quiet {w : Works} {p : Pos} (hq : w.quiet = true) :
    w.event (fun _ e => stationFrameEnds p e) = { w with eng := stationFrameEnds p w.eng } := by
  have kept := (beginNext_kept { (w.eng.at p).link with sending := none }).frames
  exact quiet_frames hq ⟨kept.state, kept.latest, kept.setup, kept.drive⟩

/-- Settles O30. -/
theorem stationFramesFollowInOrder : Obligations.StationFramesFollowInOrder := by
  intro s p hp hq
  refine ⟨_, exec_stationFrame hp, ?_⟩
  rw [State.acted, stationFrameEnds_quiet hq]
  refine ⟨fun hw => ?_, fun x rest hw => ?_, fun q hqp => Engine.at_modify_other _ _ hqp⟩
  · simp [State.pos, State.eng, stationFrameEnds, Link.beginNext, hw]
  · cases x <;> simp [State.pos, State.eng, stationFrameEnds, Link.beginNext, hw]

/-- The event of the refresh timer, in a quiet block. -/
theorem refreshExpires_quiet {w : Works} {p : Pos} (hq : w.quiet = true) :
    w.event (fun _ e => refreshExpires p e) = { w with eng := refreshExpires p w.eng } := by
  have kept := (sendDrive_kept { (w.eng.at p).link with refreshT := .stopped } w.eng.now).frames
  exact quiet_frames hq ⟨kept.state, kept.latest, kept.setup, kept.drive⟩

/-- A DRIVE asked for on an idle transmitter goes out at once. -/
theorem sendDrive_idle {l : Link} {d : Drive} (now : Nat) (hu : l.state = .up) (hd : l.drive = some d) (hs : l.sending = none)
    (hw : l.waiting = []) :
    l.sendDrive now = { l with sending := some (.drive d), waiting := [], refreshT := .running now (ms 200) } := by
  simp [Link.sendDrive, Link.beginNext, hu, hd, hs, hw]

/-- A DRIVE asked for behind a frame that is being sent waits at the tail. -/
theorem sendDrive_busy {l : Link} {d : Drive} {f : StationFrame} (now : Nat) (hu : l.state = .up) (hd : l.drive = some d)
    (hs : l.sending = some f) :
    l.sendDrive now = { l with waiting := l.waiting.filter (fun w => w != .drive) ++ [.drive],
                               refreshT := .running now (ms 200) } := by
  simp [Link.sendDrive, Link.beginNext, hu, hd, hs]

/-- The link after the refresh timer: DRIVE goes out at once or joins the tail (R109). -/
theorem refreshed_link {l : Link} {d : Drive} (now : Nat) (hu : l.state = .up) (hd : l.drive = some d) :
    (({ l with refreshT := .stopped } : Link).sendDrive now).refreshT = .running now 200000 ∧
    (l.sending = none → l.waiting = [] →
      (({ l with refreshT := .stopped } : Link).sendDrive now).sending = some (.drive d) ∧
      (({ l with refreshT := .stopped } : Link).sendDrive now).waiting = []) ∧
    ∀ f, l.sending = some f → (({ l with refreshT := .stopped } : Link).sendDrive now).sending = some f ∧
      (({ l with refreshT := .stopped } : Link).sendDrive now).waiting =
        l.waiting.filter (fun w => w != .drive) ++ [.drive] := by
  refine ⟨?_, fun hs hw => ?_, fun f hs => ?_⟩
  · unfold Link.sendDrive
    rw [if_pos ⟨hu, by simp [hd]⟩, beginNext_refreshT]
    rfl
  · rw [sendDrive_idle (l := { l with refreshT := .stopped }) now hu hd hs hw]
    exact ⟨rfl, rfl⟩
  · rw [sendDrive_busy (l := { l with refreshT := .stopped }) now hu hd hs]
    exact ⟨hs, rfl⟩

/-- Settles O29. -/
theorem refreshSendsDrive : Obligations.RefreshSendsDrive := by
  intro s p d since period hp hq ht hup hd
  refine ⟨_, exec_refreshTimer hp ht, ?_⟩
  rw [State.expired, refreshExpires_quiet (quiet_atTime hq)]
  obtain ⟨running, idle, busy⟩ := refreshed_link (max s.eng.now (since + period)) hup hd
  simp only [State.pos, State.eng, refreshExpires, Engine.at_modify_self]
  exact ⟨running, idle, busy, fun q hqp => Engine.at_modify_other _ _ hqp⟩

theorem pickupProfile_of {T : Tables} {p : Pos} {x : Position} {pr : Profile} (hp : T.profile p = some pr)
    (hs : x.st ≠ .absent) : pickupProfile T p x = some pr := by
  rw [pickupProfile, if_neg hs, hp]

/-- Settles O32. -/
theorem levelChangeStartsTheFilter : Obligations.LevelChangeStartsTheFilter := by
  intro s p level hp
  refine ⟨_, exec_levelChange level hp, ?_⟩
  have carried : ((s.acted (levelChanges p level)).pos p).pickup = (s.pos p).pickup.levelChange level
      ((pickupProfile s.tab p (s.pos p)).map (·.filterUs)) s.eng.now := by
    refine (event_carried s.block.works (levelChanges p level) p).pickup.trans ?_
    rw [levelChanges, Engine.at_modify_self]
  rw [carried]
  refine ⟨fun hi => ?_, fun hi ha => ?_, fun pr hi ha hpr hst => ?_⟩
  · exact if_pos hi
  · exact (if_neg hi).trans (if_pos ha)
  · rw [pickupProfile_of hpr hst]
    exact (if_neg hi).trans (if_neg ha)

end Sys2Proof.Machine
end

section
/-! SUPPORT. The statements on the queues, the transmitters and the frames that are passed. -/

namespace Sys2Proof.Machine

/-! ## The queues -/

theorem passDown_idle {y : Relay} (f : Frame) (hc : y.downCarrier = true) (ht : y.downTx = none) (hq : y.downQ = []) :
    y.passDown f = { y with downTx := some f } := by
  obtain ⟨uc, dc, address, downQ, upQ, localQ, downTx, upTx, last, c₁, c₂, c₃, c₄, c₅⟩ := y
  cases hc
  cases ht
  cases hq
  rfl

theorem passDown_waits {y : Relay} (f : Frame) {g : Frame} (hc : y.downCarrier = true) (ht : y.downTx = some g)
    (hq : y.downQ.length < 4) : y.passDown f = { y with downQ := y.downQ ++ [f] } := by
  simp [Relay.passDown, Relay.serveDown, hc, hq, ht]

theorem queueUp_waits {y : Relay} (f : Frame) (hn : y.upCount < 8) (h : y.upCarrier = false ∨ y.upTx ≠ none) :
    y.queueUp f = { y with upQ := y.upQ ++ [f] } := by
  rw [Relay.queueUp, if_pos hn, Relay.serveUp, if_neg]
  rintro ⟨hc, ht⟩
  rcases h with h | h
  · rw [h] at hc
    cases hc
  · exact h ht

theorem queueLocal_waits {y : Relay} (f : Frame) (h : y.upCarrier = false ∨ y.upTx ≠ none) :
    y.queueLocal f = { y with localQ := y.localQ ++ [f] } := by
  rw [Relay.queueLocal, Relay.serveUp, if_neg]
  rintro ⟨hc, ht⟩
  rcases h with h | h
  · rw [h] at hc
    cases hc
  · exact h ht

/-- Settles O45. -/
theorem queuesHoldTheirFrames : Obligations.QueuesHoldTheirFrames := by
  intro y f hs
  have carrier : ∀ {g}, y.downTx = some g → y.downCarrier = true := fun {g} ht => by
    cases hc : y.downCarrier
    · rw [(hs.noDown hc).1] at ht
      cases ht
    · rfl
  refine ⟨fun hc => ?_, fun hc ht => passDown_idle f hc ht (hs.down hc ht), fun g ht hq => passDown_waits f (carrier ht) ht hq,
    fun g ht hq => ?_, fun hn => ?_, fun hn hc ht => ?_, fun hn h => queueUp_waits f hn h, fun hc ht => ?_,
    fun h => queueLocal_waits f h⟩
  · simp [Relay.passDown, hc]
  · simp [Relay.passDown, carrier ht, Nat.not_lt.2 hq, saturate]
  · simp [Relay.queueUp, Nat.not_lt.2 hn, saturate]
  · obtain ⟨hu, hl⟩ := hs.up hc ht
    simp [Relay.queueUp, hn, Relay.serveUp, hc, ht, hu, hl, Relay.beginRelay]
  · obtain ⟨hu, hl⟩ := hs.up hc ht
    simp [Relay.queueLocal, Relay.serveUp, hc, ht, hu, hl, Relay.beginLocal]

/-! ## The transmitters -/

/-- A relay alone changed by a powered unit. -/
theorem answer_onRelay {s : State} {g : Block → Block} {f : Relay → Relay} (hp : s.block.powered = true)
    (hg : g s.block = s.block.onRelay f) : answer g s = .next { s with block := { s.block with relay := f s.relay } } := by
  rw [answer_powered hp, hg]
  rfl

/-- Settles O48. -/
theorem portEventsServeTheQueues : Obligations.PortEventsServeTheQueues := by
  intro s hp
  refine ⟨?_, ?_, ?_, ?_, ?_, ?_⟩
  · unfold exec execDownTransmissionEnd
    rw [answer_onRelay hp rfl]
    cases hc : s.relay.downCarrier <;> cases hq : s.relay.downQ <;> simp [Relay.downEnd, Relay.serveDown, hc, hq]
  · unfold exec execUpTransmissionEnd
    rw [answer_onRelay hp rfl]
    cases hc : s.relay.upCarrier <;> cases hu : s.relay.upQ <;> cases hl : s.relay.localQ <;> cases ha : s.relay.lastSource <;>
      simp [Relay.upEnd, Relay.serveUp, Relay.beginRelay, Relay.beginLocal, hc, hu, hl, ha]
  · unfold exec execDownLosesCarrier
    rw [answer_onRelay hp rfl]
    rfl
  · unfold exec execDownGainsCarrier
    rw [answer_onRelay hp rfl]
    cases ht : s.relay.downTx <;> cases hq : s.relay.downQ <;> simp [Relay.downGained, Relay.serveDown, ht, hq]
  · unfold exec execUpLosesCarrier
    rw [answer_onRelay hp rfl]
    rcases ht : s.relay.upTx with - | ⟨source, f⟩
    · simp [Relay.upLost, ht]
    · cases source <;> simp [Relay.upLost, ht]
  · unfold exec execUpGainsCarrier
    rw [answer_onRelay hp rfl]
    cases ht : s.relay.upTx <;> cases hu : s.relay.upQ <;> cases hl : s.relay.localQ <;> cases ha : s.relay.lastSource <;>
      simp [Relay.upGained, Relay.serveUp, Relay.beginRelay, Relay.beginLocal, ht, hu, hl, ha]

/-! ## Frames on the line -/

theorem exec_enumerate {s : State} (n : Byte) (hp : s.block.powered = true) (hu : s.relay.upCarrier = true) :
    exec (.enumerate n) s = .next { s with block := { s.block with relay := s.relay.enumerate n } } := by
  unfold exec execEnumerate
  exact answer_onRelay (f := (·.enumerate n)) hp (fromUp_heard hu (·.onRelay (·.enumerate n)))

/-- Settles O46. -/
theorem enumerateSetsTheAddress : Obligations.EnumerateSetsTheAddress := by
  intro s n ⟨hp, hu⟩
  refine ⟨_, exec_enumerate n hp hu, ?_⟩
  by_cases hn : 1 ≤ n.toNat ∧ n.toNat ≤ 14
  · simp [State.relay, Relay.enumerate, within, hn, enumerateFrame, kindEnumerate]
  · have hw : within 1 14 n.toNat = false := by
      simpa [within] using fun h₁ => Nat.lt_of_not_le fun h₂ => hn ⟨h₁, h₂⟩
    simp [State.relay, Relay.enumerate, hw, hn, enumerateFrame, kindEnumerate]

theorem fromPort_received {port : Port} {b : Block} (h : port = .up → b.relay.upCarrier = true) (f : Block → Block) :
    Block.fromPort port f b = f b := by
  cases port
  · exact fromUp_heard (h rfl) f
  · rfl

theorem frame_ok_of_unknownKind {kind : Byte} {payload : List Byte} (hk : knownKind kind = false)
    (hlen : payload.length ≤ 120) : (⟨kind, payload⟩ : Frame).ok = true := by
  simp only [knownKind, downstreamKind, upstreamKind, Bool.or_eq_false_iff, beq_eq_false_iff_ne] at hk
  obtain ⟨⟨⟨⟨⟨h₁, h₂⟩, h₃⟩, h₄⟩, h₅⟩, h₆, h₇⟩ := hk
  simp [Frame.ok, layoutOk, hlen, h₁, h₂, h₃, h₄, h₅, h₆, h₇]

/-- Settles O44. -/
theorem upstreamAndUnknownFramesAreQueued : Obligations.UpstreamAndUnknownFramesAreQueued := by
  intro s hp
  refine ⟨fun port kind payload hlen hk hc => ?_, fun kind payload hk port => ?_, fun kind payload hok => ?_⟩
  · have ok := frame_ok_of_unknownKind hk hlen
    unfold exec execUnknownKind
    refine ⟨_, answer_powered hp, ?_⟩
    rw [fromPort_received hc]
    cases port <;> simp [unknownFrame, hk, ok, Block.onRelay]
  · have same : unknownFrame port ⟨kind, payload⟩ = id := by
      funext b
      simp [unknownFrame, hk]
    unfold exec execUnknownKind
    refine (answer_powered hp).trans ?_
    rw [same]
    cases port
    · rcases fromUp_cases id s.block with h | h <;> simp only [Block.fromPort, h, id]
    · rfl
  · unfold exec execUpstreamFrameArrives
    refine ⟨_, answer_powered hp, ?_⟩
    simp [upstreamArrives, hok, Block.onRelay]

end Sys2Proof.Machine
end

section
/-! SUPPORT. The statements on discarded frames, on requests that are not executed, and on SAVE. -/

namespace Sys2Proof.Machine

/-! ## Arrivals on the line -/

theorem dispatched_unheard {b : Block} (hu : b.relay.upCarrier = false) (f : Frame) (kind : DispKind) (group : Byte)
    (mine : Bool) (take : Block → Block) : dispatched f kind group mine take b = b := fromUp_unheard hu _

theorem mgmtFrameTaken_unheard {b : Block} (hu : b.relay.upCarrier = false) (op : Byte) (r : MgmtReq)
    (take : Block → Block) : mgmtFrameTaken op r take b = b := fromUp_unheard hu _

theorem operation_unheard {b : Block} (hu : b.relay.upCarrier = false) (op : Byte) (r : MgmtReq)
    (run : Block → Block × Option Reply) : operation op r run b = b := mgmtFrameTaken_unheard hu ..

/-- An arrival on UP without carrier there has no effect (R155). -/
theorem exec_unheard {c : Instr} {s : State} (ha : arrives c = true) (hport : arrivalPort c = .up)
    (hu : s.relay.upCarrier = false) : exec c s = .next s := by
  have unheard : ∀ {f : Block → Block}, exec c s = answer f s → f s.block = s.block → exec c s = .next s := fun h hf => by
    rw [h, answer, hf]
    split <;> rfl
  cases c with
  | unknownKind port kind payload =>
    cases hport
    exact unheard rfl (fromUp_unheard hu _)
  | badFrame port raw =>
    cases hport
    exact unheard rfl (fromUp_unheard hu _)
  | upstreamFrameArrives kind payload => cases hport
  | unknownOp op r =>
    refine unheard (f := fun b => if knownOp op then b else operation op r (runUnknown r) b) rfl ?_
    split
    · rfl
    · exact operation_unheard hu ..
  | enumerate => exact unheard rfl (fromUp_unheard hu _)
  | notch | modeAuto | modeRun | modeOut | resetFault | poll => exact unheard rfl (dispatched_unheard hu ..)
  | write | read | commit | save | holdHours | releaseHours | isolate | restore =>
    exact unheard rfl (operation_unheard hu ..)
  | restart => exact unheard rfl (mgmtFrameTaken_unheard hu ..)
  | _ => cases ha

theorem exec_countBad {c : Instr} {f : Block → Block} {s : State} (hp : s.block.powered = true) (port : Port)
    (h : exec c s = answer f s) (hf : f s.block = s.block.onRelay (·.countBad port)) :
    exec c s = .next { s with block := { s.block with relay := s.relay.withBad port } } := by
  rw [h, answer_powered hp, hf]
  cases port <;> rfl

/-- The frame of a request determines the request (R185). -/
theorem mgmtFrame_inj {op op' : Byte} {r r' : MgmtReq} (h : mgmtFrame op r = mgmtFrame op' r') : op = op' ∧ r = r' := by
  obtain ⟨target, tag, table, first, count, entries⟩ := r
  obtain ⟨target', tag', table', first', count', entries'⟩ := r'
  simp only [mgmtFrame, Frame.mk.injEq, List.cons.injEq, true_and] at h
  obtain ⟨rfl, rfl, rfl, rfl, rfl, rfl, rfl⟩ := h
  exact ⟨rfl, rfl⟩

theorem exec_unknownOp {op : Byte} (hk : knownOp op = false) (r : MgmtReq) (s : State) :
    exec (.unknownOp op r) s = answer (operation op r (runUnknown r)) s := by
  unfold exec execUnknownOp
  simp [hk]

/-- A request other than RESTART is an operation (R170). -/
theorem exec_request {c : Instr} {op : Byte} {r : MgmtReq} (hf : c.frame = some (mgmtFrame op r))
    (hop : c.opByte = some op) (hok : c.opOk = true) (hne : op ≠ 9) (s : State) :
    ∃ run, exec c s = answer (operation op r run) s := by
  cases c with
  | write | read | commit | save | holdHours | releaseHours | isolate | restore =>
    cases hop
    obtain ⟨-, rfl⟩ := mgmtFrame_inj (Option.some.inj hf)
    exact ⟨_, rfl⟩
  | restart => exact absurd (Option.some.inj hop).symm hne
  | unknownOp op' r' =>
    cases hop
    obtain ⟨-, rfl⟩ := mgmtFrame_inj (Option.some.inj hf)
    exact ⟨_, exec_unknownOp (Bool.not_eq_true' _ ▸ hok : within 1 9 op.toNat = false) _ s⟩
  | _ => cases hop

/-- Every request is a management frame (R158). -/
theorem exec_mgmtFrame {c : Instr} {op : Byte} {r : MgmtReq} (hf : c.frame = some (mgmtFrame op r))
    (hop : c.opByte = some op) (hok : c.opOk = true) (s : State) :
    ∃ take, exec c s = answer (mgmtFrameTaken op r take) s := by
  by_cases hne : op = 9
  · subst hne
    cases c with
    | restart r' =>
      obtain ⟨-, rfl⟩ := mgmtFrame_inj (Option.some.inj hf)
      exact ⟨_, rfl⟩
    | unknownOp op' r' =>
      cases hop
      cases hok
    | _ => cases hop
  · obtain ⟨run, h⟩ := exec_request hf hop hok hne s
    exact ⟨_, h⟩

theorem exec_badArrival {c : Instr} {f : Frame} {s : State} (hp : s.block.powered = true) (hf : c.frame = some f)
    (hbad : f.ok = false) (hk : c.kindOk = true) (ho : c.opOk = true)
    (hc : arrivalPort c = .up → s.relay.upCarrier = true) :
    exec c s = .next { s with block := { s.block with relay := s.relay.withBad (arrivalPort c) } } := by
  have request : ∀ op r, c.frame = some (mgmtFrame op r) → c.opByte = some op → arrivalPort c = .up →
      exec c s = .next { s with block := { s.block with relay := s.relay.withBad (arrivalPort c) } } := fun op r h hop hup => by
    obtain ⟨take, ht⟩ := exec_mgmtFrame h hop ho s
    cases hf.symm.trans h
    rw [hup]
    exact exec_countBad hp .up ht (request_bad (hc hup) hbad take)
  cases c with
  | notch | modeAuto | modeRun | modeOut | resetFault | poll =>
    cases hf
    exact exec_countBad hp .up rfl (dispatched_bad (hc rfl) hbad _)
  | enumerate n =>
    cases hf
    cases hbad
  | unknownKind port kind payload =>
    cases hf
    have unknown : knownKind kind = false := by simpa [Instr.kindOk] using hk
    refine exec_countBad hp port rfl ((fromPort_received hc _).trans ?_)
    simp [unknownFrame, unknown, hbad]
  | upstreamFrameArrives kind payload =>
    cases hf
    exact exec_countBad hp .down rfl (by simp [upstreamArrives, hbad])
  | write | read | commit | save | holdHours | releaseHours | isolate | restore | restart | unknownOp =>
    exact request _ _ rfl rfl rfl
  | _ => cases hf

/-- Settles O43. -/
theorem discardedFramesAreCounted : Obligations.DiscardedFramesAreCounted := by
  intro s hp
  refine ⟨fun port raw hc => ?_, fun c f hf hbad hk ho hc => exec_badArrival hp hf hbad hk ho hc,
    fun c ha hport hu => ?_⟩
  · unfold exec execBadFrame
    refine ⟨_, answer_powered hp, ?_⟩
    rw [fromPort_received hc, badBytes]
    split
    · cases port <;> rfl
    · rfl
  · exact exec_unheard ha hport hu

/-! ## Requests -/

/-- What a request that runs does to the state, where its effect leaves the relay (R158, R170). -/
theorem exec_ran {c : Instr} {op : Byte} {r : MgmtReq} {s : State} {run : Block → Block × Option Reply}
    (hc : exec c s = answer (operation op r run) s) (h : Ran op r s) (hrel : (run s.block).1.relay = s.block.relay) :
    exec c s = .next { s with block := { (run s.block).1 with relay := match (run s.block).2 with
      | none => s.relay.forward op r
      | some rp => s.relay.answered op r rp } } := by
  rw [hc, answer_powered h.1.1.1]
  exact congrArg (fun b => Host.Outcome.next { s with block := b }) (operation_ran h run hrel)

/-- Settles O55. -/
theorem requestsNotExecuted : Obligations.RequestsNotExecuted := by
  refine ⟨fun s op r h hop => ?_, fun s c op r hf hop hok hne h hroom => ?_, fun s c op r hf hop hok hh hfr ha => ?_⟩
  · have unknown : knownOp op = false := by
      simp only [knownOp, within, Bool.and_eq_false_iff, decide_eq_false_iff_not]
      omega
    exact ⟨_, exec_ran (exec_unknownOp unknown r s) h rfl, rfl⟩
  · obtain ⟨run, hr⟩ := exec_request hf hop hok hne s
    rw [hr, answer_powered h.1.1, operation_noRoom h hroom]
    rfl
  · obtain ⟨take, ht⟩ := exec_mgmtFrame hf hop hok s
    rw [ht, answer_powered hh.1, request_passed hh.2 hfr ha]
    rfl

/-! ## SAVE -/

theorem runSave_busy {r : MgmtReq} {b : Block} (h : b.saving ≠ none) :
    runSave r b = (b, some (plainReply r.table .busy none)) := by
  rw [runSave, if_pos (Option.isSome_iff_ne_none.2 h)]

theorem runSave_incomplete {r : MgmtReq} {b : Block} {n : Byte} {i : Option Nat} (h : b.saving = none)
    (hu : (undefinedTables b.works.tab).find? (fun x => x.2.isSome) = some (n, i)) :
    runSave r b = (b, some (plainReply n .incomplete i)) := by
  simp [runSave, h, hu]

theorem runSave_fixed {r : MgmtReq} {b : Block} (h : b.saving = none) (hu : ∀ x ∈ undefinedTables b.works.tab, x.2 = none) :
    runSave r b =
      ({ b with saving := some ⟨r.tag, r.table, b.works.tab.image⟩, nv := { b.nv with image := none } }, none) := by
  have none_found : (undefinedTables b.works.tab).find? (fun x => x.2.isSome) = none := by
    rw [List.find?_eq_none]
    intro x hx
    simp [hu x hx]
  simp [runSave, h, none_found]

theorem runSave_kept (r : MgmtReq) (b : Block) : (runSave r b).1.relay = b.relay ∧ (runSave r b).1.hours = b.hours ∧
    (runSave r b).1.nv.meters = b.nv.meters ∧ (runSave r b).1.nv.isolation = b.nv.isolation := by
  unfold runSave
  split
  · exact ⟨rfl, rfl, rfl, rfl⟩
  · split <;> exact ⟨rfl, rfl, rfl, rfl⟩

/-- Settles O53. -/
theorem saveFixesAndWritesTheImage : Obligations.SaveFixesAndWritesTheImage := by
  refine ⟨fun s r h => ?_, fun s passes sv hp hs => ?_, fun s passes hs => ?_⟩
  · obtain ⟨hrel, hhours, hmeters, hiso⟩ := runSave_kept r s.block
    refine ⟨_, exec_ran (c := .save r) rfl h hrel, runSave_works r s.block, hhours, hmeters, hiso, fun hb => ?_,
      fun n i hn hu => ?_, fun hn hu => ?_⟩
    · rw [runSave_busy hb]
      exact ⟨rfl, rfl, rfl⟩
    · rw [runSave_incomplete hn hu]
      exact ⟨hn, rfl, rfl⟩
    · rw [runSave_fixed hn hu]
      exact ⟨rfl, rfl, rfl⟩
  · unfold exec execSaveCompletion
    refine ⟨_, answer_powered hp, ?_⟩
    rw [completeSave, hs]
    refine ⟨rfl, rfl, rfl, rfl, ?_⟩
    cases passes <;> rfl
  · unfold exec execSaveCompletion
    have same : completeSave passes s.block = s.block := by rw [completeSave, hs]
    refine (congrArg Host.Outcome.next ?_ : answer (completeSave passes) s = .next s)
    rw [same]
    split <;> rfl

end Sys2Proof.Machine
end

section
/-! SUPPORT. The statements on the checks of a WRITE, on COMMIT and on READ. -/

namespace Sys2Proof.Machine

/-! ## The checks of a WRITE (R173) -/

theorem mgmtFrame_count {op : Byte} {r : MgmtReq} (h : (mgmtFrame op r).ok = true) : 1 ≤ r.count.toNat := by
  simp only [Frame.ok, mgmtFrame, Bool.and_eq_true] at h
  have hl := h.2
  simp [layoutOk, kindMgmt, kindNotch, kindEngineReq, kindEnumerate, kindPoll, within] at hl
  omega

theorem burst_cons {first count : Nat} (h : 1 ≤ count) : ∃ rest, burst first count = first :: rest := by
  obtain ⟨n, rfl⟩ := Nat.exists_eq_add_of_le' h
  exact ⟨_, by rw [burst, List.range_succ_eq_map, List.map_cons, Nat.add_zero]⟩

section
variable {b : Block} {r : MgmtReq} {size : Nat}

theorem checkWrite_badTable (h : tableSize r.table.toNat = none) :
    checkWrite b r = .error ⟨r.table, .badTable, none, []⟩ := by
  simp [checkWrite, h, plainReply]

theorem checkWrite_outside (h : tableSize r.table.toNat = some size) {i : Nat}
    (ho : indexOutside size r.first.toNat r.count.toNat = some i) :
    checkWrite b r = .error ⟨r.table, .badIndex, some i, []⟩ := by
  simp [checkWrite, h, ho, plainReply]

theorem indexOutside_inside {first count : Nat} (hc : 1 ≤ count) (h : first + count ≤ size) :
    indexOutside size first count = none := by
  rw [indexOutside, if_neg (by omega), if_neg (by omega)]

variable (h : tableSize r.table.toNat = some size) (hi : indexOutside size r.first.toNat r.count.toNat = none)
include h hi

theorem checkWrite_readOnly (h5 : r.table.toNat = 5) :
    checkWrite b r = .error ⟨r.table, .readOnly, some r.first.toNat, []⟩ := by
  simp only [checkWrite, h, hi]
  rw [if_pos h5, plainReply]

theorem checkWrite_busy (h5 : r.table.toNat ≠ 5) (hs : b.saving ≠ none) :
    checkWrite b r = .error ⟨r.table, .busy, some r.first.toNat, []⟩ := by
  simp only [checkWrite, h, hi]
  rw [if_neg h5, if_pos (Option.isSome_iff_ne_none.2 hs), plainReply]

theorem checkWrite_locked (hc : 1 ≤ r.count.toNat) (h5 : r.table.toNat ≠ 5) (hs : b.saving = none)
    (hl : lockAllows b r.table.toNat r.entries r.first.toNat = false) :
    checkWrite b r = .error ⟨r.table, if r.table.toNat = 10 then .notHeld else .inUse, some r.first.toNat, []⟩ := by
  obtain ⟨rest, hb⟩ := burst_cons (first := r.first.toNat) hc
  simp [checkWrite, h, hi, h5, hs, hb, hl, plainReply]

theorem checkWrite_length (h5 : r.table.toNat ≠ 5) (hs : b.saving = none)
    (hl : ∀ i, lockAllows b r.table.toNat r.entries i = true)
    (hn : r.entries.length ≠ r.count.toNat * entrySize r.table.toNat) :
    checkWrite b r = .error ⟨r.table, .badValue, none, []⟩ := by
  have unlocked : (burst r.first.toNat r.count.toNat).find? (fun i => !lockAllows b r.table.toNat r.entries i) = none := by
    rw [List.find?_eq_none]
    intro i _
    simp [hl i]
  simp [checkWrite, h, hi, h5, hs, unlocked, hn, plainReply]

end

theorem atRest_iff {st : PState} : st.atRest = true ↔ st = .off ∨ st = .isolated ∨ st = .absent := by
  cases st <;> simp [PState.atRest]

/-- Settles O49. -/
theorem refusedWritesChangeNothing : Obligations.RefusedWritesChangeNothing := by
  intro s r hr
  have hc := mgmtFrame_count hr.1.2.1
  refine ⟨fun rp he => ?_, checkWrite_badTable, fun size hs => ⟨fun ho => ?_, fun hf ho => ?_, fun hin => ?_⟩⟩
  · have refused : runWrite r s.block = (s.block, some rp) := by rw [runWrite, he]
    refine ⟨_, exec_ran (c := .write r) rfl hr (by rw [refused]), ?_⟩
    simp only [refused]
    rfl
  · exact checkWrite_outside hs (by rw [indexOutside, if_pos ho])
  · exact checkWrite_outside hs (by rw [indexOutside, if_neg (by omega), if_pos ho])
  · have hi := indexOutside_inside hc hin
    refine ⟨fun h5 => checkWrite_readOnly hs hi (by rw [h5]; rfl),
      fun h5 hb => checkWrite_busy hs hi (fun h => h5 (BitVec.eq_of_toNat_eq h)) hb, fun hn => ⟨fun ht hh => ?_, fun ht hp => ?_, fun p ht hp h₁ h₂ h₃ => ?_, fun ht hlen => ?_⟩⟩
    · have hl : lockAllows s.block r.table.toNat r.entries r.first.toNat = false := by
        rw [ht]
        exact hh
      simpa [ht] using checkWrite_locked hs hi hc (by rw [ht]; decide) hn hl
    · obtain ⟨p, hp⟩ := hp
      have found : (Pos.all.all fun p => (s.block.works.eng.at p).st != .starting) = false := by
        rw [List.all_eq_false]
        exact ⟨p, Pos.mem_all p, by simpa using hp⟩
      rcases ht with ht | ht <;> simpa [ht] using checkWrite_locked hs hi hc (by rw [ht]; decide) hn (by rw [ht]; exact found)
    · have hl : lockAllows s.block r.table.toNat r.entries r.first.toNat = false := by
        rw [ht]
        show (Pos.ofNat? r.first.toNat).all _ = false
        rw [hp]
        exact Bool.eq_false_iff.2 fun hr => by simp_all [atRest_iff]
      simpa [ht] using checkWrite_locked hs hi hc (by rw [ht]; decide) hn hl
    · rcases ht with ht | ht | ht <;>
        exact checkWrite_length hs hi (by rw [ht]; decide) hn (fun i => by rw [ht]; rfl) hlen

/-! ## COMMIT (R177, R178) -/

/-- A COMMIT acts on the works alone and answers without entries. -/
theorem runCommit_answers (r : MgmtReq) (b : Block) :
    (runCommit r b).1 = { b with works := (runCommit r b).1.works } ∧
      ∃ status failing, (runCommit r b).2 = some (plainReply r.table status failing) := by
  unfold runCommit
  iterate 3
    split
    · exact ⟨rfl, _, _, rfl⟩
  split
  · exact ⟨rfl, _, _, rfl⟩
  · split <;> exact ⟨rfl, _, _, rfl⟩

section
variable {r : MgmtReq} {b : Block}

theorem runCommit_badTable (h : r.table.toNat ≠ 4) : runCommit r b = (b, some (plainReply r.table .badTable none)) := by
  rw [runCommit, if_pos h]

variable (h : r.table.toNat = 4)
include h

theorem runCommit_busy (hs : b.saving ≠ none) : runCommit r b = (b, some (plainReply r.table .busy none)) := by
  rw [runCommit, if_neg (Classical.not_not.2 h), if_pos (Option.isSome_iff_ne_none.2 hs)]

variable (hs : b.saving = none)
include hs

theorem runCommit_again (hp : b.works.commitPending = true) :
    runCommit r b = (b, some (plainReply r.table .pending none)) := by
  simp [runCommit, h, hs, hp]

variable (hp : b.works.commitPending = false)
include hp

theorem runCommit_incomplete {i : Nat} (hi : firstUndefined b.works.tab.t4.toList = some i) :
    runCommit r b = (b, some (plainReply r.table .incomplete (some i))) := by
  simp [runCommit, h, hs, hp, hi]

theorem runCommit_now (hi : firstUndefined b.works.tab.t4.toList = none) (hst : steady b.works.eng = true) :
    runCommit r b = (b.onWorks commitNow, some (plainReply r.table .ok none)) := by
  simp [runCommit, h, hs, hp, hi, hst]

theorem runCommit_later (hi : firstUndefined b.works.tab.t4.toList = none) (hst : steady b.works.eng = false) :
    runCommit r b =
      ({ b with works := { b.works with commitPending := true } }, some (plainReply r.table .pending none)) := by
  simp [runCommit, h, hs, hp, hi, hst]

end

theorem firstUndefined_none {α : Type} {n : Nat} {v : Vector (Option α) n} (h : ∀ i : Nat, v[i]? ≠ some none) :
    firstUndefined v.toList = none := by
  rw [firstUndefined, List.findIdx?_eq_none_iff]
  intro x hx
  obtain ⟨i, hi⟩ := List.getElem?_of_mem hx
  cases x
  · exact absurd (by simpa using hi) (h i)
  · rfl

theorem firstUndefined_some {α : Type} {n : Nat} {v : Vector (Option α) n} {i : Nat} (h : v[i]? = some none)
    (hb : ∀ j : Nat, j < i → v[j]? ≠ some none) : firstUndefined v.toList = some i := by
  have hi : i < v.toList.length := by
    have := (Vector.getElem?_eq_some_iff.1 h).1
    simpa using this
  rw [firstUndefined, List.findIdx?_eq_some_iff_getElem]
  refine ⟨hi, ?_, fun j hj => ?_⟩
  · have hv := (Vector.getElem?_eq_some_iff.1 h).2
    simp [hv]
  · have hjn : j < n := by
      have : v.toList.length = n := by simp
      omega
    have hne := hb j hj
    rw [Vector.getElem?_eq_getElem hjn] at hne
    cases hx : v[j] with
    | none => exact absurd (congrArg some hx) hne
    | some x => simp [hx]

/-- A commit copies T4 to T5, withdraws the mark and leaves the demand (R178). -/
theorem commitNow_applies (w : Works) : (commitNow w).tab = { w.tab with t5 := w.tab.t4 } ∧
    (commitNow w).commitPending = false ∧ (commitNow w).eng.res.demand = w.eng.res.demand := by
  have hc := closeEventWith_closes none true w (applyCommit w)
  obtain ⟨htab, hpending⟩ := hc.kept rfl
  exact ⟨htab, hpending, hc.eng.res.demand.trans (afterCommit_kept ..).demand⟩

/-- Settles O52. -/
theorem commitIsDecidedInOrder : Obligations.CommitIsDecidedInOrder := by
  refine ⟨fun s r h => ?_, fun s hp => ?_⟩
  · obtain ⟨works, status, failing, reply⟩ := runCommit_answers r s.block
    have tells : ∀ {b st f}, runCommit r s.block = (b, some (plainReply r.table st f)) →
        status = st ∧ failing = f ∧ (runCommit r s.block).1.works = b.works := fun he => by
      rw [he] at reply ⊢
      cases reply
      exact ⟨rfl, rfl, rfl⟩
    refine ⟨_, plainReply r.table status failing,
      (exec_ran (c := .commit r) rfl h (by rw [works])).trans (by rw [reply]), rfl, rfl, rfl, ?_, ?_, ?_, ?_, ?_, ?_, ?_⟩
    · simp only [State.nv]
      rw [works]
    · simp only [State.hours]
      rw [works]
    · rw [works]
    · exact fun ht => tells (runCommit_badTable fun hn => ht (BitVec.eq_of_toNat_eq hn))
    · exact fun ht hb => tells (runCommit_busy (congrArg BitVec.toNat ht) hb)
    · exact fun ht hs hc => tells (runCommit_again (congrArg BitVec.toNat ht) hs hc)
    · intro ht hs hc
      have h4 : r.table.toNat = 4 := congrArg BitVec.toNat ht
      refine ⟨fun i hi hb => tells (runCommit_incomplete h4 hs hc (firstUndefined_some hi hb)), fun hd hst => ?_,
        fun hd hst => tells (runCommit_later h4 hs hc (firstUndefined_none hd) hst)⟩
      obtain ⟨hstatus, hfailing, hworks⟩ := tells (runCommit_now h4 hs hc (firstUndefined_none hd) hst)
      refine ⟨hstatus, hfailing, ?_⟩
      simp only [State.tab, State.res, State.eng, hworks]
      exact commitNow_applies _
  · unfold exec execCommitApplication
    refine ⟨_, answer_powered hp, fun hc hs => ?_, fun h => ?_⟩
    · have now : commitApplies s.block.works = commitNow s.block.works := by simp [commitApplies, hc, hs]
      simp only [State.tab, State.res, State.eng, Block.onWorks_works, now]
      exact commitNow_applies _
    · have same : commitApplies s.block.works = s.block.works := by
        rcases h with h | h <;> simp [commitApplies, h]
      simp only [Block.onWorks, same]

end Sys2Proof.Machine
end

section
/-! SUPPORT. The statement on READ: the layouts of the entries and what a burst returns. -/

namespace Sys2Proof.Machine

/-! ## Layouts (R187) -/

/-- The bytes of each table's fields, as the layouts of the statement write them. -/
theorem entryLayouts : EntryLayouts := by
  refine ⟨fun _ => rfl, fun _ => rfl, fun _ => rfl, fun _ => rfl, fun x => ?_, fun _ => rfl, fun _ => rfl, fun x => ?_,
    fun _ => rfl, fun x => ?_, fun x => ?_⟩
  · rfl
  · obtain ⟨kind, threshold, timeLimitS, onLimit, retries, retryRestS, report, next⟩ := x
    cases kind <;> cases onLimit <;> rfl
  · obtain ⟨enabled, ⟨a, b, c, d⟩, quantity, sense, threshold, minRpm, persistMs, action, deratePct⟩ := x
    have marks : a.toNat + 2 * b.toNat + 4 * c.toNat + 8 * d.toNat =
        (if a then 1 else 0) + (if b then 2 else 0) + (if c then 4 else 0) + (if d then 8 else 0) := by
      cases a <;> cases b <;> cases c <;> cases d <;> rfl
    simp only [ProtEntry.bytes, marks]
    cases quantity <;> cases sense <;> cases action <;> rfl
  · obtain ⟨enabled, kind, group, action⟩ := x
    cases kind <;> cases action <;> rfl

/-! ## One entry read (R176) -/

theorem markedBytes_length {size : Nat} {bytes : Option (List Byte)} (h : ∀ l, bytes = some l → l.length = size) :
    (markedBytes size bytes).length = 1 + size := by
  cases bytes with
  | none => simp [markedBytes, Nat.add_comm]
  | some l => simp [markedBytes, h l rfl, Nat.add_comm]

theorem markedBytes_map {α : Type} {size : Nat} {x : Option α} {f : α → List Byte} (h : ∀ y, (f y).length = size) :
    (markedBytes size (x.map f)).length = 1 + size :=
  markedBytes_length fun l hl => by
    obtain ⟨y, -, rfl⟩ := Option.map_eq_some_iff.1 hl
    exact h y

theorem readOut_length (b : Block) (table i : Nat) : (readOut b table i).length = 1 + entrySize table := by
  unfold readOut
  simp only
  split
  · exact markedBytes_map fun x => by simp [UnitParams.bytes, be16, entrySize]
  · refine markedBytes_length fun l hl => ?_
    obtain ⟨p, -, hp⟩ := Option.bind_eq_some_iff.1 hl
    obtain ⟨x, -, rfl⟩ := Option.map_eq_some_iff.1 hp
    rfl
  · exact markedBytes_map fun x => by simp [Profile.bytes, be16, entrySize]
  · exact markedBytes_map fun x => by simp [SchedEntry.bytes, be16, entrySize]
  · exact markedBytes_map fun x => by simp [SchedEntry.bytes, be16, entrySize]
  · exact markedBytes_map fun x => by simp [StepRec.bytes, be16, beInt16, entrySize]
  · exact markedBytes_map fun x => by simp [SelectEntry.bytes, entrySize]
  · exact markedBytes_map fun x => by simp [ProtEntry.bytes, be16, beInt16, entrySize]
  · exact markedBytes_map fun x => by simp [DispEntry.bytes, entrySize]
  · exact markedBytes_map fun p => by simp [be32, be16, entrySize]
  · exact markedBytes_length nofun

/-! ## The burst -/

section
variable {r : MgmtReq} {b : Block}

theorem runRead_badTable (h : tableSize r.table.toNat = none) :
    runRead r b = (b, some (plainReply r.table .badTable none)) := by
  simp [runRead, h]

theorem runRead_outside {size i : Nat} (h : tableSize r.table.toNat = some size)
    (hi : indexOutside size r.first.toNat r.count.toNat = some i) :
    runRead r b = (b, some (plainReply r.table .badIndex (some i))) := by
  simp [runRead, h, hi]

theorem runRead_inside {size : Nat} (h : tableSize r.table.toNat = some size)
    (hi : indexOutside size r.first.toNat r.count.toNat = none) :
    runRead r b =
      (b, some ⟨r.table, .ok, none, (burst r.first.toNat r.count.toNat).map (readOut b r.table.toNat)⟩) := by
  simp [runRead, h, hi]

end

theorem indexOutside_past {size first count : Nat} (h : size < first + count) :
    indexOutside size first count = some (max size first) := by
  rw [indexOutside, if_pos h]
  split
  next hf => rw [Nat.max_eq_right hf]
  next hf => rw [Nat.max_eq_left (by omega)]

theorem burst_getElem? {first count k : Nat} (h : k < count) : (burst first count)[k]? = some (first + k) := by
  simp [burst, h]

/-- Settles O51. -/
theorem readReturnsTheEntries : Obligations.ReadReturnsTheEntries := by
  refine ⟨fun s r hr => ?_, entryLayouts⟩
  have hc := mgmtFrame_count hr.1.2.1
  have runs : ∀ {rp}, runRead r s.block = (s.block, some rp) → ∃ t, exec (.read r) s = .next t ∧
      t.block = { s.block with relay := s.relay.answered 2 r rp } := fun he => by
    refine ⟨_, exec_ran (c := .read r) rfl hr (by rw [he]), ?_⟩
    simp only [he]
    rfl
  refine ⟨fun h => runs (runRead_badTable h), fun size h => ⟨fun ho => runs (runRead_outside h (indexOutside_past ho)),
    fun hin => ?_⟩⟩
  obtain ⟨t, ht, hb⟩ := runs (runRead_inside h (indexOutside_inside hc hin))
  have entry : ∀ {k : Nat}, k < r.count.toNat →
      ((burst r.first.toNat r.count.toNat).map (readOut s.block r.table.toNat))[k]? =
        some (readOut s.block r.table.toNat (r.first.toNat + k)) := fun hk => by
    rw [List.getElem?_map, burst_getElem? hk]
    rfl
  refine ⟨t, _, ht, hb, by simp [burst], fun k bytes he => ?_, fun k x hk h4 hx => ?_, fun k hk h4 hx => ?_,
    fun k p hk h10 hp => ?_, fun k hk => ⟨fun h1 => ?_, fun p h2 hp => ?_, fun y h3 hy => ?_, fun y h5 hy => ?_,
    fun y h6 hy => ?_, fun y h7 hy => ?_, fun y h8 hy => ?_, fun y h9 hy => ?_⟩⟩
  · obtain ⟨i, -, rfl⟩ := List.mem_map.1 (List.mem_of_getElem? he)
    exact readOut_length ..
  · rw [entry hk, h4]
    simp [readOut, hx, markedBytes]
  · rw [entry hk, h4]
    simp [readOut, hx, markedBytes, entrySize]
  · rw [entry hk, h10]
    simp [readOut, hp, markedBytes, Block.meter]
  · rw [entry hk, h1]
    cases hx : s.tab.t1 <;> simp [readOut, hx, markedBytes, entrySize]
  · rw [entry hk, h2]
    cases hx : s.tab.t2.get p <;> simp [readOut, hp, hx, markedBytes, entrySize]
  · rw [entry hk, h3]
    cases y <;> simp [readOut, hy, markedBytes, entrySize]
  · rw [entry hk, h5]
    cases y <;> simp [readOut, hy, markedBytes, entrySize]
  · rw [entry hk, h6]
    cases y <;> simp [readOut, hy, markedBytes, entrySize]
  · rw [entry hk, h7]
    cases y <;> simp [readOut, hy, markedBytes, entrySize]
  · rw [entry hk, h8]
    cases y <;> simp [readOut, hy, markedBytes, entrySize]
  · rw [entry hk, h9]
    cases y <;> simp [readOut, hy, markedBytes, entrySize]

end Sys2Proof.Machine
end

section
/-! SUPPORT. The statements on the run-hour meters. -/

namespace Sys2Proof.Machine

/-! ## One meter (R64, R65) -/

/-- One meter and its cell replaced. -/
def Block.putMeter (b : Block) (p : Pos) (m : Meter) (cell : Option Nat) : Block :=
  { b.setMeter p m with nv := { b.nv with meters := b.nv.meters.set p cell } }

theorem putMeter_same (b : Block) (p : Pos) : b.putMeter p (b.meter p) (b.nv.meters.get p) = b := by
  have eng : b.works.eng.modify p (fun x => { x with meter := b.meter p }) = b.works.eng := Engine.put_at _ p
  simp [Block.putMeter, Block.setMeter, eng]

theorem setMeter_eq (b : Block) (p : Pos) (m : Meter) : b.setMeter p m = b.putMeter p m (b.nv.meters.get p) := by
  simp [Block.putMeter, Block.setMeter]

theorem writeMeter_eq (b : Block) (p : Pos) (m : Meter) : b.writeMeter p m = b.putMeter p m (some m.value) := rfl

/-- A meter after a second counted (R64). -/
def Meter.counted (m : Meter) (hold : Bool) : Meter :=
  if 359 ≤ m.acc then m.rollover hold else { m with acc := m.acc + 1 }

/-- The cell of a meter: written where the meter's value changes. -/
def cellAfter (m m' : Meter) (cell : Option Nat) : Option Nat := if m'.value = m.value then cell else some m'.value

theorem rolloverAt_eq (p : Pos) (b : Block) :
    rolloverAt p b = b.putMeter p ((b.meter p).rollover b.hours.hold)
      (cellAfter (b.meter p) ((b.meter p).rollover b.hours.hold) (b.nv.meters.get p)) := by
  unfold rolloverAt cellAfter
  simp only
  split
  · exact setMeter_eq ..
  · exact writeMeter_eq ..

theorem tickAt_idle {p : Pos} {b : Block} (h : counts b.works.tab p (b.works.eng.at p) = false) : tickAt p b = b := by
  simp [tickAt, h]

theorem tickAt_counts {p : Pos} {b : Block} (h : counts b.works.tab p (b.works.eng.at p) = true) :
    tickAt p b = b.putMeter p ((b.meter p).counted b.hours.hold)
      (cellAfter (b.meter p) ((b.meter p).counted b.hours.hold) (b.nv.meters.get p)) := by
  simp only [tickAt, h, if_true, Meter.counted]
  split
  · exact rolloverAt_eq p b
  · rw [setMeter_eq, cellAfter, if_pos rfl]

theorem applyPendingAt_idle {p : Pos} {b : Block} (h : (b.meter p).pendingInc = false) : applyPendingAt p b = b := by
  simp [applyPendingAt, h]

theorem applyPendingAt_pending {p : Pos} {b : Block} (h : (b.meter p).pendingInc = true) :
    applyPendingAt p b = b.putMeter p (b.meter p).applyPending (some (b.meter p).applyPending.value) := by
  simp [applyPendingAt, h, writeMeter_eq]

/-! ## The meters of all positions -/

/-- An operation on the meter of one position. -/
def MetersOnly (f : Pos → Block → Block) : Prop := ∀ p b, ∃ m c, f p b = b.putMeter p m c

theorem tickAt_metersOnly : MetersOnly tickAt := fun p b => by
  cases h : counts b.works.tab p (b.works.eng.at p)
  · exact ⟨_, _, (tickAt_idle h).trans (putMeter_same b p).symm⟩
  · exact ⟨_, _, tickAt_counts h⟩

theorem applyPendingAt_metersOnly : MetersOnly applyPendingAt := fun p b => by
  cases h : (b.meter p).pendingInc
  · exact ⟨_, _, (applyPendingAt_idle h).trans (putMeter_same b p).symm⟩
  · exact ⟨_, _, applyPendingAt_pending h⟩

/-- A block as another one at the meter of one position. -/
structure Block.SameMeter (p : Pos) (b b' : Block) : Prop where
  tab : b'.works.tab = b.works.tab
  hours : b'.hours = b.hours
  pos : b'.works.eng.at p = b.works.eng.at p
  cell : b'.nv.meters.get p = b.nv.meters.get p

theorem Block.SameMeter.refl (p : Pos) (b : Block) : b.SameMeter p b := ⟨rfl, rfl, rfl, rfl⟩

theorem Block.SameMeter.trans {p : Pos} {a b c : Block} (h₁ : a.SameMeter p b) (h₂ : b.SameMeter p c) : a.SameMeter p c :=
  ⟨h₂.tab.trans h₁.tab, h₂.hours.trans h₁.hours, h₂.pos.trans h₁.pos, h₂.cell.trans h₁.cell⟩

theorem putMeter_other {p q : Pos} (h : q ≠ p) (b : Block) (m : Meter) (c : Option Nat) :
    b.SameMeter q (b.putMeter p m c) :=
  ⟨rfl, rfl, Engine.at_modify_other _ _ h, Four.get_set_other _ _ h⟩

theorem MetersOnly.other {f : Pos → Block → Block} (hf : MetersOnly f) {p q : Pos} (h : q ≠ p) (b : Block) :
    b.SameMeter q (f p b) := by
  obtain ⟨m, c, he⟩ := hf p b
  rw [he]
  exact putMeter_other h b m c

/-- One position of a round over all positions: the operation finds and leaves its meter as its own turn has it. -/
theorem MetersOnly.turn {f : Pos → Block → Block} (hf : MetersOnly f) (b : Block) (p : Pos) :
    ∃ b', b.SameMeter p b' ∧ (f p b').SameMeter p (b.eachPos f) := by
  cases p
  · exact ⟨b, .refl .., ((hf.other (by decide) _).trans (hf.other (by decide) _)).trans (hf.other (by decide) _)⟩
  · exact ⟨f .A b, hf.other (by decide) _, (hf.other (by decide) _).trans (hf.other (by decide) _)⟩
  · exact ⟨f .B (f .A b), (hf.other (by decide) _).trans (hf.other (by decide) _), hf.other (by decide) _⟩
  · exact ⟨f .C (f .B (f .A b)), ((hf.other (by decide) _).trans (hf.other (by decide) _)).trans (hf.other (by decide) _),
      .refl ..⟩

/-- A block with other positions and meter cells. -/
def Block.MetersAlone (b b' : Block) : Prop :=
  ∃ pos meters, b' = { b with works := { b.works with eng := { b.works.eng with pos := pos } }
                              nv := { b.nv with meters := meters } }

theorem Block.MetersAlone.trans {a b c : Block} (h₁ : a.MetersAlone b) (h₂ : b.MetersAlone c) : a.MetersAlone c := by
  obtain ⟨pos, meters, rfl⟩ := h₁
  obtain ⟨pos', meters', rfl⟩ := h₂
  exact ⟨pos', meters', rfl⟩

/-- What a round over all meters leaves of a block. -/
theorem MetersOnly.round {f : Pos → Block → Block} (hf : MetersOnly f) (b : Block) : b.MetersAlone (b.eachPos f) := by
  have one : ∀ p b, Block.MetersAlone b (f p b) := fun p b => by
    obtain ⟨m, c, he⟩ := hf p b
    rw [he]
    exact ⟨_, _, rfl⟩
  exact (((one .A b).trans (one .B _)).trans (one .C _)).trans (one .D _)

/-! ## Run hours (R64) -/

theorem counts_iff {T : Tables} {p : Pos} {x : Position} : counts T p x = true ↔
    x.st ≠ .absent ∧ ∃ pr, T.profile p = some pr ∧ pr.runningRpm ≤ x.pickup.speed := by
  unfold counts
  cases T.profile p <;> simp

/-- The meter and the cell of a position after a tick. -/
theorem tick_at (b : Block) (p : Pos) :
    (counts b.works.tab p (b.works.eng.at p) = false →
      ((b.eachPos tickAt).works.eng.at p).meter = b.meter p ∧ (b.eachPos tickAt).nv.meters.get p = b.nv.meters.get p) ∧
    (counts b.works.tab p (b.works.eng.at p) = true →
      ((b.eachPos tickAt).works.eng.at p).meter = (b.meter p).counted b.hours.hold ∧
      (b.eachPos tickAt).nv.meters.get p =
        cellAfter (b.meter p) ((b.meter p).counted b.hours.hold) (b.nv.meters.get p)) := by
  obtain ⟨b', before, after⟩ := tickAt_metersOnly.turn b p
  have meter : b'.meter p = b.meter p := congrArg Position.meter before.pos
  have same : counts b'.works.tab p (b'.works.eng.at p) = counts b.works.tab p (b.works.eng.at p) := by
    rw [before.tab, before.pos]
  rw [after.pos, after.cell]
  refine ⟨fun h => ?_, fun h => ?_⟩
  · rw [tickAt_idle (same.trans h), before.cell]
    exact ⟨meter, rfl⟩
  · rw [tickAt_counts (same.trans h), before.hours, meter, before.cell]
    exact ⟨by simp [Block.putMeter, Block.setMeter], by simp [Block.putMeter]⟩

theorem counted_below {m : Meter} (h : m.acc < 359) (hold : Bool) : m.counted hold = { m with acc := m.acc + 1 } := by
  rw [Meter.counted, if_neg (by omega)]

theorem counted_held {m : Meter} (h : 359 ≤ m.acc) : m.counted true = ⟨m.value, 0, true⟩ := by
  rw [Meter.counted, if_pos h]
  rfl

theorem counted_free {m : Meter} (h : 359 ≤ m.acc) : m.counted false = ⟨min (m.value + 1) 999999, 0, m.pendingInc⟩ := by
  rw [Meter.counted, if_pos h]
  rfl

theorem cellAfter_same {m m' : Meter} (h : m'.value = m.value) (cell : Option Nat) : cellAfter m m' cell = cell := if_pos h

/-- What a second counted makes of a meter and its cell (R64). -/
structure SecondCounted (hold : Bool) (m m' : Meter) (cell cell' : Option Nat) : Prop where
  below : m.acc < 359 → m' = { m with acc := m.acc + 1 } ∧ cell' = cell
  held : 359 ≤ m.acc → hold = true → m' = ⟨m.value, 0, true⟩ ∧ cell' = cell
  free : 359 ≤ m.acc → hold = false → m' = ⟨min (m.value + 1) 999999, 0, m.pendingInc⟩ ∧
    (m'.value = m.value → cell' = cell) ∧ (m'.value ≠ m.value → cell' = some m'.value)

theorem counted_spec (hold : Bool) (m : Meter) (cell : Option Nat) :
    SecondCounted hold m (m.counted hold) cell (cellAfter m (m.counted hold) cell) := by
  refine ⟨fun h => ?_, fun h hh => ?_, fun h hh => ?_⟩
  · rw [counted_below h]
    exact ⟨rfl, cellAfter_same rfl cell⟩
  · rw [hh, counted_held h]
    exact ⟨rfl, cellAfter_same rfl cell⟩
  · rw [hh, counted_free h]
    exact ⟨rfl, fun hv => cellAfter_same hv cell, fun hv => if_neg hv⟩

theorem hourTick_nv (b : Block) : (hourTick b).nv = (b.eachPos tickAt).nv := by
  simp only [hourTick]

theorem hourTick_hours (b : Block) :
    (hourTick b).hours = { b.hours with tickT := b.hours.tickT.again b.works.eng.now (sec 1) } := by
  obtain ⟨pos, meters, he⟩ := tickAt_metersOnly.round b
  simp only [hourTick, he]

theorem SameMeter.counts_eq {a b : Block} {p : Pos} (h : a.SameMeter p b) :
    counts b.works.tab p (b.works.eng.at p) = counts a.works.tab p (a.works.eng.at p) := by
  rw [h.tab, h.pos]

section
variable {s t : State} {b : Block} {p : Pos} (hb : s.block.SameMeter p b) (ht : t.block = hourTick b)
include hb ht

/-- A tick leaves the meter of a position that does not count. -/
theorem ticked_idle (h : counts s.tab p (s.pos p) = false) :
    (t.pos p).meter = (s.pos p).meter ∧ t.nv.meters.get p = s.nv.meters.get p := by
  rw [State.pos, State.eng, State.nv, ht, hourTick_works, hourTick_nv]
  obtain ⟨meter, cell⟩ := (tick_at b p).1 ((SameMeter.counts_eq hb).trans h)
  exact ⟨meter.trans (congrArg Position.meter hb.pos), cell.trans hb.cell⟩

/-- A second counted at one position of a tick. -/
theorem ticked_counted (h : counts s.tab p (s.pos p) = true) :
    SecondCounted s.hours.hold (s.pos p).meter (t.pos p).meter (s.nv.meters.get p) (t.nv.meters.get p) := by
  obtain ⟨meter, cell⟩ := (tick_at b p).2 ((SameMeter.counts_eq hb).trans h)
  have same : b.meter p = (s.pos p).meter := congrArg Position.meter hb.pos
  have meter' : (t.pos p).meter = (s.pos p).meter.counted s.hours.hold := by
    rw [State.pos, State.eng, ht, hourTick_works, meter, same, hb.hours]
  have cell' : t.nv.meters.get p = cellAfter (s.pos p).meter ((s.pos p).meter.counted s.hours.hold) (s.nv.meters.get p) := by
    rw [State.nv, ht, hourTick_nv, cell, same, hb.hours, hb.cell]
  rw [meter', cell']
  exact counted_spec ..

end

/-- The tick of a running clock (R64). -/
theorem exec_runHourTick {s : State} {since period : Nat} (hp : s.block.powered = true)
    (ht : s.hours.tickT = .running since period) : ∃ t b, exec .runHourTick s = .next t ∧ t.block = hourTick b ∧
      ∀ p, s.block.SameMeter p b := by
  have ticked := answer_powered (f := fun b => b.expiry b.hours.tickT hourTick) hp
  rw [expiry_running ht] at ticked
  exact ⟨_, { s.block with works := s.block.works.atTime (max s.eng.now (since + period)) }, ticked, rfl,
    fun _ => ⟨rfl, rfl, rfl, rfl⟩⟩

/-! ## A roll-over taken by itself (R64, log 6) -/

theorem meterIncrement_due {p : Pos} {b : Block} (h : counts b.works.tab p (b.works.eng.at p) = true)
    (ha : 359 ≤ (b.meter p).acc) : meterIncrement p b = b.putMeter p ((b.meter p).counted b.hours.hold)
      (cellAfter (b.meter p) ((b.meter p).counted b.hours.hold) (b.nv.meters.get p)) := by
  rw [meterIncrement, if_pos ⟨h, ha⟩, rolloverAt_eq, Meter.counted, if_pos ha]

theorem meterIncrement_notDue {p : Pos} {b : Block}
    (h : counts b.works.tab p (b.works.eng.at p) = false ∨ (b.meter p).acc < 359) : meterIncrement p b = b := by
  rw [meterIncrement, if_neg]
  rintro ⟨hc, ha⟩
  rcases h with h | h
  · rw [h] at hc
    cases hc
  · omega

theorem meterIncrement_counted {p : Pos} {b : Block} {t : State} (ht : t.block = meterIncrement p b)
    (h : counts b.works.tab p (b.works.eng.at p) = true) (ha : 359 ≤ (b.meter p).acc) :
    SecondCounted b.hours.hold (b.meter p) (t.pos p).meter (b.nv.meters.get p) (t.nv.meters.get p) := by
  rw [State.pos, State.eng, State.nv, ht, meterIncrement_due h ha]
  have spec := counted_spec b.hours.hold (b.meter p) (b.nv.meters.get p)
  simpa [Block.putMeter, Block.setMeter] using spec

theorem meterIncrement_hours (p : Pos) (b : Block) : (meterIncrement p b).hours = b.hours := by
  unfold meterIncrement
  split
  · rw [rolloverAt_eq]
    rfl
  · rfl

theorem meterIncrement_nv {p : Pos} {b : Block} (h : counts b.works.tab p (b.works.eng.at p) = true)
    (ha : 359 ≤ (b.meter p).acc) (hh : b.hours.hold = true) : (meterIncrement p b).nv = b.nv := by
  rw [meterIncrement_due h ha, hh, counted_held ha]
  simp [Block.putMeter, cellAfter]

/-- Settles O41. -/
theorem runHoursAccumulate : Obligations.RunHoursAccumulate := by
  intro s hp
  refine ⟨fun p => counts_iff, fun since period ht => ?_, fun p => ?_⟩
  · obtain ⟨t, b, he, hb, same⟩ := exec_runHourTick hp ht
    refine ⟨t, he, ?_, fun p => ⟨fun hc => ticked_idle (same p) hb hc, fun hc => (ticked_counted (same p) hb hc).below,
      fun hc => (ticked_counted (same p) hb hc).held, fun hc ha hh => ?_⟩⟩
    · rw [State.hours, hb, hourTick_hours, (same .A).hours]
      simp only [State.hours] at ht ⊢
      rw [ht]
      rfl
    · obtain ⟨meter, kept, written⟩ := (ticked_counted (same p) hb hc).free ha hh
      refine ⟨meter, ?_⟩
      split
      next hv => exact kept hv
      next hv => exact written hv
  · obtain ⟨t, he, hb, hpending⟩ : ∃ t, exec (.meterIncrement p) s = .next t ∧ t.block = meterIncrement p s.block ∧
        t.pending = s.pending := ⟨_, answer_powered hp, rfl, rfl⟩
    refine ⟨t, he, by rw [State.hours, hb, meterIncrement_hours], fun h => ?_, fun hc ha => ?_⟩
    · rw [meterIncrement_notDue h] at hb
      cases t
      cases hb
      cases hpending
      rfl
    · have counted := meterIncrement_counted hb hc ha
      refine ⟨?_, fun hh => ⟨?_, ?_, ?_⟩, fun hh => ⟨?_, ?_, fun hv => ?_⟩, fun q hq => ?_⟩
      · cases hh : s.hours.hold
        · rw [(counted.free ha hh).1]
        · rw [(counted.held ha hh).1]
      · rw [(counted.held ha hh).1]
      · rw [(counted.held ha hh).1]
        rfl
      · rw [State.nv, hb, meterIncrement_nv hc ha hh]
      · rw [(counted.free ha hh).1]
        rfl
      · rw [(counted.free ha hh).1]
        rfl
      · exact (counted.free ha hh).2.2 hv
      · have other : s.block.SameMeter q t.block := by
          rw [hb, meterIncrement_due hc ha]
          exact putMeter_other hq ..
        exact ⟨other.pos, other.cell⟩

/-! ## The hour hold (R65, R181) -/

/-- What the end of a hold makes of one position and its cell. -/
structure PendingApplied (x x' : Position) (cell cell' : Option Nat) : Prop where
  idle : x.meter.pendingInc = false → x' = x ∧ cell' = cell
  due : x.meter.pendingInc = true →
    x' = { x with meter := ⟨min (x.meter.value + 1) 999999, x.meter.acc, false⟩ } ∧
      cell' = some (min (x.meter.value + 1) 999999)

theorem endHold_nv (b : Block) : (endHold b).nv = (b.eachPos applyPendingAt).nv := rfl

theorem applyPending_due {m : Meter} (h : m.pendingInc = true) :
    m.applyPending = ⟨min (m.value + 1) 999999, m.acc, false⟩ := by
  rw [Meter.applyPending, if_pos h]
  rfl

theorem endHold_at (b : Block) (p : Pos) :
    PendingApplied (b.works.eng.at p) ((endHold b).works.eng.at p) (b.nv.meters.get p) ((endHold b).nv.meters.get p) := by
  obtain ⟨b', before, after⟩ := applyPendingAt_metersOnly.turn b p
  have meter : b'.meter p = (b.works.eng.at p).meter := congrArg Position.meter before.pos
  rw [endHold_works, endHold_nv, after.pos, after.cell]
  refine ⟨fun h => ?_, fun h => ?_⟩
  · rw [applyPendingAt_idle (by rw [meter, h])]
    exact ⟨before.pos, before.cell⟩
  · rw [applyPendingAt_pending (by rw [meter, h]), meter, applyPending_due h, ← before.pos]
    exact ⟨by simp [Block.putMeter, Block.setMeter], by simp [Block.putMeter]⟩

/-- The end of a hold leaves all but the positions, the meter cells and the hold. -/
theorem endHold_alone (b : Block) : ∃ pos meters,
    endHold b = { b with works := { b.works with eng := { b.works.eng with pos := pos } }
                         nv := { b.nv with meters := meters }
                         hours := { b.hours with hold := false, holdT := .stopped } } := by
  obtain ⟨pos, meters, he⟩ := applyPendingAt_metersOnly.round b
  exact ⟨pos, meters, by rw [endHold, he]⟩

/-- Settles O42. -/
theorem hourHoldBeginsAndEnds : Obligations.HourHoldBeginsAndEnds := by
  refine ⟨fun s r h => ⟨_, exec_ran (c := .holdHours r) rfl h rfl, rfl⟩, fun s r h => ?_, fun s since period hp ht => ?_⟩
  · have ran : ∀ {b : Block}, releaseHold s.block = b → b.relay = s.block.relay →
        ∃ t, exec (.releaseHours r) s = .next t ∧
          t.block = { b with relay := s.relay.answered 6 r ⟨r.table, .ok, none, []⟩ } := fun hb hrel =>
      ⟨_, exec_ran (c := .releaseHours r) rfl h (by rw [runRelease, hb, hrel]), by rw [runRelease, hb]; rfl⟩
    cases hh : s.hours.hold
    · have kept : releaseHold s.block = s.block := if_neg (by rw [show s.block.hours.hold = false from hh]; decide)
      obtain ⟨⟨block, pending⟩, he, hb⟩ := ran kept rfl
      cases hb
      exact ⟨_, he, rfl, rfl, rfl, rfl, rfl, rfl, rfl, fun _ => ⟨rfl, rfl, rfl⟩, nofun⟩
    · have ended : releaseHold s.block = endHold s.block := if_pos hh
      obtain ⟨pos, meters, alone⟩ := endHold_alone s.block
      obtain ⟨⟨block, pending⟩, he, hb⟩ := ran ended (by rw [alone])
      have parts := endHold_at s.block
      rw [alone] at hb parts
      cases hb
      exact ⟨_, he, rfl, rfl, rfl, rfl, rfl, rfl, rfl, nofun, fun _ => ⟨rfl, fun p => ⟨(parts p).idle, (parts p).due⟩⟩⟩
  · have ended := answer_powered (f := fun b => b.expiry b.hours.holdT endHold) hp
    rw [expiry_running ht] at ended
    have parts := endHold_at { s.block with works := s.block.works.atTime (max s.eng.now (since + period)) }
    obtain ⟨pos, meters, alone⟩ :=
      endHold_alone { s.block with works := s.block.works.atTime (max s.eng.now (since + period)) }
    rw [alone] at ended parts
    exact ⟨_, ended, rfl, rfl, rfl, rfl, rfl, rfl, rfl, rfl, rfl, fun p => ⟨(parts p).idle, (parts p).due⟩⟩

end Sys2Proof.Machine
end

section
/-! SUPPORT. The statements on the two resets and on POLL. -/

namespace Sys2Proof.Machine

/-! ## The two resets -/

theorem stateAtReset_eq (T : Tables) (cell : Option Bool) (p : Pos) :
    stateAtReset T cell p = if cell ≠ some false then .isolated else if T.present p then .off else .absent := by
  rcases cell with - | (- | -) <;> rfl

/-- A position comes up at rest, with the DRIVE content of OFF where it is OFF (R38, R104). -/
theorem positionAtReset_eq (T : Tables) (cells : Four (Option Bool)) (levels : Four Level) (meters : Four Nat) (p : Pos) :
    positionAtReset T cells levels meters p = Position.reset
      (if cells.get p ≠ some false then .isolated else if T.present p then .off else .absent)
      (if cells.get p ≠ some false ∨ T.present p = false then none else (T.profile p).map fun pr => ⟨pr.idleRpm, false, false⟩)
      (levels.get p) (meters.get p) := by
  rw [positionAtReset, stateAtReset_eq]
  rcases hc : cells.get p with - | (- | -) <;> cases hp : T.present p <;> cases hr : T.profile p <;>
    simp [Position.reset, driveContent, hr, Link.reset]

/-- Settles O6. -/
theorem powerOnLoadsTheImage : Obligations.PowerOnLoadsTheImage := by
  intro s up down levels
  refine ⟨_, rfl, rfl, rfl, rfl, rfl, fun i hi => ?_, fun hn => ?_, rfl, rfl, rfl, rfl, rfl, rfl, rfl, rfl, fun p => ?_⟩
  · show loadTables s.nv.image = _
    rw [hi]
    rfl
  · show loadTables s.nv.image = _
    rw [hn]
    rfl
  · refine (engineAtReset_at ..).trans ((positionAtReset_eq ..).trans ?_)
    rw [Four.get_make]
    rfl

theorem restart_passes {y : Relay} {r : MgmtReq} (ha : y.addressed r.target = true) (h14 : y.address ≤ 14) :
    r.target.toNat ≠ y.address ↔ r.target.toNat = 15 := by
  simp only [Relay.addressed, Bool.or_eq_true, beq_iff_eq] at ha
  omega

/-- The relay after RESTART, the request passed on (R154, R158). -/
theorem restart_relay (y : Relay) (r : MgmtReq) : y.restart.passDown (mgmtFrame 9 r) = { y.restart with
    downTx := if y.downCarrier = true then some (mgmtFrame 9 r) else none } := by
  cases hc : y.downCarrier
  · simp [Relay.passDown, Relay.restart, Relay.reset, hc]
  · rw [passDown_idle _ (by exact hc) rfl rfl]
    rfl

theorem exec_restart {s : State} {r : MgmtReq} (h : Taken 9 r s) (h14 : s.relay.address ≤ 14) :
    exec (.restart r) s = .next { s with block := { restartAll s.block with relay := { s.relay.restart with
      downTx := if r.target.toNat = 15 ∧ s.relay.downCarrier = true then some (mgmtFrame 9 r) else none } } } := by
  obtain ⟨⟨hp, hu⟩, hok, ha⟩ := h
  have passes := restart_passes ha h14
  have taken : mgmtFrameTaken opRestart r restartAll s.block = { restartAll s.block with relay := { s.relay.restart with
      downTx := if r.target.toNat = 15 ∧ s.relay.downCarrier = true then some (mgmtFrame 9 r) else none } } := by
    simp only [mgmtFrameTaken, fromUp_heard hu, opRestart, hok, ha, if_true, bne_iff_ne]
    by_cases h15 : r.target.toNat = 15
    · rw [if_pos (passes.2 h15)]
      simp only [h15, true_and]
      exact congrArg (fun y => { restartAll s.block with relay := y }) (restart_relay s.relay r)
    · rw [if_neg (fun h => h15 (passes.1 h))]
      simp only [h15, false_and, if_false]
      rfl
  unfold exec execRestart
  exact (answer_powered hp).trans (by rw [taken])

/-- Settles O7. -/
theorem restartKeepsTablesAddressAndMeters : Obligations.RestartKeepsTablesAddressAndMeters := by
  intro s r h h14
  refine ⟨_, exec_restart h h14, h.1.1, rfl, rfl, rfl, rfl, rfl, rfl, rfl, rfl, rfl, rfl, rfl, rfl, fun p => ?_⟩
  refine (engineAtReset_at ..).trans ((positionAtReset_eq ..).trans ?_)
  rw [Four.get_make, Four.get_make]

/-! ## STATUS (R167, R185) -/

theorem flagBits_cons (f : Bool) (rest : List Bool) : flagBits (f :: rest) = (if f then 1 else 0) + 2 * flagBits rest := by
  cases f <;> simp [flagBits]

theorem flagBits_nil : flagBits [] = 0 := rfl

theorem double_flag (c : Prop) [Decidable c] (n : Nat) : 2 * (if c then n else 0) = if c then 2 * n else 0 := by
  split <;> rfl

theorem unitFlags_eq (b : Block) : unitFlags b =
    (if b.works.eng.res.link = .lost then 1 else 0) + (if b.relay.downCarrier = false then 2 else 0)
      + (if b.works.tab.configured = false then 4 else 0) + (if b.works.eng.short = true then 8 else 0)
      + (if b.works.eng.res.latch = true then 16 else 0) + (if b.works.eng.res.runPerm = true then 32 else 0)
      + (if b.works.commitPending = true then 64 else 0) + (if b.saving ≠ none then 128 else 0)
      + (if b.hours.hold = true then 256 else 0) := by
  simp only [unitFlags, flagBits_cons, Relay.tail, beq_iff_eq, Bool.not_eq_true', Option.isSome_iff_ne_none, flagBits_nil,
    Nat.mul_add, double_flag, Nat.mul_one, Nat.reduceMul, Nat.add_zero, ← Nat.add_assoc]

theorem positionBytes_length (T : Tables) (p : Pos) (e : Engine) : (positionBytes T p e).length = 14 := by
  have value : ∀ v, (faultValueBytes v).length = 2 := fun v => by cases v <;> rfl
  simp [positionBytes, be16, value]

theorem positionBytes_state (T : Tables) (p : Pos) (e : Engine) : (positionBytes T p e)[0]? = some (e.at p).st.code := rfl

/-- A stretch of a list behind a start of known length. -/
theorem take_drop_middle {α : Type} {pre mid post : List α} {n m : Nat} (hn : pre.length = n) (hm : mid.length = m) :
    ((pre ++ (mid ++ post)).drop n).take m = mid := by
  subst hn
  subst hm
  simp

/-- A STATUS: five bytes, the four positions and ten bytes of counters. -/
theorem statusPayload_eq (b : Block) : statusPayload b =
    ([BitVec.ofNat 8 b.relay.address, BitVec.ofNat 8 b.works.eng.res.demand, BitVec.ofNat 8 b.works.eng.res.resolved]
      ++ be16 (unitFlags b)) ++
    (positionBytes b.works.tab .A b.works.eng ++ (positionBytes b.works.tab .B b.works.eng ++
      (positionBytes b.works.tab .C b.works.eng ++ (positionBytes b.works.tab .D b.works.eng ++
    (be16 b.relay.badUp ++ be16 b.relay.badDown ++ be16 b.relay.relayDrops ++ be16 b.relay.replyDrops
      ++ be16 b.relay.mgmtDrops))))) := by
  simp [statusPayload, Pos.all, List.append_assoc]

theorem statusPayload_length (b : Block) : (statusPayload b).length = 71 := by
  simp [statusPayload_eq, positionBytes_length, be16]

theorem statusPayload_counters (b : Block) : (statusPayload b).drop 61 = be16 b.relay.badUp ++ be16 b.relay.badDown
    ++ be16 b.relay.relayDrops ++ be16 b.relay.replyDrops ++ be16 b.relay.mgmtDrops := by
  have split := statusPayload_eq b
  generalize be16 b.relay.badUp ++ be16 b.relay.badDown ++ be16 b.relay.relayDrops ++ be16 b.relay.replyDrops
    ++ be16 b.relay.mgmtDrops = counters at split
  simp only [← List.append_assoc] at split
  rw [split]
  exact List.drop_left' (by simp [positionBytes_length, be16])

theorem statusPayload_position (b : Block) {k : Nat} {p : Pos} (h : Pos.ofNat? k = some p) :
    ((statusPayload b).drop (5 + 14 * k)).take 14 = positionBytes b.works.tab p b.works.eng := by
  rw [statusPayload_eq]
  generalize be16 b.relay.badUp ++ be16 b.relay.badDown ++ be16 b.relay.relayDrops ++ be16 b.relay.replyDrops
    ++ be16 b.relay.mgmtDrops = counters
  have size := positionBytes_length b.works.tab
  unfold Pos.ofNat? at h
  split at h <;> cases h
  · exact take_drop_middle rfl (size ..)
  · rw [← List.append_assoc]
    exact take_drop_middle (by simp [size, be16]) (size ..)
  · rw [← List.append_assoc, ← List.append_assoc]
    exact take_drop_middle (by simp [size, be16]) (size ..)
  · rw [← List.append_assoc, ← List.append_assoc, ← List.append_assoc]
    exact take_drop_middle (by simp [size, be16]) (size ..)

theorem statusPayload_state (b : Block) {k : Nat} {p : Pos} (h : Pos.ofNat? k = some p) :
    (statusPayload b)[5 + 14 * k]? = some (b.works.eng.at p).st.code := by
  have first := congrArg (·[0]?) (statusPayload_position b h)
  simpa [List.getElem?_take, List.getElem?_drop, positionBytes_state] using first

/-! ## POLL (R166) -/

theorem clearMarkers_at (e : Engine) (p : Pos) :
    (e.eachPos fun p e => e.modify p (·.clearMarkers)).at p = (e.at p).clearMarkers := by
  cases p <;> rfl

theorem answerPoll_room {b : Block} (h : b.relay.hasRoom = true) : answerPoll b = { b with
    relay := b.relay.queueLocal ⟨kindStatus, statusPayload b⟩
    works := { b.works with eng := b.works.eng.eachPos fun p e => e.modify p (·.clearMarkers) } } := by
  rw [answerPoll, if_pos h]
  rfl

theorem answerPoll_full {b : Block} (h : b.relay.hasRoom = false) : answerPoll b = { b with
    relay := { b.relay with replyDrops := saturate b.relay.replyDrops } } := by
  simp [answerPoll, h, Block.onRelay]

theorem statusPayload_head (b : Block) : (statusPayload b).take 5 = [BitVec.ofNat 8 b.relay.address,
    BitVec.ofNat 8 b.works.eng.res.demand, BitVec.ofNat 8 b.works.eng.res.resolved, BitVec.ofNat 8 (unitFlags b / 256),
    BitVec.ofNat 8 (unitFlags b)] := by
  rw [statusPayload_eq]
  exact List.take_left' rfl

/-- Settles O47. -/
theorem pollQueuesAStatus : Obligations.PollQueuesAStatus := by
  intro s group target ⟨hp, hu⟩ hok
  have payload : ∀ flags, flags = _ → (statusPayload s.block).take 5 = [BitVec.ofNat 8 s.relay.address,
      BitVec.ofNat 8 s.res.demand, BitVec.ofNat 8 s.res.resolved, BitVec.ofNat 8 (flags / 256), BitVec.ofNat 8 flags] :=
    fun flags hf => by
      rw [hf.trans (unitFlags_eq s.block).symm]
      exact statusPayload_head s.block
  have polled : ∀ {b : Block}, pollArrives group target s.block = b →
      exec (.poll group target) s = .next { s with block := b } := fun hb => by
    rw [← hb]
    exact answer_powered hp
  cases ht : (dispatch s.tab .poll group.toNat).acts && s.relay.addressed target
  · refine ⟨_, polled (dispatched_notTaken hu hok ht answerPoll), statusPayload_length _, payload, statusPayload_counters _,
      fun k p hk => ⟨statusPayload_position _ hk, statusPayload_state _ hk⟩, rfl, rfl, rfl, rfl, rfl, fun _ => ⟨rfl, rfl⟩,
      nofun⟩
  · have taken := dispatched_taken hu hok ht answerPoll
    cases hroom : s.relay.hasRoom
    · rw [answerPoll_full hroom] at taken
      exact ⟨_, polled taken, statusPayload_length _, payload, statusPayload_counters _,
        fun k p hk => ⟨statusPayload_position _ hk, statusPayload_state _ hk⟩, rfl, rfl, rfl, rfl, rfl, nofun,
        fun _ => ⟨nofun, fun _ => ⟨rfl, rfl⟩⟩⟩
    · rw [answerPoll_room hroom] at taken
      exact ⟨_, polled taken, statusPayload_length _, payload, statusPayload_counters _,
        fun k p hk => ⟨statusPayload_position _ hk, statusPayload_state _ hk⟩, rfl, rfl, rfl, rfl, rfl, nofun,
        fun _ => ⟨fun _ => ⟨rfl, fun p => clearMarkers_at s.eng p⟩, nofun⟩⟩

end Sys2Proof.Machine
end

section
/-! SUPPORT. The statements on ramps and on the phase that a promotion begins. -/

namespace Sys2Proof.Machine

/-! ## Ramps (R128, R134, R135) -/

/-- The duty after a number of steps. -/
def rampDuty (target step duty : Nat) : Nat → Nat
  | 0 => duty
  | n + 1 => moveToward (rampDuty target step duty n) target step

theorem moveToward_target (target step : Nat) : moveToward target target step = target := by
  rw [moveToward, if_neg (Nat.lt_irrefl _)]
  omega

theorem rampDuty_up {target step duty : Nat} (h : duty < target) (n : Nat) :
    rampDuty target step duty n = min (duty + n * step) target := by
  induction n with
  | zero => simp [rampDuty, Nat.le_of_lt h]
  | succ n ih =>
    rw [rampDuty, ih, Nat.succ_mul, moveToward]
    split <;> omega

theorem rampDuty_down {target step duty : Nat} (h : target < duty) (n : Nat) :
    rampDuty target step duty n = max (duty - n * step) target := by
  induction n with
  | zero => simp [rampDuty, Nat.le_of_lt h]
  | succ n ih =>
    rw [rampDuty, ih, Nat.succ_mul, moveToward]
    split <;> omega

/-- A channel on its way: it ramps, the next duty pending, or it has come to rest at its target. -/
def Channel.onRamp (c : Channel) (target step duty next : Nat) : Prop :=
  c.duty = duty ∧ ((c.state = .ramping ∧ c.target = target ∧ c.step = some step ∧ c.pending = next) ∨
    (c.state ≠ .ramping ∧ c.pending = target ∧ duty = target))

theorem restState_ne_ramping (duty : Nat) : restState duty ≠ .ramping := by
  unfold restState
  split <;> nofun

theorem periodEnd_resting {c : Channel} (h : c.state ≠ .ramping) : c.periodEnd = { c with duty := c.pending } := by
  simp [Channel.periodEnd, Channel.completes, h]

theorem periodEnd_complete {c : Channel} (h : c.state = .ramping) (ht : c.pending = c.target) :
    c.periodEnd = { c with duty := c.pending, state := restState c.pending } := by
  simp [Channel.periodEnd, Channel.completes, h, ht]

theorem periodEnd_step {c : Channel} {step : Nat} (h : c.state = .ramping) (hs : c.step = some step)
    (ht : c.pending ≠ c.target) :
    c.periodEnd = { c with duty := c.pending, pending := moveToward c.pending c.target step } := by
  simp [Channel.periodEnd, Channel.completes, h, hs, ht]

/-- A period end takes a channel one step on its way. -/
theorem Channel.onRamp.periodEnd {c : Channel} {target step duty next : Nat} (h : c.onRamp target step duty next)
    (hn : moveToward duty target step = next) : c.periodEnd.onRamp target step next (moveToward next target step) := by
  obtain ⟨rfl, ⟨hst, rfl, hs, rfl⟩ | ⟨hst, hp, ht⟩⟩ := h
  · by_cases hc : c.pending = c.target
    · rw [periodEnd_complete hst hc]
      exact ⟨rfl, Or.inr ⟨restState_ne_ramping _, hc, hc⟩⟩
    · rw [periodEnd_step hst hs hc]
      exact ⟨rfl, Or.inl ⟨hst, rfl, hs, rfl⟩⟩
  · rw [periodEnd_resting hst]
    have stays : next = target := by rw [← hn, ht, moveToward_target]
    exact ⟨hp.trans stays.symm, Or.inr ⟨hst, hp, stays⟩⟩

theorem Channel.onRamp.after {c : Channel} {target step duty : Nat}
    (h : c.onRamp target step duty (moveToward duty target step)) (n : Nat) :
    (c.after n).onRamp target step (rampDuty target step duty n) (rampDuty target step duty (n + 1)) := by
  induction n with
  | zero => exact h
  | succ n ih => exact ih.periodEnd rfl

theorem ramp_onRamp {c : Channel} {target : Nat} (x : SchedEntry) (periodMs : Nat) (h : target ≠ c.duty) :
    (c.ramp x periodMs target).onRamp target (rampStep (x.rate c.duty target) periodMs) c.duty
      (moveToward c.duty target (rampStep (x.rate c.duty target) periodMs)) := by
  rw [Channel.ramp, if_neg h]
  exact ⟨rfl, Or.inl ⟨rfl, rfl, rfl, rfl⟩⟩

theorem ramp_after {c : Channel} {target : Nat} (x : SchedEntry) (periodMs : Nat) (h : target ≠ c.duty) (n : Nat) :
    ((c.ramp x periodMs target).after n).duty = rampDuty target (rampStep (x.rate c.duty target) periodMs) c.duty n :=
  ((ramp_onRamp x periodMs h).after n).1

/-- Settles O38. -/
theorem rampReachesItsTargetInSteps : Obligations.RampReachesItsTargetInSteps := by
  intro c x periodMs target n
  refine ⟨fun h => ?_, fun h => ?_, fun h => ?_⟩
  · rw [ramp_after x periodMs (by omega), rampDuty_up h, SchedEntry.rate, if_pos h]
  · rw [ramp_after x periodMs (by omega), rampDuty_down h, SchedEntry.rate, if_neg (by omega)]
  · have rest : c.ramp x periodMs target = { c with target := target, pending := c.duty, state := restState c.duty } := by
      rw [Channel.ramp, if_pos h]
    have stays : ∀ n, ((c.ramp x periodMs target).after n) = c.ramp x periodMs target := fun n => by
      induction n with
      | zero => rfl
      | succ n ih =>
        rw [Channel.after, ih, rest, periodEnd_resting (restState_ne_ramping _)]
    rw [stays, rest]
    exact ⟨rfl, restState_ne_ramping _⟩

/-! ## Phases (R125 to R130) -/

section
variable {T : Tables} {p : Pos} {e : Engine} {slot : Target} {speed : Nat}

theorem choice_loadDown {duty : Nat} (h : slot.load < duty) : choice slot duty speed = .loadDown := by
  rw [choice, if_pos h]

theorem choice_speedUp {duty : Nat} (h : duty ≤ slot.load) (hs : speed < slot.speed) : choice slot duty speed = .speedUp := by
  rw [choice, if_neg (by omega), if_pos hs]

theorem choice_speedDown {duty : Nat} (h : duty ≤ slot.load) (hs : slot.speed < speed) :
    choice slot duty speed = .speedDown := by
  rw [choice, if_neg (by omega), if_neg (by omega), if_pos hs]

theorem choice_loadUp {duty : Nat} (h : duty < slot.load) (hs : slot.speed = speed) : choice slot duty speed = .loadUp := by
  rw [choice, if_neg (by omega), if_neg (by omega), if_neg (by omega), if_pos h]

theorem choice_steady {duty : Nat} (h : slot.load = duty) (hs : slot.speed = speed) : choice slot duty speed = .steady := by
  rw [choice, if_neg (by omega), if_neg (by omega), if_neg (by omega), if_neg (by omega)]

/-- The settle timer of a speed phase begun now (R126). -/
def settleTimer (T : Tables) (p : Pos) (e : Engine) : Timer :=
  match T.profile p with
  | none => .stopped
  | some pr => e.timer (ms pr.settleLimitMs)

theorem startSpeedPhase_at (ph : Phase) : ∃ l, (startSpeedPhase T p ph slot e).at p =
      { e.at p with load := (e.at p).load.startSpeed ph slot (settleTimer T p e), link := l } ∧
    LinkHanded (e.at p).link l := by
  obtain ⟨l, hl, hk⟩ := handDrive_linkOnly T p
    (e.modify p fun x => { x with load := x.load.startSpeed ph slot (settleTimer T p e) })
  refine ⟨l, ?_, by simpa using hk⟩
  rw [show startSpeedPhase T p ph slot e = _ from hl]
  simp

theorem startLoadPhase_at (ph : Phase) {entry : SchedEntry} (h : T.active e.res.resolved = some entry) :
    (startLoadPhase T p ph slot e).at p =
      { e.at p with load := (e.at p).load.startLoad ph slot, chan := (e.at p).chan.ramp entry e.pwm.periodMs slot.load } := by
  simp [startLoadPhase, h]

variable (hslot : (e.at p).load.slot = some slot) (hspeed : (e.at p).load.speed = some speed)
include hslot hspeed

theorem choosePhase_speed {ph : Phase} (hc : choice slot (e.at p).chan.duty speed = ph)
    (h : ph = .speedUp ∨ ph = .speedDown) : choosePhase T p e = startSpeedPhase T p ph slot e := by
  rcases h with rfl | rfl <;> simp [choosePhase, hslot, hspeed, hc]

theorem choosePhase_load {ph : Phase} (hc : choice slot (e.at p).chan.duty speed = ph)
    (h : ph = .loadUp ∨ ph = .loadDown) : choosePhase T p e = startLoadPhase T p ph slot e := by
  rcases h with rfl | rfl <;> simp [choosePhase, hslot, hspeed, hc]

theorem choosePhase_steady (hc : choice slot (e.at p).chan.duty speed = .steady) (h : (e.at p).st ≠ .unloading) :
    choosePhase T p e = e.put p { e.at p with load := (e.at p).load.rest } := by
  simp [choosePhase, hslot, hspeed, hc, h]

theorem choosePhase_unloaded (hc : choice slot (e.at p).chan.duty speed = .steady) (h : (e.at p).st = .unloading) :
    choosePhase T p e = enterReady T p e := by
  simp [choosePhase, hslot, hspeed, hc, h]

end

/-! ## Promotion (R18, R131) -/

theorem scheduleTarget_some {T : Tables} {p : Pos} {e : Engine} {pr : Profile} {x : SchedEntry} (hp : T.profile p = some pr)
    (hx : T.active e.res.resolved = some x) : scheduleTarget T p e = some (x.target pr ((e.at p).deratePct T)) := by
  simp [scheduleTarget, hp, hx]

/-- A READY position as a promote order takes it ONLINE, before the choice of its phase. -/
def promoted (T : Tables) (p : Pos) (e : Engine) : Engine :=
  (enter T p .online e).modify p fun x =>
    { x with load := { x.load with phase := none, speed := (T.profile p).map (·.idleRpm),
                                   slot := scheduleTarget T p (enter T p .online e),
                                   phaseTarget := none, settleT := .stopped } }

theorem promoteOrder_ready {T : Tables} {p : Pos} {e : Engine} (h : (e.at p).st = .ready) :
    promoteOrder T p e = choosePhase T p (promoted T p e) := if_pos h

theorem deratePct_of_prot {T : Tables} {x y : Position} (h : y.prot = x.prot) : y.deratePct T = x.deratePct T := by
  simp [Position.deratePct, Position.activeWith, h]

section
variable {T : Tables} {p : Pos} {e : Engine} {pr : Profile} {x : SchedEntry}

theorem promoted_at (h : (e.at p).st = .ready) (hp : T.profile p = some pr) (hx : T.active e.res.resolved = some x) :
    ((promoted T p e).at p).st = .online ∧ ((promoted T p e).at p).chan = (e.at p).chan ∧
    ((promoted T p e).at p).load.speed = some pr.idleRpm ∧
    ((promoted T p e).at p).load.slot = some (x.target pr ((e.at p).deratePct T)) ∧
    (promoted T p e).res = e.res ∧ (promoted T p e).now = e.now := by
  obtain ⟨l, hl, -⟩ := enter_at T p .online e
  have hn := (enter_touches T p (dest := .online) e nofun nofun).now
  have hres := enter_res T p .online e
  have hprot : ((enter T p .online e).at p).prot = (e.at p).prot := by
    rw [hl]
    rfl
  have slot := scheduleTarget_some (e := enter T p .online e) hp (by rw [hres]; exact hx)
  rw [deratePct_of_prot hprot] at slot
  refine ⟨?_, ?_, ?_, ?_, hres, hn⟩
  · simp [promoted, hl, Position.arrive]
  · simp [promoted, hl, Position.arrive, Position.leave, h, PState.loaded]
  · simp [promoted, hp]
  · simp [promoted, slot]

/-- The state and the slot of an ONLINE position through the choice of a phase. -/
theorem choosePhase_online {slot : Target} {speed : Nat} (hslot : (e.at p).load.slot = some slot)
    (hspeed : (e.at p).load.speed = some speed) (h : (e.at p).st = .online) (hx : T.active e.res.resolved = some x) :
    ((choosePhase T p e).at p).st = .online ∧ ((choosePhase T p e).at p).chan.duty = (e.at p).chan.duty ∧
      ((choosePhase T p e).at p).load.slot = some slot := by
  cases hc : choice slot (e.at p).chan.duty speed with
  | speedUp | speedDown =>
    rw [choosePhase_speed hslot hspeed hc (by simp)]
    obtain ⟨l, hl, -⟩ := startSpeedPhase_at (T := T) (p := p) (e := e) (slot := slot) (choice slot (e.at p).chan.duty speed)
    rw [hc] at hl
    rw [hl]
    exact ⟨h, rfl, hslot⟩
  | loadUp | loadDown =>
    rw [choosePhase_load hslot hspeed hc (by simp), startLoadPhase_at _ hx]
    exact ⟨h, ramp_duty .., hslot⟩
  | steady =>
    rw [choosePhase_steady hslot hspeed hc (by simp [h])]
    simp [h, hslot, Load.rest]

/-- Settles O39. -/
theorem promotionChoosesThePhase : Obligations.PromotionChoosesThePhase := by
  intro T e p pr x hst hduty hp hx
  obtain ⟨online, chan, speed, slot, res, now⟩ := promoted_at hst hp hx
  rw [promoteOrder_ready hst]
  generalize promoted T p e = e' at *
  rw [← res] at hx
  obtain ⟨hon, hd, hs⟩ := choosePhase_online slot speed online hx
  rw [chan, hduty] at hd
  have zero : (e'.at p).chan.duty = 0 := by rw [chan, hduty]
  refine ⟨hon, hd, _, hs, rfl, ?_, fun h => ?_, fun h hl => ?_, fun h hl => ?_⟩
  · cases (e.at p).deratePct T <;> rfl
  · rw [choosePhase_speed slot speed (by rw [zero]; exact choice_speedUp (Nat.zero_le _) h) (Or.inl rfl)]
    obtain ⟨l, hl, -⟩ := startSpeedPhase_at (T := T) (p := p) (e := e')
      (slot := x.target pr ((e.at p).deratePct T)) .speedUp
    rw [hl]
    exact ⟨rfl, rfl, by simp [Load.startSpeed, settleTimer, hp, now, ms]⟩
  · rw [choosePhase_load slot speed (by rw [zero]; exact choice_loadUp hl h) (Or.inl rfl), startLoadPhase_at _ hx]
    have ne : (x.target pr ((e.at p).deratePct T)).load ≠ (e'.at p).chan.duty := by
      rw [zero]
      exact Nat.ne_of_gt hl
    simp [Load.startLoad, speed, Channel.ramp, ne]
  · rw [choosePhase_steady slot speed (by rw [zero]; exact choice_steady hl h) (by simp [online])]
    simp [Load.rest, speed]

end

end Sys2Proof.Machine
end

section
/-! SUPPORT. The statements on a taken NOTCH, on the emergency order, on the timers of the rise and on the reset of faults. -/

namespace Sys2Proof.Machine

variable {T : Tables} {p : Pos} {e : Engine}

/-! ## One position's turn in a round over all -/

/-- A round over all positions seen from one of them: what the others do, its own turn, what the others do. -/
theorem eachPos_turn {R : Engine → Engine → Prop} (refl : ∀ e, R e e) (trans : ∀ {a b c}, R a b → R b c → R a c)
    {f : Pos → Engine → Engine} (other : ∀ q e, q ≠ p → R e (f q e)) (e : Engine) :
    ∃ e', R e e' ∧ R (f p e') (e.eachPos f) := by
  cases p
  · exact ⟨e, refl e, trans (trans (other .B _ nofun) (other .C _ nofun)) (other .D _ nofun)⟩
  · exact ⟨f .A e, other .A e nofun, trans (other .C _ nofun) (other .D _ nofun)⟩
  · exact ⟨f .B (f .A e), trans (other .A e nofun) (other .B _ nofun), other .D _ nofun⟩
  · exact ⟨f .C (f .B (f .A e)), trans (trans (other .A e nofun) (other .B _ nofun)) (other .C _ nofun), refl _⟩

/-- One position's turn in a list that names it once. -/
theorem foldl_turn {α : Type} {R : Engine → Engine → Prop} (refl : ∀ e, R e e) (trans : ∀ {a b c}, R a b → R b c → R a c)
    {f : Engine → α → Engine} {x : α} (other : ∀ y e, y ≠ x → R e (f e y)) {list : List α} (hd : list.Nodup)
    (hx : x ∈ list) (e : Engine) : ∃ e', R e e' ∧ R (f e' x) (list.foldl f e) := by
  have rest : ∀ (list : List α) (e : Engine), x ∉ list → R e (list.foldl f e) := fun list => by
    induction list with
    | nil => exact fun e _ => refl e
    | cons y rest ih =>
      intro e hn
      simp only [List.mem_cons, not_or] at hn
      exact trans (other y e (Ne.symm hn.1)) (ih _ hn.2)
  induction list generalizing e with
  | nil => cases hx
  | cons y tail ih =>
    rw [List.nodup_cons] at hd
    rcases List.mem_cons.1 hx with rfl | hx
    · exact ⟨e, refl e, rest tail _ hd.1⟩
    · have hy : y ≠ x := fun h => hd.1 (h ▸ hx)
      obtain ⟨e', h₁, h₂⟩ := ih hd.2 hx (f e y)
      exact ⟨e', trans (other y e hy) h₁, h₂⟩

/-! ## The emergency order (R6) -/

/-- A position in the same state at the same speed. -/
def SameCourse (p : Pos) (a b : Engine) : Prop := (b.at p).st = (a.at p).st ∧ (b.at p).pickup = (a.at p).pickup

theorem SameCourse.refl (p : Pos) (e : Engine) : SameCourse p e e := ⟨rfl, rfl⟩

theorem SameCourse.trans {a b c : Engine} (h₁ : SameCourse p a b) (h₂ : SameCourse p b c) : SameCourse p a c :=
  ⟨h₂.1.trans h₁.1, h₂.2.trans h₁.2⟩

theorem emergencyAt_other {q : Pos} (h : p ≠ q) : SameCourse p e (emergencyAt T q e) := by
  have granted := emergencyAt_touches (T := T) (p := q) (e := e) |>.others p h
  exact ⟨granted.st, granted.kept.pickup⟩

theorem emergencyAt_st (T : Tables) (p : Pos) (e : Engine) : ((emergencyAt T p e).at p).st =
    if (e.at p).st.tested then (if (e.at p).pickup.speed = 0 then .off else .stopping) else (e.at p).st := by
  unfold emergencyAt
  cases hs : (e.at p).st <;> simp [PState.tested, hs, enterStopping_st]

theorem emergencyOrder_turn (T : Tables) (p : Pos) (e : Engine) :
    ∃ e', SameCourse p e e' ∧ SameCourse p (emergencyAt T p e') (emergencyOrder T e) := by
  unfold emergencyOrder
  split
  next h _ =>
    by_cases hp : p = h
    · subst hp
      refine ⟨_, ?_, .refl p _⟩
      obtain ⟨e', h₁, h₂⟩ := eachPos_turn (p := p) (R := SameCourse p) (SameCourse.refl p) SameCourse.trans
        (f := fun q e => if q = p then e else emergencyAt T q e)
        (fun q e hq => by rw [if_neg hq]; exact emergencyAt_other hq.symm) e
      rw [if_pos rfl] at h₂
      exact h₁.trans h₂
    · obtain ⟨e', h₁, h₂⟩ := eachPos_turn (p := p) (R := SameCourse p) (SameCourse.refl p) SameCourse.trans
        (f := fun q e => if q = h then e else emergencyAt T q e)
        (fun q e hq => by
          split
          · exact .refl p e
          · exact emergencyAt_other hq.symm) e
      rw [if_neg hp] at h₂
      exact ⟨e', h₁, h₂.trans (emergencyAt_other hp)⟩
  next => exact eachPos_turn (SameCourse.refl p) SameCourse.trans (fun q e hq => emergencyAt_other hq.symm) e

/-- The state of every position after the emergency order. -/
theorem emergencyOrder_st (T : Tables) (p : Pos) (e : Engine) : ((emergencyOrder T e).at p).st =
    if (e.at p).st.tested then (if (e.at p).pickup.speed = 0 then .off else .stopping) else (e.at p).st := by
  obtain ⟨e', before, after⟩ := emergencyOrder_turn T p e
  rw [after.1, emergencyAt_st, before.1, before.2]

/-- The onset of the latch brings the Resolver to rest (R10). -/
theorem take_rests {r : Resolver} (T : Tables) (now value : Nat) (run : Bool) (h : r.latch = false) :
    RestsAtIdle (r.take T now value run true) := by
  unfold Resolver.take
  dsimp only
  rw [rise_held]
  · exact settle_onset _ _ _ (by simp [Conds.onset, holdingConds, h, latchAfter])
  · rw [(settle_kept ..).conds]
    simp [Conds.any, holdingConds, latchAfter]

theorem notchTaken_onset {value : Nat} {run : Bool} (h : e.res.latch = false) : notchTaken value run true T e =
    emergencyOrder T { e with res := e.res.take T e.now value run true } := by
  have latch := (take_settled e.res T e.now value run true).2.2.2.1
  simp [notchTaken, latch, latchAfter, h]

/-- While the Resolver lets nothing run the close of an event leaves every position outside the tested states. -/
theorem event_still_untested {w : Works} {f : Tables → Engine → Engine} (hr : (f w.tab w.eng).res.mayRun = false)
    (h : ((f w.tab w.eng).at p).st.tested = false) : Still ((f w.tab w.eng).at p) ((w.event f).eng.at p) := by
  have drift := (closeEvent_closes w { w with eng := f w.tab w.eng }).eng.pos p
  rw [show ({ w with eng := f w.tab w.eng } : Works).eng.res.mayRun = false from hr] at drift
  exact drift.still (calm_of_untested h)

/-- The state of every position after the event that sets the latch (R6). -/
theorem notchTaken_onset_st {w : Works} {value : Nat} {run : Bool} (h : w.eng.res.latch = false) (p : Pos) :
    ((w.event (notchTaken value run true)).eng.at p).st =
      if (w.eng.at p).st.tested then (if (w.eng.at p).pickup.speed = 0 then .off else .stopping) else (w.eng.at p).st := by
  have order : ((notchTaken value run true w.tab w.eng).at p).st =
      if (w.eng.at p).st.tested then (if (w.eng.at p).pickup.speed = 0 then .off else .stopping) else (w.eng.at p).st := by
    rw [notchTaken_onset h, emergencyOrder_st]
    rfl
  have latch : (notchTaken value run true w.tab w.eng).res.latch = true := (notchTaken_latch ..).trans rfl
  refine (event_still_untested (by simp [Resolver.mayRun, latch]) ?_).st.trans order
  rw [order]
  split
  · split <;> rfl
  next hn => exact Bool.eq_false_iff.2 hn

/-- What a sound position that is OFF or STOPPING keeps of a run. -/
theorem Position.Sound.ended {x : Position} (h : x.Sound) (hst : x.st = .off ∨ x.st = .stopping) :
    x.chan.duty = 0 ∧ x.ctx = none ∧ x.causes = .none := by
  rcases hst with hst | hst <;>
    exact ⟨(h.duty (by rw [hst]; rfl)).1, h.ctx (by rw [hst]; nofun), (h.causes (by rw [hst]; rfl)).1⟩

/-- Settles O12. -/
theorem emergencyStopsEveryRunningEngine : Obligations.EmergencyStopsEveryRunningEngine := by
  intro s group value flags hs h₁ h₄ ha he hl sound
  obtain ⟨t, h, hw⟩ := exec_notch_taken (value := value) (flags := flags) hs (notchFrame_ok h₁ h₄) ha
  rw [he] at hw
  have tsound : t.eng.Sound := (exec_moves h).positions sound
  have kept := closeEvent_notch s.block.works
    { s.block.works with eng := notchTaken value.toNat (flags.getLsbD 0) true s.tab s.eng }
  obtain ⟨-, -, -, latch, runPerm, -, -⟩ := take_settled s.res s.tab s.eng.now value.toNat (flags.getLsbD 0) true
  rw [← notchTaken_res] at latch runPerm
  have rests := take_rests s.tab s.eng.now value.toNat (flags.getLsbD 0) hl
  rw [← notchTaken_res] at rests
  have st (p : Pos) : (t.pos p).st =
      if (s.pos p).st.tested then (if (s.pos p).pickup.speed = 0 then .off else .stopping) else (s.pos p).st := by
    rw [State.pos, State.eng, hw]
    exact notchTaken_onset_st hl p
  refine ⟨t, h, ?_, ?_, ?_, fun p => ⟨fun hp => ?_, fun hp => ?_⟩⟩
  · rw [State.res, State.eng, hw]
    exact kept.kept.latch.trans (latch.trans rfl)
  · rw [State.res, State.eng, hw]
    exact kept.kept.runPerm.trans (runPerm.trans (by simp [latchAfter]))
  · rw [State.res, State.eng, hw]
    refine (kept.rests ?_ rests).resolved
    simp only [Resolver.blocked, latch, latchAfter, Bool.true_or, Bool.or_true]
  · have stopped := st p
    rw [if_pos ((tested_iff _).2 hp)] at stopped
    refine ⟨stopped, (tsound p).ended ?_⟩
    rw [stopped]
    split
    · exact Or.inl rfl
    · exact Or.inr rfl
  · rw [st p, if_neg]
    rw [tested_iff]
    rcases hp with hp | hp | hp | hp | hp <;> simp [hp]

/-! ## NOTCH taken or not (R2) -/

/-- What a NOTCH does to the block with carrier on UP: its event where it is taken, then the passing. -/
theorem exec_notch_heard {s : State} {group value flags : Byte} (hs : s.hears)
    (hok : (notchFrame group value flags).ok = true) : exec (.notch group value flags) s = .next { s with block := { s.block with
      relay := s.relay.passIf (dispatch s.tab .notch group.toNat) (notchFrame group value flags)
      works := if (dispatch s.tab .notch group.toNat).acts then
        s.block.works.event (notchTaken value.toNat (flags.getLsbD 0) (flags.getLsbD 1)) else s.block.works } } := by
  unfold exec execNotch
  refine (answer_powered hs.1).trans ?_
  cases ha : (dispatch s.tab .notch group.toNat).acts
  · rw [dispatched_notTaken hs.2 hok (by rw [ha]; rfl)]
    rfl
  · rw [dispatched_taken hs.2 hok (by rw [ha]; rfl)]
    rfl

/-- Settles O9. -/
theorem notchFrameSetsTheDemand : Obligations.NotchFrameSetsTheDemand := by
  intro s group value flags hs h₁ h₄
  have heard := exec_notch_heard (value := value) (flags := flags) hs (notchFrame_ok h₁ h₄)
  cases ha : (dispatch s.tab .notch group.toNat).acts
  · rw [ha] at heard
    exact ⟨_, heard, rfl, nofun, fun _ => ⟨rfl, rfl⟩⟩
  · rw [ha] at heard
    have kept := closeEvent_notch s.block.works
      { s.block.works with eng := notchTaken value.toNat (flags.getLsbD 0) (flags.getLsbD 1) s.tab s.eng }
    obtain ⟨requested, demand, runRequest, latch, runPerm, notchT, link⟩ :=
      take_settled s.res s.tab s.eng.now value.toNat (flags.getLsbD 0) (flags.getLsbD 1)
    rw [← notchTaken_res] at requested demand runRequest latch runPerm notchT link
    refine ⟨_, heard, rfl, fun _ => ⟨?_, ?_, ?_, ?_, ?_, ?_, ?_, fun sound => ?_⟩, nofun⟩
    · exact kept.kept.requested.trans requested
    · exact (kept.kept.demand.trans demand).trans rfl
    · exact kept.kept.runRequest.trans runRequest
    · exact kept.kept.latch.trans latch
    · refine (kept.kept.runPerm.trans (runPerm.trans ?_)).trans
        (congr (congrArg (fun a b => a && !b) (kept.kept.runRequest.trans runRequest)) (kept.kept.latch.trans latch)).symm
      rfl
    · exact (kept.kept.notchT.trans notchT).trans rfl
    · exact kept.kept.link.trans link
    · have after := (exec_moves heard).resolver sound
      exact ⟨after.reached, after.held⟩

/-! ## The timers of the rise (R11, R13) -/

theorem exec_dwellTimer {s : State} {since limit : Nat} (hp : s.block.powered = true) (hd : s.res.dwell = .running since)
    (hl : s.tab.dwellLimit s.res.resolved = some limit) : exec .dwellTimerExpires s =
      .next (s.expired (since + limit) fun T e => { e with res := e.res.dwellExpires T e.now }) := by
  unfold exec execDwellTimerExpires
  refine (answer_powered hp).trans ?_
  unfold dwellExpires
  dsimp only
  rw [hd, hl]
  rfl

theorem exec_achieveTimer {s : State} {since limit : Nat} (hp : s.block.powered = true) (ha : s.res.achieve = .running since)
    (hl : s.tab.achieveLimit = some limit) : exec .achieveTimerExpires s =
      .next (s.expired (since + limit) fun T e => { e with res := e.res.achieveExpires T e.now }) := by
  unfold exec execAchieveTimerExpires
  refine (answer_powered hp).trans ?_
  unfold achieveExpires
  rw [ha, hl]
  rfl

/-- A rise that finds its conditions met. -/
theorem rise_met {r : Resolver} {now : Nat} (hc : (holdingConds T r).any = false) (hd : r.resolved < r.demand)
    (hw : r.dwell.isExpired = true) (ha : r.achieved = true ∨ r.achieve.isExpired = true) :
    (r.rise T now).resolved = r.resolved + 1 := by
  rw [Resolver.rise, if_pos ⟨hc, hd, hw, ha⟩, startTimers_resolved]

/-- The close of an event that leaves the Resolver after an examined rise (R13, R14). -/
theorem rise_event {w : Works} {r : Resolver} {f : Tables → Engine → Engine} (hc : w.commitPending = false)
    (hk : ResKept w.eng.res r) (he : r.resolved = w.eng.res.resolved)
    (hf : (f w.tab w.eng).res = r.rise w.tab w.eng.now) (hn : (f w.tab w.eng).now = w.eng.now) :
    w.eng.res.resolved ≤ (w.event f).eng.res.resolved ∧
    (w.event f).eng.res.resolved ≤ max w.eng.res.resolved w.eng.res.demand ∧
    (w.event f).eng.res.demand = w.eng.res.demand ∧
    (r.rise w.tab w.eng.now).resolved ≤ (w.event f).eng.res.resolved ∧ (w.event f).eng.now = w.eng.now := by
  have moves := closeEvent_notch w { w with eng := f w.tab w.eng }
  obtain ⟨low, high⟩ := moves.rises hc
  have kept := moves.kept
  rw [show ({ w with eng := f w.tab w.eng } : Works).eng.res = r.rise w.tab w.eng.now from hf] at low high kept
  obtain ⟨up, top⟩ := rise_resolved r w.tab w.eng.now
  have demand := (rise_kept r w.tab w.eng.now).demand
  rw [he] at up top
  rw [hk.demand] at top demand
  rw [demand] at high
  refine ⟨Nat.le_trans up low, Nat.le_trans high ?_, kept.demand.trans demand, low, (event_now w f).trans hn⟩
  omega

/-- Settles O13. -/
theorem dwellAndAchieveExpiriesRaiseTheNotch : Obligations.DwellAndAchieveExpiriesRaiseTheNotch := by
  intro s since limit hp hc
  constructor
  · intro hd hl
    have eq : s.res.dwellExpires s.tab (max s.eng.now (since + limit)) =
        ({ s.res with dwell := .expired since } : Resolver).rise s.tab (max s.eng.now (since + limit)) := by
      simp [Resolver.dwellExpires, hd]
    obtain ⟨low, high, demand, risen, now⟩ := rise_event (w := s.block.works.atTime (max s.eng.now (since + limit)))
      (r := { s.res with dwell := .expired since }) (f := fun T e => { e with res := e.res.dwellExpires T e.now })
      hc ⟨rfl, rfl, rfl, rfl, rfl, rfl, rfl⟩ rfl eq rfl
    refine ⟨_, exec_dwellTimer hp hd hl, low, high, demand, fun hany hlt ha => Nat.le_trans (Nat.le_of_eq ?_) risen, now⟩
    exact (rise_met (r := { s.res with dwell := .expired since }) hany hlt rfl ha).symm
  · intro ha hl
    have eq : s.res.achieveExpires s.tab (max s.eng.now (since + limit)) =
        ({ s.res with achieve := .expired since } : Resolver).rise s.tab (max s.eng.now (since + limit)) := by
      simp [Resolver.achieveExpires, ha]
    obtain ⟨low, high, demand, risen, now⟩ := rise_event (w := s.block.works.atTime (max s.eng.now (since + limit)))
      (r := { s.res with achieve := .expired since }) (f := fun T e => { e with res := e.res.achieveExpires T e.now })
      hc ⟨rfl, rfl, rfl, rfl, rfl, rfl, rfl⟩ rfl eq rfl
    refine ⟨_, exec_achieveTimer hp ha hl, low, high, demand, fun hany hlt hd => Nat.le_trans (Nat.le_of_eq ?_) risen, now⟩
    exact (rise_met (r := { s.res with achieve := .expired since }) hany hlt hd (Or.inr rfl)).symm

/-! ## Requests at the positions a frame names (R57, R161) -/

theorem positionsNamed_nodup (position : Byte) : (positionsNamed position).Nodup := by
  unfold positionsNamed
  split
  · decide
  · cases Pos.ofNat? position.toNat <;> simp

/-- A request that is taken: its event, then the passing (R160). -/
theorem answer_request {s : State} {request group target position : Byte} (h : RequestTaken request group target position s)
    (f : Tables → Engine → Pos → Engine) : ∃ t, answer (engineRequest request group target position f) s = .next t ∧
      t.block.works = s.block.works.event fun T e => (positionsNamed position).foldl (f T) e := by
  obtain ⟨⟨hp, hu⟩, hok, ha, hm⟩ := h
  refine ⟨_, answer_powered hp, ?_⟩
  rw [engineRequest, dispatched_taken hu hok (by rw [ha, hm]; rfl)]
  rfl

/-- Entry to a state from outside STARTING leaves the other positions. -/
theorem enter_other {q : Pos} {dest : PState} (hq : q ≠ p) (h : (e.at p).st ≠ .starting) :
    (enter T p dest e).at q = e.at q := by
  unfold enter
  dsimp only
  rw [if_neg fun hs => h hs.1]
  obtain ⟨l, hl, -⟩ := handDrive_linkOnly T p (e.modify p fun x => (x.leave dest).arrive dest)
  rw [hl, Engine.at_put_other _ _ hq, Engine.at_modify_other _ _ hq]

theorem resetFaultAt_other {q : Pos} (hq : q ≠ p) : (resetFaultAt T p e).at q = e.at q := by
  unfold resetFaultAt
  dsimp only
  split
  next hst =>
    split
    · exact enter_other hq (by simp [hst])
    · exact Engine.at_put_other _ _ hq
  next => rfl

/-- A position that is OFF and cannot be started is calm. -/
theorem calm_of_unstartable {z : Bool} {x : Position} {r : Resolver} (hst : x.st = .off) (h : x.unstartable r) :
    x.calm z r.mayRun = true := by
  rcases h with h | h | h | h <;> simp [Position.calm, hst, h, Resolver.mayRun]

/-- The close of an event leaves a position on which the Planner has nothing to order. -/
theorem event_calm {w : Works} {f : Tables → Engine → Engine} {r : Resolver} (hr : (f w.tab w.eng).res = r)
    (h : ∀ z, ((f w.tab w.eng).at p).calm z r.mayRun = true) : Still ((f w.tab w.eng).at p) ((w.event f).eng.at p) := by
  subst hr
  exact ((closeEvent_closes w { w with eng := f w.tab w.eng }).eng.pos p).still (h _)

/-- Entry to OFF confirms no setup (R41, R113). -/
theorem onEntry_off_setup {l : Link} (h : l.setup ≠ .confirmed) : (l.onEntry .off).setup ≠ .confirmed := by
  rcases onEntry_same l (dest := .off) nofun nofun with hl | hl <;> rw [hl]
  · exact h
  · nofun

/-- A position that could not be started cannot be started after its entry to OFF. -/
theorem enter_off_unstartable {r : Resolver} (h : (e.at p).unstartable r) : ((enter T p .off e).at p).unstartable r := by
  obtain ⟨l, hl, hk⟩ := enter_at T p .off e
  rw [hl]
  refine h.imp id (Or.imp_left fun hs => ?_)
  have setup : l.setup = ((e.at p).link.onEntry .off).setup := hk.setup
  rw [setup]
  exact onEntry_off_setup hs

/-- RESET_FAULT at an engine that stands still leads to OFF (R57). -/
theorem resetFaultAt_still (hst : (e.at p).st = .faulted) (hs : (e.at p).pickup.speed = 0) :
    resetFaultAt T p e = enter T p .off e := by
  simp [resetFaultAt, hst, hs]

/-- RESET_FAULT at an engine that turns is refused (R57). -/
theorem resetFaultAt_turning (hst : (e.at p).st = .faulted) (hs : (e.at p).pickup.speed ≠ 0) :
    resetFaultAt T p e = e.put p { e.at p with resetRefused := true } := by
  simp [resetFaultAt, hst, hs]

/-- RESET_FAULT at all positions a frame names (R161). -/
def resetNamed (position : Byte) (T : Tables) (e : Engine) : Engine :=
  (positionsNamed position).foldl (fun e p => resetFaultAt T p e) e

/-- A request at all positions a frame names, seen from one of them. -/
theorem resetNamed_at (T : Tables) {position : Byte} (hp : p ∈ positionsNamed position) (e : Engine) :
    ∃ e', e'.at p = e.at p ∧
      (resetNamed position T e).at p = (resetFaultAt T p e').at p := by
  obtain ⟨e', before, after⟩ := foldl_turn (R := fun a b : Engine => b.at p = a.at p) (f := fun e p => resetFaultAt T p e)
    (fun _ => rfl) (fun h₁ h₂ => h₂.trans h₁) (fun q e hq => resetFaultAt_other (T := T) (e := e) (Ne.symm hq))
    (positionsNamed_nodup position) hp e
  exact ⟨e', before, after⟩

theorem resetFaultAt_res : (resetFaultAt T p e).res = e.res := by
  unfold resetFaultAt
  dsimp only
  split
  · split
    · exact enter_res ..
    · rfl
  · rfl

/-- Settles O16. -/
theorem faultResetClearsOrIsRefused : Obligations.FaultResetClearsOrIsRefused := by
  intro s group target position h
  obtain ⟨t, ht, hw⟩ := answer_request h fun T e p => resetFaultAt T p e
  refine ⟨t, ht, fun p hp hst => ?_⟩
  obtain ⟨e, before, after⟩ := resetNamed_at s.tab hp s.eng
  have same : e.at p = s.pos p := before
  have pos : t.pos p = (s.block.works.event (resetNamed position)).eng.at p := by
    rw [State.pos, State.eng, hw]
    rfl
  have carried := event_carried s.block.works (resetNamed position) p
  rw [← same] at hst ⊢
  rw [pos]
  constructor
  · intro hs
    rw [resetFaultAt_turning hst hs, Engine.at_put_self] at after
    have still := event_still (w := s.block.works) (f := resetNamed position) (p := p) (by
        refine (congrArg (fun x : Position => x.st.fixed) after).trans ?_
        simp only [hst, PState.fixed])
    exact ⟨still.st.trans ((congrArg Position.st after).trans hst), still.fault.trans ((congrArg Position.fault after).trans rfl),
      carried.refused.trans ((congrArg Position.resetRefused after).trans rfl)⟩
  · intro hs hu
    rw [resetFaultAt_still hst hs] at after
    obtain ⟨l, hl, hk⟩ := enter_at s.tab p .off e
    have calm (z : Bool) := calm_of_unstartable (z := z) (enter_st s.tab p .off e) (enter_off_unstartable (T := s.tab) hu)
    have still := event_calm (w := s.block.works) (f := resetNamed position) (p := p) (r := s.res)
      (foldl_res (fun e p => resetFaultAt_res) _ _)
      (fun z => (congrArg (fun x : Position => x.calm z s.res.mayRun) after).trans (calm z))
    refine ⟨still.st.trans ((congrArg Position.st after).trans (enter_st ..)),
      still.fault.trans ((congrArg Position.fault after).trans ?_), carried.refused.trans ((congrArg Position.resetRefused after).trans ?_)⟩
    · rw [hl]
      simp [Position.arrive, Position.leave, hst]
    · rw [hl]
      rfl

end Sys2Proof.Machine
end

section
/-! SUPPORT. ISOLATE and RESTORE at the position they name (R59, R60, R181). -/

namespace Sys2Proof.Machine

variable {T : Tables} {p : Pos} {e : Engine}

/-- A request that runs and is answered at once. -/
theorem exec_replied {c : Instr} {op : Byte} {r : MgmtReq} {s : State} {run : Block → Block × Option Reply} {b : Block}
    {rp : Reply} (hc : exec c s = answer (operation op r run) s) (h : Ran op r s) (hr : run s.block = (b, some rp))
    (hrel : b.relay = s.block.relay) :
    exec c s = .next { s with block := { b with relay := s.relay.answered op r rp } } := by
  have ran := exec_ran hc h (by rw [hr]; exact hrel)
  rw [hr] at ran
  exact ran

theorem namedPosition_none {r : MgmtReq} (h : 3 < r.first.toNat ∨ r.count ≠ 1) : namedPosition r = none := by
  unfold namedPosition
  split
  next hc =>
    have hcount : r.count = 1 := BitVec.eq_of_toNat_eq hc
    have hf : 3 < r.first.toNat := h.resolve_right fun hn => hn hcount
    unfold Pos.ofNat?
    split <;> first | omega | rfl
  next => rfl

theorem namedPosition_some {r : MgmtReq} (hc : r.count = 1) (hp : Pos.ofNat? r.first.toNat = some p) :
    namedPosition r = some p := by
  rw [namedPosition, if_pos (by rw [hc]; rfl), hp]

theorem ofNat_some_le {n : Nat} (hp : Pos.ofNat? n = some p) : n ≤ 3 := by
  unfold Pos.ofNat? at hp
  split at hp <;> first | omega | cases hp

/-- An operation on the position a request names: refused without one and in the wrong state; else an event of the engines, with
the isolation cell written. -/
structure NamedRun (run : MgmtReq → Block → Block × Option Reply) (allowed : Position → Bool) (mark : Bool)
    (act : Pos → Tables → Engine → Engine) : Prop where
  unnamed : ∀ r b, namedPosition r = none → run r b = (b, some (plainReply r.table .badIndex none))
  wrong : ∀ r b p, namedPosition r = some p → allowed (b.works.eng.at p) = false →
    run r b = (b, some (plainReply r.table .stateWrong none))
  done : ∀ r b p, namedPosition r = some p → allowed (b.works.eng.at p) = true →
    run r b = ((b.onWorks (·.event (act p))).writeIsolation p mark, some (plainReply r.table .ok none))

theorem runIsolate_named : NamedRun runIsolate canIsolate true fun p T e => enter T p .isolated e := by
  constructor
  · intro r b h
    rw [runIsolate, h]
  · intro r b p h ha
    rw [runIsolate, h]
    exact if_neg (by simp [ha])
  · intro r b p h ha
    rw [runIsolate, h]
    exact if_pos ha

theorem runRestore_named : NamedRun runRestore (·.st == .isolated) false fun p T e => restoreAt T p e := by
  constructor
  · intro r b h
    rw [runRestore, h]
  · intro r b p h ha
    rw [runRestore, h]
    exact if_neg (by simpa using ha)
  · intro r b p h ha
    rw [runRestore, h]
    exact if_pos (by simpa using ha)

/-- What the reply of such an operation and the parts of the state outside the engines are, whatever becomes of it. -/
theorem NamedRun.answers {run : MgmtReq → Block → Block × Option Reply} {allowed : Position → Bool} {mark : Bool}
    {act : Pos → Tables → Engine → Engine} (hrun : NamedRun run allowed mark act) {c : Instr} {op : Byte} {r : MgmtReq} {s : State}
    (hc : exec c s = answer (operation op r (run r)) s) (h : Ran op r s) :
    ∃ (t : State) (rp : Reply), exec c s = .next t ∧ t.relay = s.relay.answered op r rp ∧
      rp.table = r.table ∧ rp.failing = none ∧ rp.entries = [] ∧ t.hours = s.hours ∧ t.block.saving = s.block.saving ∧
      t.nv.image = s.nv.image ∧ t.nv.meters = s.nv.meters ∧
      (3 < r.first.toNat ∨ r.count ≠ 1 → rp.status = .badIndex ∧ t.block.works = s.block.works ∧ t.nv = s.nv) ∧
      ∀ p, r.count = 1 → Pos.ofNat? r.first.toNat = some p →
        (allowed (s.pos p) = true → rp.status = .ok ∧ t.block.works = s.block.works.event (act p) ∧
          t.nv.isolation = s.nv.isolation.set p (some mark)) ∧
        (allowed (s.pos p) = false → rp.status = .stateWrong ∧ t.block.works = s.block.works ∧ t.nv = s.nv) := by
  cases hn : namedPosition r with
  | none =>
    refine ⟨_, _, exec_replied hc h (hrun.unnamed r _ hn) rfl, rfl, rfl, rfl, rfl, rfl, rfl, rfl, rfl, fun _ => ⟨rfl, rfl, rfl⟩,
      fun p h₁ hp => ?_⟩
    rw [namedPosition_some h₁ hp] at hn
    cases hn
  | some q =>
    have named : 3 < r.first.toNat ∨ r.count ≠ 1 → False := fun hb => by
      rw [namedPosition_none hb] at hn
      cases hn
    have same : ∀ p, r.count = 1 → Pos.ofNat? r.first.toNat = some p → p = q := fun p h₁ hp => by
      rw [namedPosition_some h₁ hp] at hn
      exact Option.some.inj hn
    cases ha : allowed (s.pos q) with
    | false =>
      refine ⟨_, _, exec_replied hc h (hrun.wrong r _ q hn ha) rfl, rfl, rfl, rfl, rfl, rfl, rfl, rfl, rfl,
        fun hb => (named hb).elim, fun p h₁ hp => ?_⟩
      rw [same p h₁ hp, ha]
      exact ⟨nofun, fun _ => ⟨rfl, rfl, rfl⟩⟩
    | true =>
      refine ⟨_, _, exec_replied hc h (hrun.done r _ q hn ha) rfl, rfl, rfl, rfl, rfl, rfl, rfl, rfl, rfl,
        fun hb => (named hb).elim, fun p h₁ hp => ?_⟩
      rw [same p h₁ hp, ha]
      exact ⟨fun _ => ⟨rfl, rfl, rfl⟩, nofun⟩

theorem canIsolate_iff {x : Position} : canIsolate x = true ↔ (x.st = .off ∨ x.st = .faulted) ∧ x.pickup.speed = 0 := by
  simp [canIsolate]

theorem canIsolate_false {x : Position} (h : (x.st ≠ .off ∧ x.st ≠ .faulted) ∨ x.pickup.speed ≠ 0) : canIsolate x = false := by
  rw [Bool.eq_false_iff, ne_eq, canIsolate_iff]
  rintro ⟨hst, hs⟩
  rcases h with ⟨off, faulted⟩ | turning
  · exact hst.elim off faulted
  · exact turning hs

/-- A setup on a link that is not UP is left by the close of an event. -/
theorem SetupDrift.setup_unheard {l l' : Link} (h : SetupDrift l l') (hu : l.state ≠ .up) : l'.setup = l.setup := by
  obtain ⟨-, h | h⟩ := h
  · exact h.1
  · exact absurd h.2.1 hu

/-- A position that enters ISOLATED, its event closed (R59, R106). -/
theorem isolated_event (w : Works) (p : Pos) : ((w.event fun T e => enter T p .isolated e).eng.at p).st = .isolated ∧
    ((w.event fun T e => enter T p .isolated e).eng.at p).link.state = .silent ∧
    ((w.event fun T e => enter T p .isolated e).eng.at p).fault =
      if (w.eng.at p).st = .faulted then .clear else (w.eng.at p).fault := by
  obtain ⟨l, hl, hk⟩ := enter_at w.tab p .isolated w.eng
  have carried := event_carried w (fun T e => enter T p .isolated e) p
  have still := event_still (w := w) (f := fun T e => enter T p .isolated e) (p := p) (by rw [enter_st]; rfl)
  rw [hl] at carried still
  exact ⟨still.st, carried.linkState.trans hk.state, still.fault⟩

/-- A position that leaves ISOLATED for ABSENT, its event closed (R60). -/
theorem restored_absent {w : Works} (h : w.tab.present p = false) :
    ((w.event fun T e => restoreAt T p e).eng.at p).st = .absent ∧
    ((w.event fun T e => restoreAt T p e).eng.at p).link.state = .silent := by
  obtain ⟨l, hl, hk⟩ := enter_at w.tab p .absent w.eng
  have entered : restoreAt w.tab p w.eng = enter w.tab p .absent w.eng := by simp [restoreAt, h]
  have carried := event_carried w (fun T e => restoreAt T p e) p
  have still := event_still (w := w) (f := fun T e => restoreAt T p e) (p := p) (by rw [entered, enter_st]; rfl)
  rw [entered, hl] at carried still
  exact ⟨still.st, carried.linkState.trans hk.state⟩

/-- The position that leaves ABSENT or ISOLATED for OFF: LOST, its setup UNSET (R60, R61, R106). -/
theorem enterOffUnheard_at (T : Tables) (p : Pos) (e : Engine) : ((enterOffUnheard T p e).at p).st = .off ∧
    ((enterOffUnheard T p e).at p).link.state = .lost ∧ ((enterOffUnheard T p e).at p).link.setup = .unset := by
  rw [enterOffUnheard, Engine.at_modify_self]
  exact ⟨enter_st .., rfl, rfl⟩

/-- A position that leaves ISOLATED for OFF, its event closed (R60, R106). -/
theorem restored_off {w : Works} (h : w.tab.present p = true) :
    ((w.event fun T e => restoreAt T p e).eng.at p).st = .off ∧
    ((w.event fun T e => restoreAt T p e).eng.at p).link.state = .lost ∧
    ((w.event fun T e => restoreAt T p e).eng.at p).link.setup = .unset := by
  obtain ⟨st, state, setup⟩ := enterOffUnheard_at w.tab p w.eng
  have entered : restoreAt w.tab p w.eng = enterOffUnheard w.tab p w.eng := by simp [restoreAt, h]
  have carried := event_carried w (fun T e => restoreAt T p e) p
  have still := event_calm (w := w) (f := fun T e => restoreAt T p e) (p := p) rfl fun z => by
    rw [entered]
    exact calm_of_unstartable st (Or.inr (Or.inl (by rw [setup]; nofun)))
  rw [entered] at carried still
  exact ⟨still.st.trans st, carried.linkState.trans state,
    (still.setup.setup_unheard (by rw [state]; nofun)).trans setup⟩

/-- Settles O54. -/
theorem isolateAndRestoreMoveThePosition : Obligations.IsolateAndRestoreMoveThePosition := by
  constructor
  · intro s r h
    obtain ⟨t, rp, ht, hrelay, htable, hfailing, hentries, hhours, hsaving, himage, hmeters, hbad, hdone⟩ :=
      runIsolate_named.answers (c := .isolate r) rfl h
    refine ⟨t, rp, ht, hrelay, htable, hfailing, hentries, hhours, hsaving, himage, hmeters, hbad, fun p hc hp => ?_⟩
    obtain ⟨allowed, wrong⟩ := hdone p hc hp
    refine ⟨fun hst hsp => ?_, fun hw => wrong (canIsolate_false hw)⟩
    obtain ⟨ok, hworks, hcell⟩ := allowed (canIsolate_iff.2 ⟨hst, hsp⟩)
    obtain ⟨st, state, fault⟩ := isolated_event s.block.works p
    rw [State.pos, State.eng, hworks]
    exact ⟨ok, st, state, fault, hcell⟩
  · intro s r h
    obtain ⟨t, rp, ht, hrelay, htable, hfailing, hentries, hhours, hsaving, himage, hmeters, hbad, hdone⟩ :=
      runRestore_named.answers (c := .restore r) rfl h
    refine ⟨t, rp, ht, hrelay, htable, hfailing, hentries, hhours, hsaving, himage, hmeters, hbad, fun p hc hp => ?_⟩
    obtain ⟨allowed, wrong⟩ := hdone p hc hp
    refine ⟨fun hst => ?_, fun hw => wrong (by simpa using hw)⟩
    obtain ⟨ok, hworks, hcell⟩ := allowed (by simpa using hst)
    rw [State.pos, State.eng, hworks]
    exact ⟨ok, hcell, fun hpr => restored_off hpr, fun hpr => restored_absent hpr⟩

end Sys2Proof.Machine
end

section
/-! SUPPORT. Steps: the expiry of the step timer, the end of a retry rest, and what else is known of a start that failed. -/

namespace Sys2Proof.Machine

variable {T : Tables} {p : Pos} {e : Engine} {c : StepCtx} {r : StepRec}

/-! ## Step contexts -/

/-- A step context known by its course. -/
theorem ctx_of_course {x : Option StepCtx} {ptr retries visited : Nat} {fired watch : Bool} {restT : Timer}
    (h : x.map (·.course) = some (ptr, retries, visited, fired, watch, restT)) :
    ∃ c, x = some c ∧ c.ptr = ptr ∧ c.retries = retries ∧ c.visited = visited ∧ c.fired = fired ∧ c.watch = watch ∧
      c.restT = restT := by
  obtain ⟨c, rfl, hc⟩ := Option.map_eq_some_iff.1 h
  simp only [StepCtx.course, Prod.mk.injEq] at hc
  exact ⟨c, rfl, hc⟩

/-- Of a position a bus operation changes at most the grant in its step context. -/
theorem BusOnly.at_ctx {a b : Engine} (h : BusOnly T a b) (hc : (a.at p).ctx = some c) :
    ∃ c', b.at p = { a.at p with ctx := some c' } ∧ c'.course = c.course := by
  rcases h.all p with hb | hb <;> rw [hb]
  · exact ⟨c, by rw [← hc], rfl⟩
  · exact ⟨c.granted T a.now, by rw [hc]; rfl, rfl⟩

theorem leaveBus_at (T : Tables) (hc : (e.at p).ctx = some c) :
    ∃ c', (leaveBus T p e).at p = { e.at p with ctx := some c' } ∧ c'.course = c.course :=
  (leaveBus_busOnly T p e).at_ctx hc

/-- A step's success before the chain goes on: its fire and its marker (R76). -/
theorem endStep_at (T : Tables) (r : StepRec) (hc : (e.at p).ctx = some c) : ∃ c',
    (endStep T p r e).at p = { e.at p with ctx := some c', stepEvent := (e.at p).stepEvent || r.report } ∧
      c'.ptr = c.ptr ∧ c'.visited = c.visited ∧ c'.fired = (c.fired || r.kind == .crank) := by
  obtain ⟨c', hl, hk⟩ := leaveBus_at T hc
  simp only [StepCtx.course, Prod.mk.injEq] at hk
  obtain ⟨ptr, -, visited, fired, -, -⟩ := hk
  unfold endStep
  rw [Engine.at_modify_self, hl]
  exact ⟨_, rfl, ptr, visited, congrArg (· || r.kind == .crank) fired⟩

/-- The position that a step entered without its condition met waits at. -/
structure Entered (x y : Position) (course : Nat × Nat × Nat × Bool × Bool × Timer) : Prop where
  st : y.st = x.st
  mode : y.mode = x.mode
  stepEvent : y.stepEvent = x.stepEvent
  course : y.ctx.map (·.course) = some course

/-- A position with another step context and other frames. -/
theorem entered_of {x y : Position} {c' : StepCtx} {l : Link} {k : Nat × Nat × Nat × Bool × Bool × Timer}
    (h : y = { x with ctx := some c', link := l }) (hk : c'.course = k) : Entered x y k := by
  subst h
  exact ⟨rfl, rfl, rfl, congrArg some hk⟩

theorem handDrive_ctx (c : StepCtx) : ∃ l, handDrive T p (e.put p { e.at p with ctx := some c }) =
    e.put p { e.at p with ctx := some c, link := l } := by
  obtain ⟨l, hl, -⟩ := handDrive_linkOnly T p (e.put p { e.at p with ctx := some c })
  rw [Engine.put_put, Engine.at_put_self] at hl
  exact ⟨l, hl⟩

theorem requestBus_ctx (c : StepCtx) (l : Link) : ∃ c',
    (requestBus T p (e.put p { e.at p with ctx := some c, link := l })).at p = { e.at p with ctx := some c', link := l } ∧
      c'.course = c.course := by
  obtain ⟨c', hb, hk⟩ := (requestBus_busOnly T p (e.put p { e.at p with ctx := some c, link := l })).at_ctx (p := p) (c := c)
    (by rw [Engine.at_put_self])
  rw [Engine.at_put_self] at hb
  exact ⟨c', hb, hk⟩

/-- Entry to a step whose condition does not hold at entry (R73). -/
theorem enterStep_waits {fuel idx : Nat} {counts : Bool} (hc : (e.at p).ctx = some c)
    (hr : checkEntry T (if counts then c.visited + 1 else c.visited) idx = some r) (hm : entryMeets T p (e.at p) r = false) :
    Entered (e.at p) ((enterStep T p (fuel + 1) counts idx e).at p)
      (idx, if counts then r.retries else c.retries, if counts then c.visited + 1 else c.visited, c.fired, c.watch, .stopped) := by
  unfold enterStep
  simp only [hc, Option.getD_some, hr, hm, Bool.false_eq_true, if_false]
  split
  · obtain ⟨l, hl⟩ := handDrive_ctx (T := T) (p := p) (e := e) ⟨idx, .busWait, if counts then r.retries else c.retries,
      if counts then c.visited + 1 else c.visited, .stopped, .stopped, c.fired, c.watch⟩
    rw [hl]
    obtain ⟨c', hb, hk⟩ := requestBus_ctx (T := T) (p := p) (e := e) ⟨idx, .busWait, if counts then r.retries else c.retries,
      if counts then c.visited + 1 else c.visited, .stopped, .stopped, c.fired, c.watch⟩ l
    exact entered_of hb hk
  · obtain ⟨l, hl⟩ := handDrive_ctx (T := T) (p := p) (e := e) ⟨idx, .runningStep, if counts then r.retries else c.retries,
      if counts then c.visited + 1 else c.visited, e.timer (sec r.timeLimitS), .stopped, c.fired, c.watch⟩
    rw [hl, Engine.at_put_self]
    exact entered_of rfl rfl

/-- The close of an event leaves a position in a state to which no order applies. -/
theorem event_still_st {w : Works} {f : Tables → Engine → Engine} {st : PState} (h : ((f w.tab w.eng).at p).st = st)
    (hf : st.fixed = true) : Still ((f w.tab w.eng).at p) ((w.event f).eng.at p) :=
  event_still (by rw [h]; exact hf)

/-- While no zero condition holds and none can come, the close of an event leaves a start in RUN mode. -/
theorem event_running {w : Works} {f : Tables → Engine → Engine} (hz : zeroCondition w.tab w.eng.res = false)
    (hc : w.commitPending = false) (hr : (f w.tab w.eng).res = w.eng.res) (hst : ((f w.tab w.eng).at p).st = .starting)
    (hm : ((f w.tab w.eng).at p).mode = .run) : Still ((f w.tab w.eng).at p) ((w.event f).eng.at p) := by
  refine ((closeEvent_closes w { w with eng := f w.tab w.eng }).eng.pos p).still ?_
  have none : ({ w with eng := f w.tab w.eng } : Works).mayZero = false := by
    simp [Works.mayZero, hr, hz, hc]
  simp [Position.calm, hst, hm, none, PState.fixed]

/-- A start in RUN mode that entered a step, its event closed. -/
theorem Entered.event {w : Works} {f : Tables → Engine → Engine} {x : Position}
    {k : Nat × Nat × Nat × Bool × Bool × Timer} (h : Entered x ((f w.tab w.eng).at p) k)
    (hz : zeroCondition w.tab w.eng.res = false) (hc : w.commitPending = false) (hr : (f w.tab w.eng).res = w.eng.res)
    (hst : x.st = .starting) (hm : x.mode = .run) : Entered x ((w.event f).eng.at p) k := by
  have still := event_running hz hc hr (h.st.trans hst) (h.mode.trans hm)
  have carried := event_carried w f p
  exact ⟨still.st.trans h.st, carried.mode.trans h.mode, still.stepEvent.trans h.stepEvent, still.course.trans h.course⟩

/-! ## The end of a retry rest (R80) -/

theorem exec_retryRest {s : State} {since period : Nat} (hp : s.block.powered = true) (hc : (s.pos p).ctx = some c)
    (ht : c.restT = .running since period) :
    exec (.retryRestExpires p) s = .next (s.expired (since + period) (retryRestExpires p)) :=
  answer_expired hp rfl (by unfold Position.restTimer; rw [hc]; exact ht)

theorem retryRestExpires_waits (hc : (e.at p).ctx = some c) (hr : checkEntry T c.visited c.ptr = some r)
    (hm : entryMeets T p (e.at p) r = false) : Entered (e.at p) ((retryRestExpires p T e).at p)
      (c.ptr, c.retries, c.visited, c.fired, c.watch, .stopped) := by
  have waits := enterStep_waits (fuel := 39) (counts := false) hc hr hm
  unfold retryRestExpires
  rw [hc]
  exact waits

/-- Settles O19. -/
theorem retryRestEndsInTheSameStep : Obligations.RetryRestEndsInTheSameStep := by
  intro s p c r since period hp hst hc ht hr hm hmode ⟨hz, hpend⟩
  have entered := (retryRestExpires_waits (T := s.tab) (e := (s.block.works.atTime (max s.eng.now (since + period))).eng)
    hc hr hm).event (f := retryRestExpires p) hz hpend (retryRestExpires_touches ..).res hst hmode
  obtain ⟨c', hc', ptr, retries, visited, -, -, restT⟩ := ctx_of_course entered.course
  exact ⟨_, c', exec_retryRest hp hc ht, entered.st.trans hst, hc', ptr, visited, retries, restT⟩

/-! ## The step timer (R78) -/

/-- The step timer stopped at its expiry, as it was started for the step. -/
def stopStep (p : Pos) (e : Engine) : Engine :=
  e.modify p fun x => { x with ctx := x.ctx.map fun c => { c with stepT := .stopped } }

/-- The event of the step timer. -/
def stepLimit (p : Pos) (T : Tables) (e : Engine) : Engine := stepExpires T p (stopStep p e)

theorem exec_stepTimer {s : State} {since period : Nat} (hp : s.block.powered = true) (hc : (s.pos p).ctx = some c)
    (ht : c.stepT = .running since period) :
    exec (.stepTimerExpires p) s = .next (s.expired (since + period) (stepLimit p)) :=
  answer_expired hp rfl (by unfold Position.stepTimer; rw [hc]; exact ht)

theorem stopStep_at (hc : (e.at p).ctx = some c) :
    (stopStep p e).at p = { e.at p with ctx := some { c with stepT := .stopped } } := by
  simp [stopStep, hc]

theorem stepLimit_res : (stepLimit p T e).res = e.res := (stepExpires_touches ..).res

theorem stepLimit_fail (hc : (e.at p).ctx = some c) (hr : T.stepRec c.ptr = some r) (hl : r.onLimit = .fail) :
    stepLimit p T e = retryableFailure T p r { c with stepT := .stopped } (stopStep p e) := by
  simp [stepLimit, stepExpires, stopStep_at hc, hr, hl]

theorem stepLimit_pass (hc : (e.at p).ctx = some c) (hr : T.stepRec c.ptr = some r) (hl : r.onLimit = .pass) :
    stepLimit p T e = stepSuccess T p r (stopStep p e) := by
  simp [stepLimit, stepExpires, stopStep_at hc, hr, hl]

/-- A start that fails, with what the model keeps of it (R79, R98). -/
theorem failStart_at {code : FaultCode} {value : Option Int} (hst : (e.at p).st = .starting) (hc : (e.at p).ctx = some c) :
    Failed code (some c.ptr) value ((failStart T p code value e).at p) ∧ ((failStart T p code value e).at p).ctx = none ∧
      ((failStart T p code value e).at p).failedAt e.now = true := by
  have step : (e.at p).faultStep = some c.ptr := by simp [Position.faultStep, hst, hc]
  have failed := faultWith_failed (T := T) (p := p) (e := e) (code := code) (step := some c.ptr) (value := value) (by simp [hst])
  have ctx := faultWith_ctx (T := T) (p := p) (e := e) (code := code) (step := some c.ptr) (value := value) hst
  unfold failStart fault
  rw [step, Engine.at_modify_self]
  exact ⟨⟨failed.st, failed.fault, failed.causes, failed.holdT⟩, ctx, by simp [Position.failedAt, failed.st]⟩

/-- The step timer of a step without retries left (R79). -/
theorem stepLimit_fails (hst : (e.at p).st = .starting) (hc : (e.at p).ctx = some c) (hr : T.stepRec c.ptr = some r)
    (hl : r.onLimit = .fail) (h₀ : c.retries = 0) :
    Failed .startFailed (some c.ptr) (testedQuantity (e.at p) r.kind) ((stepLimit p T e).at p) ∧
      ((stepLimit p T e).at p).ctx = none := by
  obtain ⟨c', hb, hk⟩ := leaveBus_at T (congrArg Position.ctx (stopStep_at hc))
  rw [stopStep_at hc] at hb
  have quantity : testedQuantity ((leaveBus T p (stopStep p e)).at p) r.kind = testedQuantity (e.at p) r.kind := by
    rw [hb]
    rfl
  have ptr : c'.ptr = c.ptr := congrArg Prod.fst hk
  obtain ⟨failed, ctx, -⟩ := failStart_at (T := T) (p := p) (e := leaveBus T p (stopStep p e)) (c := c') (code := .startFailed)
    (value := testedQuantity (e.at p) r.kind) (by rw [hb]; exact hst) (by rw [hb])
  rw [stepLimit_fail hc hr hl, retryableFailure, if_neg (by simp [h₀]), quantity, ← ptr]
  exact ⟨failed, ctx⟩

/-- The step timer of a step with retries left: the rest begins (R79, R80). -/
theorem stepLimit_rests (hc : (e.at p).ctx = some c) (hr : T.stepRec c.ptr = some r)
    (hl : r.onLimit = .fail) (h₀ : 0 < c.retries) (hs : 0 < r.retryRestS) :
    Entered (e.at p) ((stepLimit p T e).at p)
      (c.ptr, c.retries - 1, c.visited, false, false, .running e.now (sec r.retryRestS)) := by
  obtain ⟨c', hb, hk⟩ := leaveBus_at T (congrArg Position.ctx (stopStep_at hc))
  rw [stopStep_at hc] at hb
  simp only [StepCtx.course, Prod.mk.injEq] at hk
  obtain ⟨ptr, retries, visited, -⟩ := hk
  have now : (leaveBus T p (stopStep p e)).now = e.now := (leaveBus_busOnly ..).now
  rw [stepLimit_fail hc hr hl, retryableFailure, if_pos (show 0 < ({ c with stepT := .stopped } : StepCtx).retries from h₀),
    retryRest]
  rw [if_neg (by omega)]
  obtain ⟨l, hl, -⟩ := handDrive_linkOnly T p ((leaveBus T p (stopStep p e)).modify p fun x =>
    { x with ctx := x.ctx.map fun c =>
        { c with retries := c.retries - 1, sub := .retryRest, stepT := .stopped, fired := false, watch := false,
                 restT := (leaveBus T p (stopStep p e)).timer (sec r.retryRestS) } })
  rw [hl, Engine.at_put_self, Engine.at_modify_self, hb]
  refine entered_of rfl ?_
  simp [StepCtx.course, ptr, retries, visited, now]

/-- The step timer of a step that passes on to another whose condition does not hold at entry (R76, R78). -/
theorem stepLimit_passes {r' : StepRec} (hc : (e.at p).ctx = some c) (hr : T.stepRec c.ptr = some r)
    (hl : r.onLimit = .pass) (hn : r.next ≠ 127) (hr' : checkEntry T (c.visited + 1) r.next = some r')
    (hm : entryMeets T p (e.at p) r' = false) : ∃ watch, Entered { e.at p with stepEvent := (e.at p).stepEvent || r.report }
      ((stepLimit p T e).at p)
      (r.next, r'.retries, c.visited + 1, c.fired || r.kind == .crank, watch, .stopped) := by
  obtain ⟨c', hb, -, visited, fired⟩ := endStep_at T r (congrArg Position.ctx (stopStep_at hc))
  rw [stopStep_at hc] at hb
  have waits := enterStep_waits (T := T) (p := p) (e := endStep T p r (stopStep p e)) (c := c') (r := r') (fuel := 39)
    (idx := r.next) (counts := true) (by rw [hb]) (by rw [if_pos rfl, visited]; exact hr') (by rw [hb]; exact hm)
  rw [if_pos rfl, if_pos rfl, visited, fired] at waits
  rw [stepLimit_pass hc hr hl, stepSuccess]
  dsimp only
  rw [if_neg (show ¬ r.next = nextEnd from hn)]
  refine ⟨c'.watch, waits.st.trans ?_, waits.mode.trans ?_, waits.stepEvent.trans ?_, waits.course⟩ <;> rw [hb]

/-- Entry to HELD while the latch is clear (R46). -/
theorem enterHeld_unlatched {causes : Causes} (hl : e.res.latch = false) : ∃ l t,
    (enterHeld T p causes e).at p =
      { ((e.at p).leave .held).arrive .held with link := l, causes := causes, holdT := t } ∧
    LinkHanded (((e.at p).leave .held).arrive .held).link l := by
  obtain ⟨l, h, hk⟩ := enter_at T p .held e
  have res : (enter T p .held e).res.latch = false := (congrArg Resolver.latch (enter_res ..)).trans hl
  unfold enterHeld
  dsimp only
  rw [Engine.modify_res, res, if_neg Bool.false_ne_true, Engine.at_modify_self, h]
  exact ⟨l, _, rfl, hk⟩

theorem endStep_res (T : Tables) (p : Pos) (r : StepRec) (e : Engine) : (endStep T p r e).res = e.res := (endStep_touches ..).res

/-- The step timer of the last step of a chain that is to be held (R43, R76). -/
theorem stepLimit_held (hst : (e.at p).st = .starting) (hc : (e.at p).ctx = some c) (hr : T.stepRec c.ptr = some r)
    (hl : r.onLimit = .pass) (hn : r.next = 127) (hcs : (e.at p).causes.isEmpty = false) (hlatch : e.res.latch = false) :
    ((stepLimit p T e).at p).st = .held ∧ ((stepLimit p T e).at p).causes = (e.at p).causes ∧
      ((stepLimit p T e).at p).ctx = none ∧
      ((stepLimit p T e).at p).stepEvent = ((e.at p).stepEvent || r.report) := by
  obtain ⟨c', hb, -⟩ := endStep_at T r (congrArg Position.ctx (stopStep_at hc))
  rw [stopStep_at hc] at hb
  have causes : ((endStep T p r (stopStep p e)).at p).causes = (e.at p).causes := by rw [hb]
  have unlatched : (endStep T p r (stopStep p e)).res.latch = false := (congrArg Resolver.latch (endStep_res ..)).trans hlatch
  obtain ⟨l, t, held, -⟩ := enterHeld_unlatched (T := T) (p := p) (causes := (e.at p).causes) unlatched
  have ended : stepLimit p T e = enterHeld T p (e.at p).causes (endStep T p r (stopStep p e)) := by
    rw [stepLimit_pass hc hr hl, stepSuccess]
    rw [if_pos (show r.next = nextEnd from hn), chainEnd]
    rw [causes, hcs, if_neg Bool.false_ne_true]
  rw [ended, held, hb]
  refine ⟨rfl, rfl, ?_, rfl⟩
  simp [Position.arrive, Position.leave, hst]

/-- Settles O18. -/
theorem stepLimitFailsOrRests : Obligations.StepLimitFailsOrRests := by
  intro s p c r since period hp hst hc ht hr
  have run := exec_stepTimer hp hc ht
  have res := stepLimit_res (T := s.tab) (p := p) (e := (s.block.works.atTime (max s.eng.now (since + period))).eng)
  refine ⟨fun hl => ⟨fun h₀ => ?_, fun h₀ hs hmode ⟨hz, hpend⟩ => ?_⟩,
    fun hl => ⟨fun r' hn hr' hm hmode ⟨hz, hpend⟩ => ?_, fun hn hcs hlatch => ?_⟩⟩
  · obtain ⟨failed, ctx⟩ := stepLimit_fails (T := s.tab)
      (e := (s.block.works.atTime (max s.eng.now (since + period))).eng) hst hc hr hl h₀
    have still := event_still (f := stepLimit p) failed.fixed
    exact ⟨_, run, (still.failed failed).st, (still.failed failed).fault, still.ctx_none ctx⟩
  · have rests := (stepLimit_rests (T := s.tab) (e := (s.block.works.atTime (max s.eng.now (since + period))).eng)
      hc hr hl h₀ hs).event (f := stepLimit p) hz hpend res hst hmode
    obtain ⟨c', hc', ptr, retries, visited, fired, watch, restT⟩ := ctx_of_course rests.course
    exact ⟨_, c', run, rests.st.trans hst, hc', ptr, visited, retries, fired, watch, restT⟩
  · obtain ⟨w, passes⟩ := stepLimit_passes (T := s.tab) (e := (s.block.works.atTime (max s.eng.now (since + period))).eng)
      hc hr hl hn hr' hm
    have passes := passes.event (f := stepLimit p) hz hpend res hst hmode
    obtain ⟨c', hc', ptr, retries, visited, fired, -, restT⟩ := ctx_of_course passes.course
    exact ⟨_, c', run, passes.st.trans hst, hc', ptr, visited, retries, fired, restT, passes.stepEvent⟩
  · obtain ⟨st, causes, ctx, stepEvent⟩ := stepLimit_held (T := s.tab)
      (e := (s.block.works.atTime (max s.eng.now (since + period))).eng) hst hc hr hl hn hcs hlatch
    have still := event_still_st (f := stepLimit p) st rfl
    exact ⟨_, run, still.st.trans st, still.causes.trans causes, still.ctx_none ctx, still.stepEvent.trans stepEvent⟩

end Sys2Proof.Machine
end

section
/-! SUPPORT. What else is known of a start that failed at the same instant (R87, R98, R101). -/

namespace Sys2Proof.Machine

variable {T : Tables} {p : Pos} {e : Engine}

/-! ## The crank guard (R98) -/

/-- The guard timer fails the holder's start (R98). -/
theorem guardExpires_at {c : StepCtx} (hb : e.bus.state = .taken p) (hst : (e.at p).st = .starting)
    (hc : (e.at p).ctx = some c) :
    Failed .crankOverrun (some c.ptr) (some ((e.at p).pickup.speed : Int)) ((guardExpires T e).at p) ∧
      ((guardExpires T e).at p).ctx = none ∧ ((guardExpires T e).at p).failedAt e.now = true := by
  obtain ⟨c', at_, hk⟩ := (freeBus_busOnly T e).at_ctx hc
  have ptr : c'.ptr = c.ptr := congrArg Prod.fst hk
  have now : (freeBus T e).now = e.now := (freeBus_busOnly T e).now
  obtain ⟨failed, ctx, same⟩ := failStart_at (T := T) (p := p) (e := freeBus T e) (c := c') (code := .crankOverrun)
    (value := (e.at p).rpmValue) (by rw [at_]; exact hst) (by rw [at_])
  have expired : guardExpires T e = failStart T p .crankOverrun (e.at p).rpmValue (freeBus T e) := by
    simp [guardExpires, hb]
  rw [expired, ← ptr, ← now]
  exact ⟨failed, ctx, same⟩

/-- A start known to have failed is known so after the close of an event. -/
theorem Still.failedAt {x y : Position} {now : Nat} (h : Still x y) : y.failedAt now = x.failedAt now := by
  simp only [Position.failedAt, h.st, h.failedStart]

theorem guardExpires_now : (guardExpires T e).now = e.now := by
  unfold guardExpires
  split
  · exact ((freeBus_busOnly ..).touches _ |>.trans (failStart_touches ..)).now
  · rfl

/-! ## Further faults (R52) -/

theorem st_of_failedAt {x : Position} {now : Nat} (h : x.failedAt now = true) : x.st = .faulted := by
  simp only [Position.failedAt, Bool.and_eq_true, beq_iff_eq] at h
  exact h.1

/-- The mark that a fault leaves on a position that is FAULTED already. -/
def Position.marked (x : Position) : Position := { x with fault := { x.fault with further := true } }

/-- A fault of a position that is FAULTED already leaves the mark. -/
theorem fault_again {code : FaultCode} {value : Option Int} {x : Position} (hx : e.at p = x) (h : x.st = .faulted) :
    (fault T p code value e).at p = x.marked := by
  subst hx
  rw [fault, faultWith_again h, Engine.at_modify_self]
  rfl

theorem faults_marked {x : Position} (h : x.st = .faulted) (list : List (FaultCode × Option Int)) {e : Engine}
    (hx : e.at p = x.marked) : (faults T p list e).at p = x.marked := by
  induction list generalizing e with
  | nil => exact hx
  | cons f rest ih => exact ih ((fault_again (x := x.marked) hx h).trans rfl)

theorem faults_again {list : List (FaultCode × Option Int)} {x : Position} (hx : e.at p = x) (h : x.st = .faulted)
    (hl : list ≠ []) : (faults T p list e).at p = x.marked := by
  obtain ⟨f, rest, rfl⟩ := List.exists_cons_of_ne_nil hl
  exact faults_marked h rest (fault_again hx h)

/-- The further-fault mark through the close of the event that set it. -/
theorem marked_event {w : Works} {f : Tables → Engine → Engine} {x : Position} (h : (f w.tab w.eng).at p = x.marked)
    (hst : x.st = .faulted) : Still x.marked ((w.event f).eng.at p) ∧ Carried x.marked ((w.event f).eng.at p) := by
  have still := event_still (f := f) (w := w) (p := p) (by rw [h]; exact congrArg PState.fixed hst)
  have carried := event_carried w f p
  rw [h] at still carried
  exact ⟨still, carried⟩

/-! ## Tests at a position that is not tested -/

theorem disagreeTest_untested {now : Nat} {x : Position} (h : x.st.tested = false) : disagreeTest T p now x = (x, false) := by
  unfold disagreeTest
  split
  · rw [h]
    rfl
  · rfl

theorem judged_untested {s : Sample} {now : Nat} {x : Position} (h : x.st.tested = false) :
    x.judged T p s now = x.heard T p s now := by
  have sampled : x.sampled T p s now = x.heard T p s now := by simp [Position.sampled, h]
  rw [Position.judged, sampled, disagreeTest_untested (x := x.heard T p s now) h]

theorem clocked_untested {now old : Nat} {x : Position} (h : x.st.tested = false) : x.clocked T p now old = x := by
  have paced : x.paced T p now old = x := by simp [Position.paced, h]
  rw [Position.clocked, paced, disagreeTest_untested h]

/-- A SHUTDOWN entry that a test activated is among the faults. -/
theorem shutdowns_ne_nil {before after : Position} {i : Fin 16} (h₁ : before.prot[i].active = false)
    (h₂ : after.activeWith T .shutdown i = true) : shutdowns T before after ≠ [] := by
  have mem : i ∈ protIndices.filter fun i => !before.prot[i].active && after.activeWith T .shutdown i := by
    rw [List.mem_filter]
    exact ⟨List.mem_finRange i, by rw [h₁, h₂]; rfl⟩
  unfold shutdowns
  exact fun hn => List.ne_nil_of_mem mem (List.map_eq_nil_iff.1 hn)

theorem shutdownsTested_failed {now : Nat} {before met : Position} (h : before.failedAt now = true) :
    shutdownsTested T now before met = shutdowns T before met := by
  rw [shutdownsTested, if_pos (by rw [h, Bool.or_true])]

theorem t8_of_inForce {i : Fin 16} {en : ProtEntry} (h : T.inForce p i = some en) : T.t8[i] = some en := by
  unfold Tables.inForce at h
  split at h
  · cases h
  next x hx =>
    split at h
    · rw [hx, h]
    · cases h

/-- A pair whose entry acts at once is active after a test that its condition meets. -/
theorem test_at_once {k : Pair} {now : Nat} (h : k.timer = .stopped) : (k.test now 0 true).active = true := by
  rcases k with ⟨_, a⟩
  subst h
  cases a <;> rfl

/-- A test that activates a SHUTDOWN entry. -/
theorem activeWith_shutdown {x : Position} {i : Fin 16} {en : ProtEntry} (h : T.inForce p i = some en)
    (ha : en.action = .shutdown) (hx : x.prot[i].active = true) : x.activeWith T .shutdown i = true := by
  rw [Position.activeWith, hx, t8_of_inForce h]
  simp [ha]

/-- A sample that meets a SHUTDOWN entry without persistence. -/
theorem sampleFaults_shutdown {s : Sample} {now : Nat} {x : Position} {i : Fin 16} {en : ProtEntry}
    (hf : x.failedAt now = true) (ha : x.prot[i].active = false) (hi : T.inForce p i = some en) (hact : en.action = .shutdown)
    (h₀ : en.persistMs = 0) (hq : en.quantity.ofStation = true) (ht : x.prot[i].timer = .stopped)
    (hg : en.minRpm ≤ x.pickup.speed) (hh : en.holdsOn (s.quantity en.quantity) = true) :
    sampleFaults T p s now x ≠ [] := by
  have value : (x.heard T p s now).quantity en.quantity = some (s.quantity en.quantity) := by
    unfold Position.quantity
    split
    next hn =>
      rw [hn] at hq
      cases hq
    next => rfl
  have open_ : en.gateOpen (x.heard T p s now).pickup.speed = true := decide_eq_true hg
  have active : ((protAtSample T p now (x.heard T p s now)).prot[i]).active = true := by
    have pair : (protAtSample T p now (x.heard T p s now)).prot[i] = (x.prot[i]).test now 0 true := by
      simp only [protAtSample, Fin.getElem_fin, Vector.getElem_ofFn, pairAtSample, hi, hq, if_true, testPair, value, open_, hh,
        Bool.and_self, h₀]
      rfl
    rw [pair]
    exact test_at_once ht
  unfold sampleFaults
  rw [shutdownsTested_failed hf]
  exact List.append_ne_nil_of_right_ne_nil _ (shutdowns_ne_nil ha (activeWith_shutdown hi hact active))

/-- A sample at a position that is FAULTED and finds a fault more. -/
theorem sampleArrives_again {raw : List Byte} {s : Sample} (hr : sampleOfRaw raw = some s) (hst : (e.at p).st = .faulted)
    (hf : sampleFaults T p s e.now (e.at p) ≠ []) :
    (sampleArrives T p raw e).at p = ((e.at p).heard T p s e.now).marked := by
  have taken : sampleArrives T p raw e = takeSample T p s e := by simp [sampleArrives, hr, hst]
  rw [taken, takeSample_faults hf, judged_untested (by rw [hst]; rfl)]
  exact faults_again (Engine.at_put_self ..) hst hf

/-- The position whose pickup came to rest. -/
def Position.halted (x : Position) : Position := { x with pickup := x.pickup.standstill }

/-- The zero-speed timer of a start that failed and meets a SHUTDOWN entry on the speed (R83, R101). -/
theorem updateFaults_shutdown {now old : Nat} {x : Position} {i : Fin 16} {en : ProtEntry}
    (hf : x.failedAt now = true) (hi : T.inForce p i = some en) (hact : en.action = .shutdown)
    (h₀ : en.persistMs = 0) (hq : en.quantity = .pickupSpeed) (hg : en.minRpm = 0) (hh : en.holdsOn 0 = true)
    (hk : x.prot[i] = ⟨.stopped, false⟩) : updateFaults T p now old x.halted ≠ [] := by
  have active : ((protAtPickup T p now old x.halted).prot[i]).active = true := by
    have pair : (protAtPickup T p now old x.halted).prot[i] = (⟨.stopped, false⟩ : Pair).test now 0 true := by
      have open_ : en.gateOpen x.halted.pickup.speed = true := decide_eq_true (hg ▸ Nat.le_refl 0)
      have value : x.halted.quantity en.quantity = some 0 := by rw [hq]; rfl
      have station : en.quantity.ofStation = false := by rw [hq]; rfl
      have same : x.halted.prot[i] = ⟨.stopped, false⟩ := hk
      simp only [Fin.getElem_fin] at same
      simp only [protAtPickup, Fin.getElem_fin, Vector.getElem_ofFn, pairAtPickup, hi, open_, Bool.not_true, Bool.false_eq_true,
        if_false, station, Bool.not_false, if_true, testPair, value, hh, Bool.and_self, h₀, same]
    rw [pair]
    rfl
  have inactive : x.halted.prot[i].active = false := congrArg Pair.active hk
  unfold updateFaults pickupFaults
  rw [shutdownsTested_failed (show x.halted.failedAt now = true from hf)]
  exact List.append_ne_nil_of_right_ne_nil _ (shutdowns_ne_nil inactive (activeWith_shutdown hi hact active))

/-- The zero-speed timer of a start that failed with its stall watch armed (R83, R101). -/
theorem updateFaults_stall {now old : Nat} {x : Position} {pr : Profile} (hf : x.failedAt now = true)
    (hpr : T.profile p = some pr) (hr : 0 < pr.runningRpm) (hw : x.failedStart.any (·.watch) = true) :
    updateFaults T p now old x.halted ≠ [] := by
  have hst : x.halted.st = .faulted := st_of_failedAt hf
  have watched : x.halted.watched now = true := by
    rw [Position.watched, if_neg (by rw [hst]; nofun)]
    rw [Bool.and_eq_true]
    exact ⟨hf, hw⟩
  have below : belowRunning T p x.halted.pickup.speed = true := by
    rw [belowRunning, hpr]
    exact decide_eq_true hr
  have stalls : x.halted.stalls T p now = true := by
    rw [Position.stalls, below, watched]
    rfl
  unfold updateFaults pickupFaults
  rw [clocked_untested (by rw [hst]; rfl), stalls, if_pos rfl]
  simp

/-- A pickup update at rest of a position that is FAULTED and finds a fault more. -/
theorem zeroSpeedExpires_again (hst : (e.at p).st = .faulted)
    (hf : updateFaults T p e.now (e.at p).pickup.speed (e.at p).halted ≠ []) :
    (zeroSpeedExpires T p e).at p = (e.at p).halted.marked := by
  have halted : (e.put p (e.at p).halted).at p = (e.at p).halted := Engine.at_put_self ..
  have update := pickupUpdate_faults (T := T) (p := p) (e := e.put p (e.at p).halted) (old := (e.at p).pickup.speed)
    (by rw [halted]; exact hf)
  rw [halted, clocked_untested (x := (e.at p).halted) (by rw [Position.halted, hst]; rfl)] at update
  unfold zeroSpeedExpires
  exact (congrArg (Engine.at · p) update).trans (faults_again (Engine.at_put_self ..) hst hf)

/-- The link lost at the instant at which a start failed (R101, R107). -/
theorem linkLost_again (hf : (e.at p).failedAt e.now = true) :
    (linkLost T p e).at p = { e.at p with link := (e.at p).link.lose : Position }.marked := by
  have hst := st_of_failedAt hf
  unfold linkLost
  simp only [hst, hf, if_true]
  refine (fault_again (Engine.at_put_self ..) rfl).trans ?_
  simp only [Position.marked]

theorem lose_state (l : Link) : l.lose.state = .lost := by
  unfold Link.lose
  dsimp only
  split <;> rfl

/-- Settles O21. -/
theorem guardExpiryFailsTheHolder : Obligations.GuardExpiryFailsTheHolder := by
  refine ⟨fun s p c since period hp hb ht hst hc => ?_, fun s p since period hp hf ht hdue => ?_,
    fun s p raw smp i en hp hf ha hr hi hact h₀ hq ht hg hh => ?_, fun s p since period hp hf ht hdue hwhy => ?_⟩
  · obtain ⟨failed, ctx, same⟩ := guardExpires_at (T := s.tab)
      (e := (s.block.works.atTime (max s.eng.now (since + period))).eng) hb hst hc
    have still := event_still (f := guardExpires) failed.fixed
    have now := (event_now (s.block.works.atTime (max s.eng.now (since + period))) guardExpires).trans guardExpires_now
    refine ⟨_, exec_guardTimer hp ht, (still.failed failed).st, (still.failed failed).fault, still.ctx_none ctx, ?_⟩
    refine (congrArg _ now).trans (still.failedAt.trans same)
  · have now : max s.eng.now (since + period) = s.eng.now := by omega
    have lost := linkLost_again (T := s.tab) (e := (s.block.works.atTime (max s.eng.now (since + period))).eng) (p := p)
      (by rw [now]; exact hf)
    obtain ⟨still, carried⟩ := marked_event (w := s.block.works.atTime (max s.eng.now (since + period)))
      (f := fun T e => linkLost T p e) lost (st_of_failedAt hf)
    exact ⟨_, exec_sampleTimer hp ht, still.st.trans (st_of_failedAt hf), carried.linkState.trans (lose_state (s.pos p).link),
      still.fault⟩
  · have again := sampleArrives_again (T := s.tab) hr (st_of_failedAt hf)
      (sampleFaults_shutdown hf ha hi hact h₀ hq ht hg hh)
    obtain ⟨still, carried⟩ := marked_event (w := s.block.works) (f := fun T e => sampleArrives T p raw e) again (st_of_failedAt hf)
    exact ⟨_, exec_sample raw hp, still.st.trans (st_of_failedAt hf), carried.linkState, still.fault, still.prot⟩
  · have now : max s.eng.now (since + period) = s.eng.now := by omega
    have hst : (s.pos p).st = .faulted := st_of_failedAt hf
    have failed : ((s.block.works.atTime (max s.eng.now (since + period))).eng.at p).failedAt
        (s.block.works.atTime (max s.eng.now (since + period))).eng.now = true :=
      (congrArg (s.pos p).failedAt now).trans hf
    have again := zeroSpeedExpires_again (T := s.tab) (p := p)
      (e := (s.block.works.atTime (max s.eng.now (since + period))).eng) (st_of_failedAt hf) (by
      rcases hwhy with ⟨i, en, hi, hact, h₀, hq, hg, hh, hk⟩ | ⟨pr, hpr, hr, hw⟩
      · exact updateFaults_shutdown failed hi hact h₀ hq hg hh hk
      · exact updateFaults_stall failed hpr hr hw)
    obtain ⟨still, carried⟩ := marked_event (w := s.block.works.atTime (max s.eng.now (since + period)))
      (f := fun T e => zeroSpeedExpires T p e) again hst
    exact ⟨_, exec_zeroSpeedTimer hp ht, still.st.trans hst, congrArg Pickup.speed carried.pickup, still.fault⟩

end Sys2Proof.Machine
end

section
/-! SUPPORT. Causes that hold an engine: local control, a lost station, disagreement (R45 to R49, R107, R116, R117). -/

namespace Sys2Proof.Machine

/-- What equals a thing other than a third is other than that too. -/
theorem ne_of_eq_ne {α : Type} {a b c : α} (h : a = b) (hn : b ≠ c) : a ≠ c := fun hc => hn (h.symm.trans hc)

variable {T : Tables} {p : Pos} {e : Engine}

/-! ## Causes judged -/

/-- The states in which a held cause takes the engine to HELD at once (R46). -/
abbrev Position.inService (x : Position) : Prop := x.st = .ready ∨ x.st = .online ∨ x.st = .unloading

theorem Position.inService.causes {x : Position} (h : x.inService) (hs : x.Sound) : x.causes = .none := by
  rcases h with h | h | h <;> exact (hs.causes (by rw [h]; rfl)).1

theorem judgeCauses_inService {add remove : Causes} (h : (e.at p).inService)
    (hc : (((e.at p).causes.minus remove).union add).isEmpty = false) :
    judgeCauses T p add remove e = enterHeld T p (((e.at p).causes.minus remove).union add) e := by
  unfold judgeCauses
  rcases h with h | h | h <;> simp [h, hc]

theorem judgeCauses_held {add remove : Causes} (h : (e.at p).st = .held)
    (hc : (((e.at p).causes.minus remove).union add).isEmpty = false) : ∃ t, judgeCauses T p add remove e =
      e.put p { e.at p with causes := ((e.at p).causes.minus remove).union add, holdT := t } := by
  unfold judgeCauses
  simp only [h, hc, Bool.false_and, Bool.false_eq_true, if_false]
  exact ⟨_, rfl⟩

theorem minus_none (c : Causes) : c.minus .none = c := by
  simp [Causes.minus, Causes.none]

theorem none_minus_union (remove add : Causes) : (Causes.none.minus remove).union add = add := by
  simp [Causes.minus, Causes.union, Causes.none]

theorem holdTimer_congr {a : Engine} (h : a.now = e.now) : holdTimer T p a = holdTimer T p e := by
  simp only [holdTimer, Engine.timer_eq, h]

theorem enter_now (T : Tables) (p : Pos) (dest : PState) (e : Engine) : (enter T p dest e).now = e.now := by
  unfold enter
  dsimp only
  rw [(handDrive_touches T p _).now]
  split
  · exact (leaveBus_busOnly ..).now
  · rfl

/-- A position taken to HELD while the latch is clear (R46, R49). -/
structure Held (x : Position) (causes : Causes) (holdT : Timer) (link : Link) : Prop where
  st : x.st = .held
  causes : x.causes = causes
  holdT : x.holdT = holdT
  link : LinkHanded link x.link

theorem enterHeld_held {causes : Causes} (hl : e.res.latch = false) : Held ((enterHeld T p causes e).at p) causes
    (if causes.localPanel then .stopped else holdTimer T p e) (((e.at p).leave .held).arrive .held).link := by
  obtain ⟨l, h, hk⟩ := enter_at T p .held e
  have res : (enter T p .held e).res.latch = false := (congrArg Resolver.latch (enter_res ..)).trans hl
  unfold enterHeld
  dsimp only
  rw [Engine.modify_res, res, if_neg Bool.false_ne_true, Engine.at_modify_self, h]
  exact ⟨rfl, rfl, by rw [holdTimer_congr (enter_now ..)], hk⟩

theorem Held.fixed {x : Position} {causes : Causes} {t : Timer} {l : Link} (h : Held x causes t l) : x.st.fixed = true := by
  rw [h.st]
  rfl

/-- A sound position that is HELD carries no load (R137). -/
theorem Position.Sound.held_duty {x : Position} (h : x.Sound) (hst : x.st = .held) : x.chan.duty = 0 :=
  (h.duty (by rw [hst]; rfl)).1

/-! ## Disagreement (R117) -/

/-- The position at which disagreement is found. -/
def Position.disagrees (x : Position) : Position := { x with link := { x.link with disagreeT := .stopped, disagree := true } }

theorem disagreeExpires_eq : disagreeExpires T p e = judgeCauses T p .disagreeOnly .none (e.put p (e.at p).disagrees) := rfl

/-- Disagreement takes an engine in service to HELD (R46, R117). -/
theorem disagreeExpires_inService (h : (e.at p).inService) (hs : (e.at p).Sound) (hl : e.res.latch = false) :
    ∃ t, Held ((disagreeExpires T p e).at p) .disagreeOnly t
      (((e.at p).disagrees.leave .held).arrive .held).link := by
  have causes : (((e.put p (e.at p).disagrees).at p).causes.minus .none).union .disagreeOnly = .disagreeOnly := by
    rw [Engine.at_put_self]
    exact (congrArg (fun c : Causes => (c.minus .none).union .disagreeOnly) (h.causes hs)).trans rfl
  have held := enterHeld_held (T := T) (p := p) (causes := .disagreeOnly) (e := e.put p (e.at p).disagrees) hl
  rw [Engine.at_put_self] at held
  rw [disagreeExpires_eq, judgeCauses_inService (by rw [Engine.at_put_self]; exact h) (by rw [causes]; rfl), causes]
  exact ⟨_, held⟩

/-- Settles O31. -/
theorem disagreementHoldsTheEngine : Obligations.DisagreementHoldsTheEngine := by
  intro s p since period hp ht hs
  have run := exec_disagreeTimer hp ht
  refine ⟨_, run, fun hst hl => ?_, fun hst => ?_⟩
  · obtain ⟨t, held⟩ := disagreeExpires_inService (T := s.tab) (p := p)
      (e := (s.block.works.atTime (max s.eng.now (since + period))).eng) hst (hs p) hl
    have still := event_still (f := fun T e => disagreeExpires T p e) held.fixed
    have st := still.st.trans held.st
    exact ⟨st, still.causes.trans held.causes, ((exec_moves run).positions hs p).held_duty st,
      still.disagree.trans held.link.disagree, still.disagreeT.trans held.link.disagreeT⟩
  · obtain ⟨t, judged⟩ := judgeCauses_held (T := s.tab) (p := p) (add := .disagreeOnly) (remove := .none)
      (e := (s.block.works.atTime (max s.eng.now (since + period))).eng.put p (s.pos p).disagrees)
      (by rw [Engine.at_put_self]; exact hst) (by simp [Causes.union, Causes.isEmpty, Causes.disagreeOnly])
    have at_ := congrArg (Engine.at · p) judged
    simp only [Engine.at_put_self, minus_none] at at_
    have still := event_still_st (w := s.block.works.atTime (max s.eng.now (since + period)))
      (f := fun T e => disagreeExpires T p e) (p := p) (st := .held) ((congrArg Position.st at_).trans hst) rfl
    refine ⟨still.st.trans ((congrArg Position.st at_).trans hst), still.causes.trans ((congrArg Position.causes at_).trans ?_),
      still.disagree.trans ((congrArg (fun x : Position => x.link.disagree) at_).trans rfl),
      still.disagreeT.trans ((congrArg (fun x : Position => x.link.disagreeT) at_).trans rfl)⟩
    simp [Causes.union, Causes.disagreeOnly, Causes.none, Position.disagrees]

/-! ## The station lost (R107, R108) -/

/-- The position whose station fell silent, with its pairs on station quantities suspended (R107, R145). -/
def Position.unheard (T : Tables) (p : Pos) (x : Position) : Position := protSuspend T p { x with link := x.link.lose }

theorem lose_sampleT (l : Link) : l.lose.sampleT = .stopped := by
  unfold Link.lose
  dsimp only
  split <;> rfl

/-- A lost station is noted on the link before anything else is done at the position. -/
theorem linkLost_touches (T : Tables) (p : Pos) (e : Engine) : ∃ x : Position, x.link.state = .lost ∧
    x.link.sampleT = .stopped ∧ Touches T p (e.put p x) (linkLost T p e) := by
  have state := lose_state (e.at p).link
  have sampleT := lose_sampleT (e.at p).link
  unfold linkLost
  dsimp only
  split
  · exact ⟨_, state, sampleT, .refl ..⟩
  · exact ⟨_, state, sampleT, fault_touches ..⟩
  iterate 4 exact ⟨_, state, sampleT, judgeCauses_touches ..⟩
  · split
    · exact ⟨_, state, sampleT, fault_touches ..⟩
    · exact ⟨_, state, sampleT, .refl ..⟩
  · exact ⟨_, state, sampleT, .refl ..⟩

theorem linkLost_off (h : (e.at p).st = .off) :
    linkLost T p e = e.put p { e.at p with link := (e.at p).link.lose.unset } := by
  simp [linkLost, h]

theorem linkLost_off_at (h : (e.at p).st = .off) : ((linkLost T p e).at p).st = .off ∧
    ((linkLost T p e).at p).link.state = .lost ∧ ((linkLost T p e).at p).link.setup = .unset := by
  rw [linkLost_off h, Engine.at_put_self]
  exact ⟨h, lose_state _, rfl⟩

theorem linkLost_starting (h : (e.at p).st = .starting) :
    linkLost T p e = fault T p .stationLost none (e.put p ((e.at p).unheard T p)) := by
  simp [linkLost, h, Position.unheard, protSuspend]

/-- A start whose station is lost fails (R84). -/
theorem linkLost_fails {c : StepCtx} (h : (e.at p).st = .starting) (hc : (e.at p).ctx = some c) :
    Failed .stationLost (some c.ptr) none ((linkLost T p e).at p) := by
  have st : ((e.at p).unheard T p).st = .starting := h
  have ctx : ((e.at p).unheard T p).ctx = some c := hc
  have failed := faultWith_failed (T := T) (p := p) (e := e.put p ((e.at p).unheard T p)) (code := .stationLost)
    (step := some c.ptr) (value := none) (by rw [Engine.at_put_self, st]; nofun)
  have step : ((e.put p ((e.at p).unheard T p)).at p).faultStep = some c.ptr := by
    rw [Engine.at_put_self, Position.faultStep, if_pos st, ctx]
    rfl
  rw [linkLost_starting h, fault, step]
  exact failed

theorem linkLost_inService (h : (e.at p).inService ∨ (e.at p).st = .held) :
    linkLost T p e = judgeCauses T p .linkOnly (protectRemoved T (e.at p) ((e.at p).unheard T p))
      (e.put p ((e.at p).unheard T p)) := by
  rcases h with (h | h | h) | h <;> simp [linkLost, h, Position.unheard, protSuspend]

theorem linkLost_held (h : (e.at p).st = .held) : ∃ c t, linkLost T p e =
    e.put p { (e.at p).unheard T p with causes := c, holdT := t } ∧ c.link = true := by
  have put : (e.put p ((e.at p).unheard T p)).at p = (e.at p).unheard T p := Engine.at_put_self ..
  have link : ∀ c : Causes, (c.union .linkOnly).link = true := fun c => Bool.or_true _
  obtain ⟨t, judged⟩ := judgeCauses_held (T := T) (p := p) (add := .linkOnly)
    (remove := protectRemoved T (e.at p) ((e.at p).unheard T p)) (e := e.put p ((e.at p).unheard T p))
    (by rw [put]; exact h) (by simp [Causes.isEmpty, link])
  rw [put, Engine.put_put] at judged
  exact ⟨_, t, (linkLost_inService (Or.inr h)).trans judged, link _⟩

theorem linkLost_holds (h : (e.at p).inService) (hs : (e.at p).Sound) (hl : e.res.latch = false) :
    ∃ t l, Held ((linkLost T p e).at p) .linkOnly t l := by
  have put : (e.put p ((e.at p).unheard T p)).at p = (e.at p).unheard T p := Engine.at_put_self ..
  have causes : ((((e.put p ((e.at p).unheard T p)).at p).causes.minus
      (protectRemoved T (e.at p) ((e.at p).unheard T p))).union .linkOnly) = .linkOnly := by
    rw [put]
    have none : ((e.at p).unheard T p).causes = .none := h.causes hs
    rw [none, none_minus_union]
  have held := enterHeld_held (T := T) (p := p) (causes := .linkOnly) (e := e.put p ((e.at p).unheard T p)) hl
  rw [linkLost_inService (Or.inl h), judgeCauses_inService (by rw [put]; exact h) (by rw [causes]; rfl), causes]
  exact ⟨_, _, held⟩

/-- Settles O27. -/
theorem sampleTimerExpiryLosesTheStation : Obligations.SampleTimerExpiryLosesTheStation := by
  intro s p since period hp ht hna hni hs
  have run := exec_sampleTimer hp ht
  have carried := event_carried (s.block.works.atTime (max s.eng.now (since + period))) (fun T e => linkLost T p e) p
  obtain ⟨x, state, sampleT, touches⟩ := linkLost_touches s.tab p (s.block.works.atTime (max s.eng.now (since + period))).eng
  have self := touches.self
  rw [Engine.at_put_self] at self
  refine ⟨_, run, carried.linkState.trans (self.linkState.trans state), carried.sampleT.trans (self.sampleT.trans sampleT),
    fun hst => ?_, fun c hst hc => ?_, fun hst hl => ?_, fun hst => ?_⟩
  · obtain ⟨st, state, setup⟩ := linkLost_off_at (T := s.tab) (p := p)
      (e := (s.block.works.atTime (max s.eng.now (since + period))).eng) hst
    have still := event_calm (w := s.block.works.atTime (max s.eng.now (since + period)))
      (f := fun T e => linkLost T p e) (p := p) touches.res fun z =>
        calm_of_unstartable st (Or.inr (Or.inl (ne_of_eq_ne setup nofun)))
    exact ⟨still.st.trans st, (still.setup.setup_unheard (ne_of_eq_ne state nofun)).trans setup⟩
  · have failed := linkLost_fails (T := s.tab) (p := p)
      (e := (s.block.works.atTime (max s.eng.now (since + period))).eng) hst hc
    have after := (event_still (f := fun T e => linkLost T p e) failed.fixed).failed failed
    exact ⟨after.st, after.fault⟩
  · obtain ⟨t, l, held⟩ := linkLost_holds (T := s.tab) (p := p)
      (e := (s.block.works.atTime (max s.eng.now (since + period))).eng) hst (hs p) hl
    have still := event_still (f := fun T e => linkLost T p e) held.fixed
    have st := still.st.trans held.st
    exact ⟨st, still.causes.trans held.causes, ((exec_moves run).positions hs p).held_duty st⟩
  · obtain ⟨c, t, eq, link⟩ := linkLost_held (T := s.tab) (p := p)
      (e := (s.block.works.atTime (max s.eng.now (since + period))).eng) hst
    have at_ := congrArg (Engine.at · p) eq
    simp only [Engine.at_put_self] at at_
    have still := event_still_st (w := s.block.works.atTime (max s.eng.now (since + period)))
      (f := fun T e => linkLost T p e) (p := p) (st := .held) ((congrArg Position.st at_).trans hst) rfl
    exact ⟨still.st.trans ((congrArg Position.st at_).trans hst),
      (congrArg Causes.link (still.causes.trans ((congrArg Position.causes at_)))).trans link⟩

/-! ## Local control (R46, R116) -/

theorem inForce_none_pairs {now : Nat} {x : Position} (h : ∀ i, T.inForce p i = none) :
    (protAtSample T p now x).prot = x.prot := by
  refine Vector.ext fun i hi => ?_
  simp [protAtSample, pairAtSample, h]

theorem shutdowns_same {x y : Position} (h : y.prot = x.prot) : shutdowns T x y = [] := by
  unfold shutdowns
  rw [List.map_eq_nil_iff, List.filter_eq_nil_iff]
  intro i _
  simp only [Position.activeWith, h]
  cases x.prot[i].active <;> simp

/-- Without an entry in force, a sample at an engine in service brings no fault. -/
theorem sampleFaults_none {s : Sample} {now : Nat} {x : Position} (h : ∀ i, T.inForce p i = none) (hst : x.inService) :
    sampleFaults T p s now x = [] := by
  have lost : losesStart x s now = false := by
    rcases hst with hst | hst | hst <;> simp [losesStart, Position.failedAt, hst]
  have none : shutdownsTested T now x (protAtSample T p now (x.heard T p s now)) = [] := by
    unfold shutdownsTested
    split
    · exact shutdowns_same (inForce_none_pairs h)
    · rfl
  rw [sampleFaults, lost, none]
  rfl

theorem resyncs_not_off {x y : Position} (h : x.st ≠ .off) : resyncs T p x y = false := by
  simp [resyncs, h]

/-- Of the position that a sample finds all but the pairs and the link stays. -/
theorem judged_eq (s : Sample) (now : Nat) (x : Position) : ∃ v l, x.judged T p s now = { x with prot := v, link := l } ∧
    l.state = .up ∧ l.latest = some s ∧
    l.sampleT = (match T.profile p with
      | none => .stopped
      | some pr => .running now (ms pr.sampleTimeoutMs)) ∧
    l.setup = (x.link.judgeSetup x.st s).setup := by
  obtain ⟨t, b, h, -⟩ := disagreeTest_keeps T p now (x.sampled T p s now)
  unfold Position.judged
  rw [h]
  unfold Position.sampled
  split <;> exact ⟨_, _, rfl, rfl, rfl, rfl, rfl⟩

theorem judged_sound {s : Sample} {now : Nat} {x : Position} (h : x.Sound) (ht : x.st.tested = true) :
    (x.judged T p s now).Sound := by
  obtain ⟨v, l, eq, -⟩ := judged_eq (T := T) (p := p) s now x
  rw [eq]
  have tested : x.st.tested ≠ false := by rw [ht]; nofun
  refine ⟨h.duty, h.load, h.causes, h.ctx, h.fault, h.linger, h.stop, fun hn => absurd hn tested, fun hn => absurd hn tested,
    fun hn => ?_⟩
  rcases hn with hn | hn <;> rw [show x.st = _ from hn] at ht <;> cases ht

/-- A position that carries no load settles no phase. -/
theorem settles_unloaded {now : Nat} {x : Position} {s : Sample} (h : x.load.speed = none) : settles T p now x s = false := by
  simp [settles, h]

/-- A step is tested in STARTING alone. -/
theorem stepTestSample_held {s : Sample} (h : (e.at p).st = .held) : stepTestSample T p s e = e := by
  simp [stepTestSample, Position.runningRec, h]

/-- A sample with the local flag takes an engine in service to HELD (R46, R116). -/
theorem takeSample_local {s : Sample} (hs : e.Sound) (hst : (e.at p).inService) (hl : e.res.latch = false)
    (hlocal : s.localPanel = true) (hn : ∀ i, T.inForce p i = none) : ∃ c l, c.localPanel = true ∧
      Held ((takeSample T p s e).at p) c .stopped l := by
  have faultless := sampleFaults_none (s := s) (now := e.now) hn hst
  have off : (e.at p).st ≠ .off := by rcases hst with h | h | h <;> simp [h]
  obtain ⟨v, l, judged, -⟩ := judged_eq (T := T) (p := p) s e.now (e.at p)
  have put : (e.put p ((e.at p).judged T p s e.now)).at p = (e.at p).judged T p s e.now := Engine.at_put_self ..
  have st : ((e.put p ((e.at p).judged T p s e.now)).at p).inService := by rw [put, judged]; exact hst
  have sound : (e.put p ((e.at p).judged T p s e.now)).Sound :=
    sound_put hs (judged_sound (hs p) (by rcases hst with h | h | h <;> rw [h] <;> rfl))
  generalize hc : ((((e.put p ((e.at p).judged T p s e.now)).at p).causes.minus
    (causesRemoved T (e.at p) ((e.at p).judged T p s e.now) s ((e.at p).agrees T p s e.now))).union
      (causesAdded T (e.at p) ((e.at p).judged T p s e.now) s)) = c
  have localPanel : c.localPanel = true := by
    rw [← hc]
    simp [Causes.union, causesAdded, hlocal]
  have held := enterHeld_held (T := T) (p := p) (causes := c) (e := e.put p ((e.at p).judged T p s e.now)) hl
  rw [localPanel, if_pos rfl] at held
  have causes := judgeCauses_inService (T := T) st (by rw [hc]; simp [Causes.isEmpty, localPanel])
  rw [hc] at causes
  have taken : sampleJudged T p s e = enterHeld T p c (e.put p ((e.at p).judged T p s e.now)) := by
    rw [sampleJudged, causes, stepTestSample_held held.st]
  have unloaded := ((enterHeld_sound (T := T) (p := p) (causes := c) sound p).load (by rw [held.st]; rfl)).2.1
  rw [takeSample_judged faultless (resyncs_not_off off), taken, settles_unloaded unloaded, if_neg Bool.false_ne_true]
  exact ⟨c, _, localPanel, held⟩

theorem sampleArrives_taken {raw : List Byte} {s : Sample} (hr : sampleOfRaw raw = some s) (ha : (e.at p).st ≠ .absent)
    (hi : (e.at p).st ≠ .isolated) : sampleArrives T p raw e = takeSample T p s e := by
  simp [sampleArrives, hr, ha, hi]

/-- Settles O26. -/
theorem localFlagHoldsTheEngine : Obligations.LocalFlagHoldsTheEngine := by
  intro s p raw x hp hr hlocal hl hn hst hs
  have run := exec_sample (p := p) raw hp
  obtain ⟨c, l, localPanel, held⟩ := takeSample_local (T := s.tab) hs hst hl hlocal hn
  rw [← sampleArrives_taken hr (by rcases hst with h | h | h <;> simp [h]) (by rcases hst with h | h | h <;> simp [h])] at held
  have still := event_still (w := s.block.works) (f := fun T e => sampleArrives T p raw e) held.fixed
  have st := still.st.trans held.st
  exact ⟨_, run, st, (congrArg Causes.localPanel (still.causes.trans held.causes)).trans localPanel,
    still.holdT.trans held.holdT, ((exec_moves run).positions hs p).held_duty st⟩

end Sys2Proof.Machine
end

section
/-! SUPPORT. Pickup updates: the accepted edge and the standstill (R50, R51, R54, R55, R83, R119 to R122). -/

namespace Sys2Proof.Machine

variable {T : Tables} {p : Pos} {e : Engine}

/-! ## Several faults at one event -/

theorem faults_more {x : Position} (h : x.st = .faulted) (list : List (FaultCode × Option Int)) (hx : e.at p = x) :
    (faults T p list e).at p = x ∨ (faults T p list e).at p = x.marked := by
  rcases list with _ | ⟨f, rest⟩
  · exact Or.inl hx
  · exact Or.inr (faults_again hx h (List.cons_ne_nil f rest))

/-- The fault record that the first of several faults wrote (R58). -/
structure FirstFault (code : FaultCode) (step : Option Nat) (value : Option Int) (x : Position) : Prop where
  st : x.st = .faulted
  code : x.fault.code = some code
  step : x.fault.step = step
  value : x.fault.value = value

theorem faults_first {f : FaultCode × Option Int} {rest : List (FaultCode × Option Int)} (h : (e.at p).st ≠ .faulted) :
    FirstFault f.1 (e.at p).faultStep f.2 ((faults T p (f :: rest) e).at p) := by
  have failed := faultWith_failed (T := T) (p := p) (code := f.1) (step := (e.at p).faultStep) (value := f.2) h
  have more := faults_more (T := T) failed.st rest (e := fault T p f.1 f.2 e) rfl
  have first : (faults T p (f :: rest) e).at p = (faults T p rest (fault T p f.1 f.2 e)).at p := rfl
  rw [first]
  rcases more with more | more <;> rw [more] <;>
    exact ⟨failed.st, congrArg FaultRecord.code failed.fault, congrArg FaultRecord.step failed.fault,
      congrArg FaultRecord.value failed.fault⟩

theorem Still.firstFault {x y : Position} {code : FaultCode} {step : Option Nat} {value : Option Int} (hs : Still x y)
    (h : FirstFault code step value x) : FirstFault code step value y :=
  ⟨hs.st.trans h.st, (congrArg FaultRecord.code hs.fault).trans h.code, (congrArg FaultRecord.step hs.fault).trans h.step,
    (congrArg FaultRecord.value hs.fault).trans h.value⟩

/-! ## The faults of a pickup update, in the order they are taken (R58) -/

variable {now old : Nat} {x : Position}

/-- Of the position that a pickup update finds all but the pairs and the disagree timer and mark stays. -/
theorem clocked_eq (T : Tables) (p : Pos) (now old : Nat) (x : Position) : ∃ v t b, x.clocked T p now old =
    { x with prot := v, link := { x.link with disagreeT := t, disagree := b } } := by
  obtain ⟨t, b, h, -⟩ := disagreeTest_keeps T p now (x.paced T p now old)
  unfold Position.clocked
  rw [h]
  unfold Position.paced
  split <;> exact ⟨_, t, b, rfl⟩

theorem clocked_st : (x.clocked T p now old).st = x.st := by
  obtain ⟨v, t, b, h⟩ := clocked_eq T p now old x
  rw [h]

theorem clocked_pickup : (x.clocked T p now old).pickup = x.pickup := by
  obtain ⟨v, t, b, h⟩ := clocked_eq T p now old x
  rw [h]

theorem clocked_faultStep : (x.clocked T p now old).faultStep = x.faultStep := by
  obtain ⟨v, t, b, h⟩ := clocked_eq T p now old x
  rw [h]
  rfl

theorem clocked_overspeeds : (x.clocked T p now old).overspeeds T p = x.overspeeds T p := by
  obtain ⟨v, t, b, h⟩ := clocked_eq T p now old x
  rw [h]
  rfl

theorem clocked_stopsUnexpectedly (stopped : Bool) :
    (x.clocked T p now old).stopsUnexpectedly T p stopped = x.stopsUnexpectedly T p stopped := by
  obtain ⟨v, t, b, h⟩ := clocked_eq T p now old x
  rw [h]
  rfl

theorem clocked_stalls : (x.clocked T p now old).stalls T p now = x.stalls T p now := by
  obtain ⟨v, t, b, h⟩ := clocked_eq T p now old x
  rw [h]
  rfl

/-- The faults of an update, told by the position it finds. -/
theorem updateFaults_eq : updateFaults T p now old x =
    (if x.overspeeds T p then [(FaultCode.overspeed, x.rpmValue)] else [])
      ++ (if x.stopsUnexpectedly T p (stoppedBy old x.pickup.speed) then [(FaultCode.unexpectedStop, x.rpmValue)] else [])
      ++ (if x.stalls T p now then [(FaultCode.stalledInStart, x.rpmValue)] else [])
      ++ shutdownsTested T now x (protAtPickup T p now old x) := by
  have value : (x.clocked T p now old).rpmValue = x.rpmValue :=
    congrArg (fun k : Pickup => some (Int.ofNat k.speed)) clocked_pickup
  unfold updateFaults pickupFaults
  rw [clocked_overspeeds, clocked_pickup, clocked_stopsUnexpectedly, clocked_stalls, value]

theorem updateFaults_overspeed (h : x.overspeeds T p = true) :
    ∃ rest, updateFaults T p now old x = (.overspeed, x.rpmValue) :: rest := by
  rw [updateFaults_eq, h, if_pos rfl]
  exact ⟨_, rfl⟩

theorem updateFaults_unexpected (h : x.overspeeds T p = false)
    (hu : x.stopsUnexpectedly T p (stoppedBy old x.pickup.speed) = true) :
    ∃ rest, updateFaults T p now old x = (.unexpectedStop, x.rpmValue) :: rest := by
  rw [updateFaults_eq, h, hu]
  exact ⟨_, rfl⟩

theorem updateFaults_stalled (h : x.overspeeds T p = false)
    (hu : x.stopsUnexpectedly T p (stoppedBy old x.pickup.speed) = false) (hs : x.stalls T p now = true) :
    ∃ rest, updateFaults T p now old x = (.stalledInStart, x.rpmValue) :: rest := by
  rw [updateFaults_eq, h, hu, hs]
  exact ⟨_, rfl⟩

theorem updateFaults_none (h : x.overspeeds T p = false)
    (hu : x.stopsUnexpectedly T p (stoppedBy old x.pickup.speed) = false) (hs : x.stalls T p now = false)
    (ht : shutdownsTested T now x (protAtPickup T p now old x) = []) : updateFaults T p now old x = [] := by
  rw [updateFaults_eq, h, hu, hs, ht]
  rfl

/-- An update whose first fault is known, at a position that was not FAULTED. -/
theorem pickupUpdate_first {code : FaultCode} {value : Option Int} {rest : List (FaultCode × Option Int)}
    (hf : updateFaults T p e.now old (e.at p) = (code, value) :: rest) (h : (e.at p).st ≠ .faulted) :
    FirstFault code (e.at p).faultStep value ((pickupUpdate T p old e).at p) := by
  have first := faults_first (T := T) (p := p) (f := (code, value)) (rest := rest)
    (e := e.put p ((e.at p).clocked T p e.now old)) (by rw [Engine.at_put_self, clocked_st]; exact h)
  rw [Engine.at_put_self, clocked_faultStep] at first
  rw [pickupUpdate_faults (by rw [hf]; exact List.cons_ne_nil _ _), hf]
  exact first

/-- An update that brings faults to a position that is FAULTED. -/
theorem pickupUpdate_again (hf : updateFaults T p e.now old (e.at p) ≠ []) (h : (e.at p).st = .faulted) :
    (pickupUpdate T p old e).at p = (e.at p).marked := by
  rw [pickupUpdate_faults hf, clocked_untested (by rw [h]; rfl)]
  exact faults_again (Engine.at_put_self ..) h hf

/-! ## The filter timer (R119, R120) -/

/-- The pickup at the expiry of its filter timer. -/
def Pickup.filtered (k : Pickup) : Pickup := { k with filterT := .stopped, accepted := k.input }

/-- The position with an edge accepted. -/
def Position.edged (x : Position) (pr : Profile) (now : Nat) : Position :=
  { x with pickup := x.pickup.filtered.risingEdge pr.teeth now }

variable {pr : Profile}

theorem filterExpires_rising (hpr : pickupProfile T p (e.at p) = some pr) (hi : (e.at p).pickup.input = .high)
    (ha : (e.at p).pickup.accepted = .low) :
    filterExpires T p e = pickupUpdate T p (e.at p).pickup.speed (e.put p ((e.at p).edged pr e.now)) := by
  unfold filterExpires
  dsimp only
  rw [hpr]
  exact if_pos ⟨hi, ha⟩

theorem filterExpires_level (hpr : pickupProfile T p (e.at p) = some pr)
    (h : ¬ ((e.at p).pickup.input = .high ∧ (e.at p).pickup.accepted = .low)) :
    filterExpires T p e = e.put p { e.at p with pickup := (e.at p).pickup.filtered } := by
  unfold filterExpires
  dsimp only
  rw [hpr]
  exact if_neg h

theorem filterExpires_pickup (hpr : pickupProfile T p (e.at p) = some pr) : ((filterExpires T p e).at p).pickup =
    if (e.at p).pickup.input = .high ∧ (e.at p).pickup.accepted = .low then ((e.at p).edged pr e.now).pickup
    else (e.at p).pickup.filtered := by
  split
  next h =>
    have kept := (pickupUpdate_acts (k := false) (T := T) (p := p) (e := e.put p ((e.at p).edged pr e.now))
      (e.at p).pickup.speed).pickup rfl
    rw [Engine.at_put_self] at kept
    rw [filterExpires_rising hpr h.1 h.2, kept]
  next h => rw [filterExpires_level hpr h, Engine.at_put_self]

theorem overspeeds_of (hpr : T.profile p = some pr) (hs : pr.overspeedRpm ≤ x.pickup.speed) (ha : x.st ≠ .absent)
    (hi : x.st ≠ .isolated) : x.overspeeds T p = true := by
  simp [Position.overspeeds, hpr, hs, ha, hi]

theorem not_overspeeds (hpr : T.profile p = some pr) (hs : x.pickup.speed < pr.overspeedRpm) : x.overspeeds T p = false := by
  simp [Position.overspeeds, hpr, hs]

theorem belowRunning_of (hpr : T.profile p = some pr) {speed : Nat} (hs : speed < pr.runningRpm) :
    belowRunning T p speed = true := by
  simp [belowRunning, hpr, hs]

theorem stopsUnexpectedly_inService {stopped : Bool} (hst : x.inService) (hb : belowRunning T p x.pickup.speed = true) :
    x.stopsUnexpectedly T p stopped = true := by
  rcases hst with h | h | h <;> simp [Position.stopsUnexpectedly, h, hb]

/-- The first fault of an update through the close of its event. -/
theorem update_event_first {w : Works} {f : Tables → Engine → Engine} {code : FaultCode} {value : Option Int}
    {rest : List (FaultCode × Option Int)} (hf : f w.tab w.eng = pickupUpdate w.tab p old (w.eng.put p x))
    (hu : updateFaults w.tab p w.eng.now old x = (code, value) :: rest) (hx : x.st ≠ .faulted) :
    FirstFault code x.faultStep value ((w.event f).eng.at p) := by
  have first := pickupUpdate_first (T := w.tab) (p := p) (old := old) (e := w.eng.put p x) (code := code) (value := value)
    (rest := rest) (by rw [Engine.at_put_self]; exact hu) (by rw [Engine.at_put_self]; exact hx)
  rw [Engine.at_put_self, ← hf] at first
  exact (event_still_st first.st rfl).firstFault first

/-- A further fault of an update through the close of its event. -/
theorem update_event_again {w : Works} {f : Tables → Engine → Engine}
    (hf : f w.tab w.eng = pickupUpdate w.tab p old (w.eng.put p x)) (hu : updateFaults w.tab p w.eng.now old x ≠ [])
    (hx : x.st = .faulted) : ((w.event f).eng.at p).st = .faulted ∧ ((w.event f).eng.at p).fault = x.marked.fault := by
  have again := pickupUpdate_again (T := w.tab) (p := p) (old := old) (e := w.eng.put p x)
    (by rw [Engine.at_put_self]; exact hu) (by rw [Engine.at_put_self]; exact hx)
  rw [Engine.at_put_self, ← hf] at again
  obtain ⟨still, -⟩ := marked_event again hx
  exact ⟨still.st.trans hx, still.fault⟩

/-- An accepted rising edge, its event closed (R54, R55). -/
theorem edge_event {w : Works} (hpr : w.tab.profile p = some pr) (hna : (w.eng.at p).st ≠ .absent)
    (hi : (w.eng.at p).pickup.input = .high) (ha : (w.eng.at p).pickup.accepted = .low) :
    (pr.overspeedRpm ≤ ((w.eng.at p).edged pr w.eng.now).pickup.speed → (w.eng.at p).st ≠ .isolated →
      ((w.event fun T e => filterExpires T p e).eng.at p).st = .faulted ∧
      ((w.eng.at p).st = .faulted → ((w.event fun T e => filterExpires T p e).eng.at p).fault = (w.eng.at p).marked.fault) ∧
      ((w.eng.at p).st ≠ .faulted → FirstFault .overspeed (w.eng.at p).faultStep
        ((w.eng.at p).edged pr w.eng.now).rpmValue ((w.event fun T e => filterExpires T p e).eng.at p))) ∧
    (((w.eng.at p).edged pr w.eng.now).pickup.speed < pr.overspeedRpm →
      ((w.eng.at p).edged pr w.eng.now).pickup.speed < pr.runningRpm → (w.eng.at p).inService →
      FirstFault .unexpectedStop none ((w.eng.at p).edged pr w.eng.now).rpmValue
        ((w.event fun T e => filterExpires T p e).eng.at p)) := by
  have rising := filterExpires_rising (pickupProfile_of hpr hna) hi ha
  constructor
  · intro hs hni
    have overspeed := overspeeds_of (x := (w.eng.at p).edged pr w.eng.now) hpr hs hna hni
    obtain ⟨rest, hu⟩ := updateFaults_overspeed (now := w.eng.now) (old := (w.eng.at p).pickup.speed) overspeed
    by_cases hf : (w.eng.at p).st = .faulted
    · obtain ⟨st, mark⟩ := update_event_again (f := fun T e => filterExpires T p e) rising
        (by rw [hu]; exact List.cons_ne_nil _ _) hf
      exact ⟨st, fun _ => mark, fun hn => absurd hf hn⟩
    · have first := update_event_first (f := fun T e => filterExpires T p e) rising hu hf
      exact ⟨first.st, fun h => absurd h hf, fun _ => first⟩
  · intro hs hb hst
    obtain ⟨rest, hu⟩ := updateFaults_unexpected (now := w.eng.now) (old := (w.eng.at p).pickup.speed)
      (not_overspeeds (x := (w.eng.at p).edged pr w.eng.now) hpr hs)
      (stopsUnexpectedly_inService hst (belowRunning_of hpr hb))
    have first := update_event_first (f := fun T e => filterExpires T p e) rising hu
      (by rcases hst with h | h | h <;> exact ne_of_eq_ne h nofun)
    have step : ((w.eng.at p).edged pr w.eng.now).faultStep = none :=
      if_neg (by rcases hst with h | h | h <;> exact ne_of_eq_ne h nofun)
    rw [step] at first
    exact first

/-- The pickup at the expiry of a filter timer, its event closed. -/
theorem filterExpires_event_pickup {w : Works} (hpr : w.tab.profile p = some pr) (hna : (w.eng.at p).st ≠ .absent) :
    ((w.event fun T e => filterExpires T p e).eng.at p).pickup =
      if (w.eng.at p).pickup.input = .high ∧ (w.eng.at p).pickup.accepted = .low then
        ((w.eng.at p).edged pr w.eng.now).pickup
      else (w.eng.at p).pickup.filtered :=
  (event_carried w (fun T e => filterExpires T p e) p).pickup.trans (filterExpires_pickup (pickupProfile_of hpr hna))

/-- An accepted rising edge at the pickup (R119). -/
theorem edged_pickup (pr : Profile) (now : Nat) (x : Position) :
    (x.edged pr now).pickup.lastEdge = some now ∧ (x.edged pr now).pickup.zeroT = .running now 500000 ∧
    (x.edged pr now).pickup.history = (match x.pickup.lastEdge with
      | none => x.pickup.history
      | some t₀ => (x.pickup.history ++ [now - t₀]).drop (x.pickup.history.length + 1 - 16)) ∧
    (x.edged pr now).pickup.speed = rpmOf pr.teeth (x.edged pr now).pickup.history := by
  refine ⟨rfl, rfl, ?_, rfl⟩
  cases h : x.pickup.lastEdge <;> simp [Position.edged, Pickup.filtered, Pickup.risingEdge, joinHistory, h]

/-- Settles O33. -/
theorem filterExpiryAcceptsTheLevel : Obligations.FilterExpiryAcceptsTheLevel := by
  intro s p pr since period hp hpr hna ht
  have pickup := filterExpires_event_pickup (w := s.block.works.atTime (max s.eng.now (since + period))) hpr hna
  refine ⟨_, exec_filterTimer hp ht, ?_, ?_, fun hi ha => ?_, fun hi => ?_⟩
  · refine (congrArg Pickup.accepted pickup).trans ?_
    split <;> rfl
  · refine (congrArg Pickup.filterT pickup).trans ?_
    split <;> rfl
  · obtain ⟨overspeed, below⟩ := edge_event (w := s.block.works.atTime (max s.eng.now (since + period))) hpr hna hi ha
    obtain ⟨lastEdge, zeroT, history, speed⟩ := edged_pickup pr (max s.eng.now (since + period)) (s.pos p)
    have pickup := pickup.trans (if_pos ⟨hi, ha⟩)
    rw [State.pos, State.eng, State.expired, pickup]
    refine ⟨lastEdge, zeroT, history, speed, fun hs hni => ?_, fun hs hb hst => ?_⟩
    · obtain ⟨st, again, first⟩ := overspeed hs hni
      exact ⟨st, again, fun hn => ⟨(first hn).code, (first hn).step, (first hn).value⟩⟩
    · have first := below hs hb hst
      exact ⟨first.st, first.code, first.step, first.value⟩
  · have pickup := pickup.trans (if_neg fun h => by cases hi.symm.trans h.1)
    rw [State.pos, State.eng, State.expired, pickup]
    exact ⟨rfl, rfl⟩

/-! ## The zero-speed timer (R121) -/

theorem halted_overspeeds (hpr : T.profile p = some pr) (h : 0 < pr.overspeedRpm) : x.halted.overspeeds T p = false :=
  not_overspeeds hpr h

theorem not_failedAt (h : x.st ≠ .faulted) : x.failedAt now = false := by
  simp [Position.failedAt, h]

theorem faultStep_starting {c : StepCtx} (hst : x.st = .starting) (hc : x.ctx = some c) : x.faultStep = some c.ptr := by
  simp [Position.faultStep, hst, hc]

theorem not_stalls (hs : x.st ≠ .starting) (hf : x.st ≠ .faulted) : x.stalls T p now = false := by
  simp [Position.stalls, Position.watched, Position.failedAt, hs, hf]

theorem pickupUpdate_res (T : Tables) (p : Pos) (old : Nat) (e : Engine) : (pickupUpdate T p old e).res = e.res :=
  (pickupUpdate_acts (k := false) old).res

/-- An engine that comes to a standstill in STOPPING or HELD without a fault goes to OFF (R50, R51). -/
theorem zeroSpeedExpires_off (hst : (e.at p).st = .stopping ∨ (e.at p).st = .held) (hs : (e.at p).pickup.speed ≠ 0)
    (hf : updateFaults T p e.now (e.at p).pickup.speed (e.at p).halted = []) {r : Resolver} (hu : (e.at p).unstartable r) :
    ((zeroSpeedExpires T p e).at p).st = .off ∧ ((zeroSpeedExpires T p e).at p).causes = .none ∧
      ((zeroSpeedExpires T p e).at p).holdT = .stopped ∧
      ((e.at p).st = .stopping → ((zeroSpeedExpires T p e).at p).stopT = .stopped) ∧
      ((zeroSpeedExpires T p e).at p).unstartable r := by
  have put : (e.put p (e.at p).halted).at p = (e.at p).halted := Engine.at_put_self ..
  obtain ⟨v, t, b, clocked⟩ := clocked_eq T p e.now (e.at p).pickup.speed (e.at p).halted
  have off := pickupUpdate_stopped (T := T) (p := p) (e := e.put p (e.at p).halted) (old := (e.at p).pickup.speed)
    (by rw [put]; exact hf)
    (by rw [put, clocked_pickup]; simp [stoppedBy, hs, Position.halted, Pickup.standstill])
    (by rw [put, clocked_st]; exact hst.symm)
  rw [put, Engine.put_put] at off
  have entered : zeroSpeedExpires T p e = enter T p .off (e.put p ((e.at p).halted.clocked T p e.now (e.at p).pickup.speed)) := off
  have unstartable := enter_off_unstartable (T := T) (p := p)
    (e := e.put p ((e.at p).halted.clocked T p e.now (e.at p).pickup.speed)) (r := r)
    (by rw [Engine.at_put_self, clocked]; exact hu)
  obtain ⟨l, at_, -⟩ := enter_at T p .off (e.put p ((e.at p).halted.clocked T p e.now (e.at p).pickup.speed))
  rw [entered]
  refine ⟨enter_st .., ?_, ?_, fun h => ?_, unstartable⟩ <;> rw [at_, Engine.at_put_self, clocked]
  · rfl
  · rfl
  · exact if_pos h

theorem zeroSpeedExpires_res : (zeroSpeedExpires T p e).res = e.res := pickupUpdate_res ..

/-- That standstill with its event closed, where the Planner cannot start the position. -/
theorem standstill_event {w : Works} (hst : (w.eng.at p).st = .stopping ∨ (w.eng.at p).st = .held)
    (hs : (w.eng.at p).pickup.speed ≠ 0)
    (hf : updateFaults w.tab p w.eng.now (w.eng.at p).pickup.speed (w.eng.at p).halted = [])
    (hu : (w.eng.at p).unstartable w.eng.res) : ((w.event fun T e => zeroSpeedExpires T p e).eng.at p).st = .off ∧
      ((w.event fun T e => zeroSpeedExpires T p e).eng.at p).causes = .none ∧
      ((w.event fun T e => zeroSpeedExpires T p e).eng.at p).holdT = .stopped ∧
      ((w.eng.at p).st = .stopping → ((w.event fun T e => zeroSpeedExpires T p e).eng.at p).stopT = .stopped) := by
  obtain ⟨st, causes, holdT, stopT, unstartable⟩ := zeroSpeedExpires_off hst hs hf hu
  have still := event_calm (w := w) (f := fun T e => zeroSpeedExpires T p e) (p := p) zeroSpeedExpires_res
    fun z => calm_of_unstartable st unstartable
  exact ⟨still.st.trans st, still.causes.trans causes, still.holdT.trans holdT, fun h => still.stopT.trans (stopT h)⟩

theorem pickup_pairs_none {y : Position} (h : ∀ i, T.inForce p i = none) : (protAtPickup T p now old y).prot = y.prot := by
  refine Vector.ext fun i hi => ?_
  simp [protAtPickup, pairAtPickup, h]

/-- Settles O35. -/
theorem zeroSpeedClearsThePickup : Obligations.ZeroSpeedClearsThePickup := by
  intro s p pr since period hp ht hpr hover
  have pickup := (event_carried (s.block.works.atTime (max s.eng.now (since + period)))
    (fun T e => zeroSpeedExpires T p e) p).pickup.trans
      ((pickupUpdate_acts (k := false) (s.pos p).pickup.speed).pickup rfl |>.trans
        (congrArg Position.pickup (Engine.at_put_self _ p (s.pos p).halted)))
  have calm := halted_overspeeds (x := s.pos p) hpr hover
  refine ⟨_, exec_zeroSpeedTimer hp ht, congrArg Pickup.speed pickup, congrArg Pickup.history pickup,
    congrArg Pickup.lastEdge pickup, congrArg Pickup.zeroT pickup, fun hst hsp hu hs => ?_, fun hst hsp hc => ?_,
    fun hst hsp hc hn hu => ?_, fun hst hr => ?_, fun c hst hc hw hsub hr => ?_⟩
  · have none := updateFaults_none (T := s.tab) (p := p) (now := max s.eng.now (since + period)) (old := (s.pos p).pickup.speed)
      calm (by simp [Position.stopsUnexpectedly, Position.halted, hst])
      (not_stalls (x := (s.pos p).halted) (ne_of_eq_ne hst nofun) (ne_of_eq_ne hst nofun))
      (shutdownsTested_of_untested (congrArg PState.tested hst) (not_failedAt (x := (s.pos p).halted) (ne_of_eq_ne hst nofun)))
    obtain ⟨st, -, -, stopT⟩ := standstill_event (w := s.block.works.atTime (max s.eng.now (since + period)))
      (Or.inl hst) hsp none hu
    exact ⟨st, stopT hst⟩
  · obtain ⟨rest, hf⟩ := updateFaults_unexpected (T := s.tab) (p := p) (now := max s.eng.now (since + period))
      (old := (s.pos p).pickup.speed) calm
      (by simp [Position.stopsUnexpectedly, Position.halted, hst, hc, stoppedBy, hsp, Pickup.standstill])
    have first := update_event_first (w := s.block.works.atTime (max s.eng.now (since + period)))
      (f := fun T e => zeroSpeedExpires T p e) rfl hf (ne_of_eq_ne hst nofun)
    exact ⟨first.st, first.code, first.value⟩
  · have none := updateFaults_none (T := s.tab) (p := p) (now := max s.eng.now (since + period)) (old := (s.pos p).pickup.speed)
      calm (by simp [Position.stopsUnexpectedly, Position.halted, hst, hc])
      (not_stalls (x := (s.pos p).halted) (ne_of_eq_ne hst nofun) (ne_of_eq_ne hst nofun))
      ((shutdownsTested_of_tested (congrArg PState.tested hst)).trans (shutdowns_same (pickup_pairs_none hn)))
    obtain ⟨st, causes, holdT, -⟩ := standstill_event (w := s.block.works.atTime (max s.eng.now (since + period)))
      (Or.inr hst) hsp none hu
    exact ⟨st, causes, holdT⟩
  · obtain ⟨rest, hf⟩ := updateFaults_unexpected (T := s.tab) (p := p) (now := max s.eng.now (since + period))
      (old := (s.pos p).pickup.speed) calm
      (stopsUnexpectedly_inService (x := (s.pos p).halted) hst (belowRunning_of hpr hr))
    have first := update_event_first (w := s.block.works.atTime (max s.eng.now (since + period)))
      (f := fun T e => zeroSpeedExpires T p e) rfl hf (by rcases hst with h | h | h <;> exact ne_of_eq_ne h nofun)
    exact ⟨first.st, first.code, first.value⟩
  · obtain ⟨rest, hf⟩ := updateFaults_stalled (T := s.tab) (p := p) (now := max s.eng.now (since + period))
      (old := (s.pos p).pickup.speed) calm (by simp [Position.stopsUnexpectedly, Position.halted, hst])
      (by simp [Position.stalls, Position.watched, Position.halted, Pickup.standstill, hst, hc, hw, hsub, belowRunning_of hpr hr])
    have first := update_event_first (w := s.block.works.atTime (max s.eng.now (since + period)))
      (f := fun T e => zeroSpeedExpires T p e) rfl hf (ne_of_eq_ne hst nofun)
    exact ⟨first.st, first.code, first.step.trans (faultStep_starting (x := (s.pos p).halted) hst hc), first.value⟩

end Sys2Proof.Machine
end

section
/-! SUPPORT. The end of a rest of the crank bus (R93, R94, R97). -/

namespace Sys2Proof.Machine

variable {T : Tables} {p : Pos} {e : Engine}

/-! ## The search for a requester (R93) -/

/-- The first of four that satisfies a predicate. -/
theorem find_of_four {α : Type} [DecidableEq α] (f : α → Bool) (a b c d x : α) : [a, b, c, d].find? f = some x ↔
    f x = true ∧ (x = a ∨ (x = b ∧ f a = false) ∨ (x = c ∧ f a = false ∧ f b = false) ∨
      (x = d ∧ f a = false ∧ f b = false ∧ f c = false)) := by
  simp only [List.find?_cons, List.find?_nil]
  cases ha : f a with
  | true => grind
  | false =>
    cases hb : f b with
    | true => grind
    | false =>
      cases hc : f c with
      | true => grind
      | false => cases hd : f d <;> grind

/-! ## Links alone changed -/

/-- Of every position the link alone changed, in frames, DRIVE content and refresh timer. -/
structure LinksOnly (a b : Engine) : Prop where
  now : b.now = a.now
  res : b.res = a.res
  bus : b.bus = a.bus
  pwm : b.pwm = a.pwm
  pos : ∀ p, ∃ l, b.at p = { a.at p with link := l } ∧ LinkHanded (a.at p).link l

theorem LinksOnly.refl (e : Engine) : LinksOnly e e := ⟨rfl, rfl, rfl, rfl, fun _ => ⟨_, rfl, .refl _⟩⟩

theorem LinksOnly.trans {a b c : Engine} (h₁ : LinksOnly a b) (h₂ : LinksOnly b c) : LinksOnly a c := by
  refine ⟨h₂.now.trans h₁.now, h₂.res.trans h₁.res, h₂.bus.trans h₁.bus, h₂.pwm.trans h₁.pwm, fun p => ?_⟩
  obtain ⟨l, hl, kl⟩ := h₁.pos p
  obtain ⟨m, hm, km⟩ := h₂.pos p
  rw [hl] at hm km
  exact ⟨m, hm, kl.trans km⟩

theorem LinkOnly.links {a b : Engine} (h : LinkOnly p a b) : LinksOnly a b := by
  obtain ⟨l, rfl, k⟩ := h
  refine ⟨rfl, rfl, rfl, rfl, fun q => ?_⟩
  rw [Engine.at_put]
  split
  next hq => subst hq; exact ⟨l, rfl, k⟩
  next => exact ⟨_, rfl, .refl _⟩

theorem eachPos_links {f : Pos → Engine → Engine} (h : ∀ p e, LinkOnly p e (f p e)) (e : Engine) : LinksOnly e (e.eachPos f) :=
  (((h .A e).links.trans (h .B _).links).trans (h .C _).links).trans (h .D _).links

/-! ## An event of the bus alone -/

theorem GrantedOnly.steady {now : Nat} {x y : Position} (h : GrantedOnly T now x y) : y.onlineSteady = x.onlineSteady := by
  rcases h with rfl | rfl <;> rfl

theorem BusOnly.unmoved {a b : Engine} (h : BusOnly T a b) : Unmoved a b := by
  refine ⟨h.res, fun p => ?_, fun p => ?_, fun p => ?_, fun p => ?_, fun p => ?_, fun p => ?_, fun p => ?_⟩ <;>
    rcases h.all p with hb | hb <;> rw [hb]
  rfl

theorem BusOnly.stale {T' : Tables} {a b : Engine} (h : BusOnly T a b) (p : Pos) : slotStale T' b p = slotStale T' a p := by
  unfold slotStale scheduleTarget
  rcases h.all p with hb | hb <;> rw [hb, h.res]
  rfl

/-- The close of an event of the bus in a quiet block. -/
theorem quiet_bus {w : Works} {e : Engine} (hq : w.quiet = true) (h : BusOnly T w.eng e) :
    LinksOnly e (closeEvent w { w with eng := e }).eng := by
  obtain ⟨-, hw⟩ := quiet_iff.1 hq
  have moved := h.unmoved.moved fun p _ => by rcases h.all p with hb | hb <;> rw [hb]
  rw [quiet_close (w := { w with eng := e }) hq rfl h.unmoved (by simp [commitDue, moved]) fun p => (h.stale p).trans (hw p).2.1]
  exact eachPos_links (fun p e => refreshDrive_linkOnly ..) e

/-- The bus between a rest and the next grant. -/
def Bus.opened (b : Bus) : Bus := { b with state := .free, restT := .stopped }

theorem grantNext_none (hf : e.bus.state = .free) (h : firstRequester e.bus.requesters e.bus.pointer = none) :
    grantNext T e = e := by
  rw [grantNext, if_pos hf, h]

theorem grantNext_some (hf : e.bus.state = .free) (h : firstRequester e.bus.requesters e.bus.pointer = some p) :
    grantNext T e = giveBus T p e := by
  rw [grantNext, if_pos hf, h]

theorem busRestExpires_free (h : firstRequester e.bus.requesters e.bus.pointer = none) :
    busRestExpires T e = { e with bus := e.bus.opened } := grantNext_none (e := { e with bus := e.bus.opened }) rfl h

theorem busRestExpires_grants (h : firstRequester e.bus.requesters e.bus.pointer = some p) :
    busRestExpires T e = giveBus T p { e with bus := e.bus.opened } :=
  grantNext_some (e := { e with bus := e.bus.opened }) rfl h

theorem giveBus_bus (T : Tables) (p : Pos) (e : Engine) : (giveBus T p e).bus = e.bus.give T e.now p := rfl

theorem give_guardT {b : Bus} {now : Nat} {u : UnitParams} (h : T.t1 = some u) :
    (b.give T now p).guardT = .running now (u.crankGuardS * 1000000) := by
  simp [Bus.give, h, sec]

theorem giveBus_ctx {c : StepCtx} {r : StepRec} (hc : (e.at p).ctx = some c) (hr : T.stepRec c.ptr = some r) :
    ((giveBus T p e).at p).ctx =
      some { c with sub := .runningStep, stepT := .running e.now (r.timeLimitS * 1000000) } := by
  simp only [giveBus, Engine.at_modify_self, Engine.at_bus, hc, Option.map_some, StepCtx.granted, hr, sec]

/-- Settles O20. -/
theorem restEndsInAGrantOrFree : Obligations.RestEndsInAGrantOrFree := by
  constructor
  · exact fun set start p => find_of_four (fun p => set.get p) start start.next start.next.next start.next.next.next p
  · intro s since period hp hq _ ht
    have links := quiet_bus (w := s.block.works.atTime (max s.eng.now (since + period))) (quiet_atTime hq)
      (busRestExpires_busOnly (T := s.tab))
    refine ⟨_, exec_restTimer hp ht, ?_⟩
    cases hf : firstRequester s.eng.bus.requesters s.eng.bus.pointer with
    | none =>
      have bus := links.bus.trans (congrArg Engine.bus
        (busRestExpires_free (e := (s.block.works.atTime (max s.eng.now (since + period))).eng) hf))
      exact ⟨congrArg Bus.restT bus, fun _ => ⟨congrArg Bus.state bus, (congrArg Bus.requesters bus).trans rfl,
        (congrArg Bus.pointer bus).trans rfl⟩, nofun⟩
    | some q =>
      have granted := busRestExpires_grants (T := s.tab)
        (e := (s.block.works.atTime (max s.eng.now (since + period))).eng) hf
      have bus := links.bus.trans ((congrArg Engine.bus granted).trans (giveBus_bus ..))
      refine ⟨congrArg Bus.restT bus, nofun, fun p hpq => ?_⟩
      cases hpq
      obtain ⟨l, hl, -⟩ := links.pos q
      exact ⟨congrArg Bus.state bus, congrArg Bus.requesters bus, congrArg Bus.pointer bus,
        fun u hu => (congrArg Bus.guardT bus).trans (give_guardT hu),
        fun c r hc hr => (congrArg Position.ctx hl).trans ((congrArg (fun e : Engine => (e.at q).ctx) granted).trans
          (giveBus_ctx hc hr))⟩

end Sys2Proof.Machine
end

section
/-! SUPPORT. The link of a position without orders through the close of an event: after its handshake no frame is added to it until
the DRIVE contents are brought up to date. -/

namespace Sys2Proof.Machine

variable {T : Tables} {p q : Pos} {e a b : Engine} {z : Bool}

/-- The link of a position is as it was. -/
def LinkStays (p : Pos) (a b : Engine) : Prop := (b.at p).link = (a.at p).link

theorem LinkStays.refl (p : Pos) (e : Engine) : LinkStays p e e := rfl

theorem LinkStays.trans {a b c : Engine} (h₁ : LinkStays p a b) (h₂ : LinkStays p b c) : LinkStays p a c :=
  Eq.trans h₂ h₁

theorem GrantedOnly.link {now : Nat} {x y : Position} (h : GrantedOnly T now x y) : y.link = x.link := by
  rcases h with rfl | rfl <;> rfl

theorem Touches.linkStays {a b : Engine} (h : Touches T q a b) (hq : p ≠ q) : LinkStays p a b := (h.others p hq).link

theorem modify_linkStays {f : Position → Position} (h : ∀ x, (f x).link = x.link) : LinkStays p e (e.modify q f) := by
  unfold LinkStays
  rw [Engine.at_modify]
  split
  next hq => subst hq; exact h _
  next => rfl

theorem eachPos_linkStays {f : Pos → Engine → Engine} (h : ∀ q e, LinkStays p e (f q e)) : LinkStays p e (e.eachPos f) :=
  (((h .A e).trans (h .B _)).trans (h .C _)).trans (h .D _)

/-! ## Calm through a drift -/

theorem Drift.calm (h : Drift z a b) (hc : (a.at p).calm z a.res.mayRun = true) : (b.at p).calm z b.res.mayRun = true := by
  cases hb : (b.at p).calm z b.res.mayRun
  · rw [h.not_calm hb] at hc
    cases hc
  · rfl

theorem calm_states {m : Bool} {x : Position} (h : x.calm z m = true) : x.st ≠ .ready ∧ x.st ≠ .online := by
  constructor <;> intro hs
  · rw [not_calm (Or.inl hs)] at h
    cases h
  · rw [not_calm (Or.inr hs)] at h
    cases h

/-- A drift at whose end the link of a calm position is as it was. -/
structure CalmDrift (z : Bool) (p : Pos) (a b : Engine) : Prop where
  drift : Drift z a b
  link : (a.at p).calm z a.res.mayRun = true → LinkStays p a b

theorem CalmDrift.refl (e : Engine) : CalmDrift z p e e := ⟨.refl e, fun _ => .refl p e⟩

theorem CalmDrift.trans {c : Engine} (h₁ : CalmDrift z p a b) (h₂ : CalmDrift z p b c) : CalmDrift z p a c :=
  ⟨h₁.drift.trans h₂.drift, fun hc => (h₁.link hc).trans (h₂.link (h₁.drift.calm hc))⟩

theorem restepAll_calm (T : Tables) (e : Engine) : CalmDrift z p e (restepAll T e) := by
  refine ⟨restepAll_drift T e, fun _ => ?_⟩
  unfold restepAll
  split
  · exact .refl ..
  · exact eachPos_linkStays fun q e => modify_linkStays fun _ => rfl

theorem beforeTargets_calm (T : Tables) (linger : Option Pos) (turned : Bool) (e : Engine) :
    CalmDrift z p e (beforeTargets T linger turned e) := by
  have stopped : ∀ e, CalmDrift z p e (stopLinger linger e) := fun e => by
    refine ⟨stopLinger_drift _ _, fun _ => ?_⟩
    unfold stopLinger
    split
    · exact .refl ..
    · exact modify_linkStays fun _ => rfl
  unfold beforeTargets
  split
  · exact (restepAll_calm T e).trans (stopped _)
  · exact stopped e

theorem writeSlots_calm (T : Tables) (e : Engine) : CalmDrift z p e (writeSlots T e) := by
  refine ⟨writeSlots_drift T e, fun _ => eachPos_linkStays fun q e => ?_⟩
  by_cases hq : p = q
  · subst hq
    unfold LinkStays writeSlot
    dsimp only
    split
    · split
      · rfl
      · rw [Engine.at_put_self]
    · rfl
  · exact (writeSlot_touches T q e).linkStays hq

theorem actOnTargets_calm (T : Tables) (list : List Pos) (e : Engine) : CalmDrift z p e (actOnTargets T list e) := by
  refine ⟨actOnTargets_drift T list e, fun hc => ?_⟩
  unfold actOnTargets
  induction list generalizing e with
  | nil => exact .refl ..
  | cons q rest ih =>
    have step : CalmDrift z p e (if (e.at q).st = .online then actOnTarget T q e else e) := by
      refine ⟨actOnTargets_drift T [q] e, fun hc => ?_⟩
      split
      next ho =>
        by_cases hq : p = q
        · subst hq
          exact absurd ho (calm_states hc).2
        · exact (actOnTarget_touches T q e).linkStays hq
      next => exact .refl ..
    exact (step.link hc).trans (ih _ (step.drift.calm hc))

/-- An order of a plan leaves the link of every position that is calm when the plan is made. -/
theorem giveOrder_calm {e₀ : Engine} (o : Order) (h : o.sparesCalm z e₀) (h₀ : Drift z e₀ e)
    (hc : (e₀.at p).calm z e₀.res.mayRun = true) : LinkStays p e (giveOrder T e o) := by
  obtain ⟨ready, online⟩ := calm_states (h₀.calm hc)
  have st := ((h₀.pos p).still hc).st
  cases o with
  | demote q =>
    by_cases hq : p = q
    · subst hq
      simp [LinkStays, giveOrder, demoteOrder, online]
    · exact (demoteOrder_touches T q e).linkStays hq
  | promote q =>
    by_cases hq : p = q
    · subst hq
      simp [LinkStays, giveOrder, promoteOrder, ready]
    · exact (promoteOrder_touches T q e).linkStays hq
  | start q =>
    by_cases hq : p = q
    · subst hq
      have off : (e.at p).st ≠ .off := ne_of_eq_ne st (h hc)
      simp [LinkStays, giveOrder, startOrder, off]
    · exact (startOrder_touches T q e).linkStays hq
  | abandon q =>
    by_cases hq : p = q
    · subst hq
      have starting : (e.at p).st ≠ .starting := ne_of_eq_ne st (h hc)
      simp [LinkStays, giveOrder, abandonOrder, starting]
    · exact (abandonOrder_touches T q e).linkStays hq
  | stop q =>
    by_cases hq : p = q
    · subst hq
      simp [LinkStays, giveOrder, stopOrder, ready]
    · exact (stopOrder_touches T q e).linkStays hq
  | lingerStart q =>
    unfold giveOrder lingerStart
    dsimp only
    split
    · exact .refl ..
    · split
      · exact modify_linkStays fun _ => rfl
      · exact .refl ..
  | lingerStop q => exact modify_linkStays fun _ => rfl

theorem giveOrders_calm {e₀ : Engine} (list : List Order) (h : ∀ o ∈ list, o.sparesCalm z e₀) (h₀ : Drift z e₀ e)
    (hc : (e₀.at p).calm z e₀.res.mayRun = true) : LinkStays p e (list.foldl (giveOrder T) e) := by
  induction list generalizing e with
  | nil => exact .refl ..
  | cons o rest ih =>
    have ho := h o (by simp)
    exact (giveOrder_calm o ho h₀ hc).trans
      (ih (fun o ho => h o (List.mem_cons_of_mem _ ho)) (giveOrder_drift T o h₀ ho))

theorem evaluate_calm (T : Tables) (linger : Option Pos) (force : Bool) (changed : List Pos) (e : Engine)
    (hz : zeroCondition T e.res = true → z = true) : CalmDrift z p e (evaluate T linger force changed e).1 := by
  refine ⟨evaluate_drift T linger force changed e hz, fun hc => ?_⟩
  have spares : ∀ o ∈ ((staging T linger e).plan (.make fun p => (e.at p).st)).orders, o.sparesCalm z e :=
    fun o ho => planned_spares hz ho
  have orders := giveOrders_calm (T := T) (p := p) _ spares (.refl e) hc
  have drift := giveOrders_drift (z := z) T _ spares (.refl e)
  have acted := (actOnTargets_calm (z := z) (p := p) T changed _).link (drift.calm hc)
  unfold evaluate
  dsimp only
  refine (orders.trans acted).trans ?_
  unfold LinkStays report
  dsimp only
  split <;> rfl

/-! ## The rounds -/

/-- What the rounds of a close do from the handshakes on. -/
structure CalmCloses (z : Bool) (p : Pos) (a b : Works) : Prop where
  closes : Closes z a b
  link : (a.eng.at p).calm z a.eng.res.mayRun = true → LinkStays p a.eng b.eng

theorem CalmCloses.trans {a b c : Works} (h₁ : CalmCloses z p a b) (h₂ : CalmCloses z p b c) : CalmCloses z p a c :=
  ⟨h₁.closes.trans h₂.closes, fun hc => (h₁.link hc).trans (h₂.link (h₁.closes.eng.calm hc))⟩

theorem CalmDrift.closes {w : Works} {e : Engine} (h : CalmDrift z p w.eng e) : CalmCloses z p w { w with eng := e } :=
  ⟨.ofEngine h.drift, h.link⟩

theorem commitWhenDue_calm (start : Engine) (w : Works) : CalmCloses z p w (commitWhenDue start w) := by
  refine ⟨commitWhenDue_closes start w, fun _ => ?_⟩
  unfold commitWhenDue
  split <;> rfl

/-- One round of a close: from the handshakes on a calm position's link stays; then the close ends or another round follows. -/
theorem closeRounds_round (start : Engine) (fuel : Nat) (ref : Works) (linger : Option Pos) (commit : Bool) (w : Works)
    (hz : w.mayZero = true → z = true) : ∃ w', CalmCloses z p (handshakes w) w' ∧
      (closeRounds start (fuel + 1) ref linger commit w = w' ∨
        ∃ ref', closeRounds start (fuel + 1) ref linger commit w = closeRounds start fuel ref' none false w') := by
  rw [closeRounds]
  dsimp only
  have greeted : Closes z w (handshakes w) := handshakes_closes w
  have h : CalmCloses z p (handshakes w) (commitWhenDue start (handshakes w)) := commitWhenDue_calm start _
  have hz := (greeted.trans h.closes).mayZero hz
  generalize commitWhenDue start (handshakes w) = w' at h hz ⊢
  generalize (if linger.isSome = true then linger else zeroLinger w'.eng) = linger'
  have g : ∀ l t, CalmDrift z p w'.eng (writeSlots w'.tab (beforeTargets w'.tab l t w'.eng)) := fun l t =>
    (beforeTargets_calm w'.tab l t w'.eng).trans (writeSlots_calm w'.tab _)
  split
  · refine ⟨_, h.trans (CalmDrift.closes ((g _ _).trans (evaluate_calm w'.tab _ _ _ _ fun he => hz ?_))), Or.inr ⟨_, rfl⟩⟩
    rw [(g _ _).drift.res.zero] at he
    simp [Works.mayZero, he]
  · split
    · exact ⟨_, h.trans (g _ _).closes, Or.inl rfl⟩
    · exact ⟨_, h.trans (CalmDrift.closes ((g _ _).trans (actOnTargets_calm w'.tab _ _))), Or.inr ⟨_, rfl⟩⟩

/-- A handshake at a position, seen from it: its own where R111 allows it. -/
theorem handshakes_at (w : Works) (p : Pos) : ∃ e, e.at p = w.eng.at p ∧ e.now = w.eng.now ∧
    (handshakes w).eng.at p = (handshake w.tab p e).at p := by
  obtain ⟨e, before, after⟩ := eachPos_turn (p := p) (R := fun a b : Engine => b.at p = a.at p ∧ b.now = a.now)
    (fun _ => ⟨rfl, rfl⟩) (fun h₁ h₂ => ⟨h₂.1.trans h₁.1, h₂.2.trans h₁.2⟩) (f := handshake w.tab)
    (fun q e hq => by
      refine ⟨?_, (handshake_drift (z := true) w.tab q e).now⟩
      unfold handshake
      dsimp only
      split
      · rfl
      · split
        · exact Engine.at_put_other _ _ hq.symm
        · rfl) w.eng
  exact ⟨e, before.1, before.2, after.1⟩

/-- Where R111 allows no handshake none is begun. -/
theorem handshakes_silent {w : Works} (hg : (w.eng.at p).greets = false) : (handshakes w).eng.at p = w.eng.at p := by
  obtain ⟨e, before, -, after⟩ := handshakes_at w p
  rw [after, ← before]
  unfold handshake
  dsimp only
  split
  · rfl
  · rw [before, if_neg (by rw [hg]; nofun), before]

theorem Still.greets {x y : Position} (hs : Still x y) (hl : y.link = x.link) : y.greets = x.greets := by
  simp [Position.greets, hl, hs.st]

/-- The link of a calm position that begins no handshake stays through the rounds of a close. -/
theorem closeRounds_link (start : Engine) (fuel : Nat) (ref : Works) (linger : Option Pos) (commit : Bool) (w : Works)
    (hz : w.mayZero = true → z = true) (hc : (w.eng.at p).calm z w.eng.res.mayRun = true)
    (hg : (w.eng.at p).greets = false) : LinkStays p w.eng (closeRounds start fuel ref linger commit w).eng := by
  induction fuel generalizing ref linger commit w with
  | zero => exact .refl ..
  | succ n ih =>
    obtain ⟨w', round, h⟩ := closeRounds_round (z := z) (p := p) start n ref linger commit w hz
    have silent := handshakes_silent hg
    have greeted : Closes z w (handshakes w) := handshakes_closes w
    have closes := greeted.trans round.closes
    have stays : LinkStays p w.eng w'.eng :=
      LinkStays.trans (congrArg Position.link silent) (round.link (greeted.eng.calm hc))
    rcases h with h | ⟨ref', h⟩
    · rw [h]
      exact stays
    · rw [h]
      have still := (closes.eng.pos p).still hc
      exact stays.trans (ih ref' none false w' (closes.mayZero hz) (closes.eng.calm hc) ((still.greets stays).trans hg))

/-- The link of a position that is calm and silent once its handshake has begun stays so through the rounds of a close. -/
theorem closeRounds_greeted (start : Engine) (fuel : Nat) (ref : Works) (linger : Option Pos) (commit : Bool) (w : Works)
    (hz : w.mayZero = true → z = true) (hc : (w.eng.at p).calm z w.eng.res.mayRun = true)
    (hg : ((handshakes w).eng.at p).greets = false) :
    LinkStays p (handshakes w).eng (closeRounds start (fuel + 1) ref linger commit w).eng := by
  obtain ⟨w', round, h⟩ := closeRounds_round (z := z) (p := p) start fuel ref linger commit w hz
  have greeted : Closes z w (handshakes w) := handshakes_closes w
  have hc' := greeted.eng.calm hc
  have stays := round.link hc'
  rcases h with h | ⟨ref', h⟩
  · rw [h]
    exact stays
  · rw [h]
    have still := (round.closes.eng.pos p).still hc'
    exact stays.trans (closeRounds_link start fuel ref' none false w' ((greeted.trans round.closes).mayZero hz)
      (round.closes.eng.calm hc') ((still.greets stays).trans hg))

/-! ## DRIVE at the close -/

/-- The DRIVE content depends on the tables of positions, profiles and steps alone. -/
theorem TabDrift.driveContent {a b : Works} (h : TabDrift a b) (p : Pos) (x : Position) :
    driveContent b.tab p x = driveContent a.tab p x := by
  rcases h.tab with h | ⟨-, h⟩ <;> rw [h]
  rfl

/-- The DRIVE content of a calm position that is not STARTING stays through a close. -/
theorem Still.driveContent {x y : Position} (h : Still x y) (hs : x.st ≠ .starting) :
    driveContent T p y = driveContent T p x := by
  unfold Machine.driveContent
  rw [h.st, h.load]
  split
  · rfl
  · split <;> first | rfl | contradiction

theorem refreshDrive_at {before : Engine} (hd : driveContent T p (e.at p) = (e.at p).link.drive)
    (hu : (e.at p).link.state = .up → (before.at p).link.state = .up ∨ (e.at p).link.droveAt e.now = true) :
    refreshDrive T before p e = e := by
  have handed : handDrive T p e = e := by simp [handDrive, hd]
  unfold refreshDrive
  rw [handed, driveAtUp]
  split
  next h =>
    rcases hu h.1 with hb | hb
    · exact absurd hb h.2.1
    · rw [hb] at h
      cases h.2.2
  next => rfl

/-- DRIVE at the end of a close, seen from one position. -/
theorem refreshed_at (T : Tables) (before : Engine) (p : Pos) (e : Engine) : ∃ e', e'.at p = e.at p ∧ e'.now = e.now ∧
    (e.eachPos (refreshDrive T before)).at p = (refreshDrive T before p e').at p := by
  obtain ⟨e', h₁, h₂⟩ := eachPos_turn (p := p) (R := fun a b : Engine => b.at p = a.at p ∧ b.now = a.now)
    (fun _ => ⟨rfl, rfl⟩) (fun h₁ h₂ => ⟨h₂.1.trans h₁.1, h₂.2.trans h₁.2⟩) (f := refreshDrive T before)
    (fun q e hq => by
      obtain ⟨l, hl, -⟩ := refreshDrive_linkOnly T before q e
      rw [hl]
      exact ⟨Engine.at_put_other _ _ hq.symm, rfl⟩) e
  exact ⟨e', h₁.1, h₁.2, h₂.1⟩

/-- The link of a calm position through a whole close, once its handshake has begun: no frame is added where the content is in force
and DRIVE was sent or the link was up before. -/
theorem closeEvent_link {start w : Works} {x : Position} (hx : (handshakes w).eng.at p = x)
    (hc : ∀ z, (w.eng.at p).calm z w.eng.res.mayRun = true) (hg : x.greets = false) (hs : x.st ≠ .starting)
    (hd : driveContent w.tab p x = x.link.drive)
    (hu : x.link.state = .up → (start.eng.at p).link.state = .up ∨ x.link.droveAt w.eng.now = true) :
    ((closeEvent start w).eng.at p).link = x.link := by
  subst hx
  have closes := closeRounds_closes (z := w.mayZero) start.eng closeFuel start none false w id
  have stays := closeRounds_greeted (p := p) start.eng 199 start none false w id (hc w.mayZero) hg
  have still := ((((handshakes_closes (z := w.mayZero) w).eng.pos p).still (hc _)))
  have whole := (closes.eng.pos p).still (hc _)
  generalize hr : closeRounds start.eng closeFuel start none false w = r at closes whole
  have link : (r.eng.at p).link = ((handshakes w).eng.at p).link := hr ▸ stays
  have content : driveContent r.tab p (r.eng.at p) = (r.eng.at p).link.drive := by
    have hs' : (w.eng.at p).st ≠ .starting := fun h => hs (still.st.trans h)
    rw [closes.toTabDrift.driveContent, whole.driveContent hs', ← still.driveContent hs', link, hd]
  have closed : closeEvent start w = { r with eng := r.eng.eachPos (refreshDrive r.tab start.eng) } := by
    unfold closeEvent closeEventWith
    rw [hr]
  obtain ⟨e', at_, now, refreshed⟩ := refreshed_at r.tab start.eng p r.eng
  rw [closed, refreshed, refreshDrive_at (by rw [at_]; exact content) (by rw [at_, link, now, closes.eng.now]; exact hu), at_, link]

end Sys2Proof.Machine
end

section
/-! SUPPORT. The confirm timer and the sample that finds a silent station (R105, R109 to R112, R115). -/

namespace Sys2Proof.Machine

variable {T : Tables} {p : Pos} {e : Engine} {l : Link} {pr : Profile} {now : Nat}

/-! ## SETUP and the DRIVE behind it (R109, R110) -/

/-- The SETUP that the next identifier goes out with (R110). -/
def Link.nextSetup (l : Link) (pr : Profile) : Setup :=
  ⟨(l.setupId + 1) % 256, pr.idleRpm, pr.maxRpm, pr.droopPermille, pr.govSet⟩

theorem sendDrive_refreshes {d : Drive} (hu : l.state = .up) (hd : l.drive = some d) :
    (l.sendDrive now).refreshT = .running now 200000 := by
  rw [Link.sendDrive, if_pos ⟨hu, by rw [hd]; rfl⟩, beginNext_refreshT]
  rfl

/-- DRIVE is behind a SETUP at once: the refresh timer runs anew. -/
theorem sendSetup_refreshT {d : Drive} (hu : l.state = .up) (hd : l.drive = some d) :
    (l.sendSetup pr now).refreshT = .running now 200000 := by
  unfold Link.sendSetup
  dsimp only
  have kept := produce_kept { l with setupId := (l.setupId + 1) % 256, confirmT := .running now (sec 1) }
    (.setup (l.nextSetup pr))
  exact sendDrive_refreshes (kept.state.trans hu) (kept.drive.trans hd)

/-- On an idle transmitter SETUP goes out at once, and DRIVE waits behind it. -/
theorem sendSetup_idle {d : Drive} (hu : l.state = .up) (hd : l.drive = some d) (hs : l.sending = none) (hw : l.waiting = []) :
    (l.sendSetup pr now).sending = some (.setup (l.nextSetup pr)) ∧ (l.sendSetup pr now).waiting = [.drive] := by
  simp [Link.sendSetup, Link.produce, Link.sendDrive, Link.beginNext, Link.nextSetup, hu, hd, hs, hw]

/-- Behind a frame that is being sent both wait, and a DRIVE that waited is replaced. -/
theorem sendSetup_busy {d : Drive} {f : StationFrame} (hu : l.state = .up) (hd : l.drive = some d) (hs : l.sending = some f) :
    (l.sendSetup pr now).sending = some f ∧
      (l.sendSetup pr now).waiting = l.waiting.filter (fun w => w != .drive) ++ [.setup (l.nextSetup pr), .drive] := by
  simp [Link.sendSetup, Link.produce, Link.sendDrive, Link.beginNext, Link.nextSetup, hu, hd, hs]

/-! ## The confirm timer (R112) -/

theorem confirmExpires_again (h : l.attempts < 3) :
    l.confirmExpires pr now = { l.sendSetup pr now with attempts := l.attempts + 1 } := by
  rw [Link.confirmExpires, if_pos h]
  exact congrArg (fun n => { l.sendSetup pr now with attempts := n + 1 }) (sendSetup_kept l pr now).attempts

theorem confirmExpires_fails (h : 3 ≤ l.attempts) :
    l.confirmExpires pr now = { l with setup := .failed, confirmT := .stopped } := by
  rw [Link.confirmExpires, if_neg (by omega)]

theorem confirmExpires_at (hpr : T.profile p = some pr) : confirmExpires T p e =
    e.put p { e.at p with link := (e.at p).link.confirmExpires pr e.now } := by
  unfold confirmExpires Engine.modify
  rw [hpr]

/-- A setup that is not UNSET is left by the close of an event. -/
theorem SetupDrift.kept {l l' : Link} (h : SetupDrift l l') (hn : l.setup ≠ .unset) :
    l'.setup = l.setup ∧ l'.setupId = l.setupId ∧ l'.attempts = l.attempts ∧ l'.confirmT = l.confirmT := by
  obtain ⟨-, h | h⟩ := h
  · exact h
  · exact absurd h.1 hn

/-- A position that is OFF or HELD and whose setup is not CONFIRMED has no orders. -/
theorem calm_unconfirmed {z : Bool} {x : Position} {r : Resolver} (hst : x.st = .off ∨ x.st = .held)
    (h : x.link.setup ≠ .confirmed) : x.calm z r.mayRun = true := by
  rcases hst with hst | hst
  · exact calm_of_unstartable hst (Or.inr (Or.inl h))
  · simp [Position.calm, hst, PState.fixed]

/-- The setup after the confirm timer is SENT again or FAILED (R112). -/
theorem confirmExpires_setup (hs : l.setup = .sent) : (l.confirmExpires pr now).setup = .sent ∨
    (l.confirmExpires pr now).setup = .failed := by
  by_cases h : l.attempts < 3
  · rw [confirmExpires_again h]
    exact Or.inl ((sendSetup_kept l pr now).setup.trans hs)
  · rw [confirmExpires_fails (by omega)]
    exact Or.inr rfl

/-- The event of the confirm timer at its position. -/
theorem confirm_event {w : Works} (hpr : w.tab.profile p = some pr) (hs : (w.eng.at p).link.setup = .sent)
    (hst : (w.eng.at p).st = .off ∨ (w.eng.at p).st = .held) :
    Still { w.eng.at p with link := (w.eng.at p).link.confirmExpires pr w.eng.now }
      ((w.event fun T e => confirmExpires T p e).eng.at p) := by
  have at_ : (confirmExpires w.tab p w.eng).at p =
      { w.eng.at p with link := (w.eng.at p).link.confirmExpires pr w.eng.now } := by
    rw [confirmExpires_at hpr, Engine.at_put_self]
  have setup := confirmExpires_setup (pr := pr) (now := w.eng.now) hs
  have still := event_calm (w := w) (f := fun T e => confirmExpires T p e) (p := p) rfl fun z => by
    rw [at_]
    exact calm_unconfirmed hst (by rcases setup with h | h <;> exact ne_of_eq_ne h nofun)
  rw [at_] at still
  exact still

/-- The event of the confirm timer in a quiet block while attempts remain: the frames of one link. -/
theorem confirm_event_quiet {w : Works} (hq : w.quiet = true) (hpr : w.tab.profile p = some pr)
    (h : (w.eng.at p).link.attempts < 3) : w.event (fun T e => confirmExpires T p e) =
      { w with eng := w.eng.put p { w.eng.at p with link := (w.eng.at p).link.confirmExpires pr w.eng.now } } := by
  have kept := sendSetup_kept (w.eng.at p).link pr w.eng.now
  have frames : FramesOnly (w.eng.at p).link ((w.eng.at p).link.confirmExpires pr w.eng.now) := by
    rw [confirmExpires_again h]
    exact ⟨kept.state, kept.latest, kept.setup, kept.drive⟩
  unfold Works.event
  dsimp only
  rw [confirmExpires_at hpr]
  exact quiet_frames hq frames

/-- The third expiry in a quiet block sends no frame. -/
theorem confirm_event_failed {w : Works} (hq : w.quiet = true) (hpr : w.tab.profile p = some pr)
    (h : 3 ≤ (w.eng.at p).link.attempts) (hst : (w.eng.at p).st = .off ∨ (w.eng.at p).st = .held) :
    ((w.event fun T e => confirmExpires T p e).eng.at p).link =
      { (w.eng.at p).link with setup := .failed, confirmT := .stopped } := by
  obtain ⟨-, content⟩ := (quiet_iff.1 hq).2 p |>.2
  have at_ : (confirmExpires w.tab p w.eng).at p =
      { w.eng.at p with link := { (w.eng.at p).link with setup := .failed, confirmT := .stopped } } := by
    rw [confirmExpires_at hpr, Engine.at_put_self, confirmExpires_fails h]
  have silent := handshakes_silent (p := p) (w := { w with eng := confirmExpires w.tab p w.eng }) (by
    rw [at_]
    rfl)
  rw [at_] at silent
  refine closeEvent_link (x := { w.eng.at p with link := { (w.eng.at p).link with setup := .failed, confirmT := .stopped } })
    silent (fun z => ?_) rfl ?_ content Or.inl
  · rw [at_]
    exact calm_unconfirmed hst nofun
  · rcases hst with hst | hst <;> exact ne_of_eq_ne hst nofun

/-- Settles O28. -/
theorem confirmExpiryRepeatsOrFails : Obligations.ConfirmExpiryRepeatsOrFails := by
  intro s p pr since period hp hpr ht hs hst
  have still := confirm_event (w := s.block.works.atTime (max s.eng.now (since + period))) hpr hs hst
  refine ⟨_, exec_confirmTimer hp ht, still.st, fun h => ?_, fun h => ?_, fun d hq h hu hd => ?_, fun hq h => ?_⟩
  · have kept := sendSetup_kept (s.pos p).link pr (max s.eng.now (since + period))
    obtain ⟨setup, setupId, attempts, confirmT⟩ := still.setup.kept
      (by rcases confirmExpires_setup hs with h | h <;> exact ne_of_eq_ne h nofun)
    have again := confirmExpires_again (pr := pr) (now := max s.eng.now (since + period)) h
    exact ⟨setup.trans ((congrArg Link.setup again).trans (kept.setup.trans hs)),
      setupId.trans ((congrArg Link.setupId again).trans (sendSetup_setupId ..)),
      attempts.trans ((congrArg Link.attempts again).trans rfl),
      confirmT.trans ((congrArg Link.confirmT again).trans (sendSetup_confirmT ..))⟩
  · obtain ⟨setup, -, -, confirmT⟩ := still.setup.kept
      (by rcases confirmExpires_setup hs with h | h <;> exact ne_of_eq_ne h nofun)
    have fails := confirmExpires_fails (pr := pr) (now := max s.eng.now (since + period)) h
    exact ⟨setup.trans ((congrArg Link.setup fails).trans rfl), confirmT.trans ((congrArg Link.confirmT fails).trans rfl)⟩
  · have event := confirm_event_quiet (w := s.block.works.atTime (max s.eng.now (since + period))) (quiet_atTime hq) hpr h
    have again := confirmExpires_again (pr := pr) (now := max s.eng.now (since + period)) h
    have kept := sendSetup_kept (s.pos p).link pr (max s.eng.now (since + period))
    have link : ((s.expired (since + period) fun T e => confirmExpires T p e).pos p).link =
        { (s.pos p).link.sendSetup pr (max s.eng.now (since + period)) with attempts := (s.pos p).link.attempts + 1 } := by
      rw [State.pos, State.eng, State.expired, event, Engine.at_put_self]
      exact again
    rw [link]
    refine ⟨sendSetup_refreshT hu hd, kept.drive.trans hd, sendSetup_idle hu hd, fun f => sendSetup_busy hu hd,
      fun q hq => ?_⟩
    rw [State.pos, State.eng, State.expired, event]
    exact Engine.at_put_other _ _ hq
  · have link := confirm_event_failed (w := s.block.works.atTime (max s.eng.now (since + period))) (quiet_atTime hq) hpr h hst
    exact ⟨(congrArg Link.sending link).trans rfl, (congrArg Link.waiting link).trans rfl⟩

/-! ## A valid sample (R105, R107) -/

/-- What a sample sets on the link and the operations after it keep. -/
structure HeardAs (a b : Link) : Prop where
  state : b.state = a.state
  latest : b.latest = a.latest
  sampleT : b.sampleT = a.sampleT

theorem HeardAs.trans {a b c : Link} (h₁ : HeardAs a b) (h₂ : HeardAs b c) : HeardAs a c :=
  ⟨h₂.state.trans h₁.state, h₂.latest.trans h₁.latest, h₂.sampleT.trans h₁.sampleT⟩

theorem Touches.heard {a b : Engine} (h : Touches T p a b) : HeardAs (a.at p).link (b.at p).link :=
  ⟨h.self.linkState, h.self.latest, h.self.sampleT⟩

theorem Carried.heard {x y : Position} (h : Carried x y) : HeardAs x.link y.link := ⟨h.linkState, h.latest, h.sampleT⟩

theorem endSpeedPhase_heard {late : Bool} : HeardAs (e.at p).link ((endSpeedPhase T p late e).at p).link := by
  have h := (completePhase_touches T p (e.modify p fun x => { x with load := { x.load with settleLate := late } })).heard
  rw [Engine.at_modify_self] at h
  exact h

theorem disagreeTest_heard (T : Tables) (p : Pos) (now : Nat) (x : Position) : HeardAs x.link (disagreeTest T p now x).1.link := by
  obtain ⟨t, b, h, -⟩ := disagreeTest_keeps T p now x
  rw [h]
  exact ⟨rfl, rfl, rfl⟩

/-- Whatever else a sample brings, it is noted on the link. -/
theorem takeSample_heard {s : Sample} : HeardAs ((e.at p).judged T p s e.now).link ((takeSample T p s e).at p).link := by
  have put : (e.put p ((e.at p).judged T p s e.now)).at p = (e.at p).judged T p s e.now := Engine.at_put_self ..
  by_cases hf : sampleFaults T p s e.now (e.at p) = []
  · cases hr : resyncs T p (e.at p) ((e.at p).judged T p s e.now)
    · have judged : HeardAs ((e.at p).judged T p s e.now).link ((sampleJudged T p s e).at p).link := by
        have h := ((judgeCauses_touches T p (causesAdded T (e.at p) ((e.at p).judged T p s e.now) s)
          (causesRemoved T (e.at p) ((e.at p).judged T p s e.now) s ((e.at p).agrees T p s e.now))
          (e.put p ((e.at p).judged T p s e.now))).trans (stepTestSample_touches T p s _)).heard
        rw [put] at h
        exact h
      rw [takeSample_judged hf hr]
      split
      · exact (judged.trans (writeSlot_touches ..).heard).trans endSpeedPhase_heard
      · exact judged
    · have held := (enterHeld_touches T p (resyncCauses s) (e.put p ((e.at p).judged T p s e.now))).heard
      rw [put] at held
      rw [takeSample_resync hf hr, Engine.at_put_self]
      exact held.trans (disagreeTest_heard ..)
  · have h := (faults_touches T p (sampleFaults T p s e.now (e.at p)) (e.put p ((e.at p).judged T p s e.now))).heard
    rw [put] at h
    rw [takeSample_faults hf]
    exact h

/-- A valid sample, its event closed, on the link. -/
theorem sample_event_link {w : Works} {raw : List Byte} {s : Sample} (hr : sampleOfRaw raw = some s)
    (ha : (w.eng.at p).st ≠ .absent) (hi : (w.eng.at p).st ≠ .isolated) :
    ((w.event fun T e => sampleArrives T p raw e).eng.at p).link.state = .up ∧
    ((w.event fun T e => sampleArrives T p raw e).eng.at p).link.latest = some s ∧
    ((w.event fun T e => sampleArrives T p raw e).eng.at p).link.sampleT = (match w.tab.profile p with
      | none => .stopped
      | some pr => .running w.eng.now (pr.sampleTimeoutMs * 1000)) := by
  obtain ⟨v, l, judged, state, latest, sampleT, -⟩ := judged_eq (T := w.tab) (p := p) s w.eng.now (w.eng.at p)
  have taken := takeSample_heard (T := w.tab) (p := p) (e := w.eng) (s := s)
  rw [← sampleArrives_taken hr ha hi, judged] at taken
  have heard := taken.trans (event_carried w (fun T e => sampleArrives T p raw e) p).heard
  exact ⟨heard.state.trans state, heard.latest.trans latest, heard.sampleT.trans sampleT⟩

/-! ## The sample that finds a silent OFF position (R111, R115) -/

/-- The link that a sample finds silent with its setup UNSET. -/
theorem heard_unset {s : Sample} {x : Position} (h : x.link.setup = .unset) :
    x.heard T p s now = { x with link := x.link.takeSample (T.profile p) s now } := by
  have same : x.link.judgeSetup x.st s = x.link := by simp [Link.judgeSetup, Link.confirmedBy, Link.lostBy, h]
  rw [Position.heard, same]

/-- An OFF position meets no fault at a sample. -/
theorem sampleFaults_off {s : Sample} {x : Position} (h : x.st = .off) : sampleFaults T p s now x = [] := by
  have none : shutdownsTested T now x (protAtSample T p now (x.heard T p s now)) = [] :=
    shutdownsTested_of_untested (by rw [h]; rfl) (not_failedAt (by rw [h]; nofun))
  rw [sampleFaults, none]
  simp [losesStart, Position.failedAt, h]

theorem resyncs_off {x y : Position} (hpr : T.profile p = some pr) (h : x.st = .off) (hu : x.link.state ≠ .up) :
    resyncs T p x y = y.engineRunning pr := by
  simp [resyncs, hpr, h, hu]

theorem stepTestSample_off {s : Sample} (h : (e.at p).st = .off) : stepTestSample T p s e = e := by
  simp [stepTestSample, Position.runningRec, h]

/-- The position with the sample taken. -/
def Position.taking (x : Position) (pr : Profile) (s : Sample) (now : Nat) : Position :=
  { x with link := x.link.takeSample (some pr) s now }

/-- A sample at a silent OFF position whose engine stands. -/
theorem takeSample_standing {s : Sample} (hpr : T.profile p = some pr) (hst : (e.at p).st = .off)
    (hu : (e.at p).link.state ≠ .up) (hs : (e.at p).link.setup = .unset) (hl : (e.at p).load.speed = none)
    (hrun : ((e.at p).taking pr s e.now).engineRunning pr = false) :
    takeSample T p s e = e.put p ((e.at p).taking pr s e.now) := by
  have judged : (e.at p).judged T p s e.now = (e.at p).taking pr s e.now := by
    rw [judged_untested (by rw [hst]; rfl), heard_unset hs, hpr]
    rfl
  have off : ((e.put p ((e.at p).taking pr s e.now)).at p).st = .off := by
    rw [Engine.at_put_self]
    exact hst
  have same : sampleJudged T p s e = e.put p ((e.at p).taking pr s e.now) := by
    unfold sampleJudged
    rw [judged, judgeCauses_untested (by rw [off]; rfl), stepTestSample_off off]
  rw [takeSample_judged (sampleFaults_off hst) (by rw [resyncs_off hpr hst hu, judged]; exact hrun), same,
    settles_unloaded (by rw [Engine.at_put_self]; exact hl), if_neg Bool.false_ne_true]

theorem handshake_greets (hpr : T.profile p = some pr) (hg : (e.at p).greets = true) : (handshake T p e).at p =
    { e.at p with link := (e.at p).link.beginHandshake pr ((e.at p).engineRunning pr) e.now } := by
  unfold handshake
  dsimp only
  rw [hpr]
  dsimp only
  rw [if_pos hg, Engine.at_put_self]

/-- The handshake at a position of a block. -/
theorem handshakes_greets {w : Works} (hpr : w.tab.profile p = some pr) (hg : (w.eng.at p).greets = true) :
    (handshakes w).eng.at p = { w.eng.at p with
      link := (w.eng.at p).link.beginHandshake pr ((w.eng.at p).engineRunning pr) w.eng.now } := by
  obtain ⟨e, at_, now, after⟩ := handshakes_at w p
  rw [after, handshake_greets hpr (by rw [at_]; exact hg), at_, now]

theorem beginHandshake_drive (running : Bool) : (l.beginHandshake pr running now).drive = l.drive := by
  unfold Link.beginHandshake
  dsimp only
  rw [(sendSetup_kept _ pr now).drive]
  split
  · rfl
  · exact (produce_kept ..).drive

/-- The items of a link after its handshake began (R111). -/
theorem beginHandshake_items {d : Drive} (running : Bool) (hu : l.state = .up) (hd : l.drive = some d) :
    (l.beginHandshake pr running now).setup = .sent ∧ (l.beginHandshake pr running now).attempts = 1 ∧
    (l.beginHandshake pr running now).setupId = (l.setupId + 1) % 256 ∧
    (l.beginHandshake pr running now).confirmT = .running now 1000000 ∧
    (l.beginHandshake pr running now).refreshT = .running now 200000 := by
  unfold Link.beginHandshake
  dsimp only
  refine ⟨rfl, rfl, ?_, sendSetup_confirmT .., ?_⟩
  · rw [sendSetup_setupId]
    split
    · rfl
    · rw [produce_setupId]
  · split
    · exact sendSetup_refreshT hu hd
    · exact sendSetup_refreshT ((produce_kept ..).state.trans hu) ((produce_kept ..).drive.trans hd)

/-- The frames of a handshake on an idle transmitter: CLEAR first where the engine stands (R111). -/
theorem beginHandshake_frames {d : Drive} (hu : l.state = .up) (hd : l.drive = some d) (hs : l.sending = none)
    (hw : l.waiting = []) :
    (l.beginHandshake pr false now).sending = some .clear ∧
    (l.beginHandshake pr false now).waiting = [.setup (l.nextSetup pr), .drive] ∧
    (l.beginHandshake pr true now).sending = some (.setup (l.nextSetup pr)) ∧
    (l.beginHandshake pr true now).waiting = [.drive] := by
  simp [Link.beginHandshake, Link.sendSetup, Link.produce, Link.sendDrive, Link.beginNext, Link.nextSetup, hu, hd, hs, hw]

/-- An event that leaves a position greeting its station, closed: the link with its handshake begun, and nothing more. -/
theorem greeting_event {w : Works} {f : Tables → Engine → Engine} {x : Position} {d : Drive}
    (hx : (f w.tab w.eng).at p = x) (hn : (f w.tab w.eng).now = w.eng.now) (hpr : w.tab.profile p = some pr)
    (hg : x.greets = true) (hd : x.link.drive = some d) (hc : driveContent w.tab p x = some d) :
    ((w.event f).eng.at p).link = x.link.beginHandshake pr (x.engineRunning pr) w.eng.now ∧ Still x ((w.event f).eng.at p) := by
  subst hx
  obtain ⟨setup, state, st⟩ := greets_iff.1 hg
  obtain ⟨sent, -, -, -, refreshT⟩ := beginHandshake_items (pr := pr) (now := w.eng.now)
    (((f w.tab w.eng).at p).engineRunning pr) state hd
  have calm : ∀ z, ((f w.tab w.eng).at p).calm z (f w.tab w.eng).res.mayRun = true := fun z =>
    calm_unconfirmed st (ne_of_eq_ne setup nofun)
  have greeted := handshakes_greets (w := { w with eng := f w.tab w.eng }) hpr hg
  rw [show ({ w with eng := f w.tab w.eng } : Works).eng.now = w.eng.now from hn] at greeted
  refine ⟨closeEvent_link greeted calm ?_ ?_ ?_ ?_, event_calm rfl calm⟩
  · simp [Position.greets, sent]
  · rcases st with st | st <;> exact ne_of_eq_ne st nofun
  · refine Eq.trans ?_ (hc.trans (hd.symm.trans (beginHandshake_drive ..).symm))
    rcases st with st | st <;> simp [driveContent, st]
  · intro _
    refine Or.inr ?_
    rw [show ({ w with eng := f w.tab w.eng } : Works).eng.now = w.eng.now from hn]
    simp [Link.droveAt, refreshT, ms]

/-- Where a handshake is to begin the DRIVE content comes into force and waits for it (R111, log 13). -/
theorem handDrive_greeting (hg : (e.at p).greets = true) : (handDrive T p e).at p =
    { e.at p with link := { (e.at p).link with drive := driveContent T p (e.at p) } } := by
  unfold handDrive
  dsimp only
  split
  next h => rw [h]
  next => exact Engine.at_put_self ..

theorem enter_greeting {dest : PState} {x : Position} (hs : (e.at p).st ≠ .starting) (hx : ((e.at p).leave dest).arrive dest = x)
    (hg : x.greets = true) : (enter T p dest e).at p = { x with link := { x.link with drive := driveContent T p x } } := by
  subst hx
  have entered : enter T p dest e = handDrive T p (e.modify p fun x => (x.leave dest).arrive dest) := by
    unfold enter
    dsimp only
    rw [if_neg fun h => hs h.1]
  rw [entered, handDrive_greeting (by rw [Engine.at_modify_self]; exact hg), Engine.at_modify_self]

/-- The position that a sample resynchronised: HELD, its station greeted next (R115). -/
structure Resynced (x y : Position) (pr : Profile) (s : Sample) (now : Nat) : Prop where
  st : y.st = .held
  causes : y.causes = resyncCauses s
  holdT : y.holdT = if s.localPanel then .stopped else .running now (pr.holdLimitS * 1000000)
  pickup : y.pickup = x.pickup
  state : y.link.state = .up
  latest : y.link.latest = some s
  setup : y.link.setup = .unset
  setupId : y.link.setupId = x.link.setupId
  sending : y.link.sending = x.link.sending
  waiting : y.link.waiting = x.link.waiting
  drive : y.link.drive = some ⟨pr.idleRpm, true, false⟩

theorem Resynced.greets {x y : Position} {s : Sample} (h : Resynced x y pr s now) : y.greets = true :=
  greets_iff.2 ⟨h.setup, h.state, Or.inr h.st⟩

/-- Only the disagree timer and mark differ. -/
theorem Resynced.tested {x y : Position} {s : Sample} (h : Resynced x y pr s now) (T : Tables) (p : Pos) (n : Nat) :
    Resynced x (disagreeTest T p n y).1 pr s now := by
  obtain ⟨t, b, eq, -⟩ := disagreeTest_keeps T p n y
  rw [eq]
  exact ⟨h.st, h.causes, h.holdT, h.pickup, h.state, h.latest, h.setup, h.setupId, h.sending, h.waiting, h.drive⟩

/-- A sample at a silent OFF position whose engine runs (R115). -/
theorem takeSample_running {s : Sample} (hpr : T.profile p = some pr) (hst : (e.at p).st = .off)
    (hu : (e.at p).link.state ≠ .up) (hs : (e.at p).link.setup = .unset) (hl : e.res.latch = false)
    (hrun : ((e.at p).taking pr s e.now).engineRunning pr = true) :
    Resynced (e.at p) ((takeSample T p s e).at p) pr s e.now := by
  have judged : (e.at p).judged T p s e.now = (e.at p).taking pr s e.now := by
    rw [judged_untested (by rw [hst]; rfl), heard_unset hs, hpr]
    rfl
  have put : (e.put p ((e.at p).taking pr s e.now)).at p = (e.at p).taking pr s e.now := Engine.at_put_self ..
  have greets : ((((e.at p).taking pr s e.now).leave .held).arrive .held).greets = true :=
    greets_iff.2 ⟨hs, rfl, Or.inr rfl⟩
  have entered := enter_greeting (T := T) (p := p) (e := e.put p ((e.at p).taking pr s e.now)) (dest := .held)
    (by rw [put]; exact ne_of_eq_ne hst nofun) (by rw [put]) greets
  have latch : (enter T p .held (e.put p ((e.at p).taking pr s e.now))).res.latch = false :=
    (congrArg Resolver.latch (enter_res ..)).trans hl
  have timer : holdTimer T p (enter T p .held (e.put p ((e.at p).taking pr s e.now))) =
      .running e.now (pr.holdLimitS * 1000000) := by
    rw [holdTimer_congr (e := e) (show (enter T p .held (e.put p ((e.at p).taking pr s e.now))).now = e.now from enter_now ..),
      holdTimer, hpr]
    rfl
  rw [takeSample_resync (sampleFaults_off hst) (by rw [resyncs_off hpr hst hu, judged]; exact hrun), judged,
    Engine.at_put_self]
  refine Resynced.tested ?_ ..
  unfold enterHeld
  dsimp only
  rw [Engine.modify_res, latch, if_neg Bool.false_ne_true, Engine.at_modify_self, entered, timer]
  exact ⟨rfl, rfl, rfl, rfl, rfl, rfl, hs, rfl, rfl, rfl, by simp [driveContent, hpr, Position.arrive]⟩

theorem taking_running {x : Position} {s : Sample} : (x.taking pr s now).engineRunning pr = true ↔
    pr.runningRpm ≤ x.pickup.speed ∨ pr.runningRpm ≤ s.speedRpm := by
  simp only [Position.engineRunning, Position.taking, Link.takeSample, Bool.or_eq_true]
  exact or_congr decide_eq_true_iff decide_eq_true_iff

theorem Resynced.engineRunning {x y : Position} {s : Sample} (h : Resynced x y pr s now) :
    y.engineRunning pr = (x.taking pr s now).engineRunning pr := by
  unfold Position.engineRunning
  rw [h.pickup, h.latest]
  rfl

theorem sampleArrives_now {raw : List Byte} : (sampleArrives T p raw e).now = e.now :=
  (sampleArrives_acts (k := false) raw).now

/-- Settles O24. -/
theorem validSampleIsTaken : Obligations.ValidSampleIsTaken := by
  constructor
  · intro s p raw x hp hr ha hi
    have run := exec_sample (p := p) raw hp
    obtain ⟨state, latest, sampleT⟩ := sample_event_link (w := s.block.works) hr ha hi
    have acts := sampleArrives_acts (k := false) (T := s.tab) (p := p) (e := s.eng) raw
    have carried := event_carried s.block.works (fun T e => sampleArrives T p raw e) p
    exact ⟨_, run, state, latest, sampleT, carried.pickup.trans (acts.pickup rfl), carried.meter.trans acts.meter,
      carried.mode.trans acts.mode⟩
  · intro s p raw x pr hp hr hst hu hs hpr hd hse hw sound
    have taken := sampleArrives_taken (T := s.tab) (p := p) (e := s.eng) hr (ne_of_eq_ne hst nofun)
      (ne_of_eq_ne hst nofun)
    refine ⟨_, exec_sample (p := p) raw hp, fun hpk hsp => ?_, fun hrun hl => ?_⟩
    · have stands : ((s.pos p).taking pr x s.eng.now).engineRunning pr = false := by
        rw [Bool.eq_false_iff, ne_eq, taking_running]
        omega
      have unloaded := ((sound p).load (by rw [show (s.eng.at p).st = _ from hst]; rfl)).2.1
      have at_ : (sampleArrives s.tab p raw s.eng).at p = (s.pos p).taking pr x s.eng.now := by
        rw [taken, takeSample_standing hpr hst hu hs unloaded stands, Engine.at_put_self]
      obtain ⟨link, still⟩ := greeting_event (w := s.block.works) (f := fun T e => sampleArrives T p raw e) at_
        sampleArrives_now hpr (greets_iff.2 ⟨hs, rfl, Or.inl hst⟩) hd (by
          simp only [driveContent, hpr, Position.taking]
          rw [show (s.pos p).st = _ from hst])
      rw [stands] at link
      obtain ⟨setup, attempts, setupId, confirmT, refreshT⟩ := beginHandshake_items (pr := pr) (now := s.eng.now)
        (l := ((s.pos p).taking pr x s.eng.now).link) false rfl hd
      obtain ⟨sending, waiting, -, -⟩ := beginHandshake_frames (pr := pr) (now := s.eng.now)
        (l := ((s.pos p).taking pr x s.eng.now).link) rfl hd hse hw
      rw [State.pos, State.eng, State.acted, link]
      exact ⟨still.st.trans hst, setup, attempts, setupId, confirmT, refreshT, sending, waiting⟩
    · have runs := taking_running (x := s.pos p) (s := x) (now := s.eng.now).2 hrun
      have resynced := takeSample_running (T := s.tab) (p := p) (e := s.eng) hpr hst hu hs hl runs
      rw [← taken] at resynced
      have content : driveContent s.tab p ((sampleArrives s.tab p raw s.eng).at p) = some ⟨pr.idleRpm, true, false⟩ := by
        simp only [driveContent, hpr]
        rw [resynced.st]
      obtain ⟨link, still⟩ := greeting_event (w := s.block.works) (f := fun T e => sampleArrives T p raw e) rfl
        sampleArrives_now hpr resynced.greets resynced.drive content
      rw [show ((sampleArrives s.tab p raw s.eng).at p).engineRunning pr = true from resynced.engineRunning.trans runs] at link
      obtain ⟨setup, attempts, setupId, confirmT, refreshT⟩ := beginHandshake_items (pr := pr) (now := s.eng.now)
        (l := ((sampleArrives s.tab p raw s.eng).at p).link) true resynced.state resynced.drive
      obtain ⟨-, -, sending, waiting⟩ := beginHandshake_frames (pr := pr) (now := s.eng.now)
        (l := ((sampleArrives s.tab p raw s.eng).at p).link) resynced.state resynced.drive (resynced.sending.trans hse)
        (resynced.waiting.trans hw)
      have id : ((sampleArrives s.tab p raw s.eng).at p).link.setupId = (s.pos p).link.setupId := resynced.setupId
      simp only [Link.nextSetup, id] at setupId sending
      rw [State.pos, State.eng, State.acted, link]
      exact ⟨still.st.trans resynced.st, still.causes.trans resynced.causes, still.holdT.trans resynced.holdT, setup, attempts,
        setupId, confirmT, refreshT, (beginHandshake_drive _).trans resynced.drive, sending, waiting⟩

end Sys2Proof.Machine
end

section
/-! SUPPORT. The lines and the DRIVE content of a position (R40, R69, R80, R139, R188): every close hands the content over, and what
ends otherwise leaves it in force. -/

namespace Sys2Proof.Machine

variable {T : Tables} {p : Pos} {e : Engine} {b : Block}

/-! ## The content in force -/

/-- Every position holds the DRIVE content of its state and step. -/
def Works.Drives (w : Works) : Prop := ∀ p, (w.eng.at p).link.drive = driveContent w.tab p (w.eng.at p)

theorem handDrive_drives (T : Tables) (p : Pos) (e : Engine) :
    ((handDrive T p e).at p).link.drive = driveContent T p ((handDrive T p e).at p) := by
  unfold handDrive
  dsimp only
  split
  next h => exact h.symm
  next =>
    split
    · rw [Engine.at_put_self]
      rfl
    · rw [Engine.at_put_self]
      exact (sendDrive_kept _ e.now).drive

theorem driveAtUp_drives {before : Engine} (h : (e.at p).link.drive = driveContent T p (e.at p)) :
    ((driveAtUp before p e).at p).link.drive = driveContent T p ((driveAtUp before p e).at p) := by
  unfold driveAtUp
  dsimp only
  split
  · rw [Engine.at_modify_self]
    exact (sendDrive_kept _ e.now).drive.trans h
  · exact h

/-- The last thing a close does is to hand every content over. -/
theorem closeEventWith_drives (linger : Option Pos) (commit : Bool) (start w : Works) :
    (closeEventWith linger commit start w).Drives := by
  intro p
  obtain ⟨e, -, -, refreshed⟩ := refreshed_at (closeRounds start.eng closeFuel start linger commit w).tab start.eng p
    (closeRounds start.eng closeFuel start linger commit w).eng
  unfold closeEventWith
  dsimp only
  rw [refreshed]
  exact driveAtUp_drives (handDrive_drives ..)

theorem closeEvent_drives (start w : Works) : (closeEvent start w).Drives := closeEventWith_drives _ _ _ _

/-! ## What ends otherwise than in a close -/

/-- The content depends on the position's profile and, in STARTING, on the steps. -/
theorem driveContent_congr {T' : Tables} {x : Position} (hp : T'.profile p = T.profile p)
    (hs : x.st = .starting → T'.t6 = T.t6) : driveContent T' p x = driveContent T p x := by
  unfold driveContent
  rw [hp]
  split
  · rfl
  · split
    case h_10 h =>
      unfold Tables.stepRec
      rw [hs h]
    all_goals rfl

theorem Works.PartsOnly.drives {w w' : Works} (h : w.PartsOnly w') (hd : w.Drives) : w'.Drives := by
  intro p
  obtain ⟨m, s, r, f, hx⟩ := h.pos p
  obtain ⟨n, pos, rfl⟩ := h.eq
  rw [hx]
  exact hd p

theorem writeT10_partsOnly (list : List Entry) (b : Block) (i : Nat) : b.works.PartsOnly (writeT10 b i list).works := by
  induction list generalizing b i with
  | nil => exact .refl _
  | cons x rest ih =>
    cases x with
    | t10 value =>
      have one : b.works.PartsOnly (writeT10At i value b).works := by
        unfold writeT10At
        split
        · exact .refl _
        · exact writeMeter_partsOnly ..
      exact one.trans (ih _ _)
    | _ => exact ih ..

theorem storeAll_profile {list : List Entry} (h : ∀ x ∈ list, x.table ≠ 2 ∧ x.table ≠ 3) (T : Tables) (i : Nat) (p : Pos) :
    (T.storeAll i list).profile p = T.profile p := by
  refine storeAll_keeps (f := fun T => T.profile p) (fun x hx T i => ?_) T i
  obtain ⟨h₂, h₃⟩ := h x hx
  cases x with
  | t2 x => exact absurd rfl h₂
  | t3 x => exact absurd rfl h₃
  | _ => rfl

theorem storeAll_t6 {list : List Entry} (h : ∀ x ∈ list, x.table ≠ 6) (T : Tables) (i : Nat) :
    (T.storeAll i list).t6 = T.t6 := by
  refine storeAll_keeps (f := Tables.t6) (fun x hx T i => ?_) T i
  cases x with
  | t6 x => exact absurd rfl (h _ hx)
  | t2 x => simp only [Tables.store]; split <;> rfl
  | _ => rfl

/-- A write of T6 finds no position STARTING (R174). -/
theorem AcceptedWrite.steps {r : MgmtReq} {list : List Entry} (h : AcceptedWrite b r list)
    (hs : (b.works.eng.at p).st = .starting) (T : Tables) (i : Nat) : (T.storeAll i list).t6 = T.t6 := by
  by_cases h6 : r.table.toNat = 6
  · cases list with
    | nil => rfl
    | cons x rest =>
      have held := h.locks r.first.toNat (Nat.le_refl _) (by
        have := h.length
        simp only [List.length_cons] at this
        omega)
      rw [h6] at held
      simp only [lockAllows, List.all_eq_true, bne_iff_ne] at held
      exact absurd hs (held p (Pos.mem_all p))
  · exact storeAll_t6 (fun x hx => by rw [h.table x hx]; exact h6) _ _

/-- The tables written with no close after it. -/
theorem AcceptedWrite.stored_drives {r : MgmtReq} {list : List Entry} (h : AcceptedWrite b r list) (hd : b.works.Drives)
    (h₂ : r.table.toNat ≠ 2) (h₃ : r.table.toNat ≠ 3) (pending : Bool) :
    Works.Drives { b.works with tab := b.works.tab.storeAll r.first.toNat list, commitPending := pending } := fun p =>
  (hd p).trans (driveContent_congr (storeAll_profile (fun x hx => by rw [h.table x hx]; exact ⟨h₂, h₃⟩) ..)
    fun hs => h.steps hs ..).symm

theorem writeAccepted_drives {r : MgmtReq} {list : List Entry} (h : AcceptedWrite b r list) (hd : b.works.Drives) :
    (writeAccepted b r.table.toNat r.first.toNat r.count.toNat list).works.Drives := by
  unfold writeAccepted
  dsimp only
  split
  next => exact closeEvent_drives _ _
  next => exact closeEvent_drives _ _
  next => exact closeEvent_drives _ _
  next h4 => exact h.stored_drives hd (by omega) (by omega) false
  next => exact closeEvent_drives _ _
  next => exact (writeT10_partsOnly ..).drives hd
  next h2 h3 _ _ _ => exact h.stored_drives hd h2 h3 _

/-! ## The period end -/

/-- The channels alone differ. -/
def ChannelsOnly (a b : Engine) : Prop := ∀ p, ∃ c, b.at p = { a.at p with chan := c }

theorem ChannelsOnly.refl (e : Engine) : ChannelsOnly e e := fun _ => ⟨_, rfl⟩

theorem ChannelsOnly.trans {a b c : Engine} (h₁ : ChannelsOnly a b) (h₂ : ChannelsOnly b c) : ChannelsOnly a c := fun p => by
  obtain ⟨_, h₁⟩ := h₁ p
  obtain ⟨k, h₂⟩ := h₂ p
  exact ⟨k, by rw [h₂, h₁]⟩

theorem modify_channel {f : Channel → Channel} : ChannelsOnly e (e.modify p fun x => { x with chan := f x.chan }) := fun q => by
  rw [Engine.at_modify]
  split
  next hq => subst hq; exact ⟨_, rfl⟩
  next => exact ⟨_, rfl⟩

theorem eachPos_channels (f : Channel → Channel) (e : Engine) :
    ChannelsOnly e (e.eachPos fun p e => e.modify p fun x => { x with chan := f x.chan }) :=
  ((modify_channel.trans modify_channel).trans modify_channel).trans modify_channel

theorem restepAll_channels (T : Tables) (e : Engine) : ChannelsOnly e (restepAll T e) := by
  unfold restepAll
  split
  · exact .refl e
  next x _ => exact eachPos_channels (·.restep x e.pwm.periodMs) e

theorem takePeriod_channels (T : Tables) (e : Engine) : ChannelsOnly e (takePeriod T e) := by
  unfold takePeriod
  split
  · exact .refl e
  · exact restepAll_channels T { e with pwm := { e.pwm with periodMs := T.pwmPeriod } }

theorem channelsEnd_channels (e : Engine) : ChannelsOnly e (channelsEnd e) := eachPos_channels Channel.periodEnd e

theorem ChannelsOnly.drives {w : Works} {e : Engine} (h : ChannelsOnly w.eng e) (hd : w.Drives) :
    Works.Drives { w with eng := e } := fun p => by
  obtain ⟨c, hc⟩ := h p
  dsimp only
  rw [hc]
  exact hd p

theorem completions_drives (list : List Pos) (w : Works) (h : w.Drives) :
    (list.foldl (fun w p => w.event fun T e => endLoadPhase T p e) w).Drives := by
  induction list generalizing w with
  | nil => exact h
  | cons p rest ih => exact ih _ (closeEvent_drives _ _)

theorem periodEnds_drives {w : Works} (h : w.Drives) : (periodEnds w).Drives :=
  completions_drives _ _ (((takePeriod_channels w.tab w.eng).trans (channelsEnd_channels _)).drives h)

/-! ## Every command -/

/-- A reset gives every position the content of the state it comes up in. -/
theorem engineAtReset_drives (T : Tables) (cells : Four (Option Bool)) (levels : Four Level) (meters : Four Nat) (now : Nat)
    (pending : Bool) : Works.Drives ⟨T, engineAtReset T cells levels meters now, pending⟩ := fun p => by
  dsimp only
  rw [engineAtReset_at]
  rfl

theorem WorksMove.drives {c : Instr} {w : Works} (h : WorksMove b c w) (hd : b.works.Drives) : w.Drives := by
  cases h with
  | kept => exact hd
  | event n he => exact closeEvent_drives _ _
  | linger p n => exact closeEventWith_drives _ _ _ _
  | period n => exact periodEnds_drives (w := b.works.atTime n) hd
  | application => exact closeEventWith_drives _ _ _ _
  | commit r => exact closeEventWith_drives _ _ _ _
  | commitMark r => exact hd
  | write r list hw => exact writeAccepted_drives (checkWrite_ok hw) hd
  | parts hc hw => exact hw.drives hd
  | restart r => exact engineAtReset_drives _ _ _ _ _ _
  | powerOn up down levels => exact engineAtReset_drives _ _ _ _ _ _

theorem step_drives {s t : State} (h : step s = .next t) (hd : s.block.works.Drives) : t.block.works.Drives := by
  rcases step_cases h with (ht | ht) | ⟨c, u, hu, hc⟩
  · rw [ht]
    exact hd
  · rw [ht]
    exact hd
  · exact (exec_moves hc).drives (by rw [hu]; exact hd)

/-! ## The lines -/

theorem stopAsserted_iff (hp : b.powered = true) : b.stopAsserted p = true ↔ (b.works.eng.at p).st = .stopping ∨
    (b.works.eng.at p).st = .faulted ∨ (b.works.eng.at p).st = .isolated := by
  unfold Block.stopAsserted
  rw [hp]
  cases (b.works.eng.at p).st <;> simp

/-- Outside ONLINE and UNLOADING a sound position has duty 0. -/
theorem excitation_off (hp : b.powered = true) (h : (b.works.eng.at p).Sound) (h₁ : (b.works.eng.at p).st ≠ .online)
    (h₂ : (b.works.eng.at p).st ≠ .unloading) : b.excitation p = 0 ∧ b.excitationActive p = false := by
  have unloaded : (b.works.eng.at p).st.loaded = false := by
    revert h₁ h₂
    cases (b.works.eng.at p).st <;> simp [PState.loaded]
  have duty : b.excitation p = 0 := by
    rw [Block.excitation, if_pos hp]
    exact (h.duty unloaded).1
  refine ⟨duty, ?_⟩
  unfold Block.excitationActive
  rw [duty]
  split
  · rfl
  · simp

/-- Within a period the output is active for the duty's share of it. -/
theorem excitationActive_iff {start period elapsed : Nat} (hp : b.powered = true)
    (ht : b.works.eng.pwm.timer = .running start period) (hn : b.works.eng.now = start + elapsed) (he : elapsed < period) :
    b.excitationActive p = true ↔ elapsed * 1000 < (b.works.eng.at p).chan.duty * period := by
  unfold Block.excitationActive
  rw [ht]
  dsimp only
  rw [hn, Nat.add_sub_cancel_left, Nat.mod_eq_of_lt he, decide_eq_true_iff, Block.excitation, if_pos hp]

/-! ## The content of each state -/

theorem driveContent_starting {x : Position} {pr : Profile} {c : StepCtx} {r : StepRec} (hp : T.profile p = some pr)
    (hs : x.st = .starting) (hc : x.ctx = some c) (hr : T.stepRec c.ptr = some r) : driveContent T p x =
      some (if c.sub = .retryRest then ⟨pr.idleRpm, false, false⟩ else stepDrive r.kind c.fired pr.idleRpm) := by
  simp only [driveContent, hp, hs, hc, hr]
  split <;> rfl

/-- Settles O23. -/
theorem linesFollowTheState : Obligations.LinesFollowTheState := by
  refine ⟨fun b p hp hs => ⟨stopAsserted_iff hp, excitation_off hp (hs p), ?_⟩,
    fun b p start period elapsed hp ht hn he => excitationActive_iff hp ht hn he, fun s t h hd => step_drives h hd, ?_⟩
  · rw [Block.crankClosed_iff, Engine.holds_iff, Position.inBusStep_iff]
    exact ⟨fun ⟨_, hb, hs, hc⟩ => ⟨hs, hb, hc⟩, fun ⟨hs, hb, hc⟩ => ⟨hp, hb, hs, hc⟩⟩
  · intro s p hd
    rw [hd]
    refine ⟨fun hn => by simp only [driveContent, hn], fun pr hpr => ⟨fun hs => ?_, fun hs => ?_, fun hs => ?_,
      fun speed hs hl => ?_, fun c r hs hc hr => ?_⟩⟩
    · rcases hs with hs | hs <;> simp only [driveContent, hpr, hs]
    · rcases hs with hs | hs | hs <;> simp only [driveContent, hpr, hs]
    · rcases hs with hs | hs <;> simp only [driveContent, hpr, hs]
    · rcases hs with hs | hs <;> simp only [driveContent, hpr, hs, hl, Option.getD_some]
    · rw [driveContent_starting hpr hs hc hr]
      refine ⟨fun hr => by rw [if_pos hr], fun hn => ?_⟩
      rw [if_neg hn]
      refine ⟨fun hk => by rw [hk]; rfl, fun hk => by rw [hk]; rfl, fun hk => ?_, fun hk => by rw [hk]; rfl⟩
      rcases hk with hk | hk | hk <;> rw [hk] <;> rfl

end Sys2Proof.Machine
end

section
/-! SUPPORT. The start of a phase as a change of one position, and the end of a speed phase by its settle timer (R125 to R131). -/

namespace Sys2Proof.Machine

variable {T : Tables} {p : Pos} {e : Engine} {slot : Target} {speed : Nat} {x : SchedEntry} {pr : Profile}

/-! ## The start of a phase (R126, R128, R130) -/

/-- The load record at the start of a phase. -/
def Load.entering (l : Load) (ph : Phase) (slot : Target) (settle : Timer) : Load :=
  match ph with
  | .speedUp | .speedDown => l.startSpeed ph slot settle
  | .loadUp | .loadDown => l.startLoad ph slot
  | .steady => l.rest

/-- The channel at the start of a phase: a load phase orders its ramp. -/
def Channel.entering (c : Channel) (ph : Phase) (x : SchedEntry) (periodMs : Nat) (slot : Target) : Channel :=
  match ph with
  | .loadUp | .loadDown => c.ramp x periodMs slot.load
  | _ => c

/-- The position at the start of a phase, with its link. -/
def Position.entering (y : Position) (ph : Phase) (slot : Target) (settle : Timer) (x : SchedEntry) (periodMs : Nat) (l : Link) :
    Position :=
  { y with load := y.load.entering ph slot settle, chan := y.chan.entering ph x periodMs slot, link := l }

@[simp] theorem Load.entering_phase (l : Load) (ph : Phase) (settle : Timer) : (l.entering ph slot settle).phase = some ph := by
  cases ph <;> rfl

@[simp] theorem Load.entering_slot (l : Load) (ph : Phase) (settle : Timer) : (l.entering ph slot settle).slot = l.slot := by
  cases ph <;> rfl

@[simp] theorem Load.entering_late (l : Load) (ph : Phase) (settle : Timer) :
    (l.entering ph slot settle).settleLate = l.settleLate := by
  cases ph <;> rfl

@[simp] theorem Channel.entering_duty (c : Channel) (ph : Phase) (periodMs : Nat) :
    (c.entering ph x periodMs slot).duty = c.duty := by
  cases ph <;> first | rfl | exact ramp_duty ..

theorem ramp_ramping {c : Channel} {target : Nat} (periodMs : Nat) (h : target ≠ c.duty) :
    (c.ramp x periodMs target).target = target ∧ (c.ramp x periodMs target).state = .ramping := by
  simp [Channel.ramp, h]

/-- The choice of a phase, but for an unload that completes. -/
theorem choosePhase_put (hslot : (e.at p).load.slot = some slot) (hspeed : (e.at p).load.speed = some speed)
    (hx : T.active e.res.resolved = some x)
    (hs : (e.at p).st ≠ .unloading ∨ choice slot (e.at p).chan.duty speed ≠ .steady) :
    ∃ l, choosePhase T p e = e.put p ((e.at p).entering (choice slot (e.at p).chan.duty speed) slot (settleTimer T p e) x
      e.pwm.periodMs l) ∧ LinkHanded (e.at p).link l := by
  have speeds : ∀ ph, ph = .speedUp ∨ ph = .speedDown → choice slot (e.at p).chan.duty speed = ph →
      ∃ l, choosePhase T p e = e.put p ((e.at p).entering ph slot (settleTimer T p e) x e.pwm.periodMs l) ∧
        LinkHanded (e.at p).link l := by
    intro ph hph hc
    rw [choosePhase_speed hslot hspeed hc hph]
    obtain ⟨l, hl, hk⟩ := handDrive_linkOnly T p
      (e.modify p fun y => { y with load := y.load.startSpeed ph slot (settleTimer T p e) })
    refine ⟨l, ?_, by simpa using hk⟩
    rw [show startSpeedPhase T p ph slot e = _ from hl, Engine.at_modify_self, Engine.modify, Engine.put_put]
    rcases hph with rfl | rfl <;> rfl
  have loads : ∀ ph, ph = .loadUp ∨ ph = .loadDown → choice slot (e.at p).chan.duty speed = ph →
      ∃ l, choosePhase T p e = e.put p ((e.at p).entering ph slot (settleTimer T p e) x e.pwm.periodMs l) ∧
        LinkHanded (e.at p).link l := by
    intro ph hph hc
    rw [choosePhase_load hslot hspeed hc hph]
    refine ⟨(e.at p).link, ?_, .refl _⟩
    unfold startLoadPhase
    rw [hx]
    rcases hph with rfl | rfl <;> rfl
  cases hc : choice slot (e.at p).chan.duty speed with
  | speedUp => exact speeds _ (Or.inl rfl) hc
  | speedDown => exact speeds _ (Or.inr rfl) hc
  | loadUp => exact loads _ (Or.inl rfl) hc
  | loadDown => exact loads _ (Or.inr rfl) hc
  | steady =>
    rw [hc] at hs
    rw [choosePhase_steady hslot hspeed hc (hs.resolve_right (not_not_intro rfl))]
    exact ⟨(e.at p).link, rfl, .refl _⟩

/-- The position at the end of a phase, before the next choice. -/
def Position.phaseEnded (y : Position) : Position := { y with load := { y.load with phaseTarget := none, settleT := .stopped } }

theorem endPhase_put (hslot : (e.at p).load.slot = some slot) (hspeed : (e.at p).load.speed = some speed)
    (hx : T.active e.res.resolved = some x)
    (hs : (e.at p).st ≠ .unloading ∨ choice slot (e.at p).chan.duty speed ≠ .steady) :
    ∃ l, endPhase T p e = e.put p ((e.at p).phaseEnded.entering (choice slot (e.at p).chan.duty speed) slot
      (settleTimer T p e) x e.pwm.periodMs l) ∧ LinkHanded (e.at p).link l := by
  have at_ : (e.put p (e.at p).phaseEnded).at p = (e.at p).phaseEnded := Engine.at_put_self ..
  obtain ⟨l, hl, hk⟩ := choosePhase_put (T := T) (e := e.put p (e.at p).phaseEnded) (slot := slot) (speed := speed) (x := x)
    (by rw [at_]; exact hslot) (by rw [at_]; exact hspeed) hx (by rw [at_]; exact hs)
  rw [at_] at hl hk
  refine ⟨l, ?_, hk⟩
  rw [show endPhase T p e = choosePhase T p (e.put p (e.at p).phaseEnded) from rfl, hl, Engine.put_put]
  rfl

/-- The position at the end of a speed phase, before the next choice. -/
def Position.speedEnded (y : Position) (late : Bool) (now : Nat) : Position :=
  { y with load := { y.load with settleLate := late },
           phaseEnd := if y.st.loaded then some ⟨now, y.load.speed⟩ else none }

theorem endSpeedPhase_eq (late : Bool) :
    endSpeedPhase T p late e = endPhase T p (e.put p ((e.at p).speedEnded late e.now)) := by
  unfold endSpeedPhase completePhase Engine.modify
  rw [Engine.at_put_self, Engine.put_put]
  rfl

/-- The end of a speed phase as a change of its position. -/
theorem endSpeedPhase_put (late : Bool) (hslot : (e.at p).load.slot = some slot) (hspeed : (e.at p).load.speed = some speed)
    (hx : T.active e.res.resolved = some x)
    (hs : (e.at p).st ≠ .unloading ∨ choice slot (e.at p).chan.duty speed ≠ .steady) :
    ∃ l, endSpeedPhase T p late e = e.put p (((e.at p).speedEnded late e.now).phaseEnded.entering
      (choice slot (e.at p).chan.duty speed) slot (settleTimer T p e) x e.pwm.periodMs l) ∧ LinkHanded (e.at p).link l := by
  have at_ : (e.put p ((e.at p).speedEnded late e.now)).at p = (e.at p).speedEnded late e.now := Engine.at_put_self ..
  obtain ⟨l, hl, hk⟩ := endPhase_put (T := T) (e := e.put p ((e.at p).speedEnded late e.now)) (slot := slot) (speed := speed)
    (x := x) (by rw [at_]; exact hslot) (by rw [at_]; exact hspeed) hx (by rw [at_]; exact hs)
  rw [at_] at hl hk
  refine ⟨l, ?_, hk⟩
  rw [endSpeedPhase_eq, hl, Engine.put_put]
  rfl

/-! ## A quiet block where one position changes its phase -/

/-- A position whose phase changed in no way that prompts the Planner. -/
structure Rephased (x y : Position) : Prop where
  st : y.st = x.st
  mode : y.mode = x.mode
  lingerT : y.lingerT = x.lingerT
  steady : y.onlineSteady = x.onlineSteady
  link : LinkHanded x.link y.link

theorem Rephased.unmoved {y : Position} (h : Rephased (e.at p) y) : Unmoved e (e.put p y) := by
  have each : ∀ {α : Type} (f : Position → α), f y = f (e.at p) → ∀ q, f ((e.put p y).at q) = f (e.at q) := by
    intro α f hf q
    rw [Engine.at_put]
    split
    next hq => rw [hq]; exact hf
    next => rfl
  exact ⟨rfl, each (·.st) h.st, each (·.mode) h.mode, each (·.link.setup) h.link.setup, each (·.link.state) h.link.state,
    each (·.link.latest) h.link.latest, each (·.lingerT) h.lingerT, each (·.onlineSteady) h.steady⟩

theorem not_steady {q : Pos} (hs : (e.at q).st = .online) (h : (e.at q).onlineSteady = false) : steady e = false := by
  simp only [steady, List.all_eq_false]
  exact ⟨q, Pos.mem_all q, by simp [hs, h]⟩

/-- No commit is due while a position is ONLINE in a phase other than STEADY (R177). -/
theorem commitDue_unsteady {start : Engine} {w : Works} (hs : (w.eng.at p).st = .online)
    (h : (w.eng.at p).onlineSteady = false) : commitDue start w = false := by
  simp [commitDue, not_steady hs h]

theorem slotStale_put {y : Position} {q : Pos} (hst : y.st = (e.at p).st) (hslot : y.load.slot = (e.at p).load.slot)
    (hprot : y.prot = (e.at p).prot) : slotStale T (e.put p y) q = slotStale T e q := by
  unfold slotStale scheduleTarget
  dsimp only
  rw [Engine.at_put, Engine.put_res]
  split
  next hq => rw [hq, hst, hslot, deratePct_of_prot hprot]
  next => rfl

/-- The close of an event that changed the phase of one ONLINE position of a quiet block: frames and DRIVE content alone. -/
theorem quiet_rephased {w : Works} {y : Position} (hq : w.quiet = true) (h : Rephased (w.eng.at p) y) (hs : y.st = .online)
    (hn : y.onlineSteady = false) (hslot : y.load.slot = (w.eng.at p).load.slot) (hprot : y.prot = (w.eng.at p).prot) :
    ∃ l, (closeEvent w { w with eng := w.eng.put p y }).eng.at p = { y with link := l } ∧
      l.drive = driveContent w.tab p y := by
  have at_ : (w.eng.put p y).at p = y := Engine.at_put_self ..
  obtain ⟨-, each⟩ := quiet_iff.1 hq
  have closed := quiet_close (w := { w with eng := w.eng.put p y }) hq rfl h.unmoved
    (commitDue_unsteady (p := p) (by dsimp only; rw [at_, hs]) (by dsimp only; rw [at_, hn]))
    fun q => (slotStale_put h.st hslot hprot).trans (each q).2.1
  have drives := closeEvent_drives w { w with eng := w.eng.put p y } p
  obtain ⟨l, hl, -⟩ := (eachPos_links (fun p e => refreshDrive_linkOnly w.tab w.eng p e) (w.eng.put p y)).pos p
  rw [at_] at hl
  have end_ : (closeEvent w { w with eng := w.eng.put p y }).eng.at p = { y with link := l } :=
    (congrArg (fun v : Works => v.eng.at p) closed).trans hl
  refine ⟨l, end_, ?_⟩
  rw [end_, congrArg Works.tab closed] at drives
  exact drives

/-! ## The settle timer -/

theorem settleExpires_late (T : Tables) (p : Pos) (e : Engine) : ((settleExpires p T e).at p).load.settleLate = true := by
  unfold settleExpires endSpeedPhase
  rw [(completePhase_touches ..).self.late, Engine.at_modify_self]

theorem onlineSteady_of_phase {y : Position} {ph : Phase} (h : y.load.phase = some ph) (hn : ph ≠ .steady) :
    y.onlineSteady = false := by
  cases ph <;> simp_all [Position.onlineSteady]

/-- The settle timer of an ONLINE position of a quiet block, where the next phase is not STEADY. -/
theorem settle_quiet {w : Works} {ph next : Phase} (hq : w.quiet = true) (hs : (w.eng.at p).st = .online)
    (hph : (w.eng.at p).load.phase = some ph) (hn : ph ≠ .steady) (hslot : (w.eng.at p).load.slot = some slot)
    (hspeed : (w.eng.at p).load.speed = some speed) (hx : w.tab.active w.eng.res.resolved = some x)
    (hc : choice slot (w.eng.at p).chan.duty speed = next) (hnext : next ≠ .steady) :
    ∃ l, (w.event (settleExpires p)).eng.at p = ((w.eng.at p).speedEnded true w.eng.now).phaseEnded.entering
        next slot (settleTimer w.tab p w.eng) x w.eng.pwm.periodMs l ∧
      l.drive = driveContent w.tab p (((w.eng.at p).speedEnded true w.eng.now).phaseEnded.entering
        next slot (settleTimer w.tab p w.eng) x w.eng.pwm.periodMs l) := by
  obtain ⟨l, hl, hk⟩ := endSpeedPhase_put (T := w.tab) (e := w.eng) true hslot hspeed hx (Or.inl (ne_of_eq_ne hs nofun))
  rw [hc] at hl
  generalize hy : ((w.eng.at p).speedEnded true w.eng.now).phaseEnded.entering next slot (settleTimer w.tab p w.eng) x
    w.eng.pwm.periodMs l = y at hl
  have phase : y.load.phase = some next := hy ▸ Load.entering_phase ..
  have unsteady := onlineSteady_of_phase phase hnext
  have rephased : Rephased (w.eng.at p) y := by
    refine ⟨hy ▸ rfl, hy ▸ rfl, hy ▸ rfl, ?_, hy ▸ hk⟩
    rw [unsteady, onlineSteady_of_phase hph hn]
  obtain ⟨l', at_, drive⟩ := quiet_rephased hq rephased (hy ▸ hs) unsteady (hy ▸ Load.entering_slot ..) (hy ▸ rfl)
  refine ⟨l', ?_, ?_⟩
  · refine Eq.trans (congrArg (fun e => (closeEvent w { w with eng := e }).eng.at p) hl) (at_.trans ?_)
    rw [← hy]
    rfl
  · rw [drive, ← hy]
    rfl

/-- What begins there in a speed phase. -/
theorem settles_at_speed {w : Works} {next : Phase} {y : Position} (hs : (w.eng.at p).st = .online)
    (hpr : w.tab.profile p = some pr) (hnext : next = .speedUp ∨ next = .speedDown)
    (h : ∃ l, y = ((w.eng.at p).speedEnded true w.eng.now).phaseEnded.entering next slot (settleTimer w.tab p w.eng) x
        w.eng.pwm.periodMs l ∧
      l.drive = driveContent w.tab p (((w.eng.at p).speedEnded true w.eng.now).phaseEnded.entering
        next slot (settleTimer w.tab p w.eng) x w.eng.pwm.periodMs l)) :
    y.load.phase = some next ∧ y.load.speed = some slot.speed ∧ y.load.phaseTarget = none ∧
      y.load.settleT = settleTimer w.tab p w.eng ∧ y.link.drive = some ⟨slot.speed, true, false⟩ := by
  obtain ⟨l, rfl, drive⟩ := h
  have online : (((w.eng.at p).speedEnded true w.eng.now).phaseEnded.entering next slot (settleTimer w.tab p w.eng) x
    w.eng.pwm.periodMs l).st = .online := hs
  refine ⟨Load.entering_phase .., ?_, ?_, ?_, drive.trans ?_⟩
  · rcases hnext with rfl | rfl <;> rfl
  · rcases hnext with rfl | rfl <;> rfl
  · rcases hnext with rfl | rfl <;> rfl
  · unfold driveContent
    rw [hpr, online]
    rcases hnext with rfl | rfl <;> rfl

theorem choice_eq_steady {duty : Nat} : choice slot duty speed = .steady ↔ slot.load = duty ∧ slot.speed = speed := by
  constructor
  · intro h
    unfold choice at h
    split at h
    · cases h
    · split at h
      · cases h
      · split at h
        · cases h
        · split at h
          · cases h
          · omega
  · exact fun ⟨hl, hs⟩ => choice_steady hl hs

theorem endSpeedPhase_choice (late : Bool) : endSpeedPhase T p late e =
    choosePhase T p (e.put p ((e.at p).speedEnded late e.now).phaseEnded) := by
  rw [endSpeedPhase_eq, endPhase, Engine.modify, Engine.at_put_self, Engine.put_put]
  rfl

/-- A speed phase that ends where slot, speed and duty agree: STEADY. -/
theorem endSpeedPhase_rests (late : Bool) (hslot : (e.at p).load.slot = some slot) (hspeed : (e.at p).load.speed = some speed)
    (hc : choice slot (e.at p).chan.duty speed = .steady) (hs : (e.at p).st ≠ .unloading) :
    endSpeedPhase T p late e = e.put p { ((e.at p).speedEnded late e.now).phaseEnded with
      load := (((e.at p).speedEnded late e.now).phaseEnded.load).rest } := by
  have at_ : (e.put p ((e.at p).speedEnded late e.now).phaseEnded).at p = _ := Engine.at_put_self ..
  rw [endSpeedPhase_choice, choosePhase_steady (by rw [at_]; exact hslot) (by rw [at_]; exact hspeed) (by rw [at_]; exact hc)
    (by rw [at_]; exact hs), at_, Engine.put_put]

/-- The same in UNLOADING: the unload is complete (R131). -/
theorem endSpeedPhase_unloads (late : Bool) (hslot : (e.at p).load.slot = some slot) (hspeed : (e.at p).load.speed = some speed)
    (hc : choice slot (e.at p).chan.duty speed = .steady) (hs : (e.at p).st = .unloading) :
    endSpeedPhase T p late e = enterReady T p (e.put p ((e.at p).speedEnded late e.now).phaseEnded) := by
  have at_ : (e.put p ((e.at p).speedEnded late e.now).phaseEnded).at p = _ := Engine.at_put_self ..
  rw [endSpeedPhase_choice, choosePhase_unloaded (by rw [at_]; exact hslot) (by rw [at_]; exact hspeed) (by rw [at_]; exact hc)
    (by rw [at_]; exact hs)]

/-- Settles O36. -/
theorem settleExpiryEndsThePhaseLate : Obligations.SettleExpiryEndsThePhaseLate := by
  constructor
  · intro s p since period hp ht
    have carried := event_carried (s.block.works.atTime (max s.eng.now (since + period))) (settleExpires p) p
    have now := event_now (s.block.works.atTime (max s.eng.now (since + period))) (settleExpires p)
    refine ⟨_, exec_settleTimer hp ht, carried.late.trans (settleExpires_late ..),
      now.trans (completePhase_touches ..).now, ?_, ?_⟩
    · intro slot speed x hs hslot hspeed hlt hx
      have down : choice slot (s.pos p).chan.duty speed = .loadDown := choice_loadDown hlt
      obtain ⟨l, hl, -⟩ := endSpeedPhase_put (T := s.tab) (p := p)
        (e := (s.block.works.atTime (max s.eng.now (since + period))).eng) true hslot hspeed hx
        (Or.inr (ne_of_eq_ne down nofun))
      rw [show choice slot (((s.block.works.atTime (max s.eng.now (since + period))).eng.at p).chan.duty) speed = _ from down]
        at hl
      have at_ := (congrArg (fun e => Engine.at e p) hl).trans (Engine.at_put_self ..)
      have still := event_still (w := s.block.works.atTime (max s.eng.now (since + period))) (f := settleExpires p) (p := p)
        ((congrArg (fun y : Position => y.st.fixed) at_).trans (congrArg PState.fixed hs))
      have load := still.load.trans (congrArg Position.load at_)
      exact ⟨still.st.trans ((congrArg Position.st at_).trans hs), congrArg Load.phase load, congrArg Load.phaseTarget load,
        congrArg Load.settleT load, (congrArg Load.speed load).trans hspeed,
        still.duty.trans ((congrArg (fun y : Position => y.chan.duty) at_).trans (ramp_duty ..))⟩
    · intro slot speed x pr hs hq hph hslot hspeed hpr hx
      have closed : ∀ next, choice slot (s.pos p).chan.duty speed = next → next ≠ .steady → _ := fun next hc hnext =>
        hph.elim
          (fun hph => settle_quiet (w := s.block.works.atTime (max s.eng.now (since + period))) (quiet_atTime hq) hs hph nofun
            hslot hspeed hx hc hnext)
          (fun hph => settle_quiet (w := s.block.works.atTime (max s.eng.now (since + period))) (quiet_atTime hq) hs hph nofun
            hslot hspeed hx hc hnext)
      refine ⟨fun hne => ?_, fun hlt => ?_, fun hle hne => ?_, fun hlt heq => ?_⟩
      · obtain ⟨l, at_, -⟩ := closed _ rfl fun hc => by
          obtain ⟨load, speed⟩ := choice_eq_steady.1 hc
          exact hne.elim (fun h => h load) (fun h => h speed)
        rw [State.pos, State.eng, State.expired, at_]
        exact ⟨hs, Channel.entering_duty .., (Load.entering_slot ..).trans hslot⟩
      · obtain ⟨l, at_, -⟩ := closed _ (choice_loadDown hlt) nofun
        obtain ⟨target, state⟩ := ramp_ramping (x := x) (c := (s.pos p).chan) s.eng.pwm.periodMs (Nat.ne_of_lt hlt)
        rw [State.pos, State.eng, State.expired, at_]
        exact ⟨rfl, rfl, hspeed, rfl, target, state⟩
      · have settle : settleTimer s.tab p (s.block.works.atTime (max s.eng.now (since + period))).eng =
            .running (max s.eng.now (since + period)) (pr.settleLimitMs * 1000) := by
          unfold settleTimer
          rw [hpr]
          rfl
        have turns : ∀ next, next = .speedUp ∨ next = .speedDown → choice slot (s.pos p).chan.duty speed = next → _ :=
          fun next hnext hc => settles_at_speed (w := s.block.works.atTime (max s.eng.now (since + period))) hs hpr hnext
            (closed next hc (by rcases hnext with rfl | rfl <;> nofun))
        rw [← settle]
        split
        next h => exact turns _ (Or.inl rfl) (choice_speedUp hle h)
        next h => exact turns _ (Or.inr rfl) (choice_speedDown hle (by omega))
      · obtain ⟨l, at_, -⟩ := closed _ (choice_loadUp hlt heq) nofun
        obtain ⟨target, state⟩ := ramp_ramping (x := x) (c := (s.pos p).chan) s.eng.pwm.periodMs (Nat.ne_of_gt hlt)
        rw [State.pos, State.eng, State.expired, at_]
        exact ⟨rfl, rfl, hspeed, rfl, target, state⟩
  · intro T p late e slot hslot hspeed hduty
    have agree : choice slot (e.at p).chan.duty slot.speed = .steady := choice_steady hduty.symm rfl
    refine ⟨fun hs => ?_, fun hs hb => ?_⟩
    · rw [endSpeedPhase_rests late hslot hspeed agree (ne_of_eq_ne hs nofun), Engine.at_put_self]
      exact ⟨hs, rfl, rfl⟩
    · rw [endSpeedPhase_unloads late hslot hspeed agree hs]
      generalize hy : ((e.at p).speedEnded late e.now).phaseEnded = y
      obtain ⟨l, hl, -⟩ := enter_at T p .ready (e.put p y)
      rw [Engine.at_put_self] at hl
      have speed : ((enter T p .ready (e.put p y)).at p).pickup.speed = (e.at p).pickup.speed := by
        rw [hl, ← hy]
        rfl
      rw [enterReady, speed, if_neg (by rw [hb]; nofun), hl, ← hy]
      simp [Position.arrive, Position.leave, Position.phaseEnded, Position.speedEnded, hs, PState.loaded, Load.cleared]

end Sys2Proof.Machine
end

section
/-! SUPPORT. The expiry of a persistence timer: the pair it sets and what the evaluation of all pairs makes of it (R142, R146 to R150). -/

namespace Sys2Proof.Machine

variable {T : Tables} {p : Pos} {e : Engine} {i : Fin 16} {en : ProtEntry} {x : Position}

/-- The position with the pair of an entry expired. -/
def Position.pairExpired (x : Position) (i : Fin 16) : Position := { x with prot := x.prot.set i x.prot[i].expire }

theorem pairExpired_self (x : Position) (i : Fin 16) : (x.pairExpired i).prot[i] = ⟨.stopped, true⟩ := by
  simp [Position.pairExpired, Pair.expire]

theorem pairExpired_other {j : Fin 16} (h : j ≠ i) : (x.pairExpired i).prot[j] = x.prot[j] := by
  have ne : i.val ≠ j.val := fun hv => h (Fin.ext hv.symm)
  simp [Position.pairExpired, ne]

/-- An entry other than the expired one is active as before. -/
theorem activeWith_other {j : Fin 16} (a : Action) (h : j ≠ i) : (x.pairExpired i).activeWith T a j = x.activeWith T a j := by
  rw [Position.activeWith, Position.activeWith, pairExpired_other h]

theorem activeWith_self (a : Action) (h : T.t8[i] = some en) : (x.pairExpired i).activeWith T a i = (en.action == a) := by
  rw [Position.activeWith, pairExpired_self, h]
  simp

theorem not_activeWith (a : Action) (h : x.prot[i].active = false) : x.activeWith T a i = false := by
  rw [Position.activeWith, h]
  rfl

/-- An entry of another action leaves the pairs with this action as they were. -/
theorem activeWith_elsewhere {a : Action} (h : T.t8[i] = some en) (hn : x.prot[i].active = false) (ha : en.action ≠ a) (j : Fin 16) :
    (x.pairExpired i).activeWith T a j = x.activeWith T a j := by
  by_cases hj : j = i
  · subst hj
    rw [activeWith_self a h, not_activeWith a hn]
    simpa using ha
  · exact activeWith_other a hj

/-! ## The three actions -/

theorem eq_singleton_of_nodup {α : Type} {list : List α} {a : α} (hn : list.Nodup) (hm : a ∈ list) (h : ∀ b ∈ list, b = a) :
    list = [a] := by
  cases list with
  | nil => cases hm
  | cons b rest =>
    have hb := h b (by simp)
    subst hb
    have none : rest = [] := List.eq_nil_iff_forall_not_mem.2 fun c hc =>
      (List.nodup_cons.1 hn).1 (h c (List.mem_cons_of_mem b hc) ▸ hc)
    rw [none]

/-- A SHUTDOWN entry brings its fault and no other (R147). -/
theorem shutdowns_expired (h : T.t8[i] = some en) (hn : x.prot[i].active = false) (ha : en.action = .shutdown) :
    shutdowns T x (x.pairExpired i) = [(.protection i, x.quantity en.quantity)] := by
  unfold shutdowns
  rw [eq_singleton_of_nodup (a := i) ((show protIndices.Nodup from List.nodup_finRange 16).filter _) ?_ fun j hj => ?_]
  · rw [List.map_cons, h]
    rfl
  · rw [List.mem_filter, activeWith_self _ h, hn, ha]
    exact ⟨List.mem_finRange i, rfl⟩
  · rw [List.mem_filter] at hj
    refine Classical.byContradiction fun hji => ?_
    simp only [Position.activeWith, pairExpired_other hji, Bool.and_eq_true, Bool.not_eq_true'] at hj
    obtain ⟨-, off, on, -⟩ := hj
    rw [off] at on
    cases on

theorem shutdowns_expired_none (h : T.t8[i] = some en) (hn : x.prot[i].active = false) (ha : en.action ≠ .shutdown) :
    shutdowns T x (x.pairExpired i) = [] := by
  unfold shutdowns
  rw [List.map_eq_nil_iff, List.filter_eq_nil_iff]
  intro j _
  rw [activeWith_elsewhere h hn ha, Position.activeWith]
  cases x.prot[j].active <;> simp

theorem unload_expired (h : T.t8[i] = some en) (ha : en.action = .unload) : (x.pairExpired i).unload T = true := by
  unfold Position.unload
  rw [List.any_eq_true]
  exact ⟨i, List.mem_finRange i, by rw [activeWith_self _ h, ha]; rfl⟩

theorem unload_kept (h : T.t8[i] = some en) (hn : x.prot[i].active = false) (ha : en.action ≠ .unload) :
    (x.pairExpired i).unload T = x.unload T := by
  unfold Position.unload
  exact congrArg (fun f => protIndices.any f) (funext (activeWith_elsewhere h hn ha))

/-- PROTECT is added by the first UNLOAD entry (R149). -/
theorem protectAdded_unload (h : T.t8[i] = some en) (ha : en.action = .unload) (hu : x.unload T = false) :
    protectAdded T x (x.pairExpired i) = .protectOnly := by
  rw [protectAdded, unload_expired h ha, hu]
  rfl

theorem protectAdded_derate (h : T.t8[i] = some en) (hn : x.prot[i].active = false) (ha : en.action = .derate) :
    protectAdded T x (x.pairExpired i) = .none := by
  rw [protectAdded, unload_kept h hn (by rw [ha]; nofun)]
  cases x.unload T <;> rfl

/-! ## The derate percent (R142) -/

theorem lowerPct_comm (found : Option Nat) (a b : Nat) : lowerPct (lowerPct found a) b = lowerPct (lowerPct found b) a := by
  cases found with
  | none => simp [lowerPct, Nat.min_comm]
  | some n => simp [lowerPct, Nat.min_assoc, Nat.min_comm a b]

/-- What an entry makes of the percent found so far. -/
def Position.derated (T : Tables) (x : Position) (found : Option Nat) (i : Fin 16) : Option Nat :=
  if x.activeWith T .derate i then
    match T.t8[i] with
    | none => found
    | some en => lowerPct found en.deratePct
  else found

theorem derated_lower (found : Option Nat) (pct : Nat) (j : Fin 16) :
    x.derated T (lowerPct found pct) j = lowerPct (x.derated T found j) pct := by
  unfold Position.derated
  split
  · split
    · rfl
    · exact lowerPct_comm ..
  · rfl

theorem deratePct_eq (T : Tables) (x : Position) : x.deratePct T = protIndices.foldl (x.derated T) none := rfl

theorem foldl_derated_lower (list : List (Fin 16)) (found : Option Nat) (pct : Nat) :
    list.foldl (x.derated T) (lowerPct found pct) = lowerPct (list.foldl (x.derated T) found) pct := by
  induction list generalizing found with
  | nil => rfl
  | cons j rest ih => rw [List.foldl_cons, List.foldl_cons, derated_lower, ih]

/-- A DERATE entry newly active lowers the percent to its own at most. -/
theorem deratePct_expired (h : T.t8[i] = some en) (hn : x.prot[i].active = false) (ha : en.action = .derate) :
    (x.pairExpired i).deratePct T = lowerPct (x.deratePct T) en.deratePct := by
  have other : ∀ found j, j ≠ i → (x.pairExpired i).derated T found j = x.derated T found j := fun found j hj => by
    rw [Position.derated, Position.derated, activeWith_other _ hj]
  have self : ∀ found, (x.pairExpired i).derated T found i = lowerPct (x.derated T found i) en.deratePct := fun found => by
    rw [Position.derated, Position.derated, activeWith_self _ h, not_activeWith _ hn, ha, h]
    rfl
  obtain ⟨before, after, split⟩ := List.append_of_mem (List.mem_finRange i)
  have nodup : (before ++ i :: after).Nodup := split ▸ List.nodup_finRange 16
  have apart := (List.nodup_append.1 nodup).2.2
  have head := (List.nodup_cons.1 (List.nodup_append.1 nodup).2.1).1
  have same : ∀ (list : List (Fin 16)), i ∉ list → ∀ found,
      list.foldl ((x.pairExpired i).derated T) found = list.foldl (x.derated T) found := fun list hl => by
    induction list with
    | nil => exact fun found => rfl
    | cons j rest ih =>
      intro found
      rw [List.foldl_cons, List.foldl_cons, other found j fun hji => hl (hji ▸ List.mem_cons_self)]
      exact ih (fun hi => hl (List.mem_cons_of_mem j hi)) _
  rw [deratePct_eq, deratePct_eq, protIndices, split, List.foldl_append, List.foldl_append, List.foldl_cons, List.foldl_cons,
    same before fun hi => apart i hi i (by simp) rfl, self, same after head, foldl_derated_lower]

theorem lowerPct_le (found : Option Nat) (pct : Nat) : ∃ n, lowerPct found pct = some n ∧ n ≤ pct := by
  cases found with
  | none => exact ⟨pct, rfl, Nat.le_refl _⟩
  | some n => exact ⟨min n pct, rfl, Nat.min_le_right _ _⟩

/-! ## The expiry at a position -/

theorem persistenceExpires_eq (T : Tables) (p : Pos) (i : Fin 16) (e : Engine) : persistenceExpires T p i e =
    match shutdowns T (e.at p) ((e.at p).pairExpired i) with
    | [] => judgeCauses T p (protectAdded T (e.at p) ((e.at p).pairExpired i)) .none (e.put p ((e.at p).pairExpired i))
    | list => faults T p list (e.put p ((e.at p).pairExpired i)) := rfl

/-- An entry that faults nothing is judged with the causes. -/
theorem persistenceExpires_judged (h : T.t8[i] = some en) (hn : (e.at p).prot[i].active = false) (ha : en.action ≠ .shutdown) :
    persistenceExpires T p i e =
      judgeCauses T p (protectAdded T (e.at p) ((e.at p).pairExpired i)) .none (e.put p ((e.at p).pairExpired i)) := by
  rw [persistenceExpires_eq, shutdowns_expired_none h hn ha]

/-- A DERATE entry at an ONLINE position sets its pair and nothing more before the close. -/
theorem persistenceExpires_online (h : T.t8[i] = some en) (hn : (e.at p).prot[i].active = false) (ha : en.action = .derate)
    (hs : (e.at p).st = .online) (sound : (e.at p).Sound) :
    persistenceExpires T p i e = e.put p ((e.at p).pairExpired i) := by
  rw [persistenceExpires_judged h hn (by rw [ha]; nofun), protectAdded_derate h hn ha]
  have online : ((e.put p ((e.at p).pairExpired i)).at p).st = .online := by
    rw [Engine.at_put_self]
    exact hs
  have causes : ((e.put p ((e.at p).pairExpired i)).at p).causes = .none := by
    rw [Engine.at_put_self]
    exact (sound.causes (by rw [hs]; rfl)).1
  unfold judgeCauses
  dsimp only
  rw [online, causes]
  rfl

/-- The same at a HELD position that stays held. -/
theorem persistenceExpires_held (h : T.t8[i] = some en) (hn : (e.at p).prot[i].active = false) (ha : en.action ≠ .shutdown)
    (hs : (e.at p).st = .held) (hc : ((e.at p).causes.union (protectAdded T (e.at p) ((e.at p).pairExpired i))).isEmpty = false ∨
      (e.at p).link.setup ≠ .confirmed) :
    ∃ t, persistenceExpires T p i e = e.put p { (e.at p).pairExpired i with
      causes := (e.at p).causes.union (protectAdded T (e.at p) ((e.at p).pairExpired i)), holdT := t } := by
  have stays : (((e.at p).causes.union (protectAdded T (e.at p) ((e.at p).pairExpired i))).isEmpty &&
      decide ((e.at p).link.setup = .confirmed)) = false := by
    rcases hc with hc | hc
    · rw [hc]; rfl
    · rw [decide_eq_false hc, Bool.and_false]
  rw [persistenceExpires_judged h hn ha]
  unfold judgeCauses
  rw [Engine.at_put_self]
  dsimp only
  rw [show ((e.at p).pairExpired i).st = .held from hs]
  dsimp only
  rw [minus_none, show ((e.at p).pairExpired i).causes = (e.at p).causes from rfl,
    show ((e.at p).pairExpired i).link = (e.at p).link from rfl, stays, if_neg Bool.false_ne_true, Engine.put_put]
  exact ⟨_, rfl⟩

/-- The first UNLOAD entry takes an engine in service to HELD (R46, R149). -/
theorem persistenceExpires_unloads (h : T.t8[i] = some en) (hn : (e.at p).prot[i].active = false) (ha : en.action = .unload)
    (hu : (e.at p).unload T = false) (hl : e.res.latch = false) (hs : (e.at p).inService) (sound : (e.at p).Sound) :
    ∃ t l, Held ((persistenceExpires T p i e).at p) .protectOnly t l := by
  have put : (e.put p ((e.at p).pairExpired i)).at p = (e.at p).pairExpired i := Engine.at_put_self ..
  have causes : ((((e.put p ((e.at p).pairExpired i)).at p).causes.minus .none).union .protectOnly) = .protectOnly := by
    rw [put, minus_none]
    exact (congrArg (·.union .protectOnly) (hs.causes sound)).trans rfl
  have held := enterHeld_held (T := T) (p := p) (causes := .protectOnly) (e := e.put p ((e.at p).pairExpired i)) hl
  rw [persistenceExpires_judged h hn (by rw [ha]; nofun), protectAdded_unload h ha hu,
    judgeCauses_inService (by rw [put]; exact hs) (by rw [causes]; rfl), causes]
  exact ⟨_, _, held⟩

/-- A SHUTDOWN entry faults a position that is not FAULTED (R147). -/
theorem persistenceExpires_shutdown (h : T.t8[i] = some en) (hn : (e.at p).prot[i].active = false) (ha : en.action = .shutdown)
    (hs : (e.at p).st ≠ .faulted) :
    Failed (.protection i) (e.at p).faultStep ((e.at p).quantity en.quantity) ((persistenceExpires T p i e).at p) := by
  have put : (e.put p ((e.at p).pairExpired i)).at p = (e.at p).pairExpired i := Engine.at_put_self ..
  have failed := faultWith_failed (T := T) (p := p) (e := e.put p ((e.at p).pairExpired i)) (code := .protection i)
    (step := (e.at p).faultStep) (value := (e.at p).quantity en.quantity) (by rw [put]; exact hs)
  have step : ((e.put p ((e.at p).pairExpired i)).at p).faultStep = (e.at p).faultStep := by
    rw [put]
    rfl
  rw [persistenceExpires_eq, shutdowns_expired h hn ha]
  dsimp only
  rw [faults, List.foldl_cons, List.foldl_nil, fault, step]
  exact failed

/-! ## The command -/

variable {s : State} {since period : Nat}

theorem exec_persistenceTimer (hp : s.block.powered = true) (ht : (s.pos p).prot[i].timer = .running since period)
    (hs : (s.pos p).st ≠ .faulted) : exec (.persistenceTimerExpires p i) s =
      .next (s.expired (since + period) (fun T e => persistenceExpires T p i e)) := by
  refine answer_expired hp ?_ ht
  have met : (s.block.works.eng.at p).shutdownMet s.block.works.eng.now i = false := by
    simp [Position.shutdownMet, Position.failedAt, hs]
  rw [persistenceTimer, met]
  rfl

theorem exec_persistenceTimer_next (p : Pos) (i : Fin 16) (s : State) :
    ∃ t, exec (.persistenceTimerExpires p i) s = .next t := ⟨_, rfl⟩

end Sys2Proof.Machine
end

section
/-! SUPPORT. A target that falls at one ONLINE position of a quiet block: the slot is written and the phase acts on it in one more
round of the close (R124, R129, log 39). -/

namespace Sys2Proof.Machine

variable {T : Tables} {p : Pos} {e : Engine} {tgt : Target} {x : SchedEntry} {pr : Profile}

/-! ## The rounds of a close that nothing prompts -/

/-- A round at which nothing moved: the slots are written, and the positions whose target changed act in a further round. -/
theorem closeRounds_unmoved {start w : Works} (fuel : Nat) (hq : start.quiet = true) (ht : w.tab = start.tab)
    (hu : Unmoved start.eng w.eng) (hc : commitDue start.eng w = false) :
    closeRounds start.eng (fuel + 1) start none false w =
      if (Pos.all.filter (slotStale w.tab w.eng)).isEmpty then { w with eng := writeSlots w.tab w.eng }
      else closeRounds start.eng fuel start none false
        { w with eng := actOnTargets w.tab (Pos.all.filter (slotStale w.tab w.eng)) (writeSlots w.tab w.eng) } := by
  obtain ⟨linger, each⟩ := quiet_iff.1 hq
  have greeted : handshakes w = w := by
    have one : ∀ q, handshake w.tab q w.eng = w.eng := fun q => by
      have greets : (w.eng.at q).greets = (start.eng.at q).greets := by
        simp [Position.greets, hu.setup, hu.linkState, hu.st]
      unfold handshake
      dsimp only
      split
      next => rfl
      next pr hpr =>
        rcases (each q).1 with hg | hg
        · rw [greets, hg]
          rfl
        · rw [ht, hg] at hpr
          cases hpr
    unfold handshakes
    rw [Engine.eachPos_id one]
  have committed : commitWhenDue start.eng w = w := by simp [commitWhenDue, hc]
  have lingers : zeroLinger w.eng = none := (zeroLinger_congr hu.lingerT).trans linger
  have resolved : (start.eng.res.resolved != w.eng.res.resolved) = false := by simp [hu.res]
  have asked := hu.prompted ht
  rw [closeRounds]
  simp [greeted, committed, hc, lingers, resolved, asked, beforeTargets, stopLinger]

theorem eachPos_only {f : Pos → Engine → Engine} (h : ∀ q, q ≠ p → f q e = e ∧ f q (f p e) = f p e) : e.eachPos f = f p e := by
  unfold Engine.eachPos
  cases p with
  | A => rw [(h .B nofun).2, (h .C nofun).2, (h .D nofun).2]
  | B => rw [(h .A nofun).1, (h .C nofun).2, (h .D nofun).2]
  | C => rw [(h .A nofun).1, (h .B nofun).1, (h .D nofun).2]
  | D => rw [(h .A nofun).1, (h .B nofun).1, (h .C nofun).1]

theorem filter_only {f : Pos → Bool} (hp : f p = true) (h : ∀ q, q ≠ p → f q = false) : Pos.all.filter f = [p] := by
  have each : ∀ q, f q = decide (q = p) := fun q => by
    by_cases hq : q = p
    · rw [hq, hp, decide_eq_true rfl]
    · rw [h q hq, decide_eq_false hq]
  rw [show f = fun q => decide (q = p) from funext each]
  cases p <;> rfl

theorem slotStale_other {y : Position} {q : Pos} (h : q ≠ p) : slotStale T (e.put p y) q = slotStale T e q := by
  unfold slotStale scheduleTarget
  dsimp only
  rw [Engine.at_put_other _ _ h, Engine.put_res]

theorem writeSlot_fresh (h : slotStale T e p = false) : writeSlot T p e = e := by
  unfold writeSlot
  dsimp only
  split
  next hs =>
    split
    next => rfl
    next t ht =>
      simp only [slotStale, hs, beq_self_eq_true, ht, Option.isSome_some, Bool.true_and, bne_eq_false_iff_eq] at h
      rw [← h]
      exact Engine.put_at ..
  next => rfl

/-- The position with a target in its slot. -/
def Position.slotted (y : Position) (tgt : Target) : Position := { y with load := { y.load with slot := some tgt } }

theorem writeSlot_online (hs : (e.at p).st = .online) (ht : scheduleTarget T p e = some tgt) :
    writeSlot T p e = e.put p ((e.at p).slotted tgt) := by
  unfold writeSlot
  dsimp only
  rw [if_pos hs, ht]
  rfl

/-- The slots where one target alone changed. -/
theorem writeSlots_only (hs : (e.at p).st = .online) (ht : scheduleTarget T p e = some tgt)
    (h : ∀ q, q ≠ p → slotStale T e q = false) : writeSlots T e = e.put p ((e.at p).slotted tgt) := by
  have one := writeSlot_online hs ht
  refine (eachPos_only (f := writeSlot T) (p := p) fun q hq => ⟨writeSlot_fresh (h q hq), ?_⟩).trans one
  rw [one]
  exact writeSlot_fresh ((slotStale_other hq).trans (h q hq))

theorem fresh_of_slot {t : Option Target} (hs : (e.at p).load.slot = t) (ht : scheduleTarget T p e = t) :
    slotStale T e p = false := by
  simp [slotStale, hs, ht]

/-- The close of an event that changed the target of one ONLINE position of a quiet block: `y` is the position the event leaves, `z`
what acting on the target makes of it. -/
theorem quiet_retargeted {w : Works} {y z : Position} (hq : w.quiet = true) (hy : Rephased (w.eng.at p) y) (hs : y.st = .online)
    (hn : y.onlineSteady = false) (ht : scheduleTarget w.tab p (w.eng.put p y) = some tgt) (hstale : y.load.slot ≠ some tgt)
    (hact : actOnTarget w.tab p (w.eng.put p (y.slotted tgt)) = w.eng.put p z) (hz : Rephased (w.eng.at p) z)
    (hzn : z.onlineSteady = false) (hslot : z.load.slot = some tgt) (hprot : z.prot = y.prot) :
    ∃ l, (closeEvent w { w with eng := w.eng.put p y }).eng.at p = { z with link := l } := by
  obtain ⟨-, each⟩ := quiet_iff.1 hq
  have aty : (w.eng.put p y).at p = y := Engine.at_put_self ..
  have atz : (w.eng.put p z).at p = z := Engine.at_put_self ..
  have zs : z.st = .online := hz.st.trans (hy.st.symm.trans hs)
  have others : ∀ v q, q ≠ p → slotStale w.tab (w.eng.put p v) q = false := fun v q hq => (slotStale_other hq).trans (each q).2.1
  have stale : slotStale w.tab (w.eng.put p y) p = true := by
    unfold slotStale
    dsimp only
    rw [aty, hs, ht]
    simpa using hstale
  have changed : Pos.all.filter (slotStale w.tab (w.eng.put p y)) = [p] := filter_only stale (others y)
  have slots : writeSlots w.tab (w.eng.put p y) = w.eng.put p (y.slotted tgt) := by
    rw [writeSlots_only (by rw [aty]; exact hs) ht (others y), aty, Engine.put_put]
  have acted : actOnTargets w.tab [p] (w.eng.put p (y.slotted tgt)) = w.eng.put p z := by
    unfold actOnTargets
    rw [List.foldl_cons, List.foldl_nil, Engine.at_put_self, if_pos (show (y.slotted tgt).st = .online from hs), hact]
  have targetz : scheduleTarget w.tab p (w.eng.put p z) = some tgt := by
    rw [← ht]
    unfold scheduleTarget
    rw [aty, atz, Engine.put_res, Engine.put_res, deratePct_of_prot hprot]
  have freshz : ∀ q, slotStale w.tab (w.eng.put p z) q = false := fun q => by
    by_cases hqp : q = p
    · subst hqp
      exact fresh_of_slot (by rw [atz]; exact hslot) targetz
    · exact others z q hqp
  have first := closeRounds_unmoved (start := w) (w := { w with eng := w.eng.put p y }) 199 hq rfl hy.unmoved
    (commitDue_unsteady (p := p) (by dsimp only; rw [aty, hs]) (by dsimp only; rw [aty, hn]))
  have second := closeRounds_unmoved (start := w) (w := { w with eng := w.eng.put p z }) 198 hq rfl hz.unmoved
    (commitDue_unsteady (p := p) (by dsimp only; rw [atz, zs]) (by dsimp only; rw [atz, hzn]))
  have settled : Pos.all.filter (slotStale w.tab (w.eng.put p z)) = [] :=
    List.filter_eq_nil_iff.2 fun q _ => by rw [freshz q]; nofun
  have kept : writeSlots w.tab (w.eng.put p z) = w.eng.put p z := Engine.eachPos_id fun q => writeSlot_fresh (freshz q)
  dsimp only at first second
  rw [changed, slots, acted] at first
  rw [settled, kept] at second
  have rounds : closeRounds w.eng closeFuel w none false { w with eng := w.eng.put p y } = { w with eng := w.eng.put p z } :=
    first.trans second
  obtain ⟨l, hl, -⟩ := (eachPos_links (fun p e => refreshDrive_linkOnly w.tab w.eng p e) (w.eng.put p z)).pos p
  rw [atz] at hl
  refine ⟨l, ?_⟩
  unfold closeEvent closeEventWith
  rw [rounds]
  exact hl

/-! ## What a phase does with a new target (R129) -/

theorem endPhase_of_put {y : Position} {speed : Nat} (hslot : y.load.slot = some tgt) (hspeed : y.load.speed = some speed)
    (hx : T.active e.res.resolved = some x) (hs : y.st ≠ .unloading ∨ choice tgt y.chan.duty speed ≠ .steady) :
    ∃ l, endPhase T p (e.put p y) = e.put p (y.phaseEnded.entering (choice tgt y.chan.duty speed) tgt
      (settleTimer T p e) x e.pwm.periodMs l) ∧ LinkHanded y.link l := by
  obtain ⟨l, hl, hk⟩ := endPhase_put (T := T) (p := p) (e := e.put p y) (slot := tgt) (speed := speed) (x := x)
    (by rw [Engine.at_put_self]; exact hslot) (by rw [Engine.at_put_self]; exact hspeed) hx
    (by rw [Engine.at_put_self]; exact hs)
  rw [Engine.at_put_self, Engine.put_put] at hl
  rw [Engine.at_put_self] at hk
  exact ⟨l, hl, hk⟩

/-- A load phase down to the target, entered from a phase that ends. -/
structure LoweredTo (tgt : Target) (z : Position) : Prop where
  phase : z.load.phase = some .loadDown
  phaseTarget : z.load.phaseTarget = some tgt.load
  settleT : z.load.settleT = .stopped
  target : z.chan.target = tgt.load
  ramping : z.chan.state = .ramping

theorem LoweredTo.parts {z : Position} (h : LoweredTo tgt z) : z.load.phase = some .loadDown ∧
    z.load.phaseTarget = some tgt.load ∧ z.load.settleT = .stopped ∧ z.chan.target = tgt.load ∧ z.chan.state = .ramping :=
  ⟨h.phase, h.phaseTarget, h.settleT, h.target, h.ramping⟩

theorem entering_lowers {y : Position} {settle : Timer} {periodMs : Nat} {l : Link} (h : tgt.load < y.chan.duty) :
    LoweredTo tgt (y.phaseEnded.entering .loadDown tgt settle x periodMs l) := by
  obtain ⟨target, ramping⟩ := ramp_ramping (x := x) (c := y.chan) periodMs (Nat.ne_of_lt h)
  exact ⟨rfl, rfl, rfl, target, ramping⟩

/-- What acting on a target leaves of an ONLINE position in a phase other than STEADY. -/
structure Retargeted (tgt : Target) (now : Nat) (y z : Position) : Prop where
  st : z.st = y.st
  mode : z.mode = y.mode
  lingerT : z.lingerT = y.lingerT
  prot : z.prot = y.prot
  link : LinkHanded y.link z.link
  slot : z.load.slot = some tgt
  duty : z.chan.duty = y.chan.duty
  late : z.load.settleLate = y.load.settleLate
  unsteady : z.load.phase ≠ some .steady
  lowered : y.endAt now = none → y.load.phase = some .speedUp ∨ y.load.phase = some .loadUp → tgt.load < y.chan.duty →
    LoweredTo tgt z
  kept : y.endAt now = none → y.load.phase = some .speedDown ∨ y.load.phase = some .loadDown ∨ y.chan.duty ≤ tgt.load →
    z.load.phase = y.load.phase ∧ z.load.phaseTarget = y.load.phaseTarget ∧ z.chan = y.chan
  anew : ∀ f speed, y.endAt now = some f → f.speed = some speed →
    z.load.phase = some (choice tgt y.chan.duty speed) ∧
      (tgt.load < y.chan.duty → LoweredTo tgt z ∧ z.load.speed = some speed)

/-- A phase that goes on with the new target. -/
theorem Retargeted.goes_on {now : Nat} {y : Position} (hslot : y.load.slot = some tgt) (hn : y.load.phase ≠ some .steady)
    (he : y.endAt now = none) (h : y.load.phase = some .speedUp ∨ y.load.phase = some .loadUp → y.chan.duty ≤ tgt.load) :
    Retargeted tgt now y y :=
  ⟨rfl, rfl, rfl, rfl, .refl _, hslot, rfl, rfl, hn, fun _ hup hlt => absurd (h hup) (Nat.not_le.2 hlt),
    fun _ _ => ⟨rfl, rfl, rfl⟩, fun f _ hf => by rw [he] at hf; cases hf⟩

/-- The position as a rise finds it when the target falls below its duty: its ramp, if one runs, ends. -/
theorem Retargeted.rise_ends {y y' : Position} {speed : Nat} (he : y.endAt e.now = none)
    (hy' : y' = y ∨ y' = { y with chan := y.chan.stopRamp }) (hslot : y.load.slot = some tgt) (hspeed : y.load.speed = some speed)
    (hup : y.load.phase = some .speedUp ∨ y.load.phase = some .loadUp) (hlt : tgt.load < y.chan.duty)
    (hx : T.active e.res.resolved = some x) :
    ∃ z, endPhase T p (e.put p y') = e.put p z ∧ Retargeted tgt e.now y z := by
  have duty : y'.chan.duty = y.chan.duty := by rcases hy' with rfl | rfl <;> rfl
  have down : choice tgt y'.chan.duty speed = .loadDown := choice_loadDown (by rw [duty]; exact hlt)
  obtain ⟨l, hl, hk⟩ := endPhase_of_put (T := T) (p := p) (e := e) (y := y') (tgt := tgt) (speed := speed) (x := x)
    (by rcases hy' with rfl | rfl <;> exact hslot) (by rcases hy' with rfl | rfl <;> exact hspeed) hx
    (Or.inr (by rw [down]; nofun))
  rw [down] at hl
  have lowered := entering_lowers (x := x) (settle := settleTimer T p e) (periodMs := e.pwm.periodMs) (l := l)
    (show tgt.load < y'.chan.duty by rw [duty]; exact hlt)
  refine ⟨_, hl, ?_, ?_, ?_, ?_, ?_, ?_, ?_, ?_, ?_, fun _ _ _ => lowered, fun _ hk => ?_, fun f _ hf => by rw [he] at hf; cases hf⟩
  · rcases hy' with rfl | rfl <;> rfl
  · rcases hy' with rfl | rfl <;> rfl
  · rcases hy' with rfl | rfl <;> rfl
  · rcases hy' with rfl | rfl <;> rfl
  · rcases hy' with rfl | rfl <;> exact hk
  · rcases hy' with rfl | rfl <;> exact hslot
  · exact (Channel.entering_duty ..).trans duty
  · rcases hy' with rfl | rfl <;> rfl
  · rw [lowered.phase]
    nofun
  · exfalso
    rcases hk with hk | hk | hk
    · rcases hup with h | h <;> rw [h] at hk <;> cases hk
    · rcases hup with h | h <;> rw [h] at hk <;> cases hk
    · omega

theorem beforeChoice_fields (y : Position) (f : PhaseEnd) : ∃ c, y.beforeChoice f =
    { y with load := { y.load with speed := f.speed }, chan := c } ∧ c.duty = y.chan.duty ∧ c.state ≠ .ramping := by
  unfold Position.beforeChoice
  split
  · exact ⟨_, rfl, rfl, restState_ne_ramping _⟩
  next h => exact ⟨_, rfl, rfl, h⟩

/-- A phase that ended at the instant: its choice is made anew (log 39). -/
theorem actOnTarget_ended {f : PhaseEnd} (h : (e.at p).endAt e.now = some f) :
    actOnTarget T p e = endPhase T p (e.put p ((e.at p).beforeChoice f)) := by
  simp [actOnTarget, h]

theorem choosePhase_unsped (h : (e.at p).load.speed = none) : choosePhase T p e = e := by
  unfold choosePhase
  dsimp only
  rw [h]
  split
  · next h => cases h
  · rfl

theorem Retargeted.chosen_anew {y : Position} {f : PhaseEnd} (hf : y.endAt e.now = some f) (hslot : y.load.slot = some tgt)
    (hn : y.load.phase ≠ some .steady) (hx : T.active e.res.resolved = some x)
    (hc : ∀ speed, f.speed = some speed → choice tgt y.chan.duty speed ≠ .steady) :
    ∃ z, endPhase T p (e.put p (y.beforeChoice f)) = e.put p z ∧ Retargeted tgt e.now y z := by
  obtain ⟨c, before, duty, rest⟩ := beforeChoice_fields y f
  have ended : y.endAt e.now = none → False := fun he => by rw [he] at hf; cases hf
  rw [before]
  cases hfs : f.speed with
  | none =>
    have unsped := choosePhase_unsped (T := T) (p := p)
      (e := e.put p (Position.phaseEnded { y with load := { y.load with speed := none }, chan := c }))
      (by rw [Engine.at_put_self]; rfl)
    refine ⟨Position.phaseEnded { y with load := { y.load with speed := none }, chan := c }, ?_, rfl, rfl, rfl, rfl, .refl _, hslot,
      duty, rfl, hn, fun he => absurd he ended, fun he => absurd he ended, fun g speed hg hs => ?_⟩
    · rw [endPhase, Engine.modify, Engine.at_put_self, Engine.put_put]
      exact unsped
    · rw [hf] at hg
      cases hg
      rw [hfs] at hs
      cases hs
  | some speed =>
    have chosen := hc speed hfs
    rw [← duty] at chosen
    obtain ⟨l, hl, hk⟩ := endPhase_of_put (T := T) (p := p) (e := e)
      (y := { y with load := { y.load with speed := some speed }, chan := c }) (tgt := tgt) (speed := speed) (x := x) hslot rfl hx
      (Or.inr chosen)
    refine ⟨_, hl, rfl, rfl, rfl, rfl, hk, (Load.entering_slot ..).trans hslot, (Channel.entering_duty ..).trans duty,
      Load.entering_late .., ?_, fun he => absurd he ended, fun he => absurd he ended, fun g sp hg hs => ?_⟩
    · exact ne_of_eq_ne (Load.entering_phase ..) fun h => chosen (Option.some.inj h)
    · rw [hf] at hg
      cases hg
      rw [hfs] at hs
      cases hs
      refine ⟨(Load.entering_phase ..).trans (by rw [duty]), fun hlt => ?_⟩
      have down : choice tgt c.duty speed = .loadDown := choice_loadDown (by rw [duty]; exact hlt)
      dsimp only
      rw [down]
      exact ⟨entering_lowers (y := { y with load := { y.load with speed := some speed }, chan := c }) (by dsimp only; rw [duty]; exact hlt), rfl⟩

/-- Acting on a target at an ONLINE position in a phase other than STEADY, where no choice made anew is STEADY. -/
theorem actOnTarget_retargets {y : Position} {ph : Phase} (hslot : y.load.slot = some tgt) (hspeed : y.load.speed ≠ none)
    (hph : y.load.phase = some ph) (hn : ph ≠ .steady) (hx : T.active e.res.resolved = some x)
    (hc : ∀ f speed, y.endAt e.now = some f → f.speed = some speed → choice tgt y.chan.duty speed ≠ .steady) :
    ∃ z, actOnTarget T p (e.put p y) = e.put p z ∧ Retargeted tgt e.now y z := by
  have unsteady : y.load.phase ≠ some .steady := ne_of_eq_ne hph fun h => hn (Option.some.inj h)
  obtain ⟨speed, hspeed⟩ := Option.ne_none_iff_exists'.1 hspeed
  have at_ : (e.put p y).at p = y := Engine.at_put_self ..
  cases he : y.endAt e.now with
  | some f =>
    rw [actOnTarget_ended (f := f) (by rw [at_]; exact he), at_, Engine.put_put]
    exact Retargeted.chosen_anew he hslot unsteady hx fun speed hs => hc f speed he hs
  | none =>
    have above : y.aboveTarget = decide (tgt.load < y.chan.duty) := by
      unfold Position.aboveTarget
      rw [hslot]
    unfold actOnTarget
    dsimp only
    rw [at_, Engine.put_now, he, hph]
    dsimp only
    by_cases hlt : tgt.load < y.chan.duty
    · rw [above, decide_eq_true hlt]
      cases ph with
      | steady => exact absurd rfl hn
      | speedUp => exact Retargeted.rise_ends he (Or.inl rfl) hslot hspeed (Or.inl hph) hlt hx
      | loadUp =>
        dsimp only
        rw [if_pos rfl, Engine.put_put]
        exact Retargeted.rise_ends he (Or.inr rfl) hslot hspeed (Or.inr hph) hlt hx
      | speedDown | loadDown =>
        exact ⟨y, rfl, Retargeted.goes_on hslot unsteady he fun h => by
          rw [hph] at h
          rcases h with h | h <;> cases h⟩
    · have on := Retargeted.goes_on hslot unsteady he fun _ => Nat.not_lt.1 hlt
      rw [above, decide_eq_false hlt]
      cases ph with
      | steady => exact absurd rfl hn
      | speedUp | loadUp | speedDown | loadDown => exact ⟨y, rfl, on⟩

end Sys2Proof.Machine
end

section
/-! SUPPORT. The statement on the expiry of a persistence timer. -/

namespace Sys2Proof.Machine

variable {T : Tables} {p : Pos} {e : Engine} {tgt : Target} {i : Fin 16} {en : ProtEntry} {x : SchedEntry} {pr : Profile}

/-- The ceiling of an ONLINE position after a DERATE entry became active (R142, R18). -/
theorem scheduleTarget_expired {n : Nat} (hpr : T.profile p = some pr) (hx : T.active e.res.resolved = some x)
    (ht : T.t8[i] = some en) (hn : (e.at p).prot[i].active = false) (ha : en.action = .derate)
    (h : n = min x.loadPermille (x.loadPermille * (match (e.at p).deratePct T with
      | none => en.deratePct
      | some m => min m en.deratePct) / 100)) :
    scheduleTarget T p (e.put p ((e.at p).pairExpired i)) = some ⟨max pr.idleRpm (min x.speedRpm pr.maxRpm), n⟩ := by
  rw [scheduleTarget_some (e := e.put p ((e.at p).pairExpired i)) hpr hx, Engine.at_put_self, deratePct_expired ht hn ha, h]
  unfold lowerPct
  cases (e.at p).deratePct T <;> rfl

/-- The pair alone expired: nothing prompts the Planner. -/
theorem pairExpired_rephased (y : Position) (i : Fin 16) : Rephased y (y.pairExpired i) := ⟨rfl, rfl, rfl, rfl, .refl _⟩

theorem unsteady_of {y : Position} (h : y.load.phase ≠ some .steady) : y.onlineSteady = false := by
  simp [Position.onlineSteady, h]

theorem Retargeted.rephased {now : Nat} {y z : Position} (h : Retargeted tgt now y z) (hn : y.load.phase ≠ some .steady) :
    Rephased y z :=
  ⟨h.st, h.mode, h.lingerT, (unsteady_of h.unsteady).trans (unsteady_of hn).symm, h.link⟩

theorem Rephased.trans {x y z : Position} (h₁ : Rephased x y) (h₂ : Rephased y z) : Rephased x z :=
  ⟨h₂.st.trans h₁.st, h₂.mode.trans h₁.mode, h₂.lingerT.trans h₁.lingerT, h₂.steady.trans h₁.steady, h₁.link.trans h₂.link⟩

/-- An ONLINE position of a quiet block whose pair expired and whose target is now `tgt`: the close brings the slot to it and lets
the phase act on it where it changed. -/
theorem expired_quiet {w : Works} {ph : Phase} (hq : w.quiet = true) (hs : (w.eng.at p).st = .online)
    (hph : (w.eng.at p).load.phase = some ph) (hn : ph ≠ .steady) (hspeed : (w.eng.at p).load.speed ≠ none)
    (hx : w.tab.active w.eng.res.resolved = some x)
    (ht : scheduleTarget w.tab p (w.eng.put p ((w.eng.at p).pairExpired i)) = some tgt)
    (hc : ∀ f speed, (w.eng.at p).endAt w.eng.now = some f → f.speed = some speed →
      choice tgt (w.eng.at p).chan.duty speed ≠ .steady) :
    ∃ z l, (closeEvent w { w with eng := w.eng.put p ((w.eng.at p).pairExpired i) }).eng.at p = { z with link := l } ∧
      (((w.eng.at p).load.slot = some tgt ∧ z = (w.eng.at p).pairExpired i) ∨
        ((w.eng.at p).load.slot ≠ some tgt ∧ Retargeted tgt w.eng.now (((w.eng.at p).pairExpired i).slotted tgt) z)) := by
  have unsteady : (w.eng.at p).load.phase ≠ some .steady := ne_of_eq_ne hph fun h => hn (Option.some.inj h)
  have rephased := pairExpired_rephased (w.eng.at p) i
  have at_ : (w.eng.put p ((w.eng.at p).pairExpired i)).at p = (w.eng.at p).pairExpired i := Engine.at_put_self ..
  by_cases hslot : (w.eng.at p).load.slot = some tgt
  · have fresh : ∀ q, slotStale w.tab (w.eng.put p ((w.eng.at p).pairExpired i)) q = false := fun q => by
      by_cases hqp : q = p
      · subst hqp
        exact fresh_of_slot (by rw [at_]; exact hslot) ht
      · exact (slotStale_other hqp).trans ((quiet_iff.1 hq).2 q).2.1
    have closed := quiet_close (w := { w with eng := w.eng.put p ((w.eng.at p).pairExpired i) }) hq rfl rephased.unmoved
      (commitDue_unsteady (p := p) (by dsimp only; rw [at_]; exact hs) (by dsimp only; rw [at_]; exact unsteady_of unsteady)) fresh
    obtain ⟨l, hl, -⟩ := (eachPos_links (fun p e => refreshDrive_linkOnly w.tab w.eng p e)
      (w.eng.put p ((w.eng.at p).pairExpired i))).pos p
    rw [at_] at hl
    exact ⟨_, l, (congrArg (fun v : Works => v.eng.at p) closed).trans hl, Or.inl ⟨hslot, rfl⟩⟩
  · obtain ⟨z, acted, hz⟩ := actOnTarget_retargets (T := w.tab) (p := p) (e := w.eng)
      (y := ((w.eng.at p).pairExpired i).slotted tgt) rfl hspeed hph hn hx hc
    have rephasedz : Rephased (w.eng.at p) z := Rephased.trans (y := ((w.eng.at p).pairExpired i).slotted tgt)
      ⟨rfl, rfl, rfl, rfl, .refl _⟩ (hz.rephased unsteady)
    obtain ⟨l, at_z⟩ := quiet_retargeted hq rephased hs (unsteady_of unsteady) ht hslot acted rephasedz
      (unsteady_of hz.unsteady) hz.slot hz.prot
    exact ⟨z, l, at_z, Or.inr ⟨hslot, hz⟩⟩

/-- A phase that ended at the instant and whose choice made anew is STEADY. -/
theorem actOnTarget_rests {f : PhaseEnd} {slot : Target} {speed : Nat} (hs : (e.at p).st = .online)
    (hf : (e.at p).endAt e.now = some f) (hfs : f.speed = some speed) (hslot : (e.at p).load.slot = some slot)
    (hc : choice slot (e.at p).chan.duty speed = .steady) :
    ∃ c, (actOnTarget T p e).at p = { e.at p with
        load := { (e.at p).load with phase := some .steady, speed := some speed, phaseTarget := none, settleT := .stopped }
        chan := c } ∧ c.duty = (e.at p).chan.duty ∧ c.state ≠ .ramping := by
  obtain ⟨c, before, duty, rest⟩ := beforeChoice_fields (e.at p) f
  rw [hfs] at before
  rw [actOnTarget_ended hf, before, endPhase, Engine.modify, Engine.at_put_self, Engine.put_put,
    choosePhase_steady (slot := slot) (speed := speed) (by rw [Engine.at_put_self]; exact hslot) (by rw [Engine.at_put_self])
      (by rw [Engine.at_put_self]; exact (congrArg (choice slot · speed) duty).trans hc)
      (by rw [Engine.at_put_self]; exact ne_of_eq_ne hs nofun), Engine.at_put_self, Engine.at_put_self]
  exact ⟨c, rfl, duty, rest⟩

/-- A commit leaves the derate percent. -/
theorem TabDrift.deratePct {a b : Works} (h : TabDrift a b) (y : Position) : y.deratePct b.tab = y.deratePct a.tab := by
  rcases h.tab with h | ⟨-, h⟩ <;> rw [h]
  rfl

/-- Settles O40. -/
theorem persistenceExpiryActs : Obligations.PersistenceExpiryActs := by
  constructor
  · intro s p i en since period hp ht hn hen
    by_cases hf : (s.pos p).st = .faulted
    · obtain ⟨t, run⟩ := exec_persistenceTimer_next p i s
      refine ⟨t, run, fun _ h => absurd hf h, fun _ _ _ _ => ⟨fun h => ?_, fun h => ?_⟩, fun _ h => ?_,
        fun _ _ _ _ _ h => ?_⟩
      · rw [hf] at h
        rcases h with h | h | h <;> cases h
      · rw [hf] at h
        cases h
      · rw [hf] at h
        cases h
      · rw [hf] at h
        cases h
    · have run := exec_persistenceTimer hp ht hf
      refine ⟨_, run, fun ha _ => ?_, fun ha hu hl hs => ⟨fun hst => ?_, fun hst => ?_⟩, fun ha hst hc => ?_, ?_⟩
      · have failed := persistenceExpires_shutdown (T := s.tab) (p := p)
          (e := (s.block.works.atTime (max s.eng.now (since + period))).eng) hen hn ha hf
        have still := (event_still (w := s.block.works.atTime (max s.eng.now (since + period)))
          (f := fun T e => persistenceExpires T p i e) failed.fixed).failed failed
        exact ⟨still.st, still.fault⟩
      · obtain ⟨t, l, held⟩ := persistenceExpires_unloads (T := s.tab) (p := p)
          (e := (s.block.works.atTime (max s.eng.now (since + period))).eng) hen hn ha hu hl hst (hs p)
        have still := event_still (w := s.block.works.atTime (max s.eng.now (since + period)))
          (f := fun T e => persistenceExpires T p i e) held.fixed
        have st := still.st.trans held.st
        exact ⟨st, still.causes.trans held.causes, ((exec_moves run).positions hs p).held_duty st⟩
      · have added := protectAdded_unload (T := s.tab) (x := s.pos p) hen ha hu
        obtain ⟨t, held⟩ := persistenceExpires_held (T := s.tab) (p := p)
          (e := (s.block.works.atTime (max s.eng.now (since + period))).eng) hen hn (by rw [ha]; nofun) hst (Or.inl (by
            refine Eq.trans (congrArg (fun c => ((s.pos p).causes.union c).isEmpty) added) ?_
            simp [Causes.union, Causes.isEmpty, Causes.protectOnly]))
        have at_ := (congrArg (fun e => Engine.at e p) held).trans (Engine.at_put_self ..)
        have still := event_still (w := s.block.works.atTime (max s.eng.now (since + period)))
          (f := fun T e => persistenceExpires T p i e) (p := p)
          ((congrArg (fun y : Position => y.st.fixed) at_).trans (congrArg PState.fixed hst))
        refine ⟨still.st.trans ((congrArg Position.st at_).trans hst), still.causes.trans ((congrArg Position.causes at_).trans ?_)⟩
        refine Eq.trans (congrArg (fun c => (s.pos p).causes.union c) added) ?_
        simp [Causes.union, Causes.protectOnly, Causes.none]
      · have added := protectAdded_derate (T := s.tab) (x := s.pos p) hen hn ha
        have same : (s.pos p).causes.union (protectAdded s.tab (s.pos p) ((s.pos p).pairExpired i)) = (s.pos p).causes := by
          rw [added]
          simp [Causes.union, Causes.none]
        obtain ⟨t, held⟩ := persistenceExpires_held (T := s.tab) (p := p)
          (e := (s.block.works.atTime (max s.eng.now (since + period))).eng) hen hn (by rw [ha]; nofun) hst
          (hc.imp (fun h => (congrArg Causes.isEmpty same).trans h) id)
        have at_ := (congrArg (fun e => Engine.at e p) held).trans (Engine.at_put_self ..)
        have still := event_still (w := s.block.works.atTime (max s.eng.now (since + period)))
          (f := fun T e => persistenceExpires T p i e) (p := p)
          ((congrArg (fun y : Position => y.st.fixed) at_).trans (congrArg PState.fixed hst))
        have prot : (((s.expired (since + period) (fun T e => persistenceExpires T p i e)).pos p).prot) =
            ((s.pos p).pairExpired i).prot := still.prot.trans ((congrArg Position.prot at_).trans rfl)
        obtain ⟨n, hn', hle⟩ := lowerPct_le ((s.pos p).deratePct s.tab) en.deratePct
        refine ⟨by rw [prot]; exact pairExpired_self .., n, ?_, hle⟩
        have drift := (closeEvent_closes (s.block.works.atTime (max s.eng.now (since + period)))
          { s.block.works.atTime (max s.eng.now (since + period)) with
            eng := persistenceExpires s.tab p i (s.block.works.atTime (max s.eng.now (since + period))).eng }).toTabDrift
        refine (drift.deratePct _).trans ((deratePct_of_prot prot).trans ?_)
        exact (deratePct_expired (T := s.tab) (x := s.pos p) hen hn ha).trans hn'
      · intro pr x ph n ha hst hq hs hph hne hpr hx hsp hn' hc
        have event := persistenceExpires_online (T := s.tab) (p := p)
          (e := (s.block.works.atTime (max s.eng.now (since + period))).eng) hen hn ha hst (hs p)
        obtain ⟨z, l, closed, hz⟩ := expired_quiet (w := s.block.works.atTime (max s.eng.now (since + period))) (i := i) (quiet_atTime hq) hst hph hne hsp hx
          (scheduleTarget_expired hpr hx hen hn ha hn') hc
        have at_ : (s.expired (since + period) (fun T e => persistenceExpires T p i e)).pos p = { z with link := l } :=
          (congrArg (fun e => (closeEvent (s.block.works.atTime (max s.eng.now (since + period)))
            { s.block.works.atTime (max s.eng.now (since + period)) with eng := e }).eng.at p) event).trans closed
        have now : (s.expired (since + period) (fun T e => persistenceExpires T p i e)).eng.now =
            max s.eng.now (since + period) :=
          (event_now (s.block.works.atTime (max s.eng.now (since + period))) (fun T e => persistenceExpires T p i e)).trans
            (congrArg Engine.now event)
        rw [now, at_]
        rcases hz with ⟨slot, rfl⟩ | ⟨slot, hz⟩
        · exact ⟨hst, pairExpired_self .., rfl, slot, rfl, rfl, fun _ _ _ h => absurd slot h, fun _ _ => ⟨hph, rfl, rfl⟩,
            fun _ _ _ _ h => absurd slot h⟩
        · refine ⟨hz.st.trans hst, ?_, rfl, hz.slot, hz.duty, hz.late, fun he hup hlt _ => ?_, fun he hk => ?_, fun f speed hf hfs _ => ?_⟩
          · rw [hz.prot]
            exact pairExpired_self ..
          · exact (hz.lowered he (hup.imp (fun h => hph.trans (congrArg some h)) fun h => hph.trans (congrArg some h)) hlt).parts
          · obtain ⟨phase, target, chan⟩ := hz.kept he (hk.imp (fun h => hph.trans (congrArg some h))
              (Or.imp (fun h => hph.trans (congrArg some h)) id))
            exact ⟨phase.trans hph, target, chan⟩
          · obtain ⟨phase, down⟩ := hz.anew f speed hf hfs
            refine ⟨phase, fun hlt => ?_⟩
            obtain ⟨low, sp⟩ := down hlt
            exact ⟨low.phaseTarget, sp, low.target, low.ramping⟩
  · intro T p e f slot speed hs hf hfs hslot hc
    obtain ⟨c, at_, duty, rest⟩ := actOnTarget_rests (T := T) hs hf hfs hslot hc
    rw [at_]
    exact ⟨hs, rfl, duty, rest⟩

end Sys2Proof.Machine
end

section
/-! SUPPORT. What the close of an event keeps of one position: a property that every operation of the close keeps at the position is kept
by the close. -/

namespace Sys2Proof.Machine

variable {T : Tables} {p q : Pos} {e a b : Engine}

/-- A property of a position that the operations of a close keep: a change of its link, a grant of the bus, a linger timer, the
re-stepping of its ramp, the slot and what acts on it, and the orders. -/
structure CloseStable (p : Pos) (P : Position → Prop) : Prop where
  link : ∀ (x : Position) (l : Link), l.setup = x.link.setup ∨ x.greets = true → P x → P { x with link := l }
  granted : ∀ (x : Position) (f : StepCtx → StepCtx), P x → P { x with ctx := x.ctx.map f }
  linger : ∀ (x : Position) (t : Timer), P x → P { x with lingerT := t }
  restep : ∀ (x : Position) (entry : SchedEntry) (n : Nat), P x → P { x with chan := x.chan.restep entry n }
  slot : ∀ (x : Position) (t : Target), x.st = .online → P x → P { x with load := { x.load with slot := some t } }
  target : ∀ (T : Tables) (e : Engine), (e.at p).st = .online → P (e.at p) → P ((actOnTarget T p e).at p)
  demote : ∀ (T : Tables) (e : Engine), (e.at p).st = .online → P (e.at p) → P ((demoteOrder T p e).at p)
  promote : ∀ (T : Tables) (e : Engine), (e.at p).st = .ready → P (e.at p) → P ((promoteOrder T p e).at p)
  start : ∀ (T : Tables) (e : Engine), (e.at p).st = .off → P (e.at p) → P ((startOrder T p e).at p)
  abandon : ∀ (T : Tables) (e : Engine), (e.at p).st = .starting → P (e.at p) → P ((abandonOrder T p e).at p)
  stop : ∀ (T : Tables) (e : Engine), (e.at p).st = .ready → P (e.at p) → P ((stopOrder T p e).at p)

section
variable {P : Position → Prop} (h : CloseStable p P)
include h

/-- An operation of another position. -/
theorem CloseStable.other (ht : Touches T q a b) (hq : p ≠ q) (hp : P (a.at p)) : P (b.at p) := by
  rcases ht.others p hq with hb | hb <;> rw [hb]
  · exact hp
  · exact h.granted _ _ hp

theorem CloseStable.ofLink (hl : LinkOnly q a b) (hp : P (a.at p)) : P (b.at p) := by
  obtain ⟨l, rfl, hk⟩ := hl
  rw [Engine.at_put]
  split
  next hq => subst hq; exact h.link _ _ (Or.inl hk.setup) hp
  next => exact hp

omit h in
theorem eachPos_keeps {f : Pos → Engine → Engine} (hf : ∀ q e, P (e.at p) → P ((f q e).at p)) (e : Engine) (hp : P (e.at p)) :
    P ((e.eachPos f).at p) := hf _ _ (hf _ _ (hf _ _ (hf _ _ hp)))

omit h in
/-- A change of a position's record by itself. -/
theorem modify_keeps {f : Position → Position} (hf : ∀ x, P x → P (f x)) (hp : P (e.at p)) : P ((e.modify q f).at p) := by
  rw [Engine.at_modify]
  split
  next hq => subst hq; exact hf _ hp
  next => exact hp

theorem CloseStable.handshakes {w : Works} (hp : P (w.eng.at p)) : P ((handshakes w).eng.at p) := by
  refine eachPos_keeps (P := P) (fun q e hp => ?_) w.eng hp
  unfold handshake
  dsimp only
  split
  · exact hp
  · split
    next hg =>
      rw [Engine.at_put]
      split
      next hq => subst hq; exact h.link _ _ (Or.inr hg) hp
      next => exact hp
    next => exact hp

theorem CloseStable.beforeTargets (linger : Option Pos) (turned : Bool) (hp : P (e.at p)) :
    P ((beforeTargets T linger turned e).at p) := by
  have stopped : ∀ e, P (Engine.at e p) → P ((stopLinger linger e).at p) := fun e hp => by
    unfold stopLinger
    split
    · exact hp
    · exact modify_keeps (fun x => h.linger x _) hp
  unfold Machine.beforeTargets
  split
  · refine stopped _ ?_
    unfold restepAll
    split
    · exact hp
    next entry _ => 
      exact eachPos_keeps (P := P) (f := fun q e' => e'.modify q fun x => { x with chan := x.chan.restep entry e.pwm.periodMs })
        (fun q e' hp => modify_keeps (fun x => h.restep x entry e.pwm.periodMs) hp) e hp
  · exact stopped _ hp

theorem CloseStable.writeSlots (hp : P (e.at p)) : P ((writeSlots T e).at p) := by
  refine eachPos_keeps (P := P) (fun q e hp => ?_) e hp
  unfold writeSlot
  dsimp only
  split
  next hs =>
    split
    · exact hp
    · rw [Engine.at_put]
      split
      next hq => subst hq; exact h.slot _ _ hs hp
      next => exact hp
  · exact hp

theorem CloseStable.actOnTargets (list : List Pos) (hp : P (e.at p)) : P ((actOnTargets T list e).at p) := by
  unfold Machine.actOnTargets
  induction list generalizing e with
  | nil => exact hp
  | cons q rest ih =>
    refine ih ?_
    dsimp only
    split
    next hs =>
      by_cases hq : p = q
      · subst hq
        exact h.target T e hs hp
      · exact h.other (actOnTarget_touches T q e) hq hp
    next => exact hp

theorem CloseStable.giveOrder (o : Order) (hp : P (e.at p)) : P ((giveOrder T e o).at p) := by
  unfold Machine.giveOrder
  cases o with
  | demote q =>
    by_cases hq : p = q
    · subst hq
      by_cases hs : (e.at p).st = .online
      · exact h.demote T e hs hp
      · simpa [demoteOrder, hs] using hp
    · exact h.other (demoteOrder_touches T q e) hq hp
  | promote q =>
    by_cases hq : p = q
    · subst hq
      by_cases hs : (e.at p).st = .ready
      · exact h.promote T e hs hp
      · simpa [promoteOrder, hs] using hp
    · exact h.other (promoteOrder_touches T q e) hq hp
  | start q =>
    by_cases hq : p = q
    · subst hq
      by_cases hs : (e.at p).st = .off
      · exact h.start T e hs hp
      · simpa [startOrder, hs] using hp
    · exact h.other (startOrder_touches T q e) hq hp
  | abandon q =>
    by_cases hq : p = q
    · subst hq
      by_cases hs : (e.at p).st = .starting
      · exact h.abandon T e hs hp
      · simpa [abandonOrder, hs] using hp
    · exact h.other (abandonOrder_touches T q e) hq hp
  | stop q =>
    by_cases hq : p = q
    · subst hq
      by_cases hs : (e.at p).st = .ready
      · exact h.stop T e hs hp
      · simpa [stopOrder, hs] using hp
    · exact h.other (stopOrder_touches T q e) hq hp
  | lingerStart q =>
    dsimp only
    unfold lingerStart
    split
    · exact hp
    · split
      · exact modify_keeps (fun x => h.linger x _) hp
      · exact hp
  | lingerStop q => exact modify_keeps (fun x => h.linger x _) hp

theorem CloseStable.giveOrders (list : List Order) (hp : P (e.at p)) : P ((list.foldl (Machine.giveOrder T) e).at p) := by
  induction list generalizing e with
  | nil => exact hp
  | cons o rest ih => exact ih (h.giveOrder o hp)

theorem CloseStable.evaluate (linger : Option Pos) (force : Bool) (changed : List Pos) (hp : P (e.at p)) :
    P ((evaluate T linger force changed e).1.at p) := by
  have acted := h.actOnTargets (T := T) changed
    (h.giveOrders (T := T) ((staging T linger e).plan (.make fun p => (e.at p).st)).orders hp)
  unfold Machine.evaluate
  dsimp only
  unfold report
  dsimp only
  split <;> exact acted

omit h in
theorem commitWhenDue_at (start : Engine) (w : Works) : (commitWhenDue start w).eng.at p = w.eng.at p := by
  unfold commitWhenDue
  split <;> rfl

theorem CloseStable.closeRounds (start : Engine) (fuel : Nat) (ref : Works) (linger : Option Pos) (commit : Bool) (w : Works)
    (hp : P (w.eng.at p)) : P ((closeRounds start fuel ref linger commit w).eng.at p) := by
  induction fuel generalizing ref linger commit w with
  | zero => exact hp
  | succ n ih =>
    rw [Machine.closeRounds]
    dsimp only
    have committed : P ((commitWhenDue start (Machine.handshakes w)).eng.at p) := by
      rw [commitWhenDue_at]
      exact h.handshakes hp
    generalize commitWhenDue start (Machine.handshakes w) = w' at committed ⊢
    generalize (if linger.isSome = true then linger else zeroLinger w'.eng) = linger'
    have slots := fun l t => h.writeSlots (T := w'.tab) (h.beforeTargets (T := w'.tab) l t committed)
    split
    · refine ih _ _ _ _ ?_
      exact h.evaluate _ _ _ (slots _ _)
    · split
      · exact slots _ _
      · refine ih _ _ _ _ ?_
        exact h.actOnTargets _ (slots _ _)

/-- The close of an event keeps what its operations keep. -/
theorem CloseStable.close (linger : Option Pos) (commit : Bool) (start w : Works) (hp : P (w.eng.at p)) :
    P ((closeEventWith linger commit start w).eng.at p) :=
  eachPos_keeps (P := P) (fun q e hp => h.ofLink (refreshDrive_linkOnly _ _ q e) hp) _ (h.closeRounds _ _ _ _ _ _ hp)

theorem CloseStable.event {w : Works} {f : Tables → Engine → Engine} (hp : P ((f w.tab w.eng).at p)) :
    P ((w.event f).eng.at p) := h.close none false w _ hp

end

/-! ## The duty of a loaded position (R130, R131, R137) -/

/-- A position that carries a duty: ONLINE, or UNLOADING toward 0. -/
structure Laden (duty : Nat) (x : Position) : Prop where
  duty : x.chan.duty = duty
  st : x.st = .online ∨ (x.st = .unloading ∧ ∀ slot, x.load.slot = some slot → slot.load = 0)

variable {d : Nat} {x : Position}

/-- A change of the link, the load record but for the slot and the channel but for the duty. -/
theorem Laden.changed {y : Position} (h : Laden d x) (hst : y.st = x.st) (hd : y.chan.duty = x.chan.duty)
    (hs : x.st = .unloading → y.load.slot = x.load.slot) : Laden d y := by
  refine ⟨hd.trans h.duty, ?_⟩
  rw [hst]
  exact h.st.imp id fun ⟨hu, hz⟩ => ⟨hu, by rw [hs hu]; exact hz⟩

/-- The choice of a phase leaves the duty: the unload of a duty other than 0 is not complete. -/
theorem Laden.choosePhase (h : Laden d (e.at p)) (hd : d ≠ 0) : Laden d ((choosePhase T p e).at p) := by
  unfold Machine.choosePhase
  dsimp only
  split
  next slot speed hslot hspeed =>
    have speeds : ∀ ph, Laden d ((startSpeedPhase T p ph slot e).at p) := fun ph => by
      obtain ⟨l, hl, -⟩ := startSpeedPhase_at (T := T) (p := p) (e := e) (slot := slot) ph
      rw [hl]
      exact h.changed rfl rfl fun _ => rfl
    have loads : ∀ ph, Laden d ((startLoadPhase T p ph slot e).at p) := fun ph => by
      unfold startLoadPhase
      split
      · exact h
      · rw [Engine.at_modify_self]
        exact h.changed rfl (ramp_duty ..) fun _ => rfl
    split
    · exact speeds _
    · exact speeds _
    · exact loads _
    · exact loads _
    next hc =>
      split
      next hu =>
        obtain ⟨load, -⟩ := choice_eq_steady.1 hc
        rcases h.st with hs | ⟨-, hz⟩
        · rw [hu] at hs
          cases hs
        · exact absurd (h.duty.symm.trans (load.symm.trans (hz slot hslot))) hd
      next =>
        rw [Engine.at_put_self]
        exact h.changed rfl rfl fun _ => rfl
  next => exact h

theorem Laden.endPhase (h : Laden d (e.at p)) (hd : d ≠ 0) : Laden d ((endPhase T p e).at p) := by
  refine Laden.choosePhase ?_ hd
  rw [Engine.at_modify_self]
  exact h.changed rfl rfl fun _ => rfl

theorem Laden.completePhase (h : Laden d (e.at p)) (hd : d ≠ 0) : Laden d ((completePhase T p e).at p) := by
  refine Laden.endPhase ?_ hd
  rw [Engine.at_modify_self]
  exact h.changed rfl rfl fun _ => rfl

theorem Laden.endLoadPhase (h : Laden d (e.at p)) (hd : d ≠ 0) : Laden d ((endLoadPhase T p e).at p) := by
  unfold Machine.endLoadPhase
  dsimp only
  split
  · exact h.completePhase hd
  · exact h

theorem Laden.actOnTarget (h : Laden d (e.at p)) (hd : d ≠ 0) : Laden d ((actOnTarget T p e).at p) := by
  have put : ∀ y, Laden d y → Laden d ((Machine.endPhase T p (e.put p y)).at p) := fun y hy => by
    refine Laden.endPhase ?_ hd
    rw [Engine.at_put_self]
    exact hy
  unfold Machine.actOnTarget
  dsimp only
  split
  next f _ =>
    refine put _ ?_
    obtain ⟨c, before, duty, -⟩ := beforeChoice_fields (e.at p) f
    rw [before]
    exact h.changed rfl duty fun _ => rfl
  next =>
    split
    · exact h.choosePhase hd
    · split
      · exact h.endPhase hd
      · exact h
    · split
      · exact put _ (h.changed rfl rfl fun _ => rfl)
      · exact h
    · exact h

/-- A demote order: UNLOADING toward 0. -/
theorem Laden.demoteOrder (h : Laden d (e.at p)) (hd : d ≠ 0) (hs : (e.at p).st = .online) :
    Laden d ((demoteOrder T p e).at p) := by
  unfold Machine.demoteOrder
  rw [if_pos hs]
  refine Laden.actOnTarget ?_ hd
  obtain ⟨l, hl, -⟩ := enter_at T p .unloading e
  rw [Engine.at_modify_self, hl]
  refine ⟨?_, Or.inr ⟨rfl, fun slot hslot => ?_⟩⟩
  · simpa [Position.arrive, Position.leave, hs, PState.loaded] using h.duty
  · simp only [Option.map_eq_some_iff] at hslot
    obtain ⟨pr, -, rfl⟩ := hslot
    rfl

theorem laden_stable (p : Pos) (hd : d ≠ 0) : CloseStable p (Laden d) where
  link x l _ h := h.changed rfl rfl fun _ => rfl
  granted x f h := h.changed rfl rfl fun _ => rfl
  linger x t h := h.changed rfl rfl fun _ => rfl
  restep x entry n h := h.changed rfl (restep_duty ..) fun _ => rfl
  slot x t hs h := h.changed rfl rfl fun hu => by rw [hs] at hu; cases hu
  target T e _ h := h.actOnTarget hd
  demote T e hs h := h.demoteOrder hd hs
  promote T e hs h := by rcases h.st with h | ⟨h, -⟩ <;> rw [hs] at h <;> cases h
  start T e hs h := by rcases h.st with h | ⟨h, -⟩ <;> rw [hs] at h <;> cases h
  abandon T e hs h := by rcases h.st with h | ⟨h, -⟩ <;> rw [hs] at h <;> cases h
  stop T e hs h := by rcases h.st with h | ⟨h, -⟩ <;> rw [hs] at h <;> cases h

end Sys2Proof.Machine
end

section
/-! SUPPORT. The period end: what it makes of the channels and of the events of the completions (R134, R136, R138). -/

namespace Sys2Proof.Machine

variable {T : Tables} {p : Pos} {e : Engine} {d : Nat}

/-! ## The channels -/

theorem eachPos_modify_at (f : Position → Position) (e : Engine) (p : Pos) :
    (e.eachPos fun p e => e.modify p f).at p = f (e.at p) := by
  cases p <;> simp [Engine.eachPos, Engine.at_modify]

theorem channelsEnd_at (e : Engine) (p : Pos) : (channelsEnd e).at p = { e.at p with chan := (e.at p).chan.periodEnd } :=
  eachPos_modify_at (fun x => { x with chan := x.chan.periodEnd }) e p

/-- A period end puts the pending duty in force. -/
theorem periodEnd_duty (c : Channel) : c.periodEnd.duty = c.pending := by
  unfold Channel.periodEnd
  split
  · rfl
  · split <;> rfl

theorem periodEnd_running {c : Channel} (h : c.completes = false) : c.periodEnd = { c with
    duty := c.pending
    pending := match c.state, c.step with
      | .ramping, some step => moveToward c.pending c.target step
      | _, _ => c.pending } := by
  unfold Channel.periodEnd
  rw [h, if_neg Bool.false_ne_true]
  cases hs : c.state <;> cases hst : c.step <;> simp

theorem restepAll_at {x : SchedEntry} (h : T.active e.res.resolved = some x) (p : Pos) :
    (restepAll T e).at p = { e.at p with chan := (e.at p).chan.restep x e.pwm.periodMs } := by
  unfold restepAll
  rw [h]
  exact eachPos_modify_at (fun y => { y with chan := y.chan.restep x e.pwm.periodMs }) e p

theorem takePeriod_same (h : T.pwmPeriod = e.pwm.periodMs) : takePeriod T e = e := if_pos h

theorem takePeriod_changed (h : T.pwmPeriod ≠ e.pwm.periodMs) :
    takePeriod T e = restepAll T { e with pwm := { e.pwm with periodMs := T.pwmPeriod } } := if_neg h

theorem takePeriod_pwm (T : Tables) (e : Engine) : (takePeriod T e).pwm = { e.pwm with periodMs := T.pwmPeriod } := by
  unfold takePeriod
  split
  next h => rw [h]
  next => exact (restepAll_drift (z := true) T _).pwm

/-- A ramp re-stepped: the next duty with the new period (R138). -/
theorem restep_pending {c : Channel} {x : SchedEntry} {n : Nat} (h : c.state = .ramping) :
    (c.restep x n).pending = moveToward c.duty c.target (((if c.duty < c.target then x.rampUp else x.rampDown) * n + 999) / 1000) := by
  rw [Channel.restep, if_pos h]
  rfl

/-! ## The completions -/

/-- The events of completions at the positions of a list. -/
def completions (list : List Pos) (w : Works) : Works := list.foldl (fun w p => w.event fun T e => endLoadPhase T p e) w

theorem periodEnds_eq (w : Works) : periodEnds w =
    completions (Pos.all.filter fun p => ((takePeriod w.tab w.eng).at p).chan.completes)
      { w with eng := channelsEnd (takePeriod w.tab w.eng) } := rfl

theorem completions_pwm (list : List Pos) (w : Works) : (completions list w).eng.pwm = w.eng.pwm := by
  induction list generalizing w with
  | nil => rfl
  | cons p rest ih =>
    exact (ih _).trans (((closeEvent_closes w { w with eng := endLoadPhase w.tab p w.eng }).eng.pwm).trans
      (endLoadPhase_touches w.tab p w.eng).pwm)

theorem completions_carried (list : List Pos) (w : Works) : Carried (w.eng.at p) ((completions list w).eng.at p) := by
  induction list generalizing w with
  | nil => exact .refl _
  | cons q rest ih =>
    have event := event_carried w (fun T e => endLoadPhase T q e) p
    have touches := endLoadPhase_touches w.tab q w.eng
    have before : Carried (w.eng.at p) ((endLoadPhase w.tab q w.eng).at p) := by
      by_cases hq : p = q
      · subst hq
        exact touches.self.carried
      · exact (touches.others p hq).kept.carried
    exact (before.trans event).trans (ih _)

theorem completions_laden (hd : d ≠ 0) (list : List Pos) (w : Works) (h : Laden d (w.eng.at p)) :
    Laden d ((completions list w).eng.at p) := by
  induction list generalizing w with
  | nil => exact h
  | cons q rest ih =>
    refine ih _ ((laden_stable p hd).event ?_)
    by_cases hq : p = q
    · subst hq
      exact h.endLoadPhase hd
    · exact (laden_stable p hd).other (endLoadPhase_touches w.tab q w.eng) hq h

/-- A duty at a position that is not UNLOADING outlasts the completions. -/
theorem completions_duty (list : List Pos) {w : Works} (hd : (w.eng.at p).chan.duty = d)
    (h : d ≠ 0 → (w.eng.at p).st = .online) : ((completions list w).eng.at p).chan.duty = d := by
  by_cases hz : d = 0
  · rcases (completions_carried (p := p) list w).duty with hk | hk
    · rw [hk, hd]
    · rw [hk, hz]
  · exact (completions_laden hz list w ⟨hd, Or.inl (h hz)⟩).duty

/-- A sound position that will carry a duty and is not UNLOADING is ONLINE. -/
theorem online_of_pending {x : Position} (hs : x.Sound) (hu : x.st ≠ .unloading) (hp : x.chan.pending ≠ 0) : x.st = .online := by
  have loaded : x.st.loaded = true := by
    refine Classical.byContradiction fun hn => ?_
    exact hp (hs.duty (Bool.eq_false_iff.2 hn)).2.1
  revert hu loaded
  cases x.st <;> simp [PState.loaded]

/-! ## The period end -/

theorem takePeriod_now (T : Tables) (e : Engine) : (takePeriod T e).now = e.now := by
  unfold takePeriod
  split
  · rfl
  · exact (restepAll_drift (z := true) T _).now

theorem periodEnds_pwm (w : Works) : (periodEnds w).eng.pwm =
    { periodMs := w.tab.pwmPeriod, timer := w.eng.pwm.timer.again w.eng.now (ms w.tab.pwmPeriod) } := by
  rw [periodEnds_eq, completions_pwm]
  simp only [channelsEnd, takePeriod_pwm, takePeriod_now]

theorem periodEnds_unchanged {w : Works} (h : w.tab.pwmPeriod = w.eng.pwm.periodMs)
    (hc : ∀ p, (w.eng.at p).chan.completes = false) : periodEnds w = { w with eng := channelsEnd w.eng } := by
  have nowhere : Pos.all.filter (fun p => (w.eng.at p).chan.completes) = [] :=
    List.filter_eq_nil_iff.2 fun p _ => by rw [hc p]; nofun
  rw [periodEnds_eq, takePeriod_same h, nowhere]
  rfl

/-- The duty of a position that is not UNLOADING after a period end: the one pending once the period is taken. -/
theorem periodEnds_duty {w : Works} (ho : ((takePeriod w.tab w.eng).at p).chan.pending ≠ 0 → (w.eng.at p).st = .online) :
    ((periodEnds w).eng.at p).chan.duty = ((takePeriod w.tab w.eng).at p).chan.pending := by
  obtain ⟨c, taken⟩ := takePeriod_channels w.tab w.eng p
  rw [periodEnds_eq]
  refine completions_duty _ ?_ fun hz => ?_
  · dsimp only
    rw [channelsEnd_at]
    exact periodEnd_duty _
  · dsimp only
    rw [channelsEnd_at, taken]
    exact ho hz

/-! ## The command -/

theorem exec_periodEnd {s : State} {since period : Nat} (hp : s.block.powered = true)
    (ht : s.eng.pwm.timer = .running since period) : exec .periodEnd s = .next { s with block := { s.block with
      works := periodEnds (s.block.works.atTime (max s.eng.now (since + period))) } } := by
  unfold exec execPeriodEnd
  rw [answer_powered hp, expiry_running ht]
  rfl

/-- Settles O37. -/
theorem periodEndMovesTheDuties : Obligations.PeriodEndMovesTheDuties := by
  intro s since period hp ht
  have pwm := periodEnds_pwm (s.block.works.atTime (max s.eng.now (since + period)))
  refine ⟨_, exec_periodEnd hp ht, congrArg PwmClock.periodMs pwm, ?_, fun hsame hnone => ?_, fun hsame hs p hu => ?_,
    fun x p hne hs hx ho hr => ?_⟩
  · refine (congrArg PwmClock.timer pwm).trans ?_
    rw [show (s.block.works.atTime (max s.eng.now (since + period))).eng.pwm.timer = _ from ht]
    rfl
  · have ends := periodEnds_unchanged (w := s.block.works.atTime (max s.eng.now (since + period))) hsame hnone
    refine ⟨(congrArg Works.tab ends).trans rfl, (congrArg (fun w : Works => w.eng.res) ends).trans rfl,
      (congrArg (fun w : Works => w.eng.bus) ends).trans rfl, fun p => (congrArg (fun w : Works => w.eng.at p) ends).trans ?_⟩
    refine (channelsEnd_at (s.block.works.atTime (max s.eng.now (since + period))).eng p).trans ?_
    exact congrArg (fun c => { s.pos p with chan := c }) (periodEnd_running (hnone p))
  · have pending : ((takePeriod s.tab (s.block.works.atTime (max s.eng.now (since + period))).eng).at p).chan.pending =
        (s.pos p).chan.pending := (congrArg (fun e => (Engine.at e p).chan.pending)
      (takePeriod_same (e := (s.block.works.atTime (max s.eng.now (since + period))).eng) hsame)).trans rfl
    exact (periodEnds_duty (p := p) (w := s.block.works.atTime (max s.eng.now (since + period))) fun hz =>
      online_of_pending (hs p) hu (ne_of_eq_ne pending.symm hz)).trans pending
  · have taken := (takePeriod_changed (T := s.tab)
      (e := (s.block.works.atTime (max s.eng.now (since + period))).eng) hne)
    have at_ := restepAll_at (T := s.tab) (e := { (s.block.works.atTime (max s.eng.now (since + period))).eng with
      pwm := { s.eng.pwm with periodMs := s.tab.pwmPeriod } }) hx p
    have duty := periodEnds_duty (p := p) (w := s.block.works.atTime (max s.eng.now (since + period))) fun _ => ho
    refine duty.trans ((congrArg (fun e => (Engine.at e p).chan.pending) taken).trans
      ((congrArg (fun y : Position => y.chan.pending) at_).trans ?_))
    exact restep_pending hr

end Sys2Proof.Machine
end

section
/-! SUPPORT. The order that an evaluation owes one position: it stands in the plan, and no other order of the plan undoes it (R24, R25,
R28, R30, R37). -/

namespace Sys2Proof.Machine

variable {T : Tables} {p : Pos} {e : Engine} {g : Staging} {pl : Plan}

/-! ## What a plan keeps while orders are added -/

theorem repeatOrder_keeps {Q : Plan → Prop} {more : Plan → Bool} {choose : Plan → Option Pos} {order : Pos → Order}
    (h : ∀ pl q, more pl = true → choose pl = some q → Q pl → Q (pl.give (order q))) (n : Nat) (hq : Q pl) :
    Q (Plan.repeatOrder more choose order n pl) := by
  induction n generalizing pl with
  | zero => exact hq
  | succ n ih =>
    unfold Plan.repeatOrder
    split
    next hm =>
      split
      next => exact hq
      next q hc => exact ih (h pl q hm hc hq)
    next => exact hq

theorem foldl_keeps {Q : Plan → Prop} {f : Plan → Pos → Plan} {list : List Pos}
    (h : ∀ q ∈ list, ∀ pl, Q pl → Q (f pl q)) (hq : Q pl) : Q (list.foldl f pl) := by
  induction list generalizing pl with
  | nil => exact hq
  | cons q rest ih => exact ih (fun q hq => h q (List.mem_cons_of_mem _ hq)) (h q (by simp) pl hq)

/-- The turn of one position in a round of all. -/
theorem foldl_meets {Q R : Plan → Prop} {f : Plan → Pos → Plan} {list : List Pos} (hp : p ∈ list)
    (other : ∀ q, q ≠ p → ∀ pl, Q pl → Q (f pl q)) (turn : ∀ pl, Q pl → R (f pl p)) (after : ∀ q pl, R pl → R (f pl q))
    (hq : Q pl) : R (list.foldl f pl) := by
  induction list generalizing pl with
  | nil => cases hp
  | cons q rest ih =>
    by_cases hqp : q = p
    · subst hqp
      exact foldl_keeps (Q := R) (pl := f pl q) (fun q _ => after q) (turn pl hq)
    · exact ih (List.mem_of_ne_of_mem (fun h => hqp h.symm) hp) (other q hqp pl hq)

/-- The position an order names. -/
def Order.position : Order → Pos
  | .demote p | .promote p | .start p | .abandon p | .stop p | .lingerStart p | .lingerStop p => p

theorem give_view_other {o : Order} (h : o.position ≠ p) : (pl.give o).view.get p = pl.view.get p := by
  cases o with
  | lingerStart q => rfl
  | lingerStop q => rfl
  | _ => exact Four.get_set_other _ _ fun hp => h hp.symm

theorem mem_give {o : Order} : o ∈ (pl.give o).orders := by simp [Plan.give]

theorem give_orders {o o' : Order} (h : o ∈ pl.orders) : o ∈ (pl.give o').orders := List.mem_append_left _ h

/-- An order once given stays in the plan. -/
theorem outOfService_orders {o : Order} (q : Pos) (h : o ∈ pl.orders) : o ∈ (g.outOfService pl q).orders := by
  unfold Staging.outOfService
  split
  · split
    · exact give_orders h
    · split
      · exact h
      · exact give_orders h
    · split
      · exact give_orders h
      · split
        · exact h
        · exact give_orders h
    · exact h
  · exact h

theorem stops_orders {o : Order} {dr : Nat} (h : o ∈ pl.orders) : o ∈ (g.stops dr pl).orders := by
  unfold Staging.stops
  split
  · exact h
  · split
    · exact give_orders h
    · exact h

theorem lingers_orders {o : Order} {dr : Nat} (h : o ∈ pl.orders) : o ∈ (g.lingers dr pl).orders := by
  unfold Staging.lingers
  refine foldl_keeps (Q := fun pl => o ∈ pl.orders) (fun q _ pl h => ?_) h
  split
  · split
    · exact give_orders h
    · exact h
  · split
    · exact give_orders h
    · exact h

theorem starts_orders {o : Order} {dr : Nat} (h : o ∈ pl.orders) : o ∈ (g.starts dr pl).orders := by
  unfold Staging.starts
  refine repeatOrder_keeps (Q := fun pl => o ∈ pl.orders) (fun pl q _ _ => give_orders) _ ?_
  refine foldl_keeps (Q := fun pl => o ∈ pl.orders) (fun q _ pl h => ?_) h
  split
  · exact give_orders h
  · exact h

theorem repeatOrder_orders {o : Order} {more : Plan → Bool} {choose : Plan → Option Pos} {order : Pos → Order} (n : Nat)
    (h : o ∈ pl.orders) : o ∈ (Plan.repeatOrder more choose order n pl).orders :=
  repeatOrder_keeps (Q := fun pl => o ∈ pl.orders) (fun _ _ _ _ => give_orders) n h

/-! ## The view of one position through the steps before its order -/

/-- Step 1 at another position, or at one in service, leaves the view of the position. -/
theorem outOfService_view {q : Pos} (h : q ≠ p ∨ g.mode.get p ≠ .out) : (g.outOfService pl q).view.get p = pl.view.get p := by
  by_cases hq : q = p
  · subst hq
    unfold Staging.outOfService
    rw [if_neg (h.resolve_left fun hn => hn rfl)]
  · unfold Staging.outOfService
    split
    · split
      · exact give_view_other hq
      · split
        · rfl
        · exact give_view_other hq
      · split
        · exact give_view_other hq
        · split
          · rfl
          · exact give_view_other hq
      · rfl
    · rfl

theorem demotes_view (h : pl.view.get p ≠ .online) : (g.demotes pl).view.get p = pl.view.get p := by
  refine repeatOrder_keeps (Q := fun pl' => pl'.view.get p = pl.view.get p) (fun pl' q _ hc hv => ?_) _ rfl
  have cand := mostHours_candidate hc
  refine (give_view_other (o := .demote q) fun hq => ?_).trans hv
  obtain rfl : q = p := hq
  exact h (hv.symm.trans (beq_iff_eq.1 cand))

theorem promotes_view (h : pl.view.get p ≠ .ready ∨ g.zero = true) : (g.promotes pl).view.get p = pl.view.get p := by
  refine repeatOrder_keeps (Q := fun pl' => pl'.view.get p = pl.view.get p) (fun pl' q hm hc hv => ?_) _ rfl
  rcases h with h | h
  · have cand := fewestHours_candidate hc
    rw [Bool.and_eq_true] at cand
    refine (give_view_other (o := .promote q) fun hq => ?_).trans hv
    obtain rfl : q = p := hq
    exact h (hv.symm.trans (beq_iff_eq.1 cand.1))
  · simp [Staging.desiredOnline, h] at hm

theorem startable_off {view : Four PState} {q : Pos} (h : g.startable view q = true) : view.get q = .off := by
  simp only [Staging.startable, Bool.and_eq_true, beq_iff_eq] at h
  exact h.1.1.1.1

theorem starts_view {dr : Nat} (h : pl.view.get p ≠ .off) : (g.starts dr pl).view.get p = pl.view.get p := by
  have each : ∀ (pl' : Plan) (q : Pos), pl'.view.get p = pl.view.get p → g.startable pl'.view q = true →
      (pl'.give (.start q)).view.get p = pl.view.get p := fun pl' q hv hs => by
    refine (give_view_other (o := .start q) fun hq => ?_).trans hv
    obtain rfl : q = p := hq
    exact h (hv.symm.trans (startable_off hs))
  unfold Staging.starts
  refine repeatOrder_keeps (Q := fun pl' => pl'.view.get p = pl.view.get p) (fun pl' q _ hc hv => ?_) _ ?_
  · have cand := fewestHours_candidate hc
    rw [Bool.and_eq_true] at cand
    exact each pl' q hv cand.1
  · refine foldl_keeps (Q := fun pl' => pl'.view.get p = pl.view.get p) (fun q _ pl' hv => ?_) rfl
    split
    next hc =>
      rw [Bool.and_eq_true] at hc
      exact each pl' q hv hc.1
    next => exact hv

theorem abandons_view {dr : Nat} (h : pl.view.get p ≠ .starting) : (g.abandons dr pl).view.get p = pl.view.get p := by
  refine repeatOrder_keeps (Q := fun pl' => pl'.view.get p = pl.view.get p) (fun pl' q _ hc hv => ?_) _ rfl
  have cand := mostHours_candidate hc
  simp only [Bool.and_eq_true, beq_iff_eq] at cand
  refine (give_view_other (o := .abandon q) fun hq => ?_).trans hv
  obtain rfl : q = p := hq
  exact h (hv.symm.trans cand.1.1)

/-! ## The stop of a lingered engine (R25, R30, R37) -/

/-- The plan stops the READY position whose linger timer expired, where it is out of service or a zero condition holds. -/
theorem plan_stops {view : Four PState} (he : g.expired = some p) (hv : view.get p = .ready)
    (h : g.mode.get p = .out ∨ (g.zero = true ∧ g.mode.get p = .auto)) : .stop p ∈ (g.plan view).orders := by
  unfold Staging.plan
  dsimp only
  rcases h with h | ⟨hz, hm⟩
  · refine lingers_orders (stops_orders (repeatOrder_orders _ (starts_orders (repeatOrder_orders _ (repeatOrder_orders _ ?_)))))
    refine foldl_meets (Q := fun pl => pl.view.get p = .ready) (R := fun pl => .stop p ∈ pl.orders) (Pos.mem_all p)
      (fun q hq pl hv => (outOfService_view (Or.inl hq)).trans hv) (fun pl hv => ?_) (fun q pl => outOfService_orders q)
      (pl := ⟨view, []⟩) hv
    unfold Staging.outOfService
    rw [if_pos h, hv]
    dsimp only
    rw [if_pos he]
    exact mem_give
  · have none : g.desiredRunning view = 0 := if_pos hz
    have first : (Pos.all.foldl g.outOfService ⟨view, []⟩).view.get p = .ready :=
      foldl_keeps (Q := fun pl => pl.view.get p = .ready)
        (fun q _ pl hv => (outOfService_view (Or.inr (ne_of_eq_ne hm nofun))).trans hv) hv
    generalize Pos.all.foldl g.outOfService ⟨view, []⟩ = pl₁ at first ⊢
    have second := (demotes_view (g := g) (ne_of_eq_ne first nofun)).trans first
    have third := (promotes_view (g := g) (Or.inr hz)).trans second
    have fourth := (starts_view (g := g) (dr := g.desiredRunning view) (ne_of_eq_ne third nofun)).trans third
    have fifth := (abandons_view (g := g) (dr := g.desiredRunning view) (ne_of_eq_ne fourth nofun)).trans fourth
    generalize g.abandons (g.desiredRunning view) _ = pl₅ at fifth ⊢
    refine lingers_orders ?_
    have counted : g.desiredRunning view < countOf (g.counted pl₅.view) := by
      rw [none]
      refine List.length_pos_of_mem (List.mem_filter.2 ⟨Pos.mem_all p, ?_⟩)
      simp [Staging.counted, fifth, hm, PState.runningSet]
    unfold Staging.stops
    rw [he]
    dsimp only
    rw [if_pos ⟨hm, fifth, counted⟩]
    exact mem_give

/-! ## The orders given -/

/-- A list of orders that brings a position from one condition to another by one of them. -/
theorem giveOrders_reaches {A B : Position → Prop} {o : Order} {list : List Order}
    (before : ∀ o' ∈ list, ∀ e : Engine, A (e.at p) → A ((giveOrder T e o').at p) ∨ B ((giveOrder T e o').at p))
    (turn : ∀ e : Engine, A (e.at p) → B ((giveOrder T e o).at p))
    (after : ∀ o' ∈ list, ∀ e : Engine, B (e.at p) → B ((giveOrder T e o').at p))
    (ho : o ∈ list) (h : A (e.at p)) : B ((list.foldl (giveOrder T) e).at p) := by
  have keeps : ∀ (rest : List Order) (e : Engine), (∀ o' ∈ rest, o' ∈ list) → B (e.at p) →
      B ((rest.foldl (giveOrder T) e).at p) := by
    intro rest
    induction rest with
    | nil => exact fun e _ hb => hb
    | cons o' rest ih =>
      exact fun e hs hb => ih _ (fun o h => hs o (List.mem_cons_of_mem _ h)) (after o' (hs o' (by simp)) e hb)
  have reach : ∀ (rest : List Order) (e : Engine), (∀ o' ∈ rest, o' ∈ list) → o ∈ rest → A (e.at p) →
      B ((rest.foldl (giveOrder T) e).at p) := by
    intro rest
    induction rest with
    | nil => exact fun e _ hm => absurd hm List.not_mem_nil
    | cons o' rest ih =>
      intro e hs hm ha
      have sub : ∀ o ∈ rest, o ∈ list := fun o h => hs o (List.mem_cons_of_mem _ h)
      by_cases heq : o = o'
      · subst heq
        exact keeps rest _ sub (turn e ha)
      · rcases before o' (hs o' (by simp)) e ha with ha | hb
        · exact ih _ sub (List.mem_of_ne_of_mem heq hm) ha
        · exact keeps rest _ sub hb
  exact reach list e (fun _ h => h) ho h

/-- What an order that does not apply to a position leaves of it, but for its linger timer and a grant. -/
theorem giveOrder_foreign {A : Position → Prop} (link : ∀ (x : Position) (t : Timer), A x → A { x with lingerT := t })
    (granted : ∀ (x : Position) (f : StepCtx → StepCtx), (∀ c, (f c).course = c.course) → A x → A { x with ctx := x.ctx.map f })
    (o : Order)
    (h : match o with
      | .demote q => q = p → (e.at p).st ≠ .online
      | .promote q => q = p → (e.at p).st ≠ .ready
      | .start q => q = p → (e.at p).st ≠ .off
      | .abandon q => q = p → (e.at p).st ≠ .starting
      | .stop q => q = p → (e.at p).st ≠ .ready
      | _ => True) (ha : A (e.at p)) : A ((giveOrder T e o).at p) := by
  have other : ∀ {q : Pos} {b : Engine}, Touches T q e b → p ≠ q → A (b.at p) := fun ht hq => by
    rcases ht.others p hq with hb | hb <;> rw [hb]
    · exact ha
    · exact granted _ _ (fun _ => rfl) ha
  have timer : ∀ (q : Pos) (t : Timer), A ((e.modify q fun x => { x with lingerT := t }).at p) := fun q t => by
    rw [Engine.at_modify]
    split
    next hq => subst hq; exact link _ _ ha
    next => exact ha
  unfold giveOrder
  cases o with
  | demote q =>
    by_cases hq : p = q
    · subst hq
      simpa [demoteOrder, h rfl] using ha
    · exact other (demoteOrder_touches T q e) hq
  | promote q =>
    by_cases hq : p = q
    · subst hq
      simpa [promoteOrder, h rfl] using ha
    · exact other (promoteOrder_touches T q e) hq
  | start q =>
    by_cases hq : p = q
    · subst hq
      simpa [startOrder, h rfl] using ha
    · exact other (startOrder_touches T q e) hq
  | abandon q =>
    by_cases hq : p = q
    · subst hq
      simpa [abandonOrder, h rfl] using ha
    · exact other (abandonOrder_touches T q e) hq
  | stop q =>
    by_cases hq : p = q
    · subst hq
      simpa [stopOrder, h rfl] using ha
    · exact other (stopOrder_touches T q e) hq
  | lingerStart q =>
    dsimp only
    unfold lingerStart
    split
    · exact ha
    · split
      · exact timer q _
      · exact ha
  | lingerStop q => exact timer q _

end Sys2Proof.Machine
end

section
/-! SUPPORT. The evaluation that an event owes one position, from the round that makes it to the end of the close (R21, R24). -/

namespace Sys2Proof.Machine

variable {T : Tables} {p : Pos} {e : Engine}

/-! ## The round of an evaluation -/

/-- A round of which an evaluation is part, up to the next round. -/
theorem closeRounds_evaluates (start : Engine) (fuel : Nat) (ref w : Works) (linger : Option Pos)
    (h : linger.isSome = true ∨ prompted ref w = true) :
    ∃ l turned force changed ref' w', w' = commitWhenDue start (handshakes w) ∧ (linger.isSome = true → l = linger) ∧
      closeRounds start (fuel + 1) ref linger false w = closeRounds start fuel ref' none false
        { w' with eng := (evaluate w'.tab l force changed (writeSlots w'.tab (beforeTargets w'.tab l turned w'.eng))).1 } := by
  rw [closeRounds]
  dsimp only
  generalize hw : commitWhenDue start (handshakes w) = w'
  generalize hl : (if linger.isSome = true then linger else zeroLinger w'.eng) = l
  have kept : linger.isSome = true → l = linger := fun hs => by rw [← hl, if_pos hs]
  have asked : (prompted ref w || prompted ref w' || (false || commitDue start (handshakes w)) || l.isSome) = true := by
    rcases h with h | h
    · rw [kept h, h, Bool.or_true]
    · rw [h, Bool.true_or, Bool.true_or, Bool.true_or]
  rw [if_pos asked]
  exact ⟨l, _, _, _, _, w', rfl, kept, rfl⟩

/-- That round closes as the rest does. -/
theorem evaluated_closes (start : Engine) {w w' : Works} (hw : w' = commitWhenDue start (handshakes w)) (l : Option Pos)
    (turned force : Bool) (changed : List Pos) : Closes w.mayZero w { w' with
      eng := (evaluate w'.tab l force changed (writeSlots w'.tab (beforeTargets w'.tab l turned w'.eng))).1 } := by
  have first : Closes w.mayZero w w' := hw ▸ (handshakes_closes w).trans (commitWhenDue_closes start _)
  have prepared : Drift w.mayZero w'.eng (writeSlots w'.tab (beforeTargets w'.tab l turned w'.eng)) :=
    (beforeTargets_drift ..).trans (writeSlots_drift ..)
  refine first.trans (.ofEngine (prepared.trans (evaluate_drift _ _ _ _ _ fun hz => first.mayZero id ?_)))
  rw [prepared.res.zero] at hz
  simp [Works.mayZero, hz]

/-- The rest of the close leaves a position to which no order applies. -/
theorem closed_still (start : Works) (fuel : Nat) (ref w : Works) (h : (w.eng.at p).calm w.mayZero w.eng.res.mayRun = true) :
    Still (w.eng.at p) (((closeRounds start.eng fuel ref none false w).eng.eachPos
      (refreshDrive (closeRounds start.eng fuel ref none false w).tab start.eng)).at p) := by
  have rounds := (closeRounds_closes start.eng fuel ref none false w id).eng
  have refreshed : Drift w.mayZero (closeRounds start.eng fuel ref none false w).eng _ :=
    drift_eachPos fun q e => refreshDrive_drift (closeRounds start.eng fuel ref none false w).tab start.eng q e
  exact ((rounds.trans refreshed).pos p).still h

/-! ## The position before the orders -/

theorem beforeTargets_at (l : Option Pos) (turned : Bool) (e : Engine) (p : Pos) : ∃ c t,
    (beforeTargets T l turned e).at p = { e.at p with chan := c, lingerT := t } ∧
      (l = some p → t = .stopped) := by
  have stepped : ∃ c, (if turned then restepAll T e else e).at p = { e.at p with chan := c } := by
    split
    · exact restepAll_channels T e p
    · exact ⟨_, rfl⟩
  obtain ⟨c, hc⟩ := stepped
  unfold beforeTargets stopLinger
  split
  next => exact ⟨c, (e.at p).lingerT, hc, nofun⟩
  next q =>
    rw [Engine.at_modify]
    split
    next hq => subst hq; exact ⟨c, .stopped, by rw [hc], fun _ => rfl⟩
    next hq => exact ⟨c, (e.at p).lingerT, hc, fun h => absurd (Option.some.inj h).symm hq⟩

theorem writeSlots_off (h : (e.at p).st ≠ .online) : (writeSlots T e).at p = e.at p := by
  refine eachPos_keeps (P := fun x => x = e.at p) (fun q e' hp => ?_) e rfl
  unfold writeSlot
  dsimp only
  split
  next hs =>
    split
    · exact hp
    · rw [Engine.at_put]
      split
      next hq => subst hq; rw [hp] at hs; exact absurd hs h
      next => exact hp
  next => exact hp

/-- A position that is not ONLINE and begins no handshake, as the evaluation of a round finds it. -/
theorem prepared_at {start : Engine} {w w' : Works} (hw : w' = commitWhenDue start (handshakes w)) (hg : (w.eng.at p).greets = false)
    (hs : (w.eng.at p).st ≠ .online) (l : Option Pos) (turned : Bool) : ∃ c t,
      (writeSlots w'.tab (beforeTargets w'.tab l turned w'.eng)).at p = { w.eng.at p with chan := c, lingerT := t } ∧
      (l = some p → t = .stopped) := by
  have silent : w'.eng.at p = w.eng.at p := by
    rw [hw, commitWhenDue_at, handshakes_silent hg]
  obtain ⟨c, t, ht, hl⟩ := beforeTargets_at (T := w'.tab) l turned w'.eng p
  rw [silent] at ht
  refine ⟨c, t, ?_, hl⟩
  rw [writeSlots_off (by rw [ht]; exact hs), ht]

/-! ## The position after the orders -/

/-- An evaluation at a position that an order brings from one condition to another, neither of them ONLINE. -/
theorem evaluate_reaches {A B : Position → Prop} {o : Order} {linger : Option Pos} (force : Bool) (changed : List Pos)
    (before : ∀ o' ∈ ((staging T linger e).plan (.make fun p => (e.at p).st)).orders, ∀ e : Engine, A (e.at p) →
      A ((giveOrder T e o').at p) ∨ B ((giveOrder T e o').at p))
    (turn : ∀ e : Engine, A (e.at p) → B ((giveOrder T e o).at p))
    (after : ∀ o' ∈ ((staging T linger e).plan (.make fun p => (e.at p).st)).orders, ∀ e : Engine, B (e.at p) →
      B ((giveOrder T e o').at p))
    (granted : ∀ (x : Position) (f : StepCtx → StepCtx), (∀ c, (f c).course = c.course) → B x → B { x with ctx := x.ctx.map f })
    (offline : ∀ x, B x → x.st ≠ .online)
    (ho : o ∈ ((staging T linger e).plan (.make fun p => (e.at p).st)).orders) (h : A (e.at p)) :
    B ((evaluate T linger force changed e).1.at p) := by
  have given := giveOrders_reaches before turn after ho h
  have acted : ∀ (list : List Pos) (e : Engine), B (e.at p) → B ((actOnTargets T list e).at p) := by
    intro list
    unfold actOnTargets
    induction list with
    | nil => exact fun e hb => hb
    | cons q rest ih =>
      refine fun e hb => ih _ ?_
      dsimp only
      split
      next hs =>
        by_cases hq : p = q
        · subst hq
          exact absurd hs (offline _ hb)
        · rcases (actOnTarget_touches T q e).others p hq with hx | hx <;> rw [hx]
          · exact hb
          · exact granted _ _ (fun _ => rfl) hb
      next => exact hb
  have done := acted changed _ given
  unfold evaluate
  dsimp only
  unfold report
  dsimp only
  split <;> exact done

/-! ## The linger timer (R25, R30, R37) -/

/-- STOPPING, or OFF at standstill (R51). -/
def Position.stopsAt (speed : Nat) (x : Position) : Prop :=
  x.st = (if speed = 0 then .off else .stopping) ∧ x.pickup.speed = speed

theorem stopsAt_states {x : Position} {speed : Nat} (h : x.stopsAt speed) : x.st = .off ∨ x.st = .stopping := by
  rw [h.1]
  split
  · exact Or.inl rfl
  · exact Or.inr rfl

theorem stopOrder_stops {speed : Nat} (hs : (e.at p).st = .ready) (hk : (e.at p).pickup.speed = speed) :
    ((stopOrder T p e).at p).stopsAt speed := by
  unfold stopOrder
  rw [if_pos hs]
  refine ⟨?_, (congrArg Pickup.speed (enterStopping_touches T p e).self.pickup).trans hk⟩
  rw [enterStopping_st, hk]

/-- The evaluation with an expired linger timer stops the READY position, where it is out of service or a zero condition holds: no
order of the plan starts or promotes it. -/
theorem evaluate_stops {speed : Nat} (force : Bool) (changed : List Pos) (hs : (e.at p).st = .ready)
    (hk : (e.at p).pickup.speed = speed) (h : (e.at p).mode = .out ∨ e.res.runPerm = false) :
    ((evaluate T (some p) force changed e).1.at p).stopsAt speed := by
  have zero : e.res.runPerm = false → (staging T (some p) e).zero = true := fun hr => by
    simp [staging, zeroCondition, hr]
  have mode : (staging T (some p) e).mode.get p = (e.at p).mode.underZero (staging T (some p) e).zero := Four.get_make ..
  have mustStop : (staging T (some p) e).mode.get p = .out ∨
      ((staging T (some p) e).zero = true ∧ (staging T (some p) e).mode.get p = .auto) := by
    rcases h with h | h
    · exact Or.inl (by rw [mode, h]; simp [Mode.underZero])
    · have hz := zero h
      rw [mode, hz]
      cases (e.at p).mode <;> simp [Mode.underZero]
  have apart : ∀ o ∈ ((staging T (some p) e).plan (.make fun p => (e.at p).st)).orders, o ≠ .start p ∧ o ≠ .promote p := by
    intro o ho
    have allowed := plan_allowed _ _ o ho
    constructor <;> rintro rfl
    · obtain ⟨-, out, run⟩ := allowed
      rcases mustStop with hm | ⟨hz, hm⟩
      · exact out hm
      · exact absurd (hm.symm.trans (run hz)) nofun
    · obtain ⟨out, hz'⟩ := allowed
      rcases mustStop with hm | ⟨hz, hm⟩
      · exact out hm
      · exact absurd (hz.symm.trans hz') nofun
  refine evaluate_reaches (A := fun x => x.st = .ready ∧ x.pickup.speed = speed) (B := Position.stopsAt speed) force changed
    (fun o ho e' ha => ?_) (fun e' ha => ?_) (fun o ho e' hb => ?_) (fun x f _ hb => hb)
    (fun x hb => by rcases stopsAt_states hb with h | h <;> rw [h] <;> nofun) (plan_stops rfl (by rw [Four.get_make]; exact hs) mustStop)
    ⟨hs, hk⟩
  · by_cases hstop : o = .stop p
    · subst hstop
      exact Or.inr (stopOrder_stops ha.1 ha.2)
    · left
      refine giveOrder_foreign (A := fun x => x.st = .ready ∧ x.pickup.speed = speed) (fun x t h => h) (fun x f _ h => h) o ?_ ha
      cases o with
      | demote q => exact fun _ => ne_of_eq_ne ha.1 nofun
      | promote q => exact fun hq => absurd (congrArg Order.promote hq) (apart _ ho).2
      | start q => exact fun _ => ne_of_eq_ne ha.1 nofun
      | abandon q => exact fun _ => ne_of_eq_ne ha.1 nofun
      | stop q => exact fun hq => absurd (congrArg Order.stop hq) hstop
      | lingerStart q => trivial
      | lingerStop q => trivial
  · exact stopOrder_stops ha.1 ha.2
  · have states := stopsAt_states hb
    refine giveOrder_foreign (A := Position.stopsAt speed) (fun x t h => h) (fun x f _ h => h) o ?_ hb
    cases o with
    | demote q => exact fun _ => by rcases states with h | h <;> rw [h] <;> nofun
    | promote q => exact fun _ => by rcases states with h | h <;> rw [h] <;> nofun
    | start q => exact fun hq => absurd (congrArg Order.start hq) (apart _ ho).1
    | abandon q => exact fun _ => by rcases states with h | h <;> rw [h] <;> nofun
    | stop q => exact fun _ => by rcases states with h | h <;> rw [h] <;> nofun
    | lingerStart q => trivial
    | lingerStop q => trivial

/-- The close of the expiry of a linger timer, at its position. -/
theorem lingered_stops {w : Works} {speed : Nat} (hs : (w.eng.at p).st = .ready) (hk : (w.eng.at p).pickup.speed = speed)
    (h : (w.eng.at p).mode = .out ∨ w.eng.res.runPerm = false) :
    ((closeEventWith (some p) false w w).eng.at p).st = if speed = 0 then .off else .stopping := by
  obtain ⟨l, turned, force, changed, ref', w', hw, hl, rounds⟩ :=
    closeRounds_evaluates w.eng 199 w w (some p) (Or.inl rfl)
  obtain rfl := hl rfl
  have greets : (w.eng.at p).greets = false := by simp [Position.greets, hs]
  obtain ⟨c, t, at_, -⟩ := prepared_at hw greets (ne_of_eq_ne hs nofun) (some p) turned
  have closes := evaluated_closes w.eng hw (some p) turned force changed
  have first : Closes w.mayZero w w' := hw ▸ (handshakes_closes w).trans (commitWhenDue_closes w.eng _)
  have prepared : Drift w.mayZero w'.eng (writeSlots w'.tab (beforeTargets w'.tab (some p) turned w'.eng)) :=
    (beforeTargets_drift ..).trans (writeSlots_drift ..)
  have perm := (first.eng.res.trans prepared.res).runPerm
  have stopped := evaluate_stops (T := w'.tab) (p := p) (speed := speed)
    (e := writeSlots w'.tab (beforeTargets w'.tab (some p) turned w'.eng)) force changed (by rw [at_]; exact hs)
    (by rw [at_]; exact hk) (by rw [at_, perm]; exact h)
  have mode := (closes.eng.pos p).carried.mode
  have res := closes.eng.res.runPerm
  generalize hv : (evaluate w'.tab (some p) force changed
    (writeSlots w'.tab (beforeTargets w'.tab (some p) turned w'.eng))).1 = v at rounds stopped closes mode res
  have calm : (v.at p).calm ({ w' with eng := v } : Works).mayZero v.res.mayRun = true := by
    rcases stopsAt_states stopped with hst | hst
    · rcases h with h | h
      · simp [Position.calm, hst, mode, h]
      · have stays : v.res.mayRun = false := by
          rw [Resolver.mayRun, show v.res.runPerm = _ from res, h]
          rfl
        simp [Position.calm, hst, stays]
    · simp [Position.calm, hst, PState.fixed]
  have still := closed_still w 199 ref' { w' with eng := v } calm
  unfold closeEventWith
  rw [show closeRounds w.eng closeFuel w (some p) false w = _ from rounds]
  exact still.st.trans stopped.1

theorem exec_lingerTimer {s : State} {since period : Nat} (hp : s.block.powered = true)
    (ht : (s.pos p).lingerT = .running since period) : exec (.lingerTimerExpires p) s = .next { s with block := { s.block with
      works := closeEventWith (some p) false (s.block.works.atTime (max s.eng.now (since + period)))
        (s.block.works.atTime (max s.eng.now (since + period))) } } := by
  rw [show exec (.lingerTimerExpires p) s = answer (lingerExpires p) s from rfl, answer_powered hp, lingerExpires, expiry_running ht]
  rfl

/-- Settles O14. -/
theorem lingerExpiryStopsTheEngine : Obligations.LingerExpiryStopsTheEngine := by
  intro s p since period hp ht hs h
  exact ⟨_, exec_lingerTimer hp ht, lingered_stops (w := s.block.works.atTime (max s.eng.now (since + period))) hs rfl h,
    (closeEventWith_closes (some p) false (s.block.works.atTime (max s.eng.now (since + period)))
      (s.block.works.atTime (max s.eng.now (since + period)))).eng.now⟩

end Sys2Proof.Machine
end

section
/-! SUPPORT. The modes and the start that MODE_RUN brings (R20, R28, R71, R73). -/

namespace Sys2Proof.Machine

variable {T : Tables} {p : Pos} {e : Engine} {g : Staging} {r : StepRec}

/-! ## The request -/

theorem exec_mode (m : Mode) (group target position : Byte) (s : State) : exec (modeCommand m group target position) s =
    answer (engineRequest (modeByte m) group target position fun _ => setModeAt m) s := by
  cases m <;> rfl

theorem setModeAt_at (m : Mode) (q : Pos) : ∃ t, (setModeAt m e q).at p =
    { e.at p with mode := if p = q then m else (e.at p).mode, lingerT := t } := by
  unfold setModeAt
  rw [Engine.at_modify]
  split
  next hq =>
    subst hq
    dsimp only
    split
    next hm => exact ⟨(e.at p).lingerT, by rw [← hm]⟩
    next => exact ⟨.stopped, rfl⟩
  next => exact ⟨(e.at p).lingerT, rfl⟩

/-- The mode set at every position of a list: mode and linger timer alone change. -/
theorem setModes_at (m : Mode) (list : List Pos) : ∃ t, (list.foldl (setModeAt m) e).at p =
    { e.at p with mode := if p ∈ list then m else (e.at p).mode, lingerT := t } := by
  induction list generalizing e with
  | nil => exact ⟨(e.at p).lingerT, by simp⟩
  | cons q rest ih =>
    obtain ⟨t, ht⟩ := ih (e := setModeAt m e q)
    obtain ⟨u, hu⟩ := setModeAt_at (e := e) (p := p) m q
    refine ⟨t, ?_⟩
    rw [List.foldl_cons, ht, hu]
    by_cases hq : p = q <;> by_cases hr : p ∈ rest <;> simp [hq, hr]

/-- A request that is heard and not taken changes the relay alone (R160). -/
theorem answer_request_passed {s : State} {request group target position : Byte} {f : Tables → Engine → Pos → Engine}
    (hears : s.hears) (hok : (engineReqFrame group target position request).ok = true)
    (h : ((dispatch s.tab .engineReq group.toNat).acts && s.relay.addressed target) = false) :
    ∃ t, answer (engineRequest request group target position f) s = .next t ∧ t.eng = s.eng := by
  refine ⟨_, answer_powered hears.1, ?_⟩
  rw [engineRequest, dispatched_notTaken hears.2 hok h]
  rfl

/-! ## The start in the plan (R28) -/

/-- The plan starts every startable position in RUN mode. -/
theorem plan_starts {view : Four PState} (hs : g.startable view p = true) (hm : g.mode.get p = .run) :
    .start p ∈ (g.plan view).orders := by
  have off : view.get p = .off := startable_off hs
  unfold Staging.plan
  dsimp only
  have first : (Pos.all.foldl g.outOfService ⟨view, []⟩).view.get p = .off :=
    foldl_keeps (Q := fun pl => pl.view.get p = .off)
      (fun q _ pl hv => (outOfService_view (Or.inr (ne_of_eq_ne hm nofun))).trans hv) off
  generalize Pos.all.foldl g.outOfService ⟨view, []⟩ = pl₁ at first ⊢
  have second := (demotes_view (g := g) (ne_of_eq_ne first nofun)).trans first
  have third := (promotes_view (g := g) (Or.inl (ne_of_eq_ne second nofun))).trans second
  generalize g.promotes (g.demotes pl₁) = pl₃ at third ⊢
  refine lingers_orders (stops_orders (repeatOrder_orders _ ?_))
  unfold Staging.starts
  dsimp only
  refine repeatOrder_orders _ ?_
  refine foldl_meets (Q := fun pl => pl.view.get p = .off) (R := fun pl => .start p ∈ pl.orders) (Pos.mem_all p)
    (fun q hq pl hv => ?_) (fun pl hv => ?_) (fun q pl h => ?_) third
  · split
    · exact (give_view_other (o := .start q) hq).trans hv
    · exact hv
  · have startable : g.startable pl.view p = true := by
      simp only [Staging.startable, off, hv, hm] at hs ⊢
      exact hs
    rw [startable, hm, if_pos (show (true && Mode.run == Mode.run) = true from rfl)]
    exact mem_give
  · split
    · exact give_orders h
    · exact h

/-! ## The round that starts the engine -/

/-- An OFF position in RUN mode from which a start is ordered, with what the choice of the program and the first step read. -/
structure StartsFrom (k : Pickup) (latest : Option Sample) (x : Position) : Prop where
  st : x.st = .off
  mode : x.mode = .run
  ctx : x.ctx = none
  pickup : x.pickup = k
  latest : x.link.latest = latest

/-- What the close keeps of a start: it failed, or it runs in RUN mode. -/
structure StartKept (B : Position → Prop) : Prop where
  states : ∀ x, B x → x.st = .faulted ∨ (x.st = .starting ∧ x.mode = .run)
  granted : ∀ (x : Position) (f : StepCtx → StepCtx), (∀ c, (f c).course = c.course) → B x → B { x with ctx := x.ctx.map f }
  linger : ∀ (x : Position) (t : Timer), B x → B { x with lingerT := t }
  still : ∀ x y, Still x y → y.mode = x.mode → B x → B y

/-- The evaluation that starts a position: no order of the plan abandons a start in RUN mode. -/
theorem evaluate_starts {B : Position → Prop} {k : Pickup} {latest : Option Sample} (hB : StartKept B)
    {linger : Option Pos} (force : Bool) (changed : List Pos) (hx : StartsFrom k latest (e.at p))
    (hc : (e.at p).link.setup = .confirmed) (hl : (e.at p).link.localSet = false) (hp : (T.profile p).isSome = true)
    (hz : zeroCondition T e.res = false)
    (turn : ∀ e : Engine, StartsFrom k latest (e.at p) → B ((startOrder T p e).at p)) :
    B ((evaluate T linger force changed e).1.at p) := by
  have zero : (staging T linger e).zero = false := hz
  have mode : (staging T linger e).mode.get p = .run := by
    simp [staging, hz, Mode.underZero, hx.mode]
  have startable : (staging T linger e).startable (.make fun p => (e.at p).st) p = true := by
    rw [Staging.startable, mode]
    simp [staging, hx.st, hc, hl, hp]
  have kept : ∀ o ∈ ((staging T linger e).plan (.make fun p => (e.at p).st)).orders, o ≠ .abandon p := by
    rintro o ho rfl
    exact (plan_allowed _ _ _ ho).2 mode
  refine evaluate_reaches (A := StartsFrom k latest) (B := B) (o := .start p) force changed (fun o ho e' ha => ?_)
    (fun e' ha => turn e' ha) (fun o ho e' hb => ?_) hB.granted
    (fun x hb => by rcases hB.states x hb with h | ⟨h, -⟩ <;> rw [h] <;> nofun) (plan_starts startable mode) hx
  · by_cases hs : o = .start p
    · subst hs
      exact Or.inr (turn e' ha)
    · left
      refine giveOrder_foreign (A := StartsFrom k latest) (fun x t h => ⟨h.st, h.mode, h.ctx, h.pickup, h.latest⟩)
        (fun x f _ h => ⟨h.st, h.mode, by dsimp only; rw [h.ctx]; rfl, h.pickup, h.latest⟩) o ?_ ha
      cases o with
      | demote q => exact fun _ => ne_of_eq_ne ha.st nofun
      | promote q => exact fun _ => ne_of_eq_ne ha.st nofun
      | start q => exact fun hq => absurd (congrArg Order.start hq) hs
      | abandon q => exact fun _ => ne_of_eq_ne ha.st nofun
      | stop q => exact fun _ => ne_of_eq_ne ha.st nofun
      | lingerStart q => trivial
      | lingerStop q => trivial
  · have states := hB.states _ hb
    refine giveOrder_foreign (A := B) hB.linger hB.granted o ?_ hb
    cases o with
    | demote q => exact fun _ => by rcases states with h | ⟨h, -⟩ <;> rw [h] <;> nofun
    | promote q => exact fun _ => by rcases states with h | ⟨h, -⟩ <;> rw [h] <;> nofun
    | start q => exact fun _ => by rcases states with h | ⟨h, -⟩ <;> rw [h] <;> nofun
    | abandon q => exact fun hq => absurd (congrArg Order.abandon hq) (kept _ ho)
    | stop q => exact fun _ => by rcases states with h | ⟨h, -⟩ <;> rw [h] <;> nofun
    | lingerStart q => trivial
    | lingerStop q => trivial

/-- The rest of the close leaves the mode. -/
theorem closed_mode (start : Works) (fuel : Nat) (ref w : Works) :
    (((closeRounds start.eng fuel ref none false w).eng.eachPos
      (refreshDrive (closeRounds start.eng fuel ref none false w).tab start.eng)).at p).mode = (w.eng.at p).mode := by
  have rounds := (closeRounds_closes start.eng fuel ref none false w id).eng
  have refreshed : Drift w.mayZero (closeRounds start.eng fuel ref none false w).eng _ :=
    drift_eachPos fun q e => refreshDrive_drift (closeRounds start.eng fuel ref none false w).tab start.eng q e
  exact ((rounds.trans refreshed).pos p).carried.mode

/-- The close of an event that leaves an OFF position startable in a mode it was not in: its start, kept to the end. -/
theorem closeEvent_starts {B : Position → Prop} {start w : Works} (hB : StartKept B)
    (hasked : (start.eng.at p).mode ≠ (w.eng.at p).mode) (hst : (w.eng.at p).st = .off) (hm : (w.eng.at p).mode = .run)
    (hctx : (w.eng.at p).ctx = none) (hc : (w.eng.at p).link.setup = .confirmed) (hl : (w.eng.at p).link.localSet = false)
    (hp : (w.tab.profile p).isSome = true) (hz : zeroCondition w.tab w.eng.res = false) (hpend : w.commitPending = false)
    (turn : ∀ e : Engine, StartsFrom (w.eng.at p).pickup (w.eng.at p).link.latest (e.at p) → B ((startOrder w.tab p e).at p)) :
    B ((closeEvent start w).eng.at p) := by
  have at_ : promptedAt (start.eng.at p) (w.eng.at p) = true := by simp [promptedAt, hasked]
  have asked : prompted start w = true := by
    unfold prompted
    rw [List.any_eq_true.2 ⟨p, Pos.mem_all p, at_⟩, Bool.or_true]
  obtain ⟨l, turned, force, changed, ref', w', hw, -, rounds⟩ := closeRounds_evaluates start.eng 199 start w none (Or.inr asked)
  have greets : (w.eng.at p).greets = false := by simp [Position.greets, hc]
  obtain ⟨c, t, prepared, -⟩ := prepared_at hw greets (ne_of_eq_ne hst nofun) l turned
  have closes := evaluated_closes start.eng hw l turned force changed
  have none : w.mayZero = false := by simp [Works.mayZero, hz, hpend]
  have first : Closes w.mayZero w w' := hw ▸ (handshakes_closes w).trans (commitWhenDue_closes start.eng _)
  have tab : w'.tab = w.tab := (first.kept hpend).1
  have drift : Drift w.mayZero w'.eng (writeSlots w'.tab (beforeTargets w'.tab l turned w'.eng)) :=
    (beforeTargets_drift ..).trans (writeSlots_drift ..)
  have started := evaluate_starts (T := w'.tab) (linger := l) hB force changed (k := (w.eng.at p).pickup)
    (latest := (w.eng.at p).link.latest) (e := writeSlots w'.tab (beforeTargets w'.tab l turned w'.eng))
    (by rw [prepared]; exact ⟨hst, hm, hctx, rfl, rfl⟩) (by rw [prepared]; exact hc) (by rw [prepared]; exact hl)
    (by rw [tab]; exact hp) (by rw [(first.eng.res.trans drift.res).zero, tab]; exact hz) (by rw [tab]; exact turn)
  have later := closes.mayZero (a := w) fun h => h
  generalize (evaluate w'.tab l force changed (writeSlots w'.tab (beforeTargets w'.tab l turned w'.eng))).1 = v
    at rounds started closes later
  have calm : (v.at p).calm ({ w' with eng := v } : Works).mayZero v.res.mayRun = true := by
    have zero : ({ w' with eng := v } : Works).mayZero = false := by
      refine Bool.eq_false_iff.2 fun hn => ?_
      rw [none] at later
      exact absurd (later hn) nofun
    rcases hB.states _ started with hs | ⟨hs, hmode⟩
    · simp [Position.calm, hs, PState.fixed]
    · simp [Position.calm, hs, hmode, zero]
  have still := closed_still start 199 ref' { w' with eng := v } calm
  have mode := closed_mode (p := p) start 199 ref' { w' with eng := v }
  unfold closeEvent closeEventWith
  rw [show closeRounds start.eng closeFuel start Option.none false w = _ from rounds]
  exact hB.still _ _ still mode started

/-! ## What a start order comes to (R71, R73) -/

theorem startKept_failed {code : FaultCode} {step : Option Nat} {value : Option Int} :
    StartKept (Failed code step value) where
  states _ h := Or.inl h.st
  granted _ _ _ h := ⟨h.st, h.fault, h.causes, h.holdT⟩
  linger _ _ h := ⟨h.st, h.fault, h.causes, h.holdT⟩
  still _ _ hs _ h := hs.failed h

/-- A start in RUN mode whose first step has been entered. -/
structure StartEntered (course : Nat × Nat × Nat × Bool × Bool × Timer) (x : Position) : Prop where
  st : x.st = .starting
  mode : x.mode = .run
  course : x.ctx.map (·.course) = some course

theorem startKept_entered {k : Nat × Nat × Nat × Bool × Bool × Timer} : StartKept (StartEntered k) where
  states _ h := Or.inr ⟨h.st, h.mode⟩
  granted x f hf h := ⟨h.st, h.mode, by rw [← h.course]; cases x.ctx <;> simp [hf]⟩
  linger _ _ h := ⟨h.st, h.mode, h.course⟩
  still _ _ hs hm h := ⟨hs.st.trans h.st, hm.trans h.mode, hs.course.trans h.course⟩

theorem entryMeets_congr {x y : Position} (hk : y.pickup = x.pickup) (hl : y.link.latest = x.link.latest) (r : StepRec) :
    entryMeets T p y r = entryMeets T p x r := by
  simp only [entryMeets, hk, hl]

/-- A position that has entered STARTING, its program not chosen yet. -/
structure StartOpened (k : Pickup) (latest : Option Sample) (x : Position) : Prop where
  st : x.st = .starting
  mode : x.mode = .run
  ctx : x.ctx = none
  pickup : x.pickup = k
  latest : x.link.latest = latest

theorem StartsFrom.enter {k : Pickup} {latest : Option Sample} (h : StartsFrom k latest (e.at p)) :
    StartOpened k latest ((enter T p .starting e).at p) := by
  obtain ⟨l, hl, hk⟩ := enter_at T p .starting e
  rw [hl]
  refine ⟨rfl, h.mode, ?_, h.pickup, hk.latest.trans h.latest⟩
  simp [Position.arrive, Position.leave, h.ctx]

theorem startOrder_none {k : Pickup} {latest : Option Sample} (h : StartsFrom k latest (e.at p))
    (hs : chooseProgram T (latest.map (·.coolantC)) = none) :
    startOrder T p e = faultWith T p .noProgram none (latest.map (·.coolantC)) (enter T p .starting e) := by
  have coolant := congrArg (Option.map fun s : Sample => s.coolantC) (h.enter (T := T)).latest
  unfold startOrder
  rw [if_pos h.st]
  dsimp only
  rw [coolant, hs]

theorem startOrder_some {k : Pickup} {latest : Option Sample} {sel : SelectEntry} (h : StartsFrom k latest (e.at p))
    (hs : chooseProgram T (latest.map (·.coolantC)) = some sel) :
    startOrder T p e =
      if (T.stepRec sel.entryStep).isNone then
        faultWith T p .noProgram (some sel.entryStep) (latest.map (·.coolantC)) (enter T p .starting e)
      else enterStep T p walkFuel true sel.entryStep (enter T p .starting e) := by
  have coolant := congrArg (Option.map fun s : Sample => s.coolantC) (h.enter (T := T)).latest
  unfold startOrder
  rw [if_pos h.st]
  dsimp only
  rw [coolant, hs]

/-- Entry to a first step is entry to it from a fresh context. -/
theorem enterStep_fresh {fuel idx : Nat} (hc : (e.at p).ctx = none) (hr : checkEntry T 1 idx = some r) :
    enterStep T p (fuel + 1) true idx e =
      enterStep T p (fuel + 1) true idx (e.put p { e.at p with ctx := some (StepCtx.fresh idx) }) := by
  have meets : entryMeets T p { e.at p with ctx := some (StepCtx.fresh idx) } r = entryMeets T p (e.at p) r :=
    entryMeets_congr (x := e.at p) rfl rfl r
  have first : checkEntry T ((StepCtx.fresh idx).visited + 1) idx = some r := hr
  unfold enterStep
  simp only [hc, Option.getD_none, Option.getD_some, if_true, first, Engine.put_put, Engine.at_put_self, meets]
  rfl

/-- Entry to the first step of a start (R73). -/
theorem enterStep_opens {k : Pickup} {latest : Option Sample} {fuel idx : Nat} (h : StartOpened k latest (e.at p))
    (hr : checkEntry T 1 idx = some r) (hm : entryMeets T p (e.at p) r = false) :
    StartEntered (idx, r.retries, 1, false, false, .stopped) ((enterStep T p (fuel + 1) true idx e).at p) := by
  have waits := enterStep_waits (e := e.put p { e.at p with ctx := some (StepCtx.fresh idx) }) (c := StepCtx.fresh idx)
    (p := p) (r := r) (fuel := fuel) (counts := true) (by rw [Engine.at_put_self]) hr
    (by rw [Engine.at_put_self]; exact hm)
  rw [← enterStep_fresh h.ctx hr, Engine.at_put_self] at waits
  exact ⟨waits.st.trans h.st, waits.mode.trans h.mode, waits.course⟩

/-- The start orders of a position whose start fails at once. -/
theorem startOrder_noProgram {k : Pickup} {latest : Option Sample} (h : StartsFrom k latest (e.at p))
    (hs : chooseProgram T (latest.map (·.coolantC)) = none) :
    Failed .noProgram none (latest.map (·.coolantC)) ((startOrder T p e).at p) := by
  rw [startOrder_none h hs]
  exact faultWith_failed (ne_of_eq_ne h.enter.st nofun)

theorem startOrder_noStep {k : Pickup} {latest : Option Sample} {sel : SelectEntry} (h : StartsFrom k latest (e.at p))
    (hs : chooseProgram T (latest.map (·.coolantC)) = some sel) (hr : T.stepRec sel.entryStep = none) :
    Failed .noProgram (some sel.entryStep) (latest.map (·.coolantC)) ((startOrder T p e).at p) := by
  rw [startOrder_some h hs, if_pos (by rw [hr]; rfl)]
  exact faultWith_failed (ne_of_eq_ne h.enter.st nofun)

theorem stepRec_of_checkEntry {visited idx : Nat} (h : checkEntry T visited idx = some r) : (T.stepRec idx).isNone = false := by
  unfold checkEntry at h
  split at h
  · exact absurd h nofun
  · split at h
    · exact absurd h nofun
    · next hr => rw [hr]; rfl

theorem startOrder_enters {x : Position} {sel : SelectEntry} (h : StartsFrom x.pickup x.link.latest (e.at p))
    (hs : chooseProgram T (x.link.latest.map (·.coolantC)) = some sel) (hr : checkEntry T 1 sel.entryStep = some r)
    (hm : entryMeets T p x r = false) :
    StartEntered (sel.entryStep, r.retries, 1, false, false, .stopped) ((startOrder T p e).at p) := by
  have opened := h.enter (T := T)
  rw [startOrder_some h hs, if_neg (by simp [stepRec_of_checkEntry hr])]
  exact enterStep_opens (fuel := 39) opened hr ((entryMeets_congr opened.pickup opened.latest r).trans hm)

/-! ## The choice of the program (R71) -/

/-- A Program Select entry whose upper temperature reaches a coolant reading. -/
def fitsCoolant (coolant : Int) : Option SelectEntry → Bool
  | some s => decide (coolant ≤ s.upperC)
  | none => false

theorem chooseProgram_some (coolant : Int) :
    chooseProgram T (some coolant) = (T.t7.toList.find? (fitsCoolant coolant)).getD T.t7[3] := by
  have fits : ∀ f : Option SelectEntry → Bool, f = fitsCoolant coolant →
      T.t7.toList.find? f = T.t7.toList.find? (fitsCoolant coolant) := fun f hf => by rw [hf]
  unfold chooseProgram
  dsimp only
  rw [fits _ (funext fun s => by cases s <;> rfl)]
  cases T.t7.toList.find? (fitsCoolant coolant) <;> rfl

theorem fitsCoolant_false {coolant : Int} {s : Option SelectEntry} (h : ∀ y, s = some y → y.upperC < coolant) :
    fitsCoolant coolant s = false := by
  cases s with
  | none => rfl
  | some y => simpa [fitsCoolant] using h y rfl

/-- The first entry that reaches the coolant is chosen. -/
theorem chooseProgram_first {coolant : Int} {i : Fin 4} {sel : SelectEntry} (hi : T.t7[i] = some sel) (hc : coolant ≤ sel.upperC)
    (before : ∀ (j : Fin 4) (y : SelectEntry), j < i → T.t7[j] = some y → y.upperC < coolant) :
    chooseProgram T (some coolant) = some sel := by
  have found : T.t7.toList.find? (fitsCoolant coolant) = some (some sel) := by
    refine List.find?_eq_some_iff_getElem.2 ⟨by simpa [fitsCoolant] using hc, i.val, by simp, ?_, fun j hj => ?_⟩
    · rw [Vector.getElem_toList]
      exact hi
    · rw [Vector.getElem_toList, fitsCoolant_false fun y hy => before ⟨j, by omega⟩ y hj hy]
      rfl
  rw [chooseProgram_some, found, Option.getD_some]

/-- Without such an entry, entry 3 is chosen. -/
theorem chooseProgram_last {coolant : Int} (h : ∀ (j : Fin 4) (y : SelectEntry), T.t7[j] = some y → y.upperC < coolant) :
    chooseProgram T (some coolant) = T.t7[3] := by
  have missed : T.t7.toList.find? (fitsCoolant coolant) = none := by
    refine List.find?_eq_none.2 fun s hs => ?_
    obtain ⟨j, hj, rfl⟩ := List.mem_iff_getElem.1 hs
    rw [Vector.getElem_toList, fitsCoolant_false fun y hy => h ⟨j, by simpa using hj⟩ y hy]
    nofun
  rw [chooseProgram_some, missed, Option.getD_none]

/-! ## The obligation -/

/-- The modes set by a request that is taken. -/
theorem modeRequest_sets {s : State} {m : Mode} {group target position : Byte}
    (h : RequestTaken (modeByte m) group target position s) : ∃ t, exec (modeCommand m group target position) s = .next t ∧
      t.block.works = s.block.works.event fun _ e => (positionsNamed position).foldl (setModeAt m) e := by
  obtain ⟨t, ht, hw⟩ := answer_request h fun _ => setModeAt m
  exact ⟨t, (exec_mode ..).trans ht, hw⟩

/-- MODE_RUN at a startable OFF position in another mode: its start, at the end of the event. -/
theorem modeRun_starts {s : State} {group target position : Byte} (h : RequestTaken 1 group target position s)
    (hp : p ∈ positionsNamed position) (hst : (s.pos p).st = .off) (hmode : (s.pos p).mode ≠ .run)
    (hsetup : (s.pos p).link.setup = .confirmed) (hlocal : (s.pos p).link.localSet = false)
    (hprofile : (s.tab.profile p).isSome = true) (hstaged : s.staged) (hsound : s.eng.Sound) :
    ∃ t, exec (.modeRun group target position) s = .next t ∧ ∀ B : Position → Prop, StartKept B →
      (∀ e : Engine, StartsFrom (s.pos p).pickup (s.pos p).link.latest (e.at p) → B ((startOrder s.tab p e).at p)) →
      B (t.pos p) := by
  obtain ⟨t, ht, hw⟩ := modeRequest_sets (m := .run) h
  refine ⟨t, ht, fun B hB turn => ?_⟩
  obtain ⟨l, hl⟩ := setModes_at (e := s.eng) (p := p) .run (positionsNamed position)
  rw [if_pos hp] at hl
  have res : ((positionsNamed position).foldl (setModeAt .run) s.eng).res = s.eng.res := foldl_res (f := setModeAt .run) (fun e p => rfl) _ _
  have ctx : (s.pos p).ctx = none := (hsound p).ctx (ne_of_eq_ne hst nofun)
  rw [State.pos, State.eng, hw]
  refine closeEvent_starts (start := s.block.works)
    (w := { s.block.works with eng := (positionsNamed position).foldl (setModeAt .run) s.eng }) hB ?_
    ((congrArg Position.st hl).trans hst) (congrArg Position.mode hl) ((congrArg Position.ctx hl).trans ctx)
    ((congrArg (·.link.setup) hl).trans hsetup) ((congrArg (·.link.localSet) hl).trans hlocal) hprofile
    ((congrArg (zeroCondition s.tab) res).trans hstaged.1) hstaged.2 fun e he => turn e ?_
  · exact fun hm => hmode (hm.trans (congrArg Position.mode hl))
  · rwa [hl] at he

/-- Settles O15. -/
theorem modeRequestsSetTheModes : Obligations.ModeRequestsSetTheModes := by
  refine ⟨fun s m group target position => ⟨fun h => ?_, fun hears hok hn => ?_⟩, fun s group target position p h hp hst hmode
    hsetup hlocal hprofile hstaged hsound => ?_, fun T coolant i sel hi hc hb => chooseProgram_first hi hc hb,
    fun T coolant h => chooseProgram_last h⟩
  · obtain ⟨t, ht, hw⟩ := modeRequest_sets h
    refine ⟨t, ht, fun p => ?_⟩
    obtain ⟨l, hl⟩ := setModes_at (e := s.eng) (p := p) m (positionsNamed position)
    have carried := event_carried s.block.works (fun _ e => (positionsNamed position).foldl (setModeAt m) e) p
    rw [State.pos, State.eng, hw]
    exact carried.mode.trans (congrArg Position.mode hl)
  · obtain ⟨t, ht, he⟩ := answer_request_passed (f := fun _ => setModeAt m) hears hok hn
    exact ⟨t, (exec_mode ..).trans ht, he⟩
  · obtain ⟨t, ht, starts⟩ := modeRun_starts h hp hst hmode hsetup hlocal hprofile hstaged hsound
    refine ⟨t, ht, fun hs => ?_, fun sel hs => ⟨fun hr => ?_, fun r hr hm => ?_⟩⟩
    · have failed := starts _ startKept_failed fun e he => startOrder_noProgram he hs
      exact ⟨failed.st, failed.fault⟩
    · have failed := starts _ startKept_failed fun e he => startOrder_noStep he hs hr
      exact ⟨failed.st, failed.fault⟩
    · have entered := starts _ startKept_entered fun e he => startOrder_enters he hs hr hm
      obtain ⟨c, hc, ptr, retries, visited, fired, watch, restT⟩ := ctx_of_course entered.course
      exact ⟨c, entered.st, hc, ptr, visited, retries, fired, watch, restT⟩

end Sys2Proof.Machine
end

section
/-! SUPPORT. An accepted WRITE: the tables, the meters, the cells and the parts of the state it leaves (R172, R173, R175). -/

namespace Sys2Proof.Machine

variable {T : Tables} {p : Pos} {e : Engine} {b : Block}

/-! ## Positions by number -/

theorem ofNat_inj {i j : Nat} (hi : Pos.ofNat? i = some p) (hj : Pos.ofNat? j = some p) : i = j := by
  have li := ofNat_some_le hi
  have lj := ofNat_some_le hj
  have all : ∀ i ≤ 3, ∀ j ≤ 3, Pos.ofNat? i = Pos.ofNat? j → i = j := by decide
  exact all i li j lj (hi.trans hj.symm)

/-- The positions that a burst names. -/
def namedIn (first count : Nat) : List Pos := (burst first count).filterMap Pos.ofNat?

theorem mem_namedIn {first count : Nat} : p ∈ namedIn first count ↔
    ∃ i, (first ≤ i ∧ i < first + count) ∧ Pos.ofNat? i = some p := by
  simp only [namedIn, List.mem_filterMap, mem_burst]

theorem burst_nodup (first count : Nat) : (burst first count).Nodup :=
  List.Pairwise.map (S := (· ≠ ·)) (first + ·) (fun _ _ hn h => hn (Nat.add_left_cancel h)) List.nodup_range

theorem namedIn_nodup (first count : Nat) : (namedIn first count).Nodup :=
  List.Pairwise.filterMap (S := (· ≠ ·)) Pos.ofNat? (fun _ _ hn _ hp _ hq h => hn (ofNat_inj hp (h ▸ hq)))
    (burst_nodup first count)

/-! ## The entries stored (R172) -/

theorem store_t2_other {i : Nat} {x : Entry} (h : Pos.ofNat? i ≠ some p) : (T.store i x).t2.get p = T.t2.get p := by
  cases x with
  | t2 x =>
    simp only [Tables.store]
    split
    · rfl
    next q hq => exact Four.get_set_other _ _ fun hp => h (hp ▸ hq)
  | _ => rfl

theorem ofNat_succ {k i : Nat} (hp : Pos.ofNat? (i + (k + 1)) = some p) : Pos.ofNat? (i + 1 + k) = some p :=
  (congrArg Pos.ofNat? (Nat.succ_add_eq_add_succ i k)).trans hp

/-- A burst whose first index is a position's names it there alone. -/
theorem ofNat_later {i j : Nat} (hp : Pos.ofNat? i = some p) (hj : i + 1 ≤ j) : Pos.ofNat? j ≠ some p := fun hn => by
  have := ofNat_inj hn hp
  omega

theorem storeAll_t2_before {i : Nat} {list : List Entry} (h : ∀ j, i ≤ j → Pos.ofNat? j ≠ some p) :
    (T.storeAll i list).t2.get p = T.t2.get p := by
  induction list generalizing T i with
  | nil => rfl
  | cons x rest ih =>
    exact (ih fun j hj => h j (Nat.le_of_succ_le hj)).trans (store_t2_other (h i (Nat.le_refl i)))

/-- The T2 entry of a position that a burst writes. -/
theorem storeAll_t2_at {list : List Entry} {y : PosEntry} {k i : Nat} (hk : list[k]? = some (.t2 y))
    (hp : Pos.ofNat? (i + k) = some p) : (T.storeAll i list).t2.get p = some y := by
  induction list generalizing T i k with
  | nil => cases hk
  | cons x rest ih =>
    cases k with
    | zero =>
      obtain rfl : x = .t2 y := by simpa using hk
      rw [Nat.add_zero] at hp
      refine (storeAll_t2_before fun j => ofNat_later hp).trans ?_
      simp only [Tables.store, hp]
      exact Four.get_set_self ..
    | succ k => exact ih (by simpa using hk) (ofNat_succ hp)

theorem storeAll_t2 {list : List Entry} (h : ∀ x ∈ list, x.table ≠ 2) (T : Tables) (i : Nat) :
    (T.storeAll i list).t2 = T.t2 := by
  refine storeAll_keeps (f := Tables.t2) (fun x hx T i => ?_) T i
  cases x with
  | t2 x => exact absurd rfl (h _ hx)
  | _ => rfl

theorem storeAll_t10 {list : List Entry} (h : ∀ x ∈ list, x.table = 10) (T : Tables) (i : Nat) : T.storeAll i list = T := by
  refine storeAll_keeps (f := fun T => T) (fun x hx T i => ?_) T i
  cases x with
  | t10 v => rfl
  | _ => exact absurd (h _ hx) nofun

theorem present_of {y : PosEntry} (h : T.t2.get p = some y) : T.present p = y.present := by
  rw [Tables.present, h]

/-! ## The run-hour meters (R66) -/

theorem writeT10At_some {i v : Nat} (h : Pos.ofNat? i = some p) :
    writeT10At i v b = b.putMeter p { b.meter p with value := v, pendingInc := false } (some v) := by
  rw [writeT10At, h]
  exact writeMeter_eq ..

theorem writeT10At_other {i v : Nat} (h : Pos.ofNat? i ≠ some p) : b.SameMeter p (writeT10At i v b) := by
  unfold writeT10At
  split
  · exact .refl ..
  next q hq =>
    rw [writeMeter_eq]
    exact putMeter_other (fun hp : p = q => h (hp ▸ hq)) b _ _

theorem writeT10_before {i : Nat} {list : List Entry} (h : ∀ j, i ≤ j → Pos.ofNat? j ≠ some p) :
    b.SameMeter p (writeT10 b i list) := by
  induction list generalizing b i with
  | nil => exact .refl ..
  | cons x rest ih =>
    have later : ∀ b : Block, b.SameMeter p (writeT10 b (i + 1) rest) := fun b => ih fun j hj => h j (Nat.le_of_succ_le hj)
    cases x with
    | t10 v => exact (writeT10At_other (h i (Nat.le_refl i))).trans (later _)
    | _ => exact later b

/-- The meter of a position that a burst writes, and its cell. -/
theorem writeT10_at {list : List Entry} {k v i : Nat} (hk : list[k]? = some (.t10 v)) (hp : Pos.ofNat? (i + k) = some p) :
    ((writeT10 b i list).works.eng.at p).meter = { b.meter p with value := v, pendingInc := false } ∧
      (writeT10 b i list).nv.meters.get p = some v := by
  induction list generalizing b i k with
  | nil => cases hk
  | cons x rest ih =>
    cases k with
    | zero =>
      obtain rfl : x = .t10 v := by simpa using hk
      rw [Nat.add_zero] at hp
      have later : (writeT10At i v b).SameMeter p (writeT10 (writeT10At i v b) (i + 1) rest) :=
        writeT10_before fun j => ofNat_later hp
      rw [writeT10, later.pos, later.cell, writeT10At_some hp]
      exact ⟨by simp [Block.putMeter, Block.setMeter], by simp [Block.putMeter]⟩
    | succ k =>
      have hk' : rest[k]? = some (.t10 v) := by simpa using hk
      have hp' := ofNat_succ hp
      have hn : Pos.ofNat? i ≠ some p := fun hn => ofNat_later hn (Nat.le_add_right (i + 1) k) hp'
      cases x with
      | t10 u =>
        obtain ⟨meter, cell⟩ := ih (b := writeT10At i u b) hk' hp'
        have same : (writeT10At i u b).meter p = b.meter p := congrArg Position.meter (writeT10At_other hn).pos
        rw [same] at meter
        exact ⟨meter, cell⟩
      | _ => exact ih hk' hp'

theorem writeT10_metersAlone (list : List Entry) (b : Block) (i : Nat) : b.MetersAlone (writeT10 b i list) := by
  induction list generalizing b i with
  | nil => exact ⟨_, _, rfl⟩
  | cons x rest ih =>
    cases x with
    | t10 v =>
      have one : b.MetersAlone (writeT10At i v b) := by
        unfold writeT10At
        split
        · exact ⟨_, _, rfl⟩
        · exact ⟨_, _, rfl⟩
      exact one.trans (ih _ _)
    | _ => exact ih ..

/-! ## What a WRITE leaves (R175) -/

/-- The parts of the block outside the engines and the tables after a WRITE. -/
theorem writeAccepted_outside (b : Block) (table first count : Nat) (list : List Entry) :
    (writeAccepted b table first count list).hours = b.hours ∧ (writeAccepted b table first count list).saving = b.saving ∧
      (writeAccepted b table first count list).nv.image = b.nv.image ∧
      (table ≠ 2 → (writeAccepted b table first count list).nv.isolation = b.nv.isolation) ∧
      (table ≠ 10 → (writeAccepted b table first count list).nv.meters = b.nv.meters) := by
  unfold writeAccepted
  dsimp only
  split
  case h_6 =>
    obtain ⟨pos, meters, hb⟩ := writeT10_metersAlone list b first
    rw [hb]
    exact ⟨rfl, rfl, rfl, fun _ => rfl, fun h => absurd rfl h⟩
  case h_2 => exact ⟨rfl, rfl, rfl, fun h => absurd rfl h, fun _ => rfl⟩
  all_goals exact ⟨rfl, rfl, rfl, fun _ => rfl, fun _ => rfl⟩

/-! ## The engines that a WRITE closes its event on -/

/-- A T2 burst at the positions it names. -/
def positionsRewritten (old new : Tables) (first count : Nat) (e : Engine) : Engine :=
  (namedIn first count).foldl (fun e p => positionRewritten old new p e) e

/-- The works before the close of the event of a WRITE. -/
def Works.written (w : Works) (new : Tables) (eng : Engine) : Works := { w with tab := new, eng := eng }

section
variable (b) (first count : Nat) (list : List Entry)

theorem writeAccepted_t1 : (writeAccepted b 1 first count list).works = closeEvent b.works
    (b.works.written (b.works.tab.storeAll first list) { b.works.eng with
      res := b.works.eng.res.afterT1 (b.works.tab.storeAll first list) b.works.eng.now (holdingConds b.works.tab b.works.eng.res) }) :=
  rfl

theorem writeAccepted_t2 : (writeAccepted b 2 first count list).works = closeEvent b.works
    (b.works.written (b.works.tab.storeAll first list)
      (positionsRewritten b.works.tab (b.works.tab.storeAll first list) first count b.works.eng)) := rfl

theorem writeAccepted_t3 : (writeAccepted b 3 first count list).works = closeEvent b.works
    (b.works.written (b.works.tab.storeAll first list)
      (b.works.eng.eachPos (profileRewritten (b.works.tab.storeAll first list) first count))) := rfl

theorem writeAccepted_t8 : (writeAccepted b 8 first count list).works = closeEvent b.works
    (b.works.written (b.works.tab.storeAll first list) (b.works.eng.eachPos (protRewritten b.works.tab first count))) := rfl

end

/-- The tables after a WRITE: while no commit waits, those with the entries stored. -/
theorem writeAccepted_tab {r : MgmtReq} {list : List Entry} (h : AcceptedWrite b r list) (hc : b.works.commitPending = false) :
    (writeAccepted b r.table.toNat r.first.toNat r.count.toNat list).works.tab = b.works.tab.storeAll r.first.toNat list := by
  have closed : ∀ e, (closeEvent b.works (b.works.written (b.works.tab.storeAll r.first.toNat list) e)).tab =
      b.works.tab.storeAll r.first.toNat list := fun e =>
    ((closeEvent_closes b.works (b.works.written (b.works.tab.storeAll r.first.toNat list) e)).kept hc).1
  have table := h.table
  generalize r.table.toNat = table' at table ⊢
  by_cases h1 : table' = 1
  · rw [h1, writeAccepted_t1, closed]
  by_cases h2 : table' = 2
  · rw [h2, writeAccepted_t2, closed]
  by_cases h3 : table' = 3
  · rw [h3, writeAccepted_t3, closed]
  by_cases h8 : table' = 8
  · rw [h8, writeAccepted_t8, closed]
  by_cases h10 : table' = 10
  · rw [h10, show writeAccepted b 10 r.first.toNat r.count.toNat list = writeT10 b r.first.toNat list from rfl,
      (writeT10_resolver list b r.first.toNat).1, storeAll_t10 fun x hx => (table x hx).trans h10]
  unfold writeAccepted
  split <;> first | contradiction | rfl

/-- A close reads the caps of T1 as it finds them. -/
theorem closeEvent_cap (start w : Works) (n : Nat) : (closeEvent start w).tab.cap n = w.tab.cap n := by
  rcases (closeEvent_closes start w).tab with h | ⟨-, h⟩ <;> rw [h]
  exact cap_of_t1 (by rfl) n

/-- T1 written: the demand is capped anew (R3). -/
theorem writeAccepted_demand (b : Block) (first count : Nat) (list : List Entry) :
    (writeAccepted b 1 first count list).works.eng.res.demand =
        (writeAccepted b 1 first count list).works.tab.cap b.works.eng.res.requested ∧
      (writeAccepted b 1 first count list).works.eng.res.requested = b.works.eng.res.requested := by
  have taken : ResKept { b.works.eng.res with demand := (b.works.tab.storeAll first list).cap b.works.eng.res.requested }
      (b.works.eng.res.afterT1 (b.works.tab.storeAll first list) b.works.eng.now (holdingConds b.works.tab b.works.eng.res)) :=
    ((rereadAchieve_kept ..).trans (settle_kept ..)).trans (rise_kept ..)
  rw [writeAccepted_t1, closeEvent_cap]
  have closed := (closeEvent_closes b.works (b.works.written (b.works.tab.storeAll first list) { b.works.eng with
    res := b.works.eng.res.afterT1 (b.works.tab.storeAll first list) b.works.eng.now
      (holdingConds b.works.tab b.works.eng.res) })).eng.res
  exact ⟨closed.demand.trans taken.demand, closed.requested.trans taken.requested⟩

/-! ## The meters under a WRITE of another table -/

/-- An operation that leaves the meter of every position. -/
def MeterKept (a b : Engine) : Prop := ∀ p, (b.at p).meter = (a.at p).meter

theorem MeterKept.refl (e : Engine) : MeterKept e e := fun _ => rfl

theorem MeterKept.trans {a b c : Engine} (h₁ : MeterKept a b) (h₂ : MeterKept b c) : MeterKept a c :=
  fun p => (h₂ p).trans (h₁ p)

theorem Touches.meters {a b : Engine} (h : Touches T p a b) : MeterKept a b := fun q => by
  by_cases hq : q = p
  · rw [hq]
    exact h.self.meter
  · rcases h.others q hq with hb | hb <;> rw [hb]

theorem modify_meters {f : Position → Position} (hf : ∀ x, (f x).meter = x.meter) : MeterKept e (e.modify p f) := fun q => by
  rw [Engine.at_modify]
  split
  next hq => subst hq; exact hf _
  next => rfl

theorem eachPos_meters {f : Pos → Engine → Engine} (hf : ∀ p e, MeterKept e (f p e)) (e : Engine) : MeterKept e (e.eachPos f) :=
  (((hf .A _).trans (hf .B _)).trans (hf .C _)).trans (hf .D _)

/-! ## One position under a WRITE of T2 (R61, R113) -/

/-- The record of a position whose T2 entry is written, before it enters a state. -/
def Position.rewritten (old new : Tables) (p : Pos) (x : Position) : Position :=
  { x with
    link := x.link.rewritten (new.profile p).isSome
    pickup := if (old.t2.get p).map (·.profile) == (new.t2.get p).map (·.profile) then x.pickup else x.pickup.clear }

section
variable {old new : Tables}

theorem positionRewritten_stays (ha : (e.at p).st = .absent → new.present p = false)
    (hr : (e.at p).st = .off ∨ (e.at p).st = .isolated → new.present p = true) :
    positionRewritten old new p e = e.put p ((e.at p).rewritten old new p) := by
  unfold positionRewritten
  dsimp only
  rw [Engine.at_modify_self]
  dsimp only
  split
  next h => rw [ha h]; rfl
  next h => rw [hr (Or.inl h)]; rfl
  next h => rw [hr (Or.inr h)]; rfl
  next => rfl

theorem positionRewritten_arrives (hs : (e.at p).st = .absent) (hp : new.present p = true) :
    positionRewritten old new p e = enterOffUnheard new p (e.put p ((e.at p).rewritten old new p)) := by
  unfold positionRewritten
  dsimp only
  rw [Engine.at_modify_self]
  simp only [hs, hp, if_true]
  rfl

theorem positionRewritten_leaves (hs : (e.at p).st = .off ∨ (e.at p).st = .isolated) (hp : new.present p = false) :
    positionRewritten old new p e = enter new p .absent (e.put p ((e.at p).rewritten old new p)) := by
  unfold positionRewritten
  dsimp only
  rw [Engine.at_modify_self]
  rcases hs with hs | hs <;> simp only [hs, hp, Bool.false_eq_true, if_false] <;> rfl

/-- A write of T2 at one position: it stays in its state, leaves ABSENT or enters it. -/
theorem positionRewritten_cases (old new : Tables) (p : Pos) (e : Engine) :
    positionRewritten old new p e = e.put p ((e.at p).rewritten old new p) ∨
    ((e.at p).st = .absent ∧ positionRewritten old new p e =
      enterOffUnheard new p (e.put p ((e.at p).rewritten old new p))) ∨
    (((e.at p).st = .off ∨ (e.at p).st = .isolated) ∧ positionRewritten old new p e =
      enter new p .absent (e.put p ((e.at p).rewritten old new p))) := by
  cases hp : new.present p with
  | true =>
    by_cases hs : (e.at p).st = .absent
    · exact Or.inr (Or.inl ⟨hs, positionRewritten_arrives hs hp⟩)
    · exact Or.inl (positionRewritten_stays (fun h => absurd h hs) fun _ => hp)
  | false =>
    by_cases hs : (e.at p).st = .off ∨ (e.at p).st = .isolated
    · exact Or.inr (Or.inr ⟨hs, positionRewritten_leaves hs hp⟩)
    · exact Or.inl (positionRewritten_stays (fun _ => hp) fun h => absurd h hs)

theorem rewritten_st (x : Position) : (x.rewritten old new p).st = x.st := rfl

theorem enterOffUnheard_other {q : Pos} (hq : q ≠ p) (h : (e.at p).st ≠ .starting) :
    (enterOffUnheard T p e).at q = e.at q := by
  rw [enterOffUnheard, Engine.at_modify_other _ _ hq, enter_other hq h]

/-- A write of T2 leaves the positions it does not name. -/
theorem positionRewritten_other {q : Pos} (hq : q ≠ p) : (positionRewritten old new p e).at q = e.at q := by
  have put : ∀ x, (e.put p x).at q = e.at q := fun x => by rw [Engine.at_put, if_neg hq]
  rcases positionRewritten_cases old new p e with h | ⟨hs, h⟩ | ⟨hs, h⟩ <;> rw [h]
  · exact put _
  · rw [enterOffUnheard_other hq (by rw [Engine.at_put_self, rewritten_st, hs]; nofun), put]
  · rw [enter_other hq (by rw [Engine.at_put_self, rewritten_st]; rcases hs with hs | hs <;> rw [hs] <;> nofun), put]

/-- A write of T2 leaves the meter of the position it names. -/
theorem positionRewritten_meter : ((positionRewritten old new p e).at p).meter = (e.at p).meter := by
  have entered : ∀ dest x, ((enter new p dest (e.put p x)).at p).meter = x.meter := fun dest x => by
    obtain ⟨l, hl, -⟩ := enter_at new p dest (e.put p x)
    rw [hl, Engine.at_put_self]
    rfl
  rcases positionRewritten_cases old new p e with h | ⟨-, h⟩ | ⟨-, h⟩ <;> rw [h]
  · rw [Engine.at_put_self]
    rfl
  · rw [enterOffUnheard, Engine.at_modify_self]
    exact entered _ _
  · exact entered _ _

end

theorem positionRewritten_meters (old new : Tables) (p : Pos) (e : Engine) : MeterKept e (positionRewritten old new p e) :=
  fun q => by
    by_cases hq : q = p
    · rw [hq]
      exact positionRewritten_meter
    · rw [positionRewritten_other hq]

theorem positionsRewritten_meters (old new : Tables) (first count : Nat) (e : Engine) :
    MeterKept e (positionsRewritten old new first count e) := by
  unfold positionsRewritten
  generalize namedIn first count = list
  induction list generalizing e with
  | nil => exact .refl e
  | cons p rest ih => exact (positionRewritten_meters old new p e).trans (ih _)

theorem profileRewritten_meters (new : Tables) (first count : Nat) (p : Pos) (e : Engine) :
    MeterKept e (profileRewritten new first count p e) := by
  unfold profileRewritten
  split
  · exact modify_meters fun _ => rfl
  · exact .refl e

theorem protRewritten_meters (T : Tables) (first count : Nat) (p : Pos) (e : Engine) :
    MeterKept e (protRewritten T first count p e) :=
  (modify_meters (f := fun x => { x with prot := Vector.ofFn fun i =>
    if first ≤ i.val ∧ i.val < first + count then .reset else x.prot[i] }) fun _ => rfl).trans (judgeCauses_touches ..).meters

/-- T1 to T9 written leave every meter (R66). -/
theorem writeAccepted_meter {table : Nat} (h : table ≠ 10) (b : Block) (first count : Nat) (list : List Entry) (p : Pos) :
    ((writeAccepted b table first count list).works.eng.at p).meter = (b.works.eng.at p).meter := by
  have closed : ∀ new e, MeterKept b.works.eng e → ((closeEvent b.works (b.works.written new e)).eng.at p).meter =
      (b.works.eng.at p).meter := fun new e he =>
    (((closeEvent_closes b.works (b.works.written new e)).eng.pos p).carried.meter).trans (he p)
  by_cases h1 : table = 1
  · rw [h1, writeAccepted_t1]
    exact closed _ _ fun _ => rfl
  by_cases h2 : table = 2
  · rw [h2, writeAccepted_t2, closed _ _ (positionsRewritten_meters _ _ _ _ _)]
  by_cases h3 : table = 3
  · rw [h3, writeAccepted_t3, closed _ _ (eachPos_meters (fun p e => profileRewritten_meters _ _ _ p e) _)]
  by_cases h8 : table = 8
  · rw [h8, writeAccepted_t8, closed _ _ (eachPos_meters (fun p e => protRewritten_meters _ _ _ p e) _)]
  unfold writeAccepted
  split <;> first | contradiction | rfl

end Sys2Proof.Machine
end

section
/-! SUPPORT. A WRITE of T2 and of T3 at the positions that read the entries (R61, R113, R118, R175). -/

namespace Sys2Proof.Machine

variable {old new : Tables} {p : Pos} {e : Engine} {b : Block} {first count : Nat} {list : List Entry}

/-! ## The close after a WRITE -/

/-- The close after a WRITE leaves a position to which no order applies, whatever condition holds. -/
theorem written_still {w : Works} {start : Works} (h : ∀ z, (e.at p).calm z e.res.mayRun = true) :
    Still (e.at p) ((closeEvent start (w.written new e)).eng.at p) :=
  ((closeEvent_closes start (w.written new e)).eng.pos p).still (h _)

theorem written_carried {w : Works} {start : Works} : Carried (e.at p) ((closeEvent start (w.written new e)).eng.at p) :=
  ((closeEvent_closes start (w.written new e)).eng.pos p).carried

theorem calm_of_fixed {x : Position} {z m : Bool} (h : x.st.fixed = true) : x.calm z m = true := by
  simp [Position.calm, h]

/-- An OFF position without a confirmed setup is calm. -/
theorem calm_of_unset {x : Position} {z m : Bool} (hs : x.st = .off) (hu : x.link.setup = .unset) : x.calm z m = true := by
  simp [Position.calm, hs, hu]

theorem SetupDrift.unset {l l' : Link} (h : SetupDrift l l') (hu : l.setup = .unset) : l'.setup = .unset ∨ l'.setup = .sent := by
  rcases h.cases with hs | ⟨-, hs⟩
  · exact Or.inl (hs.trans hu)
  · exact Or.inr hs

theorem linkRewritten_setup (l : Link) (d : Bool) : (l.rewritten d).setup = .unset := by
  cases d <;> rfl

/-! ## An ISOLATED position at the close (R61, R111) -/

/-- An ISOLATED position without a setup: no handshake begins there. -/
structure Dormant (x : Position) : Prop where
  st : x.st = .isolated
  setup : x.link.setup = .unset

theorem Dormant.greets {x : Position} (h : Dormant x) : x.greets = false := by
  simp [Position.greets, h.st]

theorem Dormant.foreign {x : Position} {st : PState} {P : Prop} (h : Dormant x) (hs : x.st = st) (hn : st ≠ .isolated) : P :=
  absurd (hs.symm.trans h.st) hn

theorem dormant_stable (p : Pos) : CloseStable p Dormant where
  link x l hl h := by
    rcases hl with hl | hg
    · exact ⟨h.st, hl.trans h.setup⟩
    · rw [h.greets] at hg
      cases hg
  granted _ _ h := ⟨h.st, h.setup⟩
  linger _ _ h := ⟨h.st, h.setup⟩
  restep _ _ _ h := ⟨h.st, h.setup⟩
  slot _ _ hs h := h.foreign hs nofun
  target _ _ hs h := h.foreign hs nofun
  demote _ _ hs h := h.foreign hs nofun
  promote _ _ hs h := h.foreign hs nofun
  start _ _ hs h := h.foreign hs nofun
  abandon _ _ hs h := h.foreign hs nofun
  stop _ _ hs h := h.foreign hs nofun

/-! ## T2 (R61) -/

/-- A position that a T2 burst names: the burst does there what the write of its entry does. -/
theorem positionsRewritten_at (hp : p ∈ namedIn first count) (e : Engine) : ∃ e', e'.at p = e.at p ∧
    (positionsRewritten old new first count e).at p = (positionRewritten old new p e').at p := by
  obtain ⟨e', before, after⟩ := foldl_turn (R := fun a b : Engine => b.at p = a.at p)
    (f := fun e p => positionRewritten old new p e) (fun _ => rfl) (fun h₁ h₂ => h₂.trans h₁)
    (fun q e hq => positionRewritten_other (Ne.symm hq)) (namedIn_nodup first count) hp e
  exact ⟨e', before, after⟩

theorem positionsRewritten_stays (hp : p ∈ namedIn first count) (ha : (e.at p).st = .absent → new.present p = false)
    (hr : (e.at p).st = .off ∨ (e.at p).st = .isolated → new.present p = true) :
    (positionsRewritten old new first count e).at p = (e.at p).rewritten old new p := by
  obtain ⟨e', before, after⟩ := positionsRewritten_at (old := old) (new := new) hp e
  rw [after, positionRewritten_stays (by rwa [before]) (by rwa [before]), Engine.at_put_self, before]

theorem positionsRewritten_arrives (hp : p ∈ namedIn first count) (hs : (e.at p).st = .absent) (hn : new.present p = true) :
    ((positionsRewritten old new first count e).at p).st = .off ∧
      ((positionsRewritten old new first count e).at p).link.state = .lost ∧
      ((positionsRewritten old new first count e).at p).link.setup = .unset := by
  obtain ⟨e', before, after⟩ := positionsRewritten_at (old := old) (new := new) hp e
  rw [after, positionRewritten_arrives (by rwa [before]) hn]
  exact enterOffUnheard_at ..

theorem positionsRewritten_leaves (hp : p ∈ namedIn first count) (hs : (e.at p).st = .off ∨ (e.at p).st = .isolated)
    (hn : new.present p = false) : ((positionsRewritten old new first count e).at p).st = .absent ∧
      ((positionsRewritten old new first count e).at p).link.state = .silent ∧
      ((positionsRewritten old new first count e).at p).link.setup = .unset := by
  obtain ⟨e', before, after⟩ := positionsRewritten_at (old := old) (new := new) hp e
  rw [after, positionRewritten_leaves (by rwa [before]) hn]
  obtain ⟨l, hl, hk⟩ := enter_at new p .absent (e'.put p ((e'.at p).rewritten old new p))
  rw [hl]
  exact ⟨rfl, hk.state, hk.setup⟩

/-- What a write of T2 makes of a position at rest (R61). -/
structure T2Written (present : Bool) (x y : Position) : Prop where
  arrives : x.st = .absent → present = true → y.st = .off ∧ y.link.setup = .unset ∧ y.link.state = .lost
  absent : x.st = .absent → present = false → y.st = .absent
  off : x.st = .off → present = true → y.st = .off ∧ (y.link.setup = .unset ∨ y.link.setup = .sent)
  leaves : x.st = .off ∨ x.st = .isolated → present = false →
    y.st = .absent ∧ y.link.state = .silent ∧ y.link.setup = .unset
  isolated : x.st = .isolated → present = true → y.st = .isolated ∧ y.link.setup = .unset

theorem writeAccepted_position {y : PosEntry} (hp : p ∈ namedIn first count)
    (hy : (b.works.tab.storeAll first list).t2.get p = some y) :
    T2Written y.present (b.works.eng.at p) ((writeAccepted b 2 first count list).works.eng.at p) := by
  rw [writeAccepted_t2, ← present_of hy]
  generalize b.works.tab.storeAll first list = new
  have unset : ∀ x : Position, (x.rewritten b.works.tab new p).link.setup = .unset := fun x => linkRewritten_setup ..
  have carried := written_carried (w := b.works) (start := b.works) (new := new) (p := p)
    (e := positionsRewritten b.works.tab new first count b.works.eng)
  have still := written_still (w := b.works) (start := b.works) (new := new) (p := p)
    (e := positionsRewritten b.works.tab new first count b.works.eng)
  constructor
  · intro hs hn
    obtain ⟨st, state, setup⟩ := positionsRewritten_arrives (old := b.works.tab) hp hs hn
    have still := still fun z => calm_of_unset st setup
    exact ⟨still.st.trans st, (still.setup.setup_unheard (by rw [state]; nofun)).trans setup, carried.linkState.trans state⟩
  · intro hs hn
    have at_ := positionsRewritten_stays (old := b.works.tab) (e := b.works.eng) hp (fun _ => hn) (by rw [hs]; nofun)
    rw [at_] at still
    exact (still fun z => calm_of_fixed (by rw [rewritten_st, hs]; rfl)).st.trans hs
  · intro hs hn
    have at_ := positionsRewritten_stays (old := b.works.tab) (e := b.works.eng) hp (by rw [hs]; nofun) (fun _ => hn)
    rw [at_] at still
    have still := still fun z => calm_of_unset hs (unset _)
    exact ⟨still.st.trans hs, still.setup.unset (unset _)⟩
  · intro hs hn
    obtain ⟨st, state, setup⟩ := positionsRewritten_leaves (old := b.works.tab) hp hs hn
    have still := still fun z => calm_of_fixed (by rw [st]; rfl)
    exact ⟨still.st.trans st, carried.linkState.trans state,
      (still.setup.setup_unheard (by rw [state]; nofun)).trans setup⟩
  · intro hs hn
    have at_ := positionsRewritten_stays (old := b.works.tab) (e := b.works.eng) hp (by rw [hs]; nofun) (fun _ => hn)
    have dormant := (dormant_stable p).close none false b.works
      (b.works.written new (positionsRewritten b.works.tab new first count b.works.eng)) (by
        refine Eq.mpr (congrArg Dormant at_) ⟨hs, unset _⟩)
    exact ⟨dormant.st, dormant.setup⟩

/-- The isolation cells after a T2 burst. -/
theorem isolationAfter_fold {st : Pos → PState} {list : List Pos} {cells : Four (Option Bool)} :
    (list.foldl (fun cells p => isolationAfter new p (st p) cells) cells).get p =
      if p ∈ list ∧ st p = .isolated ∧ new.present p = false then some false else cells.get p := by
  induction list generalizing cells with
  | nil => simp
  | cons q rest ih =>
    have one : (isolationAfter new q (st q) cells).get p =
        if p = q ∧ st p = .isolated ∧ new.present p = false then some false else cells.get p := by
      unfold isolationAfter
      by_cases hq : p = q
      · subst hq
        by_cases h : st p = .isolated ∧ new.present p = false <;> simp [h]
      · rw [if_neg (c := p = q ∧ _) fun h => hq h.1]
        split
        · exact Four.get_set_other _ _ hq
        · rfl
    rw [List.foldl_cons, ih, one]
    grind

theorem writeAccepted_cell {y : PosEntry} (hp : p ∈ namedIn first count)
    (hy : (b.works.tab.storeAll first list).t2.get p = some y) :
    (writeAccepted b 2 first count list).nv.isolation.get p =
      if (b.works.eng.at p).st = .isolated ∧ y.present = false then some false else b.nv.isolation.get p := by
  refine (isolationAfter_fold (st := fun p => (b.works.eng.at p).st) (list := namedIn first count)).trans ?_
  rw [present_of hy]
  simp [hp]

/-! ## T3 (R113, R118) -/

theorem profileRewritten_other {q : Pos} (hq : q ≠ p) : (profileRewritten new first count p e).at q = e.at q := by
  unfold profileRewritten
  split
  · exact Engine.at_modify_other _ _ hq
  · rfl

theorem profileRewritten_at (h : ∃ i ∈ burst first count, new.uses p i = true) : (profileRewritten new first count p e).at p =
    { e.at p with link := (e.at p).link.rewritten true, pickup := (e.at p).pickup.clear } := by
  unfold profileRewritten
  rw [if_pos (List.any_eq_true.2 h), Engine.at_modify_self]

theorem profilesRewritten_at (h : ∃ i ∈ burst first count, new.uses p i = true) :
    (e.eachPos (profileRewritten new first count)).at p =
      { e.at p with link := (e.at p).link.rewritten true, pickup := (e.at p).pickup.clear } := by
  obtain ⟨e', before, after⟩ := eachPos_turn (p := p) (R := fun a b : Engine => b.at p = a.at p)
    (f := profileRewritten new first count) (fun _ => rfl) (fun h₁ h₂ => h₂.trans h₁)
    (fun q e hq => profileRewritten_other (Ne.symm hq)) e
  rw [after, profileRewritten_at h, before]

/-- The positions that use a profile written (R113, R118). -/
theorem writeAccepted_profile (h : ∃ i ∈ burst first count, (b.works.tab.storeAll first list).uses p i = true)
    (hs : (b.works.eng.at p).st.atRest = true) :
    ((writeAccepted b 3 first count list).works.eng.at p).st = (b.works.eng.at p).st ∧
      (((writeAccepted b 3 first count list).works.eng.at p).link.setup = .unset ∨
        ((writeAccepted b 3 first count list).works.eng.at p).link.setup = .sent) ∧
      ((writeAccepted b 3 first count list).works.eng.at p).pickup = (b.works.eng.at p).pickup.clear := by
  rw [writeAccepted_t3]
  generalize b.works.tab.storeAll first list = new at h ⊢
  have at_ := profilesRewritten_at (e := b.works.eng) h
  have carried := written_carried (w := b.works) (start := b.works) (new := new) (p := p)
    (e := b.works.eng.eachPos (profileRewritten new first count))
  have still := written_still (w := b.works) (start := b.works) (new := new) (p := p)
    (e := b.works.eng.eachPos (profileRewritten new first count))
  rw [at_] at carried still
  have still := still fun z => by
    cases hst : (b.works.eng.at p).st with
    | off => exact calm_of_unset hst (linkRewritten_setup _ true)
    | absent | isolated => exact calm_of_fixed (by dsimp only; rw [hst]; rfl)
    | _ => rw [hst] at hs; cases hs
  exact ⟨still.st, still.setup.unset (linkRewritten_setup _ true), carried.pickup⟩

end Sys2Proof.Machine
end

section
/-! SUPPORT. A WRITE of T8: the pairs of the rewritten entries are cleared, and no operation of the close starts one (R151, R152). -/

namespace Sys2Proof.Machine

variable {T : Tables} {p q : Pos} {i : Fin 16} {e a b : Engine}

/-! ## What keeps a cleared pair -/

/-- A position's pair of an entry is clear. -/
def PairClear (i : Fin 16) (x : Position) : Prop := x.prot[i] = .reset

theorem PairClear.same {x y : Position} (h : PairClear i x) (hp : y.prot = x.prot) : PairClear i y :=
  (congrArg (fun v : Vector Pair 16 => v[i]) hp).trans h

theorem PairClear.modify {f : Position → Position} (h : PairClear i (e.at p)) (hf : (f (e.at p)).prot = (e.at p).prot) :
    PairClear i ((e.modify p f).at p) := by
  rw [Engine.at_modify_self]
  exact h.same hf

theorem PairClear.put {x : Position} (h : PairClear i (e.at p)) (hx : x.prot = (e.at p).prot) :
    PairClear i ((e.put p x).at p) := by
  rw [Engine.at_put_self]
  exact h.same hx

theorem PairClear.bus (h : PairClear i (a.at p)) (hb : BusOnly T a b) : PairClear i (b.at p) := by
  rcases hb.all p with hx | hx <;> rw [hx]
  · exact h
  · exact h.same rfl

theorem PairClear.link (h : PairClear i (a.at p)) (hl : LinkOnly p a b) : PairClear i (b.at p) := by
  obtain ⟨l, rfl, -⟩ := hl
  exact h.put rfl

/-- Entry to a state keeps the pairs or resets them all (R151). -/
theorem PairClear.enter (h : PairClear i (e.at p)) (dest : PState) : PairClear i ((enter T p dest e).at p) := by
  obtain ⟨l, hl, -⟩ := enter_at T p dest e
  rw [hl]
  cases hd : dest.tested with
  | true => exact h.same (by simp [Position.arrive, Position.leave, hd])
  | false => simp [PairClear, Position.arrive, hd]

theorem PairClear.faultWith (h : PairClear i (e.at p)) (code : FaultCode) (step : Option Nat) (value : Option Int) :
    PairClear i ((faultWith T p code step value e).at p) := by
  unfold Machine.faultWith
  split
  · exact h.modify rfl
  · exact (h.enter .faulted).modify rfl

theorem PairClear.enterStopping (h : PairClear i (e.at p)) : PairClear i ((enterStopping T p e).at p) := by
  unfold Machine.enterStopping
  dsimp only
  split
  · exact (h.enter .stopping).enter .off
  · split
    · exact h.enter .stopping
    · exact (h.enter .stopping).modify rfl

theorem PairClear.handshake (h : PairClear i (e.at p)) : PairClear i ((handshake T p e).at p) := by
  unfold Machine.handshake
  dsimp only
  split
  · exact h
  · split
    · exact h.put rfl
    · exact h

theorem PairClear.enterHeld (h : PairClear i (e.at p)) (causes : Causes) : PairClear i ((enterHeld T p causes e).at p) := by
  have held : PairClear i (((Machine.enter T p .held e).modify p fun x =>
      { x with causes := causes, holdT := if causes.localPanel then .stopped else holdTimer T p (Machine.enter T p .held e) }).at p) :=
    (h.enter .held).modify rfl
  exact iteInduction (motive := fun e' => PairClear i (Engine.at e' p)) (fun _ => held.handshake.enterStopping) fun _ => held

theorem PairClear.enterReady (h : PairClear i (e.at p)) : PairClear i ((enterReady T p e).at p) := by
  unfold Machine.enterReady
  dsimp only
  split
  · exact (h.enter .ready).faultWith ..
  · exact h.enter .ready

theorem PairClear.chainEnd (h : PairClear i (e.at p)) : PairClear i ((chainEnd T p e).at p) := by
  unfold Machine.chainEnd
  dsimp only
  split
  · exact h.enterReady
  · exact h.enterHeld _

theorem PairClear.endStep (h : PairClear i (e.at p)) (r : StepRec) : PairClear i ((endStep T p r e).at p) :=
  (h.bus (leaveBus_busOnly T p e)).modify rfl

theorem PairClear.enterStep (h : PairClear i (e.at p)) (fuel : Nat) (counts : Bool) (idx : Nat) :
    PairClear i ((enterStep T p fuel counts idx e).at p) := by
  induction fuel generalizing counts idx e with
  | zero => exact h.faultWith ..
  | succ n ih =>
    have driven : ∀ c, PairClear i ((handDrive T p (e.put p { e.at p with ctx := some c })).at p) := fun c =>
      (h.put (x := { e.at p with ctx := some c }) rfl).link (handDrive_linkOnly T p _)
    unfold Machine.enterStep
    dsimp only
    split
    · exact h.faultWith ..
    · split
      · split
        · exact ((driven _).endStep _).chainEnd
        · exact ih ((driven _).endStep _) _ _
      · split
        · exact (driven _).bus (requestBus_busOnly T p _)
        · exact driven _

/-! ## The orders -/

theorem PairClear.startOrder (h : PairClear i (e.at p)) : PairClear i ((startOrder T p e).at p) := by
  unfold Machine.startOrder
  dsimp only
  split
  · split
    · exact (h.enter .starting).faultWith ..
    · split
      · exact (h.enter .starting).faultWith ..
      · exact (h.enter .starting).enterStep ..
  · exact h

theorem PairClear.abandonOrder (h : PairClear i (e.at p)) : PairClear i ((abandonOrder T p e).at p) := by
  unfold Machine.abandonOrder
  dsimp only
  split
  · exact h.enter .off
  · exact h

theorem PairClear.stopOrder (h : PairClear i (e.at p)) : PairClear i ((stopOrder T p e).at p) := by
  unfold Machine.stopOrder
  split
  · exact h.enterStopping
  · exact h

theorem PairClear.choosePhase (h : PairClear i (e.at p)) : PairClear i ((choosePhase T p e).at p) := by
  have speeds : ∀ ph slot, PairClear i ((startSpeedPhase T p ph slot e).at p) := fun ph slot =>
    (h.modify rfl).link (handDrive_linkOnly T p _)
  have loads : ∀ ph slot, PairClear i ((startLoadPhase T p ph slot e).at p) := fun ph slot => by
    unfold startLoadPhase
    split
    · exact h
    · exact h.modify rfl
  unfold Machine.choosePhase
  dsimp only
  split
  · split
    · exact speeds _ _
    · exact speeds _ _
    · exact loads _ _
    · exact loads _ _
    · split
      · exact h.enterReady
      · exact h.put rfl
  · exact h

theorem PairClear.endPhase (h : PairClear i (e.at p)) : PairClear i ((endPhase T p e).at p) :=
  PairClear.choosePhase (h.modify rfl)

theorem PairClear.actOnTarget (h : PairClear i (e.at p)) : PairClear i ((actOnTarget T p e).at p) := by
  have before : ∀ f, ((e.at p).beforeChoice f).prot = (e.at p).prot := fun f => by
    obtain ⟨c, hb, -⟩ := beforeChoice_fields (e.at p) f
    rw [hb]
  unfold Machine.actOnTarget
  dsimp only
  split
  · exact (h.put (before _)).endPhase
  · split
    · exact h.choosePhase
    · split
      · exact h.endPhase
      · exact h
    · split
      · exact PairClear.endPhase (h.put rfl)
      · exact h
    · exact h

theorem PairClear.demoteOrder (h : PairClear i (e.at p)) : PairClear i ((demoteOrder T p e).at p) := by
  unfold Machine.demoteOrder
  split
  · exact PairClear.actOnTarget ((h.enter .unloading).modify rfl)
  · exact h

theorem PairClear.promoteOrder (h : PairClear i (e.at p)) : PairClear i ((promoteOrder T p e).at p) := by
  unfold Machine.promoteOrder
  split
  · exact PairClear.choosePhase ((h.enter .online).modify rfl)
  · exact h

/-- The close of an event keeps a cleared pair clear: the pairs are tested at samples and pickup updates only (R144). -/
theorem pairClear_stable (p : Pos) (i : Fin 16) : CloseStable p (PairClear i) where
  link _ _ _ h := h.same rfl
  granted _ _ h := h.same rfl
  linger _ _ h := h.same rfl
  restep _ _ _ h := h.same rfl
  slot _ _ _ h := h.same rfl
  target _ _ _ h := h.actOnTarget
  demote _ _ _ h := h.demoteOrder
  promote _ _ _ h := h.promoteOrder
  start _ _ _ h := h.startOrder
  abandon _ _ _ h := h.abandonOrder
  stop _ _ _ h := h.stopOrder

theorem PairClear.judgeCauses (h : PairClear i (e.at p)) (add remove : Causes) :
    PairClear i ((judgeCauses T p add remove e).at p) := by
  unfold Machine.judgeCauses
  dsimp only
  split
  · exact h.put rfl
  iterate 3
    · split
      · exact h
      · exact h.enterHeld _
  · split
    · exact PairClear.enterReady (h.put rfl)
    · exact h.put rfl
  · exact h

/-! ## The write of T8 (R152) -/

/-- A position with the pairs of the rewritten entries cleared. -/
def Position.pairsCleared (first count : Nat) (x : Position) : Position :=
  { x with prot := Vector.ofFn fun i => if first ≤ i.val ∧ i.val < first + count then .reset else x.prot[i] }

variable {first count : Nat}

theorem protRewritten_eq : protRewritten T first count p e =
    judgeCauses T p .none (protectRemoved T (e.at p) ((e.at p).pairsCleared first count))
      (e.put p ((e.at p).pairsCleared first count)) := rfl

theorem pairsCleared_in (x : Position) (hi : first ≤ i.val ∧ i.val < first + count) :
    PairClear i (x.pairsCleared first count) := by
  simp [PairClear, Position.pairsCleared, hi]

theorem pairsCleared_out (x : Position) (hi : i.val < first ∨ first + count ≤ i.val) :
    (x.pairsCleared first count).prot[i] = x.prot[i] := by
  simp only [Position.pairsCleared, Fin.getElem_fin, Vector.getElem_ofFn]
  exact if_neg (by omega)

theorem protRewritten_clear (hi : first ≤ i.val ∧ i.val < first + count) :
    PairClear i ((protRewritten T first count p e).at p) := by
  rw [protRewritten_eq]
  refine PairClear.judgeCauses ?_ _ _
  rw [Engine.at_put_self]
  exact pairsCleared_in _ hi

theorem pairsCleared_kept (x : Position) : Kept x (x.pairsCleared first count) := by
  unfold Position.pairsCleared
  exact ⟨rfl, rfl, rfl, rfl, rfl, rfl, rfl, rfl, Or.inl rfl⟩

theorem protRewritten_touches : Touches T p e (protRewritten T first count p e) := by
  have judged := judgeCauses_touches T p .none (protectRemoved T (e.at p) ((e.at p).pairsCleared first count))
    (e.put p ((e.at p).pairsCleared first count))
  rw [protRewritten_eq]
  exact (touches_put T (pairsCleared_kept _)).trans judged

/-- The rewritten pairs of every position are clear once the event has closed. -/
theorem writeAccepted_pairs {b : Block} {list : List Entry} (hi : first ≤ i.val ∧ i.val < first + count) (p : Pos) :
    ((writeAccepted b 8 first count list).works.eng.at p).prot[i] = ⟨.stopped, false⟩ := by
  rw [writeAccepted_t8]
  refine (pairClear_stable p i).close none false b.works _ ?_
  obtain ⟨e', -, after⟩ := eachPos_turn (p := p) (R := fun a c : Engine => PairClear i (a.at p) → PairClear i (c.at p))
    (f := protRewritten b.works.tab first count) (fun _ => id) (fun h₁ h₂ h => h₂ (h₁ h))
    (fun q e hq h => by
      rcases (protRewritten_touches (T := b.works.tab) (first := first) (count := count)).others p (Ne.symm hq) with hx | hx <;> rw [hx]
      · exact h
      · exact h.same rfl) b.works.eng
  exact after (protRewritten_clear hi)

/-! ## PROTECT withdrawn from a HELD position (R152) -/

theorem activeWith_of_prot {x y : Position} (h : y.prot = x.prot) (a : Action) (i : Fin 16) :
    y.activeWith T a i = x.activeWith T a i := by
  rw [Position.activeWith, Position.activeWith, h]

theorem unload_of_prot {x y : Position} (h : y.prot = x.prot) : y.unload T = x.unload T := by
  unfold Position.unload
  exact congrArg _ (funext fun i => activeWith_of_prot h .unload i)

/-- Where every entry that unloads is rewritten, the unload result becomes clear. -/
theorem pairsCleared_unload {x : Position} (h : ∀ i : Fin 16, i.val < first ∨ first + count ≤ i.val →
    x.activeWith T .unload i = false) : (x.pairsCleared first count).unload T = false := by
  refine List.any_eq_false.2 fun i _ => ?_
  rw [Bool.not_eq_true]
  by_cases hi : first ≤ i.val ∧ i.val < first + count
  · exact not_activeWith _ (congrArg Pair.active (pairsCleared_in x hi))
  · have out : i.val < first ∨ first + count ≤ i.val := by omega
    have active := h i out
    rwa [Position.activeWith, ← pairsCleared_out x out] at active

theorem causes_unprotected (c : Causes) : (c.minus .protectOnly).union .none = { c with protect := false } := by
  simp [Causes.minus, Causes.union, Causes.protectOnly, Causes.none]

theorem protRewritten_held (hs : (e.at p).st = .held) (hu : (e.at p).unload T = true)
    (ho : ∀ i : Fin 16, i.val < first ∨ first + count ≤ i.val → (e.at p).activeWith T .unload i = false)
    (hc : ({ (e.at p).causes with protect := false } : Causes).isEmpty = false) :
    ((protRewritten T first count p e).at p).st = .held ∧
      ((protRewritten T first count p e).at p).causes = { (e.at p).causes with protect := false } := by
  have removed : protectRemoved T (e.at p) ((e.at p).pairsCleared first count) = .protectOnly := by
    simp [protectRemoved, hu, pairsCleared_unload ho]
  have causes : ((((e.put p ((e.at p).pairsCleared first count)).at p).causes.minus .protectOnly).union .none) =
      { (e.at p).causes with protect := false } := by
    rw [Engine.at_put_self]
    exact causes_unprotected _
  obtain ⟨t, ht⟩ := judgeCauses_held (T := T) (p := p) (e := e.put p ((e.at p).pairsCleared first count)) (add := .none)
    (remove := .protectOnly) (by rw [Engine.at_put_self]; exact hs) (by rw [causes]; exact hc)
  rw [protRewritten_eq, removed, ht, Engine.at_put_self, causes, Engine.at_put_self]
  exact ⟨hs, rfl⟩

/-- A position in the same state, with the same held causes and pairs. -/
structure SameHolding (p : Pos) (a b : Engine) : Prop where
  st : (b.at p).st = (a.at p).st
  causes : (b.at p).causes = (a.at p).causes
  prot : (b.at p).prot = (a.at p).prot

theorem Touches.sameHolding (h : Touches T q a b) (hq : p ≠ q) : SameHolding p a b := by
  rcases h.others p hq with hb | hb
  · exact ⟨by rw [hb], by rw [hb], by rw [hb]⟩
  · exact ⟨by rw [hb], by rw [hb], by rw [hb]⟩

/-- A HELD position whose unloading entries are all rewritten, other causes left. -/
theorem writeAccepted_held {b : Block} {list : List Entry} (hs : (b.works.eng.at p).st = .held)
    (hu : (b.works.eng.at p).unload b.works.tab = true)
    (ho : ∀ i : Fin 16, i.val < first ∨ first + count ≤ i.val → (b.works.eng.at p).activeWith b.works.tab .unload i = false)
    (hc : ({ (b.works.eng.at p).causes with protect := false } : Causes).isEmpty = false) :
    ((writeAccepted b 8 first count list).works.eng.at p).st = .held ∧
      ((writeAccepted b 8 first count list).works.eng.at p).causes = { (b.works.eng.at p).causes with protect := false } := by
  rw [writeAccepted_t8]
  obtain ⟨e', before, after⟩ := eachPos_turn (p := p) (R := SameHolding p) (f := protRewritten b.works.tab first count)
    (fun _ => ⟨rfl, rfl, rfl⟩)
    (fun h₁ h₂ => ⟨h₂.st.trans h₁.st, h₂.causes.trans h₁.causes, h₂.prot.trans h₁.prot⟩)
    (fun q e hq => (protRewritten_touches (T := b.works.tab) (first := first) (count := count)).sameHolding (Ne.symm hq)) b.works.eng
  obtain ⟨st, causes⟩ := protRewritten_held (T := b.works.tab) (first := first) (count := count) (before.st.trans hs)
    ((unload_of_prot before.prot).trans hu) (fun i hi => (activeWith_of_prot before.prot _ i).trans (ho i hi))
    (by rw [before.causes]; exact hc)
  have still := written_still (w := b.works) (start := b.works) (new := b.works.tab.storeAll first list) (p := p)
    (e := b.works.eng.eachPos (protRewritten b.works.tab first count))
    fun z => calm_of_fixed (by rw [after.st, st]; rfl)
  exact ⟨still.st.trans (after.st.trans st), still.causes.trans (after.causes.trans (causes.trans (by rw [before.causes])))⟩

end Sys2Proof.Machine
end

section
/-! SUPPORT. The statement on accepted writes (R175). -/

namespace Sys2Proof.Machine

variable {b : Block} {r : MgmtReq} {list : List Entry} {p : Pos}

/-- The effect of a request's WRITE. -/
def Block.written (b : Block) (r : MgmtReq) (list : List Entry) : Block :=
  writeAccepted b r.table.toNat r.first.toNat r.count.toNat list

theorem written_of_table {n : Nat} (h : r.table.toNat = n) :
    b.written r list = writeAccepted b n r.first.toNat r.count.toNat list := by
  rw [Block.written, h]

theorem exec_write_accepted {s : State} (h : Ran 1 r s) (hw : checkWrite s.block r = .ok list) :
    exec (.write r) s = .next { s with block := { s.block.written r list with
      relay := s.relay.answered 1 r ⟨r.table, .ok, none, []⟩ } } := by
  refine exec_replied (run := runWrite r) rfl h ?_ (writeAccepted_relay ..)
  rw [runWrite, hw]
  rfl

/-- The index of an entry of an accepted burst lies in the burst. -/
theorem AcceptedWrite.index {k : Nat} {x : Entry} (h : AcceptedWrite b r list) (hk : list[k]? = some x) :
    r.first.toNat ≤ r.first.toNat + k ∧ r.first.toNat + k < r.first.toNat + r.count.toNat := by
  obtain ⟨hlt, -⟩ := List.getElem?_eq_some_iff.1 hk
  have := h.length
  omega

theorem AcceptedWrite.named {k : Nat} {x : Entry} (h : AcceptedWrite b r list) (hk : list[k]? = some x)
    (hp : Pos.ofNat? (r.first.toNat + k) = some p) : p ∈ namedIn r.first.toNat r.count.toNat :=
  mem_namedIn.2 ⟨_, h.index hk, hp⟩

/-- A profile is written only where the positions that use it are at rest (R174). -/
theorem AcceptedWrite.usersRest {k : Nat} {x : Entry} (h : AcceptedWrite b r list) (h3 : r.table.toNat = 3)
    (hk : list[k]? = some x) (hu : b.works.tab.uses p (r.first.toNat + k) = true) :
    (b.works.eng.at p).st.atRest = true := by
  obtain ⟨lo, hi⟩ := h.index hk
  have lock := h.locks _ lo hi
  rw [h3] at lock
  have rest := List.all_eq_true.1 lock p (Pos.mem_all p)
  rw [hu] at rest
  exact rest

/-- Settles O50. -/
theorem acceptedWritesStoreTheEntries : Obligations.AcceptedWritesStoreTheEntries := by
  intro s r list hran hw
  have h := checkWrite_ok hw
  obtain ⟨hours, saving, image, isolation, meters⟩ :=
    writeAccepted_outside s.block r.table.toNat r.first.toNat r.count.toNat list
  refine ⟨_, exec_write_accepted hran hw, rfl, hours, saving, image, fun hc => writeAccepted_tab h hc, fun h4 => ?_,
    fun h679 => ?_, fun h1 => ?_, fun k y p h2 hk hp => ?_, fun h2 => ?_, fun k x y p h3 hk hy hi => ?_, fun i p h8 lo hi => ?_,
    fun p h8 hst hu ho hc => ?_, fun k v p h10 hk hp => ?_, fun h10 p => ?_⟩
  · have hb := written_of_table (b := s.block) (list := list) (congrArg BitVec.toNat h4)
    exact congrArg (fun b : Block => { b with relay := s.relay.answered 1 r ⟨r.table, .ok, none, []⟩ }) hb
  · have hb : s.block.written r list =
        { s.block with works := { s.block.works with tab := s.tab.storeAll r.first.toNat list } } := by
      rcases h679 with h | h | h <;> exact written_of_table (congrArg BitVec.toNat h)
    exact congrArg (fun b : Block => { b with relay := s.relay.answered 1 r ⟨r.table, .ok, none, []⟩ }) hb
  · have capped := writeAccepted_demand s.block r.first.toNat r.count.toNat list
    rw [← written_of_table (show r.table.toNat = 1 from congrArg BitVec.toNat h1)] at capped
    exact capped
  · have h2' : r.table.toNat = 2 := congrArg BitVec.toNat h2
    have named := h.named hk hp
    have stored := storeAll_t2_at (T := s.block.works.tab) hk hp
    have at_ := writeAccepted_position (b := s.block) named stored
    have cell := writeAccepted_cell (b := s.block) named stored
    rw [← written_of_table h2'] at at_ cell
    exact ⟨at_.arrives, at_.absent, at_.off, at_.leaves, at_.isolated, cell⟩
  · exact isolation fun hn => h2 (BitVec.eq_of_toNat_eq hn)
  · have h3' : r.table.toNat = 3 := congrArg BitVec.toNat h3
    have uses : s.block.works.tab.uses p (r.first.toNat + k) = true := by
      simp [Tables.uses, hy, hi]
    have kept : (s.block.works.tab.storeAll r.first.toNat list).t2 = s.block.works.tab.t2 :=
      storeAll_t2 (fun x hx => by rw [h.table x hx, h3']; decide) _ _
    have fact := writeAccepted_profile (b := s.block) (list := list)
      ⟨_, mem_burst.2 (h.index hk), by rw [Tables.uses, kept]; exact uses⟩ (h.usersRest h3' hk uses)
    rw [← written_of_table h3'] at fact
    exact fact
  · have fact := writeAccepted_pairs (b := s.block) (list := list) ⟨lo, hi⟩ p
    rw [← written_of_table (show r.table.toNat = 8 from congrArg BitVec.toNat h8)] at fact
    exact fact
  · have fact := writeAccepted_held (b := s.block) (list := list) hst hu ho hc
    rw [← written_of_table (show r.table.toNat = 8 from congrArg BitVec.toNat h8)] at fact
    exact fact
  · have fact := writeT10_at (b := s.block) hk hp
    rw [show writeT10 s.block r.first.toNat list = writeAccepted s.block 10 r.first.toNat r.count.toNat list from rfl,
      ← written_of_table (show r.table.toNat = 10 from congrArg BitVec.toNat h10)] at fact
    exact fact
  · have h10' : r.table.toNat ≠ 10 := fun hn => h10 (BitVec.eq_of_toNat_eq hn)
    exact ⟨writeAccepted_meter h10' .., congrArg (·.get p) (meters h10')⟩

end Sys2Proof.Machine
end
